-- ==== Sys2Proof/Word.lean ====
section
/-! DEFINITION. The word types of the Kyoser Z1 and their plainest arithmetic (03 R55, R68; 00 R6). -/

namespace Sys2Proof

/-- A g register, a system register or an address while it is computed (03 R68). -/
abbrev Word := BitVec 64
/-- One 32-bit lane of a v register (04 R88). -/
abbrev Lane := BitVec 32
/-- A halfword of a line (03 R55) or a 16-bit lane mask (03 R68). -/
abbrev Half := BitVec 16
/-- A byte of memory. -/
abbrev Byte := BitVec 8
/-- A v register: 16 lanes of 32 bits (03 R68). -/
abbrev VWord := Vector Lane 16
/-- Floating-point flags in `fpctl` bits 4:0 order: NV DZ OF UF NX (04 R89). -/
abbrev Flags := BitVec 5

/-- Sign extension of any width to 64 bits. -/
abbrev sx {n : Nat} (x : BitVec n) : Word := x.signExtend 64
/-- Zero extension (or truncation) of any width to 64 bits. -/
abbrev zx {n : Nat} (x : BitVec n) : Word := x.setWidth 64

/-- The field of `len` bits of `x` that starts at bit `lo`, as a number. -/
def fieldNat {n : Nat} (x : BitVec n) (lo len : Nat) : Nat := (x.toNat >>> lo) % 2 ^ len

/-- Bit `i` of `x`. -/
abbrev bitAt {n : Nat} (x : BitVec n) (i : Nat) : Bool := x.getLsbD i

/-- `x` with the field of `len` bits at bit `lo` replaced by the low bits of `v`. -/
def setField {n : Nat} (x : BitVec n) (lo len v : Nat) : BitVec n :=
  let m : BitVec n := BitVec.ofNat n ((2 ^ len - 1) <<< lo)
  (x &&& ~~~m) ||| (BitVec.ofNat n ((v % 2 ^ len) <<< lo))

/-- One bit as a number. -/
abbrev b2n (b : Bool) : Nat := if b then 1 else 0
/-- One bit as a word. -/
abbrev b2w (b : Bool) : Word := if b then 1 else 0

/-- ⌈a ÷ b⌉. -/
abbrev ceilDiv (a b : Nat) : Nat := (a + b - 1) / b

end Sys2Proof
end

