-- ==== Sys2Proof/Syntax.lean ====
section
/-! DEFINITION. The abstract instructions: one constructor of `Instr` per row of spec/opcode_table.json. The table lists
the micro-thread instructions (03 R71 to R77), the twelve `kz` instructions (03 R84), the RV64 base as one row (08 R273)
and the hardware's own transitions (a delivery, a landing, a register's action, a step of boot): the last have no
encoding and carry the identifiers of what they act on. -/

namespace Sys2Proof

/-! ### Register operands (03 R68, R69) -/

/-- Class s: a scalar source. -/
inductive SReg where
  | g (n : Fin 32) | li | sid | cid | turn
  deriving DecidableEq, Repr

/-- Class w: a scalar destination. -/
inductive WReg where
  | g (n : Fin 32) | lo
  deriving DecidableEq, Repr

/-- Class v. -/
abbrev VReg := Fin 16
/-- Class p. -/
abbrev PReg := Fin 8
/-- Class st: v12 to v15, by their distance from v12. -/
abbrev StReg := Fin 4

/-- A scalar source that comes through a TR field, with its empty-action bit (02 R29). -/
structure SSrc where
  reg : SReg
  trap : Bool
  deriving DecidableEq, Repr

/-- A v source that comes through a TR field, with its empty-action bit. -/
structure VSrc where
  reg : VReg
  trap : Bool
  deriving DecidableEq, Repr

/-- A p source that comes through a TR field (`mov`), with its empty-action bit. -/
structure PSrc where
  reg : PReg
  trap : Bool
  deriving DecidableEq, Repr

/-- An immediate of one or two TK halfwords (03 R61). -/
inductive Imm where
  | k16 (v : BitVec 16) | k32 (v : BitVec 32)
  deriving DecidableEq, Repr

/-- The immediate of `movk`: one, two or three TK halfwords. -/
inductive MImm where
  | k16 (v : BitVec 16) | k32 (v : BitVec 32) | k48 (v : BitVec 48)
  deriving DecidableEq, Repr

/-- A grain site: the TS halfword, when X = 1 (03 R61, R73). -/
abbrev Site := Option Half

/-- Scopes 1 to 5, the ones an ordering operation may carry (00 R3). -/
inductive Scope where
  | core | quad | die | pkg | pod
  deriving DecidableEq, Repr

/-- The ordering sub-field of an atomic with its scope (03 R76). -/
inductive Ord where
  | relaxed | acq (s : Scope) | rel (s : Scope) | ar (s : Scope)
  deriving DecidableEq, Repr

/-! ### Operation selectors (M and K sub-fields, 03 R71 to R77) -/

inductive MulhOp where
  | ss | zz | sz
  deriving DecidableEq, Repr
inductive LogOp where
  | and | or | xor | andn
  deriving DecidableEq, Repr
inductive MnxOp where
  | mins | minz | maxs | maxz
  deriving DecidableEq, Repr
inductive BcntOp where
  | clz | ctz | popc
  deriving DecidableEq, Repr
inductive CmpOp where
  | eq | ne | lt | ge
  deriving DecidableEq, Repr
inductive CmpzOp where
  | ltu | geu | leu | gtu
  deriving DecidableEq, Repr
/-- The count of `shl` and `shr`: a register (R) or six bits (RK). -/
inductive ShAmt where
  | reg (b : SSrc) | imm (n : BitVec 6)
  deriving DecidableEq, Repr
/-- The count of `vshl` and `vshr`. -/
inductive VShAmt where
  | reg (b : VSrc) | imm (n : BitVec 5)
  deriving DecidableEq, Repr
/-- The register pairs that `mov` copies between (05 R128). -/
inductive MovForm where
  | ss (d : WReg) (a : SSrc) | vv (d : VReg) (a : VSrc) | pp (d : PReg) (a : PSrc)
  | ps (d : PReg) (a : SSrc) | sp (d : WReg) (a : PSrc)
  deriving DecidableEq, Repr
/-- The condition codes of `bc` (03 R72). -/
inductive Cond where
  | eq | ne | lt | ge | ltu | geu
  deriving DecidableEq, Repr
/-- `pfi label` or `pfi A, imm` (05 R140). -/
inductive PfiForm where
  | line (k : BitVec 16) | addr (a : SSrc) (k : BitVec 16)
  deriving DecidableEq, Repr
inductive XselOp where
  | bt | bh | lm | lt
  deriving DecidableEq, Repr
inductive Cap where
  | c1 | c2 | c4 | c8
  deriving DecidableEq, Repr
/-- Access sizes of M (03 R74): 1, 2, 4 or 8 bytes; also the scales of an index. -/
inductive Size where
  | b | h | w | d
  deriving DecidableEq, Repr
/-- The destination of `lld`: one element or one strip (06 R171). -/
inductive LDst where
  | s (d : WReg) | v (d : VReg)
  deriving DecidableEq, Repr
/-- The data of `lst` (06 R171). -/
inductive LSrc where
  | s (d : SReg) | v (d : VReg)
  deriving DecidableEq, Repr
/-- `sbind` (06 R183). -/
inductive BindForm where
  | rd (a b : SSrc) | wr (a b : SSrc) | un
  deriving DecidableEq, Repr
inductive PfdLevel where
  | l1 | l2 | mlc
  deriving DecidableEq, Repr
/-- Register types of a vector operation (04 R88). -/
inductive VTy where
  | f32 | i32 | bf16x2 | f16x2
  deriving DecidableEq, Repr
inductive VCmpOp where
  | eq | ne | lt | le | gt | ge | ordered | unordered
  deriving DecidableEq, Repr
inductive RedOp where
  | sum | max | min | amax
  deriving DecidableEq, Repr
/-- The operations of `vfd` (06 R198). -/
inductive VfdOp where
  | add | sub | mul | fma | min | max | cvtds | cvtsd
  deriving DecidableEq, Repr
inductive AmoOp where
  | add | and | or | xor | mins | maxs | minz | maxz | swap
  deriving DecidableEq, Repr
inductive AmofOp where
  | add | min | max
  deriving DecidableEq, Repr
inductive FenceKind where
  | acq | rel | ar
  deriving DecidableEq, Repr
inductive WaitCond where
  | eq | ne | gem | ltm
  deriving DecidableEq, Repr

/-! ### Engine commands (03 R77 to R80) -/

/-- The completion halfword (03 R79). -/
inductive Compl where
  | none | st (tgt val : Fin 32) | inc (tgt val : Fin 32)
  deriving DecidableEq, Repr
/-- What every engine command carries: D, the first register of its group with EA, and the flag and completion halfwords. -/
structure Eng where
  d : WReg
  a : Fin 32
  trap : Bool
  acq : Bool
  rel : Bool
  scope : BitVec 3
  compl : Compl
  deriving DecidableEq, Repr
inductive DKind where
  | loc | ring | glob | canopy
  deriving DecidableEq, Repr
inductive IdxW where
  | i32 | i64 | u32
  deriving DecidableEq, Repr
inductive ScatOp where
  | st | addf | addi
  deriving DecidableEq, Repr

/-! ### Identifiers -/

/-- A core: the quad (die × 120 + virtual quad) and the core index. -/
structure Cid where
  quad : Nat
  core : Fin 4
  deriving DecidableEq, Repr
/-- A micro-thread: units 0 to 15 are slots of the core; 16 and 17 are the quad's matrix and send sequencers (core 0). -/
structure Tid where
  quad : Nat
  core : Fin 4
  unit : Fin 18
  deriving DecidableEq, Repr
/-- A hart: a core's control thread or one of the four management cores. -/
inductive Hid where
  | ctl (c : Cid) | mgmt (n : Fin 4)
  deriving DecidableEq, Repr
/-- A register page (20 R459), or the host's BAR0 (20 R453). -/
inductive Page where
  | mgmt | die (d : Nat) | root (r : Nat) | quad (q : Nat) | host
  deriving DecidableEq, Repr
/-- The alarm's triggers (17 R403). -/
inductive Trigger where
  | integ | bitmap | link | keyst | glitch | debug
  deriving DecidableEq, Repr
/-- A detected or corrected error, by what it struck (18 R411 to R415, R419, R421). -/
inductive ErrorKind where
  | hbmLine (line : Nat) (correctable : Bool)
  | sramLine (die : Nat) (line : Nat) (correctable : Bool)
  | mlcLine (line : Nat) (correctable : Bool)
  | localWord (quad addr : Nat) (correctable : Bool)
  | canopyWord (quad off : Nat) (correctable : Bool)
  | l1Block (c : Cid) (va : Nat)
  | icacheLine (c : Cid) (va : Nat)
  | register (t : Tid) (correctable : Bool)
  | registerSaved (t : Tid) (code : BitVec 6)
  | residue (t : Tid)
  | accumulator (c : Cid) (row : Nat)
  | controlQuad (q : Nat)
  | controlShared (die : Nat)
  | quadFails (q : Nat)
  | sliceFails (die slice : Nat)
  | hbmRow (stack row : Nat)
  | engineCut (cmd : Nat) (done : Nat)
  | bankFails (root bank : Nat)
  /-- What the stack holds of a line, or of a bitmap line by its tag, is no longer what was written there (17 R402). -/
  | stackAltered (line : Nat) (data : List (BitVec 8)) (mac tail : BitVec 64)
  deriving DecidableEq, Repr

/-! ### The RV64 base of control threads and management cores (08 R273): RV64IMAC, Zicsr, Zifencei, Zba, Zbb -/

/-- An integer register of a hart. -/
abbrev XReg := Fin 32

inductive BrOp where
  | beq | bne | blt | bge | bltu | bgeu
  deriving DecidableEq, Repr
inductive LdOp where
  | lb | lh | lw | ld | lbu | lhu | lwu
  deriving DecidableEq, Repr
inductive IOp where
  | addi | slti | sltiu | xori | ori | andi | slli | srli | srai | addiw | slliw | srliw | sraiw
  | slliuw | rori | roriw
  deriving DecidableEq, Repr
inductive ROp where
  | add | sub | sll | slt | sltu | xor | srl | sra | or | and
  | addw | subw | sllw | srlw | sraw
  | mul | mulh | mulhsu | mulhu | div | divu | rem | remu
  | mulw | divw | divuw | remw | remuw
  | sh1add | sh2add | sh3add | adduw | sh1adduw | sh2adduw | sh3adduw
  | andn | orn | xnor | max | maxu | min | minu | rol | ror | rolw | rorw
  deriving DecidableEq, Repr
inductive UOp where
  | clz | ctz | cpop | clzw | ctzw | cpopw | sextb | sexth | zexth | orcb | rev8
  deriving DecidableEq, Repr
inductive AOp where
  | lr | sc | swap | add | xor | and | or | min | max | minu | maxu
  deriving DecidableEq, Repr
inductive CsrOp where
  | rw | rs | rc
  deriving DecidableEq, Repr

/-- One instruction of the RV64 base. `illegal` stands for every encoding the base does not have. -/
inductive RvInstr where
  | lui (rd : XReg) (imm : BitVec 20)
  | auipc (rd : XReg) (imm : BitVec 20)
  | jal (rd : XReg) (imm : BitVec 20)
  | jalr (rd rs1 : XReg) (imm : BitVec 12)
  | branch (op : BrOp) (rs1 rs2 : XReg) (imm : BitVec 12)
  | load (op : LdOp) (rd rs1 : XReg) (imm : BitVec 12)
  | store (sz : Size) (rs1 rs2 : XReg) (imm : BitVec 12)
  | opImm (op : IOp) (rd rs1 : XReg) (imm : BitVec 12)
  | op (op : ROp) (rd rs1 rs2 : XReg)
  | unary (op : UOp) (rd rs1 : XReg)
  | amo (op : AOp) (dbl aq rl : Bool) (rd rs1 rs2 : XReg)
  | fence (fm pred succ : BitVec 4) (rd rs1 : XReg)
  | fenceI (rd rs1 : XReg) (imm : BitVec 12)
  | ecall
  | ebreak
  | mret
  | sret
  | wfi
  | sfenceVma (rs1 rs2 : XReg)
  | csr (op : CsrOp) (rd rs1 : XReg) (csr : BitVec 12)
  | csri (op : CsrOp) (rd : XReg) (zimm : BitVec 5) (csr : BitVec 12)
  | illegal (word : BitVec 32)
  deriving DecidableEq, Repr

/-- A packet as a link carries it (17 R397): its header, its sealed body and its tag. -/
structure Sealed where
  header : List (BitVec 8)
  body : List (BitVec 8)
  tag : BitVec 128
  deriving DecidableEq, Repr

/-! ### The rows -/

/-- One constructor per row of spec/opcode_table.json, in the table's order. -/
inductive Instr where
  -- integer and address (05 R123 to R130)
  | add (d : WReg) (a b : SSrc)
  | sub (d : WReg) (a b : SSrc)
  | addk (d : WReg) (a : SSrc) (k : Imm)
  | mul (d : WReg) (a b : SSrc)
  | mulh (op : MulhOp) (d : WReg) (a b : SSrc)
  | div (signed : Bool) (d : WReg) (a b : SSrc)
  | rem (signed : Bool) (d : WReg) (a b : SSrc)
  | and (d : WReg) (a b : SSrc)
  | or (d : WReg) (a b : SSrc)
  | xor (d : WReg) (a b : SSrc)
  | logk (op : LogOp) (d : WReg) (a : SSrc) (k : Imm)
  | shl (d : WReg) (a : SSrc) (n : ShAmt)
  | shr (arith : Bool) (d : WReg) (a : SSrc) (n : ShAmt)
  | mnx (op : MnxOp) (d : WReg) (a b : SSrc)
  | bcnt (op : BcntOp) (d : WReg) (a : SSrc)
  | movk (d : WReg) (k : MImm)
  | mov (f : MovForm)
  | sel (d : WReg) (a b : SSrc) (p : PReg)
  | cmp (op : CmpOp) (d : WReg) (a b : SSrc)
  | cmpz (op : CmpzOp) (d : WReg) (a b : SSrc)
  | lea (d : WReg) (a b : SSrc) (sh : BitVec 2) (k : Imm)
  | ext (zero : Bool) (d : WReg) (a : SSrc) (w1 : BitVec 6)
  | bfx (sign : Bool) (d : WReg) (a : SSrc) (lsb w1 : BitVec 6)
  | bfi (d : WReg) (a : SSrc) (lsb w1 : BitVec 6)
  -- control and grain (05 R131 to R157)
  | br (disp : Imm)
  | bc (cc : Cond) (a b : SSrc) (disp : BitVec 16) (site : Site)
  | loop (d : Fin 32) (disp : BitVec 16) (site : Site)
  | fetch
  | fetchLines (k : BitVec 16)
  | call (d : WReg) (disp : Imm)
  | jmp (a : SSrc)
  | stop
  | pfi (f : PfiForm)
  | xrd (d : WReg) (site : Half)
  | xbr (thr : BitVec 6) (disp : BitVec 16) (site : Half)
  | xsel (op : XselOp) (d : WReg) (a b : SSrc) (site : Half)
  | xpf (a b : SSrc) (site : Half)
  | xunr (d : WReg) (cap : Cap) (site : Half)
  | nop
  | yield
  -- memory and streams (06 R161 to R187)
  | ld (sz : Size) (d : WReg) (a : SSrc) (k : BitVec 16) (site : Site)
  | ldz (sz : Size) (d : WReg) (a : SSrc) (k : BitVec 16) (site : Site)
  | ldAcq (sz : Size) (d : WReg) (a : SSrc) (k : BitVec 16) (sc : Scope)
  | st (sz : Size) (d : SReg) (a : SSrc) (k : BitVec 16)
  | stRel (sz : Size) (d : SReg) (a : SSrc) (k : BitVec 16) (sc : Scope)
  | lld (d : LDst) (a : SSrc) (k : BitVec 16)
  | lst (d : LSrc) (a : SSrc) (k : BitVec 16)
  | vld (d : VReg) (a : SSrc) (k : BitVec 16) (site : Site)
  | vst (d : VReg) (a : SSrc) (k : BitVec 16)
  | vldx (d : VReg) (a : SSrc) (b : VSrc) (scale : Size)
  | vstx (d : VReg) (a : SSrc) (b : VSrc) (scale : Size)
  | vldg (d : VReg) (a : SSrc) (b : VSrc) (scale : Size) (site : Site)
  | vstg (d : VReg) (a : SSrc) (b : VSrc) (scale : Size)
  | sbind (d : StReg) (f : BindForm)
  | sloop (d : StReg) (disp : BitVec 16) (site : Site)
  | pfd (lvl : PfdLevel) (a : SSrc) (k : BitVec 16)
  -- the vector unit (06 R188 to R199)
  | vadd (ty : VTy) (d : VReg) (a b : VSrc)
  | vsub (ty : VTy) (d : VReg) (a b : VSrc)
  | vmul (ty : VTy) (d : VReg) (a b : VSrc)
  | vfma (ty : VTy) (d : VReg) (a b : VSrc)
  | vmin (ty : VTy) (d : VReg) (a b : VSrc)
  | vmax (ty : VTy) (d : VReg) (a b : VSrc)
  | vabs (ty : VTy) (d : VReg) (a : VSrc)
  | vneg (ty : VTy) (d : VReg) (a : VSrc)
  | vand (d : VReg) (a b : VSrc)
  | vor (d : VReg) (a b : VSrc)
  | vxor (d : VReg) (a b : VSrc)
  | vshl (d : VReg) (a : VSrc) (n : VShAmt)
  | vshr (arith : Bool) (d : VReg) (a : VSrc) (n : VShAmt)
  | vrcp (d : VReg) (a : VSrc)
  | vrsq (d : VReg) (a : VSrc)
  | vex2 (d : VReg) (a : VSrc)
  | vlg2 (d : VReg) (a : VSrc)
  | vcvt (dst src : VTy) (d : VReg) (a : VSrc) (b : Option VSrc)
  | vcmp (op : VCmpOp) (ty : VTy) (d : PReg) (a b : VSrc)
  | vsel (d : VReg) (a b : VSrc) (p : PReg)
  | vred (op : RedOp) (ty : VTy) (d : WReg) (a : VSrc)
  | vbc (d : VReg) (a : SSrc)
  | vget (d : WReg) (a : VSrc) (lane : BitVec 4)
  | vput (d : VReg) (a : SSrc) (lane : BitVec 4)
  | vperm (d : VReg) (a b : VSrc)
  | vdot (f16 : Bool) (d : VReg) (a b : VSrc)
  | vscl (ty : VTy) (d : VReg) (a : VSrc) (b : SSrc)
  | viota (d : VReg)
  | viotaStart (d : VReg) (k : BitVec 16)
  | vfd (op : VfdOp) (d : VReg) (a : VSrc) (b : Option VSrc)
  -- atomics, waiting, rings, barriers and system (07 R202 to R229)
  | amo (op : AmoOp) (dbl : Bool) (ord : Ord) (d : WReg) (a b : SSrc)
  | cas (dbl : Bool) (ord : Ord) (d : WReg) (a b : SSrc)
  | amof (op : AmofOp) (dbl : Bool) (ord : Ord) (d : WReg) (a b : SSrc)
  | fence (kind : FenceKind) (sc : Scope)
  | wait (cc : WaitCond) (ctr : Bool) (d : WReg) (a b : SSrc)
  | mbinc (a b : SSrc)
  | mbrd (d : WReg) (a : SSrc)
  | rgwait (d : WReg) (ring : Fin 32)
  | rgrel (ring : Fin 32) (b : SSrc)
  | barArrive (sc : Scope) (b : Fin 16)
  | barWait (sc : Scope) (b : Fin 16)
  | lck (d : WReg) (a : SSrc)
  | ulck (a : SSrc)
  | ifence
  | trap (code : BitVec 16)
  | rdsr (d : WReg) (sr : BitVec 12)
  | wrsr (sr : BitVec 12) (a : SSrc)
  -- engines and the deque (08 R241 to R264)
  | send (e : Eng) (last : Bool) (dk : DKind) (srcGlobal : Bool)
  | csend (e : Eng)
  | gath (e : Eng) (iw : IdxW)
  | scat (e : Eng) (op : ScatOp) (iw : IdxW)
  | mzero (e : Eng)
  | mbld (e : Eng)
  | mma (e : Eng) (bfmt : BitVec 4) (zero : Bool)
  | mmas (e : Eng) (bfmt : BitVec 4) (zero : Bool)
  | mcmpr (e : Eng) (bfmt : BitVec 4)
  | mst (e : Eng) (clr : Bool)
  | dpush (d : WReg) (a : SSrc)
  | dpop (d : Fin 32)
  | dsplit (d : WReg)
  | dlen (d : WReg)
  -- the control-thread extension (08 R266 to R271)
  | kzBcast (rs1 rs2 : XReg)
  | kzWait (rs1 : XReg)
  | kzFork (rs1 : XReg)
  | kzJoin
  | kzLease
  | kzUnlease
  | kzFault (rd rs1 rs2 : XReg)
  | kzResume (rs1 rs2 : XReg)
  | kzKill (rs1 : XReg)
  | kzRdsl (rd rs1 : XReg)
  | kzWrsl (rs1 rs2 : XReg)
  | kzTask (rd rs1 : XReg)
  -- transitions of the core, its slots and engines (02, 06, 07, 08)
  | broadcastDelivery (c : Cid) (line : Word) (mask : BitVec 16)
  | forkDelivery (c : Cid) (table : Word)
  | lineEntersBuffer (t : Tid)
  | resultArrives (t : Tid) (reg : BitVec 6)
  | deferredFault (t : Tid)
  | fpPark (t : Tid)
  | storePerformed (id : Nat)
  | grainUpdateApplied (id : Nat)
  | laneGroupWork (q : Nat)
  | incrementLands (id : Nat)
  | waitCompletes (t : Tid)
  | rgwaitClaim (q : Nat) (ring : Fin 32)
  | barrierPhaseCompletes (id : Nat)
  | fenceCompletes (t : Tid)
  | ringAdmit (id : Nat)
  | commandCompletion (id : Nat)
  | leaseGrant (q : Nat)
  | leaseExpiry (q : Nat)
  | slotPreempt (t : Tid)
  | breakpointStop (t : Tid)
  | supervisorMessage (id : Nat)
  -- launch and dispatch (15)
  | lqpost (queue : Nat) (addr : Word)
  | launchStart (queue : Nat)
  | exitCall
  | launchComplete (lid : Nat)
  | stallTimer (h : Hid)
  | cxipiWrite (q : Nat) (v : Word)
  | kztcmpWrite (h : Hid) (v : Word)
  | quadHot (q : Nat) (celsius : Nat)
  | energyWindow (q : Nat) (estimate : Nat)
  | operatingPointChange (q : Nat)
  -- address space and contexts (16)
  | plbflush (mask : BitVec 16)
  | unmapGo
  | unmapDone
  | cxctlSave (q : Nat)
  | saveComplete (q : Nat)
  | cxctlRestore (q : Nat)
  | mkctlReq (q : Nat)
  | markerArrives (q : Nat) (src : Nat) (round : BitVec 32)
  | mkctlResume (q : Nat)
  -- confidentiality (17)
  | kdGenerate
  | kdDestroy
  | kdClearRange
  | kdOperationDone
  | kdfenceClear (mask : Word)
  | alarmTrigger (t : Trigger) (dom : Option (BitVec 6)) (src : Byte) (addr : Word)
  | alcfgWrite (v : Word)
  | linkPacketReceived (link : Nat) (dir : Bool) (packet : Sealed) (lines : List Nat) (write : Bool)
  | linkRekey (link : Nat) (dir : Bool)
  -- faults and repair (18)
  | laneRetire (link lane : Nat)
  | scrubPass (hbm : Bool)
  | errorDetected (e : ErrorKind)
  | mcMergeInterval
  | sramMarginInterval (die : Nat) (corrected : Nat)
  | sramUncorrectable (die : Nat)
  | smctlWrite (die : Nat) (v : Word)
  | l2wgRequest (die : Nat) (v : Word)
  | mlcwgRequest (root : Nat) (v : Word)
  | wayGatingDone (l2 : Bool) (i : Nat)
  | mlccWrite (n : Fin 8) (v : Word)
  -- observation (19)
  | linkCounterDump (die : Nat)
  | acctSnapshot
  -- interfaces, crypto and boot (20, 21)
  | hrtailDoorbell (v : Word)
  | hrheadAdvance (v : Word)
  | mbxRequestPost (len : Half)
  | mbxRequestClear
  | mbxResponsePost (len : Half)
  | mbxResponseClear
  | bpCopy
  | bpCopyDone
  | ceHinit
  | ceHupd
  | ceHfin
  | ceVerify
  | ceSign
  | ceRand
  | ceDevpub
  | ceLinkkey
  | ceEcdh
  | ceOperationDone
  | mrExtend
  | mrlockWrite (v : Word)
  | rstrelWrite (v : Word)
  | mcstartWrite (n : Fin 4) (v : Word)
  | powerOnReset
  | powerOutOfRange
  | spdmGetVersion
  | spdmGetCapabilities
  | spdmNegotiateAlgorithms
  | spdmGetCertificate
  | spdmChallenge
  | spdmGetMeasurements
  | spdmUnsupportedRequest
  | registerWrite (p : Page) (off : Nat) (v : Word)
  | rv64 (i : RvInstr) (compressed : Bool)
  | illegalHead (head : Half)
  | prefetchFillArrives (id : Nat)
  | mrExtendDone
  | linkCounterDumpDone (die : Nat)
  deriving DecidableEq, Repr

end Sys2Proof
end

