-- ==== Sys2Proof/WellFormed.lean ====
section
/-! DEFINITION. Which terms of `Instr` the encoding tables allow (03 R64, R71 to R80; 08 R239): the checks that the types of
Syntax.lean do not make already. -/

namespace Sys2Proof

/-- A field of `width` bits from `lsb` fits 64 bits (05 R130). -/
def wfField (lsb w1 : BitVec 6) : Bool := decide (lsb.toNat + w1.toNat + 1 ≤ 64)

/-- The registers of a command's parameter group (08 R241 to R255). -/
def groupLen : Instr → Nat
  | .send .. => 3
  | .csend .. => 5
  | .gath .. | .scat .. => 7
  | .mzero .. => 2
  | .mbld .. | .mst .. => 5
  | .mma .. => 6
  | .mmas .. => 7
  | .mcmpr .. => 4
  | _ => 0

/-- A of g1 or above with a group inside g31, and the scope rules of the flag halfword (03 R78, R80; 08 R239). -/
def wfEng (e : Eng) (n : Nat) : Bool :=
  decide (1 ≤ e.a.val) && decide (e.a.val + n ≤ 32) && decide (e.scope.toNat ≤ 5) &&
  (!(e.acq || e.rel) || decide (1 ≤ e.scope.toNat))

/-- A matrix format code, 2 to `top` (08 R254, R255). -/
def wfFmt (f : BitVec 4) (top : Nat) : Bool := decide (2 ≤ f.toNat) && decide (f.toNat ≤ top)

/-- Whether `vcvt` reads B (06 R192). -/
def vcvtReadsB (dst src : VTy) : Bool :=
  match dst, src with
  | .bf16x2, .f32 | .bf16x2, .i32 | .f16x2, .f32 | .f16x2, .i32 => true
  | _, _ => false

/-- Whether `vfd` reads B (06 R198). -/
def vfdReadsB : VfdOp → Bool
  | .cvtds | .cvtsd => false
  | _ => true

/-- A quad number of the package: die × 120 + virtual quad (00 R1, R2). -/
def wfQuad (q : Nat) : Bool := decide (q < 960)

def wfTid (t : Tid) : Bool := wfQuad t.quad && (decide (t.unit.val < 16) || decide (t.core = 0))

def wfHid : Hid → Bool
  | .ctl c => wfQuad c.quad
  | .mgmt _ => true

/-- The well-formed terms. -/
def WellFormed : Instr → Bool
  | .bfx _ _ _ l w | .bfi _ _ l w => wfField l w
  | .loop d .. => decide (d.val ≠ 0)
  | .xbr t .. => decide (t.toNat ≤ 16)
  | .vcvt dst src _ _ b => decide (dst ≠ src) && (b.isSome == vcvtReadsB dst src)
  | .vcmp op ty d _ _ => decide (d.val ≠ 0) && !(decide (ty = .i32) && (decide (op = .ordered) || decide (op = .unordered)))
  | .vfd op _ _ b => b.isSome == vfdReadsB op
  | .send e .. => wfEng e 3
  | .csend e => wfEng e 5
  | .gath e _ | .scat e _ _ => wfEng e 7
  | .mzero e => wfEng e 2
  | .mbld e | .mst e _ => wfEng e 5
  | .mma e f _ => wfEng e 6 && wfFmt f 8
  | .mmas e f _ => wfEng e 7 && wfFmt f 8
  | .mcmpr e f => wfEng e 4 && wfFmt f 7
  | .dpop d => decide (1 ≤ d.val) && decide (d.val ≤ 30)
  | .broadcastDelivery c _ _ | .forkDelivery c _ => wfQuad c.quad
  | .lineEntersBuffer t | .resultArrives t _ | .deferredFault t | .fpPark t | .waitCompletes t | .fenceCompletes t
  | .slotPreempt t | .breakpointStop t => wfTid t
  | .laneGroupWork q | .rgwaitClaim q _ | .leaseGrant q | .leaseExpiry q | .cxipiWrite q _ | .quadHot q _
  | .energyWindow q _ | .operatingPointChange q | .cxctlSave q | .saveComplete q | .cxctlRestore q | .mkctlReq q
  | .markerArrives q _ _ | .mkctlResume q => wfQuad q
  | .stallTimer h | .kztcmpWrite h _ => wfHid h
  | .lqpost q _ | .launchStart q => decide (q < 32)
  | .linkPacketReceived l .. | .linkRekey l _ | .laneRetire l _ => decide (l < 114)
  | .sramMarginInterval d _ | .sramUncorrectable d | .smctlWrite d _ | .l2wgRequest d _ | .linkCounterDump d
  | .linkCounterDumpDone d => decide (d < 8)
  | .mlcwgRequest r _ => decide (r < 12)
  | .wayGatingDone l2 i => decide (i < if l2 then 8 else 12)
  | .registerWrite p off _ => decide (off % 8 = 0) && decide (off < 0x10000) &&
      (match p with
       | .mgmt => true
       | .die d => decide (d < 8)
       | .root r => decide (r < 12)
       | .quad q => wfQuad q
       | .host => decide (off < 0x3000))
  | _ => true

end Sys2Proof
end

