-- ==== Sys2Proof/Decode.lean ====
section
/-! DEFINITION. Decoding of lines (03 R55 to R82), of the control-thread extension (03 R83 to R85) and of the RV64 base
(08 R273), total and rejecting by name; then the encoder, from the same tables. A line's head comes with its tail
halfwords, highest address first (03 R62). -/

namespace Sys2Proof

/-! ### Register codes (03 R68, R69) -/

def WReg.code : WReg → Nat
  | .g n => n.val
  | .lo => 57
def SReg.code : SReg → Nat
  | .g n => n.val
  | .li => 56
  | .sid => 58
  | .cid => 59
  | .turn => 60
abbrev vCode (r : VReg) : Nat := 32 + r.val
abbrev pCode (r : PReg) : Nat := 48 + r.val
abbrev stCode (r : StReg) : Nat := 44 + r.val

/-- A number below `n`, if it is. -/
def fin? (n k : Nat) : Option (Fin n) := if h : k < n then some ⟨k, h⟩ else none

def wOf (c : Nat) : Option WReg := if c = 57 then some .lo else (fin? 32 c).map .g
def sOf (c : Nat) : Option SReg :=
  match c with
  | 56 => some .li
  | 58 => some .sid
  | 59 => some .cid
  | 60 => some .turn
  | _ => (fin? 32 c).map .g
def vOf (c : Nat) : Option VReg := if 32 ≤ c then fin? 16 (c - 32) else none
def pOf (c : Nat) : Option PReg := if 48 ≤ c then fin? 8 (c - 48) else none
def stOf (c : Nat) : Option StReg := if 44 ≤ c then fin? 4 (c - 44) else none

/-! ### Fields of heads and tails (03 R59, R60) -/

def hdOp (h : Half) : Nat := h.toNat / 512
def hdD (h : Half) : Nat := h.toNat / 8 % 64
def hdTL (h : Half) : Nat := h.toNat / 2 % 4
def hdX (h : Half) : Bool := h.toNat % 2 == 1
def trA (t : Half) : Nat := t.toNat / 1024
def trEA (t : Half) : Bool := t.toNat / 512 % 2 == 1
def trB (t : Half) : Nat := t.toNat / 8 % 64
def trEB (t : Half) : Bool := t.toNat / 4 % 2 == 1
def trM (t : Half) : Nat := t.toNat % 4

def trAs (t : Half) : Option SSrc := (sOf (trA t)).map (⟨·, trEA t⟩)
def trBs (t : Half) : Option SSrc := (sOf (trB t)).map (⟨·, trEB t⟩)
def trAv (t : Half) : Option VSrc := (vOf (trA t)).map (⟨·, trEA t⟩)
def trBv (t : Half) : Option VSrc := (vOf (trB t)).map (⟨·, trEB t⟩)
def trAp (t : Half) : Option PSrc := (pOf (trA t)).map (⟨·, trEA t⟩)

/-- `b` or a rejection. -/
def must (b : Bool) : Option Unit := if b then some () else none

/-- 32-bit and 48-bit immediates, lower halfword first (03 R61). -/
def imm32 (lo hi : Half) : BitVec 32 := BitVec.ofNat 32 (lo.toNat + 65536 * hi.toNat)
def imm48 (lo mid hi : Half) : BitVec 48 := BitVec.ofNat 48 (lo.toNat + 65536 * mid.toNat + 4294967296 * hi.toNat)

/-- A K or KK immediate. -/
def immOf : List Half → Option Imm
  | [a] => some (.k16 a)
  | [a, b] => some (.k32 (imm32 a b))
  | _ => none

/-- Splits a site off the tails when X = 1 (03 R61, R63): the other tails and the site. -/
def siteOf (x : Bool) (ts : List Half) : Option (List Half × Site) :=
  if x then
    match ts.getLast? with
    | some s => some (ts.dropLast, some s)
    | none => none
  else some (ts, none)

def scopeOf : Nat → Option Scope
  | 1 => some .core
  | 2 => some .quad
  | 3 => some .die
  | 4 => some .pkg
  | 5 => some .pod
  | _ => none
def Scope.code : Scope → Nat
  | .core => 1
  | .quad => 2
  | .die => 3
  | .pkg => 4
  | .pod => 5

def sizeOf2 : Nat → Size
  | 0 => .b
  | 1 => .h
  | 2 => .w
  | _ => .d
def Size.code : Size → Nat
  | .b => 0
  | .h => 1
  | .w => 2
  | .d => 3

def vtyOf : Nat → VTy
  | 0 => .f32
  | 1 => .i32
  | 2 => .bf16x2
  | _ => .f16x2
def VTy.code : VTy → Nat
  | .f32 => 0
  | .i32 => 1
  | .bf16x2 => 2
  | .f16x2 => 3

/-- The ordering and scope of an atomic's K bits 8:4 (03 R76). -/
def ordOf (k : Nat) : Option Ord :=
  let o := k / 16 % 4
  let s := k / 64 % 8
  match o with
  | 0 => if s ≤ 5 then some .relaxed else none
  | 1 => (scopeOf s).map .acq
  | 2 => (scopeOf s).map .rel
  | _ => (scopeOf s).map .ar
def Ord.code : Ord → Nat
  | .relaxed => 0
  | .acq s => 16 + 64 * s.code
  | .rel s => 32 + 64 * s.code
  | .ar s => 48 + 64 * s.code

/-! ### Operation selectors -/

def mulhOf : Nat → Option MulhOp
  | 0 => some .ss
  | 1 => some .zz
  | 2 => some .sz
  | _ => none
def MulhOp.code : MulhOp → Nat
  | .ss => 0
  | .zz => 1
  | .sz => 2
def logOf : Nat → LogOp
  | 0 => .and
  | 1 => .or
  | 2 => .xor
  | _ => .andn
def LogOp.code : LogOp → Nat
  | .and => 0
  | .or => 1
  | .xor => 2
  | .andn => 3
def mnxOf : Nat → MnxOp
  | 0 => .mins
  | 1 => .minz
  | 2 => .maxs
  | _ => .maxz
def MnxOp.code : MnxOp → Nat
  | .mins => 0
  | .minz => 1
  | .maxs => 2
  | .maxz => 3
def bcntOf : Nat → Option BcntOp
  | 0 => some .clz
  | 1 => some .ctz
  | 2 => some .popc
  | _ => none
def BcntOp.code : BcntOp → Nat
  | .clz => 0
  | .ctz => 1
  | .popc => 2
def cmpOf : Nat → CmpOp
  | 0 => .eq
  | 1 => .ne
  | 2 => .lt
  | _ => .ge
def CmpOp.code : CmpOp → Nat
  | .eq => 0
  | .ne => 1
  | .lt => 2
  | .ge => 3
def cmpzOf : Nat → CmpzOp
  | 0 => .ltu
  | 1 => .geu
  | 2 => .leu
  | _ => .gtu
def CmpzOp.code : CmpzOp → Nat
  | .ltu => 0
  | .geu => 1
  | .leu => 2
  | .gtu => 3
def condOf : Nat → Option Cond
  | 0 => some .eq
  | 1 => some .ne
  | 2 => some .lt
  | 3 => some .ge
  | 4 => some .ltu
  | 5 => some .geu
  | _ => none
def Cond.code : Cond → Nat
  | .eq => 0
  | .ne => 1
  | .lt => 2
  | .ge => 3
  | .ltu => 4
  | .geu => 5
def xselOf : Nat → XselOp
  | 0 => .bt
  | 1 => .bh
  | 2 => .lm
  | _ => .lt
def XselOp.code : XselOp → Nat
  | .bt => 0
  | .bh => 1
  | .lm => 2
  | .lt => 3
def capOf : Nat → Option Cap
  | 1 => some .c1
  | 2 => some .c2
  | 4 => some .c4
  | 8 => some .c8
  | _ => none
def Cap.val : Cap → Nat
  | .c1 => 1
  | .c2 => 2
  | .c4 => 4
  | .c8 => 8
def pfdOf : Nat → Option PfdLevel
  | 0 => some .l1
  | 1 => some .l2
  | 2 => some .mlc
  | _ => none
def PfdLevel.code : PfdLevel → Nat
  | .l1 => 0
  | .l2 => 1
  | .mlc => 2
def vcmpOf : Nat → VCmpOp
  | 0 => .eq
  | 1 => .ne
  | 2 => .lt
  | 3 => .le
  | 4 => .gt
  | 5 => .ge
  | 6 => .ordered
  | _ => .unordered
def VCmpOp.code : VCmpOp → Nat
  | .eq => 0
  | .ne => 1
  | .lt => 2
  | .le => 3
  | .gt => 4
  | .ge => 5
  | .ordered => 6
  | .unordered => 7
def redOf : Nat → RedOp
  | 0 => .sum
  | 1 => .max
  | 2 => .min
  | _ => .amax
def RedOp.code : RedOp → Nat
  | .sum => 0
  | .max => 1
  | .min => 2
  | .amax => 3
def vfdOf : Nat → VfdOp
  | 0 => .add
  | 1 => .sub
  | 2 => .mul
  | 3 => .fma
  | 4 => .min
  | 5 => .max
  | 6 => .cvtds
  | _ => .cvtsd
def VfdOp.code : VfdOp → Nat
  | .add => 0
  | .sub => 1
  | .mul => 2
  | .fma => 3
  | .min => 4
  | .max => 5
  | .cvtds => 6
  | .cvtsd => 7
def amoOf : Nat → Option AmoOp
  | 0 => some .add
  | 1 => some .and
  | 2 => some .or
  | 3 => some .xor
  | 4 => some .mins
  | 5 => some .maxs
  | 6 => some .minz
  | 7 => some .maxz
  | 8 => some .swap
  | _ => none
def AmoOp.code : AmoOp → Nat
  | .add => 0
  | .and => 1
  | .or => 2
  | .xor => 3
  | .mins => 4
  | .maxs => 5
  | .minz => 6
  | .maxz => 7
  | .swap => 8
def amofOf : Nat → Option AmofOp
  | 0 => some .add
  | 1 => some .min
  | 2 => some .max
  | _ => none
def AmofOp.code : AmofOp → Nat
  | .add => 0
  | .min => 1
  | .max => 2
def fenceOf : Nat → Option FenceKind
  | 1 => some .acq
  | 2 => some .rel
  | 3 => some .ar
  | _ => none
def FenceKind.code : FenceKind → Nat
  | .acq => 1
  | .rel => 2
  | .ar => 3
def waitOf : Nat → WaitCond
  | 0 => .eq
  | 1 => .ne
  | 2 => .gem
  | _ => .ltm
def WaitCond.code : WaitCond → Nat
  | .eq => 0
  | .ne => 1
  | .gem => 2
  | .ltm => 3
def dkindOf : Nat → DKind
  | 0 => .loc
  | 1 => .ring
  | 2 => .glob
  | _ => .canopy
def DKind.code : DKind → Nat
  | .loc => 0
  | .ring => 1
  | .glob => 2
  | .canopy => 3
def iwOf : Nat → Option IdxW
  | 0 => some .i32
  | 1 => some .i64
  | 2 => some .u32
  | _ => none
def IdxW.code : IdxW → Nat
  | .i32 => 0
  | .i64 => 1
  | .u32 => 2
def scatOf : Nat → Option ScatOp
  | 0 => some .st
  | 1 => some .addf
  | 2 => some .addi
  | _ => none
def ScatOp.code : ScatOp → Nat
  | .st => 0
  | .addf => 1
  | .addi => 2

/-! ### Shapes (03 R63) -/

/-- R: one TR. -/
def shR (ts : List Half) (x : Bool) (f : Half → Option Instr) : Option Instr :=
  match ts, x with
  | [t], false => f t
  | _, _ => none
/-- RK. -/
def shRK (ts : List Half) (x : Bool) (f : Half → Half → Option Instr) : Option Instr :=
  match ts, x with
  | [t, k], false => f t k
  | _, _ => none
/-- RK or RKK with an immediate. -/
def shRI (ts : List Half) (x : Bool) (f : Half → Imm → Option Instr) : Option Instr :=
  match ts, x with
  | [t, k], false => f t (.k16 k)
  | [t, k, l], false => f t (.k32 (imm32 k l))
  | _, _ => none
/-- RKK. -/
def shRKK (ts : List Half) (x : Bool) (f : Half → Half → Half → Option Instr) : Option Instr :=
  match ts, x with
  | [t, k, l], false => f t k l
  | _, _ => none
/-- RK or RKS: an optional site. -/
def shRKS (ts : List Half) (x : Bool) (f : Half → Half → Site → Option Instr) : Option Instr :=
  match ts, x with
  | [t, k], false => f t k none
  | [t, k, s], true => f t k (some s)
  | _, _ => none
/-- R or RS: an optional site. -/
def shRSo (ts : List Half) (x : Bool) (f : Half → Site → Option Instr) : Option Instr :=
  match ts, x with
  | [t], false => f t none
  | [t, s], true => f t (some s)
  | _, _ => none
/-- RS with its mandatory site. -/
def shRS (ts : List Half) (x : Bool) (f : Half → Half → Option Instr) : Option Instr :=
  match ts, x with
  | [t, s], true => f t s
  | _, _ => none
/-- K. -/
def shK (ts : List Half) (x : Bool) (f : Half → Option Instr) : Option Instr :=
  match ts, x with
  | [k], false => f k
  | _, _ => none
/-- K or KK with an immediate. -/
def shI (ts : List Half) (x : Bool) (f : Imm → Option Instr) : Option Instr :=
  match ts, x with
  | [k], false => f (.k16 k)
  | [k, l], false => f (.k32 (imm32 k l))
  | _, _ => none
/-- K or KS: an optional site. -/
def shKSo (ts : List Half) (x : Bool) (f : Half → Site → Option Instr) : Option Instr :=
  match ts, x with
  | [k], false => f k none
  | [k, s], true => f k (some s)
  | _, _ => none
/-- KS with its mandatory site. -/
def shKS (ts : List Half) (x : Bool) (f : Half → Half → Option Instr) : Option Instr :=
  match ts, x with
  | [k, s], true => f k s
  | _, _ => none
/-- No tail. -/
def shN (ts : List Half) (x : Bool) (i : Instr) : Option Instr :=
  match ts, x with
  | [], false => some i
  | _, _ => none

/-- Shape R, D of class w, A and B of class s, M 00. -/
def dec3 (d : Nat) (ts : List Half) (x : Bool) (f : WReg → SSrc → SSrc → Instr) : Option Instr :=
  shR ts x fun t => do
    must (trM t == 0)
    some (f (← wOf d) (← trAs t) (← trBs t))
/-- As `dec3`, with M given to the constructor. -/
def dec3m (d : Nat) (ts : List Half) (x : Bool) (f : Nat → Option (WReg → SSrc → SSrc → Instr)) : Option Instr :=
  shR ts x fun t => do
    let g ← f (trM t)
    some (g (← wOf d) (← trAs t) (← trBs t))
/-- Shape R, D, A and B of class v, M the type. -/
def decV3 (d : Nat) (ts : List Half) (x : Bool) (f : VTy → VReg → VSrc → VSrc → Instr) : Option Instr :=
  shR ts x fun t => do some (f (vtyOf (trM t)) (← vOf d) (← trAv t) (← trBv t))
/-- Shape R, D and A of class v, B unused, M the type. -/
def decV2 (d : Nat) (ts : List Half) (x : Bool) (f : VTy → VReg → VSrc → Instr) : Option Instr :=
  shR ts x fun t => do some (f (vtyOf (trM t)) (← vOf d) (← trAv t))
/-- Shape R, D, A and B of class v, M 00. -/
def decV30 (d : Nat) (ts : List Half) (x : Bool) (f : VReg → VSrc → VSrc → Instr) : Option Instr :=
  shR ts x fun t => do
    must (trM t == 0)
    some (f (← vOf d) (← trAv t) (← trBv t))
/-- Shape R, D and A of class v, B unused, M 00. -/
def decV20 (d : Nat) (ts : List Half) (x : Bool) (f : VReg → VSrc → Instr) : Option Instr :=
  shR ts x fun t => do
    must (trM t == 0)
    some (f (← vOf d) (← trAv t))

/-- `mov` (05 R128). -/
def decMov (d : Nat) (t : Half) : Option MovForm :=
  match wOf d with
  | some w =>
    match trAs t with
    | some a => some (.ss w a)
    | none => (trAp t).map (.sp w)
  | none =>
    match vOf d with
    | some v => (trAv t).map (.vv v)
    | none =>
      match pOf d with
      | some p =>
        match trAp t with
        | some a => some (.pp p a)
        | none => (trAs t).map (.ps p)
      | none => none

/-- The flag halfword's common bits and the completion halfword (03 R78, R79); `n` registers in the group. -/
def decEng (d : Nat) (t k l : Half) (n : Nat) : Option Eng := do
  let w ← wOf d
  let a ← fin? 32 (trA t)
  let kind := l.toNat / 16384
  let tgt := l.toNat / 256 % 64
  let val := l.toNat / 4 % 64
  must (l.toNat % 4 == 0)
  let c ← match kind with
    | 0 => if tgt = 0 ∧ val = 0 then some Compl.none else none
    | 1 => do some (Compl.st (← fin? 32 tgt) (← fin? 32 val))
    | 2 => do some (Compl.inc (← fin? 32 tgt) (← fin? 32 val))
    | _ => none
  let e : Eng := { d := w, a := a, trap := trEA t, acq := k.toNat / 16384 % 2 == 1, rel := k.toNat / 8192 % 2 == 1
                   scope := BitVec.ofNat 3 (k.toNat / 1024), compl := c }
  must (wfEng e n)
  some e

/-- An engine command with M 00 and the given rule for flag bits 15 and 9:0. -/
def decCmd (d : Nat) (ts : List Half) (x : Bool) (n : Nat) (f : Eng → Bool → Nat → Option Instr) : Option Instr :=
  shRKK ts x fun t k l => do
    must (trM t == 0)
    let e ← decEng d t k l n
    f e (k.toNat / 32768 == 1) (k.toNat % 1024)

/-- The integer and address operations (03 R71). -/
def decInt (op d : Nat) (ts : List Half) (x : Bool) : Option Instr :=
  match op with
  | 0x01 => dec3 d ts x .add
  | 0x02 => dec3 d ts x .sub
  | 0x03 => shRI ts x fun t k => do
    must (trM t == 0)
    some (.addk (← wOf d) (← trAs t) k)
  | 0x04 => dec3 d ts x .mul
  | 0x05 => dec3m d ts x fun m => (mulhOf m).map Instr.mulh
  | 0x06 => dec3m d ts x fun m => if m ≤ 1 then some (.div (m == 0)) else none
  | 0x07 => dec3m d ts x fun m => if m ≤ 1 then some (.rem (m == 0)) else none
  | 0x08 => dec3 d ts x .and
  | 0x09 => dec3 d ts x .or
  | 0x0A => dec3 d ts x .xor
  | 0x0B => shRI ts x fun t k => do some (.logk (logOf (trM t)) (← wOf d) (← trAs t) k)
  | 0x0C =>
    match ts, x with
    | [t], false => do
      must (trM t == 0)
      some (.shl (← wOf d) (← trAs t) (.reg (← trBs t)))
    | [t, k], false => do
      must (trM t == 0)
      must (decide (k.toNat < 64))
      some (.shl (← wOf d) (← trAs t) (.imm (k.setWidth 6)))
    | _, _ => none
  | 0x0D =>
    match ts, x with
    | [t], false => do
      must (decide (trM t ≤ 1))
      some (.shr (trM t == 1) (← wOf d) (← trAs t) (.reg (← trBs t)))
    | [t, k], false => do
      must (decide (trM t ≤ 1))
      must (decide (k.toNat < 64))
      some (.shr (trM t == 1) (← wOf d) (← trAs t) (.imm (k.setWidth 6)))
    | _, _ => none
  | 0x0E => dec3m d ts x fun m => some (.mnx (mnxOf m))
  | 0x0F => shR ts x fun t => do some (.bcnt (← bcntOf (trM t)) (← wOf d) (← trAs t))
  | 0x10 =>
    match ts, x with
    | [a], false => do some (.movk (← wOf d) (.k16 a))
    | [a, b], false => do some (.movk (← wOf d) (.k32 (imm32 a b)))
    | [a, b, c], false => do some (.movk (← wOf d) (.k48 (imm48 a b c)))
    | _, _ => none
  | 0x11 => shR ts x fun t => do
    must (trM t == 0)
    some (.mov (← decMov d t))
  | 0x12 => shRK ts x fun t k => do
    must (trM t == 0)
    some (.sel (← wOf d) (← trAs t) (← trBs t) (← fin? 8 k.toNat))
  | 0x13 => dec3m d ts x fun m => some (.cmp (cmpOf m))
  | 0x14 => dec3m d ts x fun m => some (.cmpz (cmpzOf m))
  | 0x15 => shRI ts x fun t k => do some (.lea (← wOf d) (← trAs t) (← trBs t) (BitVec.ofNat 2 (trM t)) k)
  | 0x16 => shRK ts x fun t k => do
    must (decide (trM t ≤ 1))
    must (decide (k.toNat < 64))
    some (.ext (trM t == 1) (← wOf d) (← trAs t) (k.setWidth 6))
  | 0x17 => shRK ts x fun t k => do
    must (decide (trM t ≤ 1))
    must (decide (k.toNat < 4096))
    let l := BitVec.ofNat 6 k.toNat
    let w := BitVec.ofNat 6 (k.toNat / 64)
    must (wfField l w)
    some (.bfx (trM t == 1) (← wOf d) (← trAs t) l w)
  | 0x18 => shRK ts x fun t k => do
    must (trM t == 0)
    must (decide (k.toNat < 4096))
    let l := BitVec.ofNat 6 k.toNat
    let w := BitVec.ofNat 6 (k.toNat / 64)
    must (wfField l w)
    some (.bfi (← wOf d) (← trAs t) l w)
  | _ => none

/-- Control and grain (03 R72). -/
def decCtl (op d : Nat) (ts : List Half) (x : Bool) : Option Instr :=
  match op with
  | 0x20 => shI ts x fun k => do
    must (d == 0)
    some (.br k)
  | 0x21 => shRKS ts x fun t k s => do
    must (trM t == 0)
    some (.bc (← condOf d) (← trAs t) (← trBs t) k s)
  | 0x22 => shKSo ts x fun k s => do
    must (decide (d ≠ 0))
    some (.loop (← fin? 32 d) k s)
  | 0x23 =>
    if d = 0 then
      match ts, x with
      | [], false => some .fetch
      | [k], false => some (.fetchLines k)
      | _, _ => none
    else none
  | 0x24 => shI ts x fun k => do some (.call (← wOf d) k)
  | 0x25 => shR ts x fun t => do
    must (d == 0 && trM t == 0)
    some (.jmp (← trAs t))
  | 0x26 => if d = 0 then shN ts x .stop else none
  | 0x27 =>
    if d = 0 then
      match ts, x with
      | [k], false => some (.pfi (.line k))
      | [t, k], false => do
        must (trM t == 0)
        some (.pfi (.addr (← trAs t) k))
      | _, _ => none
    else none
  | 0x28 =>
    match ts, x with
    | [s], true => do some (.xrd (← wOf d) s)
    | _, _ => none
  | 0x29 => shKS ts x fun k s => do
    must (decide (d ≤ 16))
    some (.xbr (BitVec.ofNat 6 d) k s)
  | 0x2A => shRS ts x fun t s => do some (.xsel (xselOf (trM t)) (← wOf d) (← trAs t) (← trBs t) s)
  | 0x2B => shRS ts x fun t s => do
    must (d == 0 && trM t == 0)
    some (.xpf (← trAs t) (← trBs t) s)
  | 0x2C => shKS ts x fun k s => do some (.xunr (← wOf d) (← capOf k.toNat) s)
  | 0x2D => if d = 0 then shN ts x .nop else none
  | 0x2E => if d = 0 then shN ts x .yield else none
  | _ => none

/-- Memory and streams (03 R74). -/
def decMem (op d : Nat) (ts : List Half) (x : Bool) : Option Instr :=
  match op with
  | 0x30 => shRKS ts x fun t k s => do some (.ld (sizeOf2 (trM t)) (← wOf d) (← trAs t) k s)
  | 0x31 => shRKS ts x fun t k s => do some (.ldz (sizeOf2 (trM t)) (← wOf d) (← trAs t) k s)
  | 0x32 => shRKK ts x fun t k l => do
    some (.ldAcq (sizeOf2 (trM t)) (← wOf d) (← trAs t) k (← scopeOf l.toNat))
  | 0x33 => shRK ts x fun t k => do some (.st (sizeOf2 (trM t)) (← sOf d) (← trAs t) k)
  | 0x34 => shRKK ts x fun t k l => do
    some (.stRel (sizeOf2 (trM t)) (← sOf d) (← trAs t) k (← scopeOf l.toNat))
  | 0x35 => shRK ts x fun t k => do
    must (trM t == 0)
    let dst ← match wOf d with
      | some w => some (LDst.s w)
      | none => (vOf d).map LDst.v
    some (.lld dst (← trAs t) k)
  | 0x36 => shRK ts x fun t k => do
    must (trM t == 0)
    let src ← match sOf d with
      | some r => some (LSrc.s r)
      | none => (vOf d).map LSrc.v
    some (.lst src (← trAs t) k)
  | 0x37 => shRKS ts x fun t k s => do
    must (trM t == 0)
    some (.vld (← vOf d) (← trAs t) k s)
  | 0x38 => shRK ts x fun t k => do
    must (trM t == 0)
    some (.vst (← vOf d) (← trAs t) k)
  | 0x39 => shR ts x fun t => do some (.vldx (← vOf d) (← trAs t) (← trBv t) (sizeOf2 (trM t)))
  | 0x3A => shR ts x fun t => do some (.vstx (← vOf d) (← trAs t) (← trBv t) (sizeOf2 (trM t)))
  | 0x3B => shRSo ts x fun t s => do some (.vldg (← vOf d) (← trAs t) (← trBv t) (sizeOf2 (trM t)) s)
  | 0x3C => shR ts x fun t => do some (.vstg (← vOf d) (← trAs t) (← trBv t) (sizeOf2 (trM t)))
  | 0x3D => shR ts x fun t => do
    let r ← stOf d
    match trM t with
    | 0 => do some (.sbind r (.rd (← trAs t) (← trBs t)))
    | 1 => do some (.sbind r (.wr (← trAs t) (← trBs t)))
    | 2 => some (.sbind r .un)
    | _ => none
  | 0x3E => shKSo ts x fun k s => do some (.sloop (← stOf d) k s)
  | 0x3F => shRK ts x fun t k => do
    must (d == 0)
    some (.pfd (← pfdOf (trM t)) (← trAs t) k)
  | _ => none

/-- The vector unit (03 R75). -/
def decVec (op d : Nat) (ts : List Half) (x : Bool) : Option Instr :=
  match op with
  | 0x40 => decV3 d ts x .vadd
  | 0x41 => decV3 d ts x .vsub
  | 0x42 => decV3 d ts x .vmul
  | 0x43 => decV3 d ts x .vfma
  | 0x44 => decV3 d ts x .vmin
  | 0x45 => decV3 d ts x .vmax
  | 0x46 => decV2 d ts x .vabs
  | 0x47 => decV2 d ts x .vneg
  | 0x48 => decV30 d ts x .vand
  | 0x49 => decV30 d ts x .vor
  | 0x4A => decV30 d ts x .vxor
  | 0x4B =>
    match ts, x with
    | [t], false => do
      must (trM t == 0)
      some (.vshl (← vOf d) (← trAv t) (.reg (← trBv t)))
    | [t, k], false => do
      must (trM t == 0)
      must (decide (k.toNat < 32))
      some (.vshl (← vOf d) (← trAv t) (.imm (k.setWidth 5)))
    | _, _ => none
  | 0x4C =>
    match ts, x with
    | [t], false => do
      must (decide (trM t ≤ 1))
      some (.vshr (trM t == 1) (← vOf d) (← trAv t) (.reg (← trBv t)))
    | [t, k], false => do
      must (decide (trM t ≤ 1))
      must (decide (k.toNat < 32))
      some (.vshr (trM t == 1) (← vOf d) (← trAv t) (.imm (k.setWidth 5)))
    | _, _ => none
  | 0x4D => decV20 d ts x .vrcp
  | 0x4E => decV20 d ts x .vrsq
  | 0x4F => decV20 d ts x .vex2
  | 0x50 => decV20 d ts x .vlg2
  | 0x51 => shRK ts x fun t k => do
    must (decide (k.toNat < 4))
    let dst := vtyOf (trM t)
    let src := vtyOf k.toNat
    must (decide (dst ≠ src))
    let b ← if vcvtReadsB dst src then (trBv t).map some else some none
    some (.vcvt dst src (← vOf d) (← trAv t) b)
  | 0x52 => shRK ts x fun t k => do
    must (decide (k.toNat < 8))
    let ty := vtyOf (trM t)
    must (!(decide (ty = .i32) && decide (6 ≤ k.toNat)))
    let p ← pOf d
    must (decide (p.val ≠ 0))
    some (.vcmp (vcmpOf k.toNat) ty p (← trAv t) (← trBv t))
  | 0x53 => shRK ts x fun t k => do
    must (trM t == 0)
    some (.vsel (← vOf d) (← trAv t) (← trBv t) (← fin? 8 k.toNat))
  | 0x54 => shRK ts x fun t k => do
    must (decide (k.toNat < 4))
    some (.vred (redOf k.toNat) (vtyOf (trM t)) (← wOf d) (← trAv t))
  | 0x55 => shR ts x fun t => do
    must (trM t == 0)
    some (.vbc (← vOf d) (← trAs t))
  | 0x56 => shRK ts x fun t k => do
    must (trM t == 0)
    must (decide (k.toNat < 16))
    some (.vget (← wOf d) (← trAv t) (k.setWidth 4))
  | 0x57 => shRK ts x fun t k => do
    must (trM t == 0)
    must (decide (k.toNat < 16))
    some (.vput (← vOf d) (← trAs t) (k.setWidth 4))
  | 0x58 => decV30 d ts x .vperm
  | 0x59 => shR ts x fun t => do
    must (decide (2 ≤ trM t))
    some (.vdot (trM t == 3) (← vOf d) (← trAv t) (← trBv t))
  | 0x5A => shR ts x fun t => do some (.vscl (vtyOf (trM t)) (← vOf d) (← trAv t) (← trBs t))
  | 0x5B =>
    match ts, x with
    | [], false => do some (.viota (← vOf d))
    | [k], false => do some (.viotaStart (← vOf d) k)
    | _, _ => none
  | 0x5C => shRK ts x fun t k => do
    must (trM t == 0)
    must (decide (k.toNat < 8))
    let o := vfdOf k.toNat
    let b ← if vfdReadsB o then (trBv t).map some else some none
    some (.vfd o (← vOf d) (← trAv t) b)
  | _ => none

/-- Synchronisation and system (03 R76). -/
def decSync (op d : Nat) (ts : List Half) (x : Bool) : Option Instr :=
  match op with
  | 0x60 => shRK ts x fun t k => do
    must (decide (2 ≤ trM t))
    must (decide (k.toNat < 512))
    some (.amo (← amoOf (k.toNat % 16)) (trM t == 3) (← ordOf k.toNat) (← wOf d) (← trAs t) (← trBs t))
  | 0x61 => shRK ts x fun t k => do
    must (decide (2 ≤ trM t))
    must (decide (k.toNat < 512))
    must (k.toNat % 16 == 0)
    some (.cas (trM t == 3) (← ordOf k.toNat) (← wOf d) (← trAs t) (← trBs t))
  | 0x62 => shRK ts x fun t k => do
    must (decide (2 ≤ trM t))
    must (decide (k.toNat < 512))
    some (.amof (← amofOf (k.toNat % 16)) (trM t == 3) (← ordOf k.toNat) (← wOf d) (← trAs t) (← trBs t))
  | 0x63 => shK ts x fun k => do
    must (d == 0)
    must (decide (k.toNat < 32))
    some (.fence (← fenceOf (k.toNat % 4)) (← scopeOf (k.toNat / 4)))
  | 0x64 => shRK ts x fun t k => do
    must (decide (k.toNat < 2))
    some (.wait (waitOf (trM t)) (k.toNat == 1) (← wOf d) (← trAs t) (← trBs t))
  | 0x65 => shR ts x fun t => do
    must (d == 0 && trM t == 0)
    some (.mbinc (← trAs t) (← trBs t))
  | 0x66 => shR ts x fun t => do
    must (trM t == 0)
    some (.mbrd (← wOf d) (← trAs t))
  | 0x67 => shRK ts x fun t k => do
    must (trM t == 0)
    some (.rgwait (← wOf d) (← fin? 32 k.toNat))
  | 0x68 => shRK ts x fun t k => do
    must (d == 0 && trM t == 0)
    some (.rgrel (← fin? 32 k.toNat) (← trBs t))
  | 0x69 => shK ts x fun k => do
    must (d == 0)
    must (decide (k.toNat < 256))
    let sc ← scopeOf (k.toNat % 8)
    let b ← fin? 16 (k.toNat / 16)
    some (if k.toNat / 8 % 2 == 0 then .barArrive sc b else .barWait sc b)
  | 0x6A => shR ts x fun t => do
    must (trM t == 0)
    some (.lck (← wOf d) (← trAs t))
  | 0x6B => shR ts x fun t => do
    must (d == 0 && trM t == 0)
    some (.ulck (← trAs t))
  | 0x6C => if d = 0 then shN ts x .ifence else none
  | 0x6D => shK ts x fun k => do
    must (d == 0)
    some (.trap k)
  | 0x6E => shK ts x fun k => do
    must (decide (k.toNat < 4096))
    some (.rdsr (← wOf d) (k.setWidth 12))
  | 0x6F => shRK ts x fun t k => do
    must (d == 0 && trM t == 0)
    must (decide (k.toNat < 4096))
    some (.wrsr (k.setWidth 12) (← trAs t))
  | _ => none

/-- Engines and the deque (03 R77 to R80; 08 R241 to R262). -/
def decEngine (op d : Nat) (ts : List Half) (x : Bool) : Option Instr :=
  match op with
  | 0x70 => decCmd d ts x 3 fun e last f => do
    must (f % 128 == 0)
    some (.send e last (dkindOf (f / 256)) (f / 128 % 2 == 1))
  | 0x71 => decCmd d ts x 5 fun e last f => if last || decide (f ≠ 0) then none else some (.csend e)
  | 0x72 => decCmd d ts x 7 fun e last f => do
    must (!last && decide (f < 4))
    some (.gath e (← iwOf f))
  | 0x73 => shRKK ts x fun t k l => do
    let o ← scatOf (trM t)
    let e ← decEng d t k l 7
    must (decide (k.toNat / 32768 = 0) && decide (k.toNat % 1024 < 4))
    some (.scat e o (← iwOf (k.toNat % 1024)))
  | 0x74 => decCmd d ts x 2 fun e last f => if last || decide (f ≠ 0) then none else some (.mzero e)
  | 0x75 => decCmd d ts x 5 fun e last f => if last || decide (f ≠ 0) then none else some (.mbld e)
  | 0x76 => decCmd d ts x 6 fun e last f => do
    must (!last && decide (f < 32))
    must (wfFmt (BitVec.ofNat 4 f) 8)
    some (.mma e (BitVec.ofNat 4 f) (f / 16 == 1))
  | 0x77 => decCmd d ts x 7 fun e last f => do
    must (!last && decide (f < 32))
    must (wfFmt (BitVec.ofNat 4 f) 8)
    some (.mmas e (BitVec.ofNat 4 f) (f / 16 == 1))
  | 0x78 => decCmd d ts x 4 fun e last f => do
    must (!last && decide (f < 16))
    must (wfFmt (BitVec.ofNat 4 f) 7)
    some (.mcmpr e (BitVec.ofNat 4 f))
  | 0x79 => decCmd d ts x 5 fun e last f => do
    must (!last && decide (f < 2))
    some (.mst e (f == 1))
  | 0x7A => shR ts x fun t =>
    match trM t with
    | 0 => do some (.dpush (← wOf d) (← trAs t))
    | 1 => do
      must (decide (1 ≤ d) && decide (d ≤ 30))
      some (.dpop (← fin? 32 d))
    | 2 => do some (.dsplit (← wOf d))
    | _ => do some (.dlen (← wOf d))
  | _ => none

/-- A head with its tails, by the opcode map (03 R70 to R77, R82): `none` is the illegal-instruction fate. -/
def decodeMicro (h : Half) (ts : List Half) : Option Instr :=
  if ts.length ≠ hdTL h then none
  else
    let op := hdOp h
    let d := hdD h
    let x := hdX h
    if op < 0x20 then decInt op d ts x
    else if op < 0x30 then decCtl op d ts x
    else if op < 0x40 then decMem op d ts x
    else if op < 0x60 then decVec op d ts x
    else if op < 0x70 then decSync op d ts x
    else decEngine op d ts x

/-! ### Lines (03 R55 to R62) -/

abbrev Line := Vector Half 32

def lineNH (l : Line) : Nat := l[0].toNat / 2048
def lineNT (l : Line) : Nat := l[0].toNat / 64 % 32
def lineE (l : Line) : Bool := l[0].toNat / 32 % 2 == 1
/-- h(i), zero beyond the line. -/
def lineH (l : Line) (i : Nat) : Half := (l.toList[i]?).getD 0

/-- Σ TL of heads 1 to n (03 R62). -/
def sumTL (l : Line) : Nat → Nat
  | 0 => 0
  | n + 1 => sumTL l n + hdTL (lineH l (n + 1))

/-- The engine set (03 R58). -/
def engineSet (op : Nat) : Bool :=
  (decide (0x70 ≤ op) && decide (op ≤ 0x79)) || op == 0x22 || op == 0x23 || op == 0x64 || op == 0x26

/-- Whether `p` holds of every number from 1 to n. -/
def allUpTo (p : Nat → Bool) : Nat → Bool
  | 0 => true
  | n + 1 => p (n + 1) && allUpTo p n

/-- The check of a line at entry (03 R57). -/
def lineLegal (l : Line) (sequencer : Bool) : Bool :=
  let nh := lineNH l
  let nt := lineNT l
  decide (nh ≠ 0) && decide (nh + nt ≤ 31) && decide (nt = sumTL l nh) && decide (l[0].toNat % 32 = 0) &&
  allUpTo (fun i => decide (i ≤ nh) || decide (32 - nt ≤ i) || lineH l i == 0) 31 &&
  (!(lineE l) || allUpTo (fun i => engineSet (hdOp (lineH l i))) nh) &&
  (lineE l || !sequencer)

/-- The tails of head `i`, highest address first (03 R62). -/
def lineTails (l : Line) (i : Nat) : List Half :=
  let c := sumTL l (i - 1)
  (List.range (hdTL (lineH l i))).map fun k => lineH l (31 - c - k)

/-- The instruction of head `i` of a line. -/
def decodeHead (l : Line) (i : Nat) : Option Instr := decodeMicro (lineH l i) (lineTails l i)

/-- Every register field of an instruction as a sequencer must have it: codes 0 to 7, and no site (03 R58, R80). -/
def seqW : WReg → Bool
  | .g n => decide (n.val ≤ 7)
  | .lo => false
def seqS (a : SSrc) : Bool :=
  match a.reg with
  | .g n => decide (n.val ≤ 7)
  | _ => false
def seqCompl : Compl → Bool
  | .none => true
  | .st t v | .inc t v => decide (t.val ≤ 7) && decide (v.val ≤ 7)
def seqEng (e : Eng) (n : Nat) : Bool := seqW e.d && decide (e.a.val + n ≤ 8) && seqCompl e.compl
def seqLegal : Instr → Bool
  | .loop d _ s => decide (d.val ≤ 7) && s.isNone
  | .fetch | .fetchLines _ | .stop => true
  | .wait _ _ d a b => seqW d && seqS a && seqS b
  | .send e _ _ _ => seqEng e 3
  | .csend e => seqEng e 5
  | .gath e _ | .scat e _ _ => seqEng e 7
  | .mzero e => seqEng e 2
  | .mbld e | .mst e _ => seqEng e 5
  | .mma e _ _ => seqEng e 6
  | .mmas e _ _ => seqEng e 7
  | .mcmpr e _ => seqEng e 4
  | _ => false

/-! ### RV64 words -/

def rvX (w : BitVec 32) (lo : Nat) : XReg := Fin.ofNat 32 (w.toNat / 2 ^ lo)

/-- The twelve `kz` instructions (03 R83, R84). -/
def decodeKz (w : BitVec 32) : Option Instr :=
  let f7 := w.toNat / 33554432
  let rs2 := rvX w 20
  let rs1 := rvX w 15
  let rd := rvX w 7
  if w.toNat % 128 ≠ 0x0B ∨ w.toNat / 4096 % 8 ≠ 0 then none
  else
    match f7 with
    | 0x00 => if rd = 0 then some (.kzBcast rs1 rs2) else none
    | 0x01 => if rd = 0 ∧ rs2 = 0 then some (.kzWait rs1) else none
    | 0x02 => if rd = 0 ∧ rs2 = 0 then some (.kzFork rs1) else none
    | 0x03 => if rd = 0 ∧ rs1 = 0 ∧ rs2 = 0 then some .kzJoin else none
    | 0x04 => if rd = 0 ∧ rs1 = 0 ∧ rs2 = 0 then some .kzLease else none
    | 0x05 => if rd = 0 ∧ rs1 = 0 ∧ rs2 = 0 then some .kzUnlease else none
    | 0x06 => some (.kzFault rd rs1 rs2)
    | 0x07 => if rd = 0 then some (.kzResume rs1 rs2) else none
    | 0x08 => if rd = 0 ∧ rs2 = 0 then some (.kzKill rs1) else none
    | 0x09 => if rs2 = 0 then some (.kzRdsl rd rs1) else none
    | 0x0A => if rd = 0 then some (.kzWrsl rs1 rs2) else none
    | 0x0B => if rs2 = 0 then some (.kzTask rd rs1) else none
    | _ => none

/-- A field of a 32-bit word, as a vector of `n` bits. -/
def fld (n : Nat) (w : BitVec 32) (lo : Nat) : BitVec n := BitVec.ofNat n (w.toNat / 2 ^ lo)

/-- The B and J immediates, without their zero bit. -/
def immB (w : BitVec 32) : BitVec 12 := fld 1 w 31 ++ fld 1 w 7 ++ fld 6 w 25 ++ fld 4 w 8
def immJ (w : BitVec 32) : BitVec 20 := fld 1 w 31 ++ fld 8 w 12 ++ fld 1 w 20 ++ fld 10 w 21
def immS (w : BitVec 32) : BitVec 12 := fld 7 w 25 ++ fld 5 w 7

def rvBranch : Nat → Option BrOp
  | 0 => some .beq
  | 1 => some .bne
  | 4 => some .blt
  | 5 => some .bge
  | 6 => some .bltu
  | 7 => some .bgeu
  | _ => none
def rvLoad : Nat → Option LdOp
  | 0 => some .lb
  | 1 => some .lh
  | 2 => some .lw
  | 3 => some .ld
  | 4 => some .lbu
  | 5 => some .lhu
  | 6 => some .lwu
  | _ => none

/-- OP-IMM (opcode 0x13): funct3, the 12-bit immediate. -/
def rvOpImm (f3 : Nat) (imm : BitVec 12) (rd rs1 : XReg) : Option RvInstr :=
  let hi := imm.toNat / 64
  let sh : BitVec 12 := BitVec.ofNat 12 (imm.toNat % 64)
  match f3 with
  | 0 => some (.opImm .addi rd rs1 imm)
  | 2 => some (.opImm .slti rd rs1 imm)
  | 3 => some (.opImm .sltiu rd rs1 imm)
  | 4 => some (.opImm .xori rd rs1 imm)
  | 6 => some (.opImm .ori rd rs1 imm)
  | 7 => some (.opImm .andi rd rs1 imm)
  | 1 =>
    if hi = 0 then some (.opImm .slli rd rs1 sh)
    else match imm.toNat with
      | 0x600 => some (.unary .clz rd rs1)
      | 0x601 => some (.unary .ctz rd rs1)
      | 0x602 => some (.unary .cpop rd rs1)
      | 0x604 => some (.unary .sextb rd rs1)
      | 0x605 => some (.unary .sexth rd rs1)
      | _ => none
  | _ =>
    if hi = 0 then some (.opImm .srli rd rs1 sh)
    else if hi = 0x10 then some (.opImm .srai rd rs1 sh)
    else if hi = 0x18 then some (.opImm .rori rd rs1 sh)
    else match imm.toNat with
      | 0x287 => some (.unary .orcb rd rs1)
      | 0x6B8 => some (.unary .rev8 rd rs1)
      | _ => none

/-- OP-IMM-32 (opcode 0x1B). -/
def rvOpImm32 (f3 : Nat) (imm : BitVec 12) (rd rs1 : XReg) : Option RvInstr :=
  let hi := imm.toNat / 32
  let sh : BitVec 12 := BitVec.ofNat 12 (imm.toNat % 32)
  match f3 with
  | 0 => some (.opImm .addiw rd rs1 imm)
  | 1 =>
    if hi = 0 then some (.opImm .slliw rd rs1 sh)
    else if imm.toNat / 64 = 2 then some (.opImm .slliuw rd rs1 (BitVec.ofNat 12 (imm.toNat % 64)))
    else match imm.toNat with
      | 0x600 => some (.unary .clzw rd rs1)
      | 0x601 => some (.unary .ctzw rd rs1)
      | 0x602 => some (.unary .cpopw rd rs1)
      | _ => none
  | 5 =>
    if hi = 0 then some (.opImm .srliw rd rs1 sh)
    else if hi = 0x20 then some (.opImm .sraiw rd rs1 sh)
    else if hi = 0x30 then some (.opImm .roriw rd rs1 sh)
    else none
  | _ => none

/-- OP (opcode 0x33): funct7, funct3. -/
def rvOp (f7 f3 : Nat) : Option ROp :=
  match f7, f3 with
  | 0x00, 0 => some .add
  | 0x20, 0 => some .sub
  | 0x00, 1 => some .sll
  | 0x00, 2 => some .slt
  | 0x00, 3 => some .sltu
  | 0x00, 4 => some .xor
  | 0x00, 5 => some .srl
  | 0x20, 5 => some .sra
  | 0x00, 6 => some .or
  | 0x00, 7 => some .and
  | 0x01, 0 => some .mul
  | 0x01, 1 => some .mulh
  | 0x01, 2 => some .mulhsu
  | 0x01, 3 => some .mulhu
  | 0x01, 4 => some .div
  | 0x01, 5 => some .divu
  | 0x01, 6 => some .rem
  | 0x01, 7 => some .remu
  | 0x10, 2 => some .sh1add
  | 0x10, 4 => some .sh2add
  | 0x10, 6 => some .sh3add
  | 0x20, 7 => some .andn
  | 0x20, 6 => some .orn
  | 0x20, 4 => some .xnor
  | 0x05, 4 => some .min
  | 0x05, 5 => some .minu
  | 0x05, 6 => some .max
  | 0x05, 7 => some .maxu
  | 0x30, 1 => some .rol
  | 0x30, 5 => some .ror
  | _, _ => none
/-- OP-32 (opcode 0x3B). -/
def rvOp32 (f7 f3 : Nat) : Option ROp :=
  match f7, f3 with
  | 0x00, 0 => some .addw
  | 0x20, 0 => some .subw
  | 0x00, 1 => some .sllw
  | 0x00, 5 => some .srlw
  | 0x20, 5 => some .sraw
  | 0x01, 0 => some .mulw
  | 0x01, 4 => some .divw
  | 0x01, 5 => some .divuw
  | 0x01, 6 => some .remw
  | 0x01, 7 => some .remuw
  | 0x04, 0 => some .adduw
  | 0x10, 2 => some .sh1adduw
  | 0x10, 4 => some .sh2adduw
  | 0x10, 6 => some .sh3adduw
  | 0x30, 1 => some .rolw
  | 0x30, 5 => some .rorw
  | _, _ => none
def rvAmo : Nat → Option AOp
  | 0x02 => some .lr
  | 0x03 => some .sc
  | 0x01 => some .swap
  | 0x00 => some .add
  | 0x04 => some .xor
  | 0x0C => some .and
  | 0x08 => some .or
  | 0x10 => some .min
  | 0x14 => some .max
  | 0x18 => some .minu
  | 0x1C => some .maxu
  | _ => none
def rvCsr : Nat → Option CsrOp
  | 1 => some .rw
  | 2 => some .rs
  | 3 => some .rc
  | _ => none

/-- SYSTEM (opcode 0x73). -/
def rvSystem (w : BitVec 32) (f3 : Nat) (rd rs1 rs2 : XReg) : Option RvInstr :=
  let f7 := w.toNat / 33554432
  if f3 = 0 then
    if rd = 0 ∧ f7 = 9 then some (.sfenceVma rs1 rs2)
    else if rd = 0 ∧ rs1 = 0 then
      match w.toNat / 1048576 with
      | 0x000 => some .ecall
      | 0x001 => some .ebreak
      | 0x302 => some .mret
      | 0x102 => some .sret
      | 0x105 => some .wfi
      | _ => none
    else none
  else if f3 < 4 then (rvCsr f3).map fun o => .csr o rd rs1 (fld 12 w 20)
  else (rvCsr (f3 - 4)).map fun o => .csri o rd (fld 5 w 15) (fld 12 w 20)

/-- A 32-bit word of the RV64 base: `none` where the base has no such encoding. -/
def decodeRv? (w : BitVec 32) : Option RvInstr :=
  let rd := rvX w 7
  let rs1 := rvX w 15
  let rs2 := rvX w 20
  let f3 := w.toNat / 4096 % 8
  let f7 := w.toNat / 33554432
  match w.toNat % 128 with
  | 0x37 => some (.lui rd (fld 20 w 12))
  | 0x17 => some (.auipc rd (fld 20 w 12))
  | 0x6F => some (.jal rd (immJ w))
  | 0x67 => if f3 = 0 then some (.jalr rd rs1 (fld 12 w 20)) else none
  | 0x63 => (rvBranch f3).map fun o => .branch o rs1 rs2 (immB w)
  | 0x03 => (rvLoad f3).map fun o => .load o rd rs1 (fld 12 w 20)
  | 0x23 => if f3 < 4 then some (.store (sizeOf2 f3) rs1 rs2 (immS w)) else none
  | 0x13 => rvOpImm f3 (fld 12 w 20) rd rs1
  | 0x1B => rvOpImm32 f3 (fld 12 w 20) rd rs1
  | 0x33 => (rvOp f7 f3).map fun o => .op o rd rs1 rs2
  | 0x3B =>
    if f7 = 4 ∧ f3 = 4 then (if rs2 = 0 then some (.unary .zexth rd rs1) else none)
    else (rvOp32 f7 f3).map fun o => .op o rd rs1 rs2
  | 0x2F =>
    if f3 = 2 ∨ f3 = 3 then
      match rvAmo (f7 / 4) with
      | some .lr => if rs2 = 0 then some (.amo .lr (f3 == 3) (f7 / 2 % 2 == 1) (f7 % 2 == 1) rd rs1 rs2) else none
      | some o => some (.amo o (f3 == 3) (f7 / 2 % 2 == 1) (f7 % 2 == 1) rd rs1 rs2)
      | none => none
    else none
  | 0x0F =>
    match f3 with
    | 0 => some (.fence (fld 4 w 28) (fld 4 w 24) (fld 4 w 20) rd rs1)
    | 1 => some (.fenceI rd rs1 (fld 12 w 20))
    | _ => none
  | 0x73 => rvSystem w f3 rd rs1 rs2
  | _ => none

/-- A 32-bit word of a hart: a `kz` instruction, an instruction of the base, or an illegal one. -/
def decode32 (w : BitVec 32) : Instr :=
  match decodeKz w with
  | some i => i
  | none => .rv64 ((decodeRv? w).getD (.illegal w)) false

/-- x8 + the three bits at `lo` of a compressed halfword. -/
def rvC (h : Half) (lo : Nat) : XReg := Fin.ofNat 32 (8 + h.toNat / 2 ^ lo % 8)
def bitsH (h : Half) (lo n : Nat) : Nat := h.toNat / 2 ^ lo % 2 ^ n

/-- Quadrant 0 of the C extension. -/
def decC0 (h : Half) : Option RvInstr :=
  let rd := rvC h 2
  let rs1 := rvC h 7
  let uimmW := bitsH h 10 3 * 8 + bitsH h 6 1 * 4 + bitsH h 5 1 * 64
  let uimmD := bitsH h 10 3 * 8 + bitsH h 5 2 * 64
  match bitsH h 13 3 with
  | 0 =>
    let imm := bitsH h 11 2 * 16 + bitsH h 7 4 * 64 + bitsH h 6 1 * 4 + bitsH h 5 1 * 8
    if imm = 0 then none else some (.opImm .addi rd 2 (BitVec.ofNat 12 imm))
  | 2 => some (.load .lw rd rs1 (BitVec.ofNat 12 uimmW))
  | 3 => some (.load .ld rd rs1 (BitVec.ofNat 12 uimmD))
  | 6 => some (.store .w rs1 rd (BitVec.ofNat 12 uimmW))
  | 7 => some (.store .d rs1 rd (BitVec.ofNat 12 uimmD))
  | _ => none

/-- Quadrant 1. -/
def decC1 (h : Half) : Option RvInstr :=
  let rd : XReg := Fin.ofNat 32 (bitsH h 7 5)
  let i6 : BitVec 6 := BitVec.ofNat 6 (bitsH h 12 1 * 32 + bitsH h 2 5)
  let imm : BitVec 12 := i6.signExtend 12
  let rc := rvC h 7
  let rc2 := rvC h 2
  match bitsH h 13 3 with
  | 0 => some (.opImm .addi rd rd imm)
  | 1 => if rd = 0 then none else some (.opImm .addiw rd rd imm)
  | 2 => some (.opImm .addi rd 0 imm)
  | 3 =>
    if rd = 2 then
      let j : BitVec 10 := BitVec.ofNat 10 (bitsH h 12 1 * 512 + bitsH h 6 1 * 16 + bitsH h 5 1 * 64 +
        bitsH h 3 2 * 128 + bitsH h 2 1 * 32)
      if j = 0 then none else some (.opImm .addi 2 2 (j.signExtend 12))
    else if i6 = 0 then none
    else some (.lui rd (i6.signExtend 20))
  | 4 =>
    match bitsH h 10 2 with
    | 0 => some (.opImm .srli rc rc (i6.setWidth 12))
    | 1 => some (.opImm .srai rc rc (i6.setWidth 12))
    | 2 => some (.opImm .andi rc rc imm)
    | _ =>
      match bitsH h 12 1, bitsH h 5 2 with
      | 0, 0 => some (.op .sub rc rc rc2)
      | 0, 1 => some (.op .xor rc rc rc2)
      | 0, 2 => some (.op .or rc rc rc2)
      | 0, _ => some (.op .and rc rc rc2)
      | _, 0 => some (.op .subw rc rc rc2)
      | _, 1 => some (.op .addw rc rc rc2)
      | _, _ => none
  | 5 =>
    let j : BitVec 11 := BitVec.ofNat 11 (bitsH h 12 1 * 1024 + bitsH h 8 1 * 512 + bitsH h 9 2 * 128 +
      bitsH h 6 1 * 64 + bitsH h 7 1 * 32 + bitsH h 2 1 * 16 + bitsH h 11 1 * 8 + bitsH h 3 3)
    some (.jal 0 (j.signExtend 20))
  | n =>
    let b : BitVec 8 := BitVec.ofNat 8 (bitsH h 12 1 * 128 + bitsH h 5 2 * 32 + bitsH h 2 1 * 16 +
      bitsH h 10 2 * 4 + bitsH h 3 2)
    some (.branch (if n = 6 then .beq else .bne) rc 0 (b.signExtend 12))

/-- Quadrant 2. -/
def decC2 (h : Half) : Option RvInstr :=
  let rd : XReg := Fin.ofNat 32 (bitsH h 7 5)
  let rs2 : XReg := Fin.ofNat 32 (bitsH h 2 5)
  match bitsH h 13 3 with
  | 0 => some (.opImm .slli rd rd (BitVec.ofNat 12 (bitsH h 12 1 * 32 + bitsH h 2 5)))
  | 2 =>
    if rd = 0 then none
    else some (.load .lw rd 2 (BitVec.ofNat 12 (bitsH h 12 1 * 32 + bitsH h 4 3 * 4 + bitsH h 2 2 * 64)))
  | 3 =>
    if rd = 0 then none
    else some (.load .ld rd 2 (BitVec.ofNat 12 (bitsH h 12 1 * 32 + bitsH h 5 2 * 8 + bitsH h 2 3 * 64)))
  | 4 =>
    if bitsH h 12 1 = 0 then
      if rs2 = 0 then (if rd = 0 then none else some (.jalr 0 rd 0))
      else some (.op .add rd 0 rs2)
    else if rs2 = 0 then (if rd = 0 then some .ebreak else some (.jalr 1 rd 0))
    else some (.op .add rd rd rs2)
  | 6 => some (.store .w 2 rs2 (BitVec.ofNat 12 (bitsH h 9 4 * 4 + bitsH h 7 2 * 64)))
  | 7 => some (.store .d 2 rs2 (BitVec.ofNat 12 (bitsH h 10 3 * 8 + bitsH h 7 3 * 64)))
  | _ => none

/-- A compressed halfword, expanded. -/
def decode16 (h : Half) : Instr :=
  let r := match bitsH h 0 2 with
    | 0 => decC0 h
    | 1 => decC1 h
    | _ => decC2 h
  .rv64 (r.getD (.illegal (h.setWidth 32))) true

/-- The instruction that the decoder reads from an instruction whose bits, numbered as the opcode table numbers them, are
`w`: a 16-bit head without tails, or a 32-bit word of a hart. -/
def decodeTableWord (nbits w : Nat) : Option Instr :=
  if nbits = 16 then decodeMicro (BitVec.ofNat 16 w) []
  else if nbits = 32 then
    match decode32 (BitVec.ofNat 32 w) with
    | .rv64 (.illegal _) _ => none
    | i => some i
  else none

/-! ### The encoder -/

/-- A head (03 R59). -/
def encHead (op d tl : Nat) (x : Bool) : Half := BitVec.ofNat 16 (op * 512 + d * 8 + tl * 2 + x.toNat)
/-- A TR tail (03 R60). -/
def encTR (a : Nat) (ea : Bool) (b : Nat) (eb : Bool) (m : Nat) : Half :=
  BitVec.ofNat 16 (a * 1024 + ea.toNat * 512 + b * 8 + eb.toNat * 4 + m)
def encAB (a b : SSrc) (m : Nat) : Half := encTR a.reg.code a.trap b.reg.code b.trap m
def encA (a : SSrc) (m : Nat) : Half := encTR a.reg.code a.trap 0 false m
def encVV (a b : VSrc) (m : Nat) : Half := encTR (vCode a.reg) a.trap (vCode b.reg) b.trap m
def encV (a : VSrc) (m : Nat) : Half := encTR (vCode a.reg) a.trap 0 false m
def encSV (a : SSrc) (b : VSrc) (m : Nat) : Half := encTR a.reg.code a.trap (vCode b.reg) b.trap m
def encVS (a : VSrc) (b : SSrc) (m : Nat) : Half := encTR (vCode a.reg) a.trap b.reg.code b.trap m
def encVo (a : VSrc) (b : Option VSrc) (m : Nat) : Half :=
  match b with
  | some b => encVV a b m
  | none => encV a m
def encNat (n : Nat) : Half := BitVec.ofNat 16 n

def Imm.words : Imm → List Half
  | .k16 v => [v]
  | .k32 v => [encNat v.toNat, encNat (v.toNat / 65536)]
def MImm.words : MImm → List Half
  | .k16 v => [v]
  | .k32 v => [encNat v.toNat, encNat (v.toNat / 65536)]
  | .k48 v => [encNat v.toNat, encNat (v.toNat / 65536), encNat (v.toNat / 4294967296)]
def siteWords : Site → List Half
  | none => []
  | some s => [s]

/-- Head and tails, with TL and X from the tails. -/
def encW (op d : Nat) (x : Bool) (ts : List Half) : List Half := encHead op d ts.length x :: ts

/-- The completion halfword (03 R79). -/
def encCompl : Compl → Half
  | .none => 0
  | .st t v => encNat (16384 + t.val * 256 + v.val * 4)
  | .inc t v => encNat (32768 + t.val * 256 + v.val * 4)
/-- The flag halfword (03 R78). -/
def encFlag (e : Eng) (last : Bool) (f : Nat) : Half :=
  encNat (last.toNat * 32768 + e.acq.toNat * 16384 + e.rel.toNat * 8192 + e.scope.toNat * 1024 + f)
/-- An engine command's words. -/
def encCmd (op m : Nat) (e : Eng) (last : Bool) (f : Nat) : List Half :=
  encW op e.d.code false [encTR e.a.val e.trap 0 false m, encFlag e last f, encCompl e.compl]

def encMov : MovForm → List Half
  | .ss d a => encW 0x11 d.code false [encA a 0]
  | .vv d a => encW 0x11 (vCode d) false [encV a 0]
  | .pp d a => encW 0x11 (pCode d) false [encTR (pCode a.reg) a.trap 0 false 0]
  | .ps d a => encW 0x11 (pCode d) false [encA a 0]
  | .sp d a => encW 0x11 d.code false [encTR (pCode a.reg) a.trap 0 false 0]

/-- The words of a micro-thread instruction: its head, then its tails from the highest address down. A transition has no
encoding, and a hart's instruction has its own encoder. -/
def encode : Instr → List Half
  | .add d a b => encW 0x01 d.code false [encAB a b 0]
  | .sub d a b => encW 0x02 d.code false [encAB a b 0]
  | .addk d a k => encW 0x03 d.code false (encA a 0 :: k.words)
  | .mul d a b => encW 0x04 d.code false [encAB a b 0]
  | .mulh o d a b => encW 0x05 d.code false [encAB a b o.code]
  | .div s d a b => encW 0x06 d.code false [encAB a b (!s).toNat]
  | .rem s d a b => encW 0x07 d.code false [encAB a b (!s).toNat]
  | .and d a b => encW 0x08 d.code false [encAB a b 0]
  | .or d a b => encW 0x09 d.code false [encAB a b 0]
  | .xor d a b => encW 0x0A d.code false [encAB a b 0]
  | .logk o d a k => encW 0x0B d.code false (encA a o.code :: k.words)
  | .shl d a (.reg b) => encW 0x0C d.code false [encAB a b 0]
  | .shl d a (.imm n) => encW 0x0C d.code false [encA a 0, encNat n.toNat]
  | .shr s d a (.reg b) => encW 0x0D d.code false [encAB a b s.toNat]
  | .shr s d a (.imm n) => encW 0x0D d.code false [encA a s.toNat, encNat n.toNat]
  | .mnx o d a b => encW 0x0E d.code false [encAB a b o.code]
  | .bcnt o d a => encW 0x0F d.code false [encA a o.code]
  | .movk d k => encW 0x10 d.code false k.words
  | .mov f => encMov f
  | .sel d a b p => encW 0x12 d.code false [encAB a b 0, encNat p.val]
  | .cmp o d a b => encW 0x13 d.code false [encAB a b o.code]
  | .cmpz o d a b => encW 0x14 d.code false [encAB a b o.code]
  | .lea d a b sh k => encW 0x15 d.code false (encAB a b sh.toNat :: k.words)
  | .ext z d a w => encW 0x16 d.code false [encA a z.toNat, encNat w.toNat]
  | .bfx s d a l w => encW 0x17 d.code false [encA a s.toNat, encNat (l.toNat + 64 * w.toNat)]
  | .bfi d a l w => encW 0x18 d.code false [encA a 0, encNat (l.toNat + 64 * w.toNat)]
  | .br k => encW 0x20 0 false k.words
  | .bc c a b k s => encW 0x21 c.code s.isSome ([encAB a b 0, k] ++ siteWords s)
  | .loop d k s => encW 0x22 d.val s.isSome (k :: siteWords s)
  | .fetch => encW 0x23 0 false []
  | .fetchLines k => encW 0x23 0 false [k]
  | .call d k => encW 0x24 d.code false k.words
  | .jmp a => encW 0x25 0 false [encA a 0]
  | .stop => encW 0x26 0 false []
  | .pfi (.line k) => encW 0x27 0 false [k]
  | .pfi (.addr a k) => encW 0x27 0 false [encA a 0, k]
  | .xrd d s => encW 0x28 d.code true [s]
  | .xbr t k s => encW 0x29 t.toNat true [k, s]
  | .xsel o d a b s => encW 0x2A d.code true [encAB a b o.code, s]
  | .xpf a b s => encW 0x2B 0 true [encAB a b 0, s]
  | .xunr d c s => encW 0x2C d.code true [encNat c.val, s]
  | .nop => encW 0x2D 0 false []
  | .yield => encW 0x2E 0 false []
  | .ld z d a k s => encW 0x30 d.code s.isSome ([encA a z.code, k] ++ siteWords s)
  | .ldz z d a k s => encW 0x31 d.code s.isSome ([encA a z.code, k] ++ siteWords s)
  | .ldAcq z d a k c => encW 0x32 d.code false [encA a z.code, k, encNat c.code]
  | .st z d a k => encW 0x33 d.code false [encA a z.code, k]
  | .stRel z d a k c => encW 0x34 d.code false [encA a z.code, k, encNat c.code]
  | .lld (.s d) a k => encW 0x35 d.code false [encA a 0, k]
  | .lld (.v d) a k => encW 0x35 (vCode d) false [encA a 0, k]
  | .lst (.s d) a k => encW 0x36 d.code false [encA a 0, k]
  | .lst (.v d) a k => encW 0x36 (vCode d) false [encA a 0, k]
  | .vld d a k s => encW 0x37 (vCode d) s.isSome ([encA a 0, k] ++ siteWords s)
  | .vst d a k => encW 0x38 (vCode d) false [encA a 0, k]
  | .vldx d a b z => encW 0x39 (vCode d) false [encSV a b z.code]
  | .vstx d a b z => encW 0x3A (vCode d) false [encSV a b z.code]
  | .vldg d a b z s => encW 0x3B (vCode d) s.isSome (encSV a b z.code :: siteWords s)
  | .vstg d a b z => encW 0x3C (vCode d) false [encSV a b z.code]
  | .sbind d (.rd a b) => encW 0x3D (stCode d) false [encAB a b 0]
  | .sbind d (.wr a b) => encW 0x3D (stCode d) false [encAB a b 1]
  | .sbind d .un => encW 0x3D (stCode d) false [encTR 0 false 0 false 2]
  | .sloop d k s => encW 0x3E (stCode d) s.isSome (k :: siteWords s)
  | .pfd l a k => encW 0x3F 0 false [encA a l.code, k]
  | .vadd t d a b => encW 0x40 (vCode d) false [encVV a b t.code]
  | .vsub t d a b => encW 0x41 (vCode d) false [encVV a b t.code]
  | .vmul t d a b => encW 0x42 (vCode d) false [encVV a b t.code]
  | .vfma t d a b => encW 0x43 (vCode d) false [encVV a b t.code]
  | .vmin t d a b => encW 0x44 (vCode d) false [encVV a b t.code]
  | .vmax t d a b => encW 0x45 (vCode d) false [encVV a b t.code]
  | .vabs t d a => encW 0x46 (vCode d) false [encV a t.code]
  | .vneg t d a => encW 0x47 (vCode d) false [encV a t.code]
  | .vand d a b => encW 0x48 (vCode d) false [encVV a b 0]
  | .vor d a b => encW 0x49 (vCode d) false [encVV a b 0]
  | .vxor d a b => encW 0x4A (vCode d) false [encVV a b 0]
  | .vshl d a (.reg b) => encW 0x4B (vCode d) false [encVV a b 0]
  | .vshl d a (.imm n) => encW 0x4B (vCode d) false [encV a 0, encNat n.toNat]
  | .vshr s d a (.reg b) => encW 0x4C (vCode d) false [encVV a b s.toNat]
  | .vshr s d a (.imm n) => encW 0x4C (vCode d) false [encV a s.toNat, encNat n.toNat]
  | .vrcp d a => encW 0x4D (vCode d) false [encV a 0]
  | .vrsq d a => encW 0x4E (vCode d) false [encV a 0]
  | .vex2 d a => encW 0x4F (vCode d) false [encV a 0]
  | .vlg2 d a => encW 0x50 (vCode d) false [encV a 0]
  | .vcvt t u d a b => encW 0x51 (vCode d) false [encVo a b t.code, encNat u.code]
  | .vcmp o t d a b => encW 0x52 (pCode d) false [encVV a b t.code, encNat o.code]
  | .vsel d a b p => encW 0x53 (vCode d) false [encVV a b 0, encNat p.val]
  | .vred o t d a => encW 0x54 d.code false [encV a t.code, encNat o.code]
  | .vbc d a => encW 0x55 (vCode d) false [encA a 0]
  | .vget d a l => encW 0x56 d.code false [encV a 0, encNat l.toNat]
  | .vput d a l => encW 0x57 (vCode d) false [encA a 0, encNat l.toNat]
  | .vperm d a b => encW 0x58 (vCode d) false [encVV a b 0]
  | .vdot f d a b => encW 0x59 (vCode d) false [encVV a b (2 + f.toNat)]
  | .vscl t d a b => encW 0x5A (vCode d) false [encVS a b t.code]
  | .viota d => encW 0x5B (vCode d) false []
  | .viotaStart d k => encW 0x5B (vCode d) false [k]
  | .vfd o d a b => encW 0x5C (vCode d) false [encVo a b 0, encNat o.code]
  | .amo o z r d a b => encW 0x60 d.code false [encAB a b (2 + z.toNat), encNat (o.code + r.code)]
  | .cas z r d a b => encW 0x61 d.code false [encAB a b (2 + z.toNat), encNat r.code]
  | .amof o z r d a b => encW 0x62 d.code false [encAB a b (2 + z.toNat), encNat (o.code + r.code)]
  | .fence k s => encW 0x63 0 false [encNat (k.code + 4 * s.code)]
  | .wait c t d a b => encW 0x64 d.code false [encAB a b c.code, encNat t.toNat]
  | .mbinc a b => encW 0x65 0 false [encAB a b 0]
  | .mbrd d a => encW 0x66 d.code false [encA a 0]
  | .rgwait d n => encW 0x67 d.code false [encTR 0 false 0 false 0, encNat n.val]
  | .rgrel n b => encW 0x68 0 false [encTR 0 false b.reg.code b.trap 0, encNat n.val]
  | .barArrive s b => encW 0x69 0 false [encNat (s.code + 16 * b.val)]
  | .barWait s b => encW 0x69 0 false [encNat (s.code + 8 + 16 * b.val)]
  | .lck d a => encW 0x6A d.code false [encA a 0]
  | .ulck a => encW 0x6B 0 false [encA a 0]
  | .ifence => encW 0x6C 0 false []
  | .trap k => encW 0x6D 0 false [k]
  | .rdsr d r => encW 0x6E d.code false [encNat r.toNat]
  | .wrsr r a => encW 0x6F 0 false [encA a 0, encNat r.toNat]
  | .send e l k g => encCmd 0x70 0 e l (k.code * 256 + g.toNat * 128)
  | .csend e => encCmd 0x71 0 e false 0
  | .gath e w => encCmd 0x72 0 e false w.code
  | .scat e o w => encCmd 0x73 o.code e false w.code
  | .mzero e => encCmd 0x74 0 e false 0
  | .mbld e => encCmd 0x75 0 e false 0
  | .mma e f z => encCmd 0x76 0 e false (f.toNat + 16 * z.toNat)
  | .mmas e f z => encCmd 0x77 0 e false (f.toNat + 16 * z.toNat)
  | .mcmpr e f => encCmd 0x78 0 e false f.toNat
  | .mst e c => encCmd 0x79 0 e false c.toNat
  | .dpush d a => encW 0x7A d.code false [encA a 0]
  | .dpop d => encW 0x7A d.val false [encTR 0 false 0 false 1]
  | .dsplit d => encW 0x7A d.code false [encTR 0 false 0 false 2]
  | .dlen d => encW 0x7A d.code false [encTR 0 false 0 false 3]
  | _ => []

/-- The custom-0 word (03 R83). -/
def encKz (f7 : Nat) (rd rs1 rs2 : XReg) : BitVec 32 :=
  BitVec.ofNat 32 (0x0B + rd.val * 128 + rs1.val * 32768 + rs2.val * 1048576 + f7 * 33554432)

/-- The word of a `kz` instruction (03 R84). -/
def encodeKz : Instr → Option (BitVec 32)
  | .kzBcast a b => some (encKz 0x00 0 a b)
  | .kzWait a => some (encKz 0x01 0 a 0)
  | .kzFork a => some (encKz 0x02 0 a 0)
  | .kzJoin => some (encKz 0x03 0 0 0)
  | .kzLease => some (encKz 0x04 0 0 0)
  | .kzUnlease => some (encKz 0x05 0 0 0)
  | .kzFault d a b => some (encKz 0x06 d a b)
  | .kzResume a b => some (encKz 0x07 0 a b)
  | .kzKill a => some (encKz 0x08 0 a 0)
  | .kzRdsl d a => some (encKz 0x09 d a 0)
  | .kzWrsl a b => some (encKz 0x0A 0 a b)
  | .kzTask d a => some (encKz 0x0B d a 0)
  | _ => none

end Sys2Proof
end

