-- ==== Sys2Proof/Config.lean ====
section
/-! DEFINITION. What an implementation fixes and the free values: constants with no body, so that nothing can be proved
of them beyond the limits the manual sets. -/

namespace Sys2Proof.Config

/-- Which of the two f32 neighbours of the exact result `vrcp` returns (04 R119: within 1 ulp). Log 20. -/
opaque rcpUp : BitVec 32 → Bool
/-- Which of the two f32 neighbours of the exact result `vrsq` returns (04 R119). Log 20. -/
opaque rsqUp : BitVec 32 → Bool
/-- The distance in ulp, 0 to 3 counted from one below the floor of the exact result, of `vex2` (04 R119). Log 20. -/
opaque ex2Pick : BitVec 32 → Fin 4
/-- As `ex2Pick`, for `vlg2` outside 0.5 to 2 (04 R119). Log 20. -/
opaque lg2Pick : BitVec 32 → Fin 4
/-- The error of `vlg2` from 0.5 to 2, in units of 2^−46, offset by 3 × 2^22 (04 R119). Log 20. -/
opaque lg2Err : BitVec 32 → Fin 25165825
/-- The device key that the PUF yields (20 R461, R466); it never leaves the crypto engine. Log 21. -/
opaque deviceKey : Nat
/-- Byte `k` of the `n`-th draw of the crypto engine's DRBG (20 R461). Log 21. -/
opaque drbgByte : Nat → Nat → BitVec 8
/-- The vendor key hash held in the mask ROM (20 R458, 18 R423). Log 22. -/
opaque vendorKeyHash : BitVec 256
/-- The minimum security version held in the mask ROM (20 R458). Log 22. -/
opaque minSvn : BitVec 16
/-- The bytes of the mask ROM that the manual does not give (20 R458). Log 22. -/
opaque romByte : Nat → BitVec 8
/-- The rank, in the `n`-th command's order of additions, of word `j` of element `i` of `scat.addf` (08 R251: an order that
is not specified). Log 23. -/
opaque scatterRank : Nat → Nat → Nat → Nat
/-- The energy estimate that a window of a quad adds (19 R447: under a model Dunvel does not publish). Log 24. -/
opaque windowEnergy : Nat → Nat → Nat
/-- The check bits of the root die's ECC over 16 ciphertext bytes (18 R411: the manual names what the code corrects and not the
code). Log 89. -/
opaque eccBits : List (BitVec 8) → BitVec 16
/-- What that ECC makes of 16 bytes and check bits with three or more symbols changed, which R411 does not say: the bytes it takes
them for, or none where it finds an error that it cannot correct. Log 89. -/
opaque eccFix : List (BitVec 8) → BitVec 16 → Option (List (BitVec 8))
/-- The header of a packet for a line on a die link and a direction, whose format the manual does not give (17 R397). Log 97. -/
opaque linkHeader : Nat → Bool → Nat → List (BitVec 8)
/-- Stack energy of a byte read from or written to a stack, and link energy of a byte sent, in units of 1/256 µJ (19 R447: in
proportion to HBMB and SENTB). Log 24. -/
opaque stackEnergy : Nat
opaque linkEnergy : Nat
/-- What the `n`-th sample of a link counter has grown by: flits low, stalls high (19 R433: the manual gives no traffic of
the mesh). Log 27. -/
opaque linkTraffic : Nat → Nat → BitVec 64
/-- A busy management operation's completion delay in cycles, for the `n`-th operation (17 R394, 20 R461). Log 25. -/
opaque busyCycles : Nat → Nat
/-- The value that a poisoned read leaves where a value must stand and the manual gives none. Log 26. -/
opaque freeWord : Nat → BitVec 64

end Sys2Proof.Config
end

