-- ==== Sys2Proof/Machine/Fp.lean ====
section
/-! DEFINITION. Floating point to the last bit (04 R87 to R93, R116, R117, R119, R120): exact values are dyadic
(sign, mantissa, exponent), and every result is rounded once, explicitly. -/

namespace Sys2Proof.Machine

/-- A binary format by its exponent and fraction widths. -/
structure Fmt where
  ebits : Nat
  mbits : Nat
  deriving DecidableEq, Repr

abbrev fmt64 : Fmt := ⟨11, 52⟩
abbrev fmt32 : Fmt := ⟨8, 23⟩
abbrev fmt16 : Fmt := ⟨5, 10⟩
abbrev fmtBf : Fmt := ⟨8, 7⟩

abbrev Fmt.bias (f : Fmt) : Int := 2 ^ (f.ebits - 1) - 1
abbrev Fmt.emin (f : Fmt) : Int := 1 - f.bias
/-- The quantum exponent of subnormals. -/
abbrev Fmt.qmin (f : Fmt) : Int := f.emin - f.mbits
abbrev Fmt.expMax (f : Fmt) : Nat := 2 ^ f.ebits - 1
abbrev Fmt.signBit (f : Fmt) (neg : Bool) : Nat := if neg then 2 ^ (f.ebits + f.mbits) else 0
/-- The canonical quiet NaN, sign 0 (04 R87). -/
abbrev Fmt.qnan (f : Fmt) : Nat := f.expMax <<< f.mbits + 2 ^ (f.mbits - 1)
abbrev Fmt.inf (f : Fmt) (neg : Bool) : Nat := f.signBit neg + f.expMax <<< f.mbits
/-- The largest finite value of a sign. -/
abbrev Fmt.maxFin (f : Fmt) (neg : Bool) : Nat := f.signBit neg + (f.expMax <<< f.mbits - 1)

/-- An exact value: a NaN (signalling or not), an infinity, or (−1)^neg × m × 2^e. -/
inductive FVal where
  | nan (signalling : Bool)
  | inf (neg : Bool)
  | fin (neg : Bool) (m : Nat) (e : Int)
  deriving DecidableEq, Repr

abbrev flNV : Flags := 16
abbrev flDZ : Flags := 8
abbrev flOF : Flags := 4
abbrev flUF : Flags := 2
abbrev flNX : Flags := 1

/-- Rounding modes (04 R89, RM). -/
inductive RMode where
  | rne | rtz | rdn | rup
  deriving DecidableEq, Repr

/-- The mode of a 2-bit RM field. -/
def RMode.ofField : Nat → RMode
  | 0 => .rne
  | 1 => .rtz
  | 2 => .rdn
  | _ => .rup

/-- Decode. Subnormals are honoured everywhere (04 R87). -/
def Fmt.dec (f : Fmt) (x : Nat) : FVal :=
  let neg := x.testBit (f.ebits + f.mbits)
  let ex := (x >>> f.mbits) % 2 ^ f.ebits
  let fr := x % 2 ^ f.mbits
  if ex = f.expMax then
    if fr = 0 then .inf neg else .nan (!fr.testBit (f.mbits - 1))
  else if ex = 0 then .fin neg fr f.qmin
  else .fin neg (2 ^ f.mbits + fr) (f.qmin + (ex - 1 : Int))

/-- `m ÷ 2^d` rounded by the mode, with whether it was inexact. -/
def roundMag (rm : RMode) (neg : Bool) (m d : Nat) : Nat × Bool :=
  let q := m >>> d
  let r := m % 2 ^ d
  if r = 0 then (q, false)
  else
    let up := match rm with
      | .rne => decide (2 ^ d < 2 * r) || (decide (2 * r = 2 ^ d) && decide (q % 2 = 1))
      | .rtz => false
      | .rdn => neg
      | .rup => !neg
    (if up then q + 1 else q, true)

/-- `m × 2^e` as a multiple of 2^q, rounded by the mode. -/
def toQuantum (rm : RMode) (neg : Bool) (m : Nat) (e q : Int) : Nat × Bool :=
  if q ≤ e then (m <<< (e - q).toNat, false) else roundMag rm neg m (q - e).toNat

/-- Round (−1)^neg × m × 2^e to a format, once, with the flags of 04 R90: tininess after rounding, UF only when tiny and
inexact, overflow by the mode. -/
def Fmt.round (f : Fmt) (rm : RMode) (neg : Bool) (m : Nat) (e : Int) : Nat × Flags :=
  if m = 0 then (f.signBit neg, 0)
  else
    let top : Int := (Nat.log2 m : Int) + e
    let q : Int := max (top - f.mbits) f.qmin
    let (n, inex) := toQuantum rm neg m e q
    let bits := ((q - f.qmin).toNat <<< f.mbits) + n
    if f.expMax <<< f.mbits ≤ bits then
      let toInf := match rm with
        | .rne => true
        | .rtz => false
        | .rdn => neg
        | .rup => !neg
      (if toInf then f.inf neg else f.maxFin neg, flOF ||| flNX)
    else
      let tiny := decide (top < f.emin) &&
        !(decide (top = f.emin - 1) &&
          decide ((toQuantum rm neg m e (top - f.mbits)).1 = 2 ^ (f.mbits + 1)))
      (f.signBit neg + bits, (if inex then flNX else 0) ||| (if tiny && inex then flUF else 0))

/-- A finite term of an exact sum. -/
structure Term where
  neg : Bool
  m : Nat
  e : Int
  deriving DecidableEq, Repr

/-- The least exponent of a list of terms. -/
def minExp : List Term → Int
  | [] => 0
  | t :: ts => ts.foldl (fun a u => min a u.e) t.e

/-- The exact sum of the terms as an integer multiple of 2^e. -/
def sumAt (ts : List Term) (e : Int) : Int :=
  ts.foldl (fun a t => a + (if t.neg then -1 else 1) * ((t.m <<< (t.e - e).toNat : Nat) : Int)) 0

/-- The sign of an exact zero sum (04 R90): −0 when every operand is −0, or under RDN. -/
def zeroSumNeg (rm : RMode) (ts : List Term) : Bool :=
  (ts.all fun t => t.neg && decide (t.m = 0)) || decide (rm = .rdn)

/-- The exact sum rounded once. -/
def Fmt.sumRound (f : Fmt) (rm : RMode) (ts : List Term) : Nat × Flags :=
  let e := minExp ts
  let s := sumAt ts e
  if s = 0 then (f.signBit (zeroSumNeg rm ts), 0)
  else f.round rm (decide (s < 0)) s.natAbs e

def FVal.isNan : FVal → Bool
  | .nan _ => true
  | _ => false
def FVal.isSnan : FVal → Bool
  | .nan s => s
  | _ => false
def FVal.isZero : FVal → Bool
  | .fin _ m _ => decide (m = 0)
  | _ => false
def FVal.isInf : FVal → Bool
  | .inf _ => true
  | _ => false
def FVal.neg : FVal → Bool
  | .nan _ => false
  | .inf n => n
  | .fin n _ _ => n

/-- A product of infinity and zero (04 R87). -/
def badProd (p : FVal × FVal) : Bool := (p.1.isInf && p.2.isZero) || (p.1.isZero && p.2.isInf)

/-- The sign of an infinite product or addend, if it is one. -/
def prodInf (p : FVal × FVal) : Option Bool :=
  if p.1.isInf || p.2.isInf then some (p.1.neg != p.2.neg) else none
def addInf (v : FVal) : Option Bool := if v.isInf then some v.neg else none

def prodTerm (p : FVal × FVal) : Term :=
  match p with
  | (.fin n m e, .fin n' m' e') => ⟨n != n', m * m', e + e'⟩
  | _ => ⟨false, 0, 0⟩
def addTerm (v : FVal) : Term :=
  match v with
  | .fin n m e => ⟨n, m, e⟩
  | _ => ⟨false, 0, 0⟩

/-- What special operands decide of a sum of products and addends, before any rounding (04 R87, R113): the canonical NaN,
an infinity, or nothing. DESIGN CHOICE (log 104): infinities of both signs beside a quiet NaN raise no NV in a scalar or lane sum
either, as R113 has it for the array. -/
def specialSum (f : Fmt) (prods : List (FVal × FVal)) (adds : List FVal) : Option (Nat × Flags) :=
  let ops := prods.flatMap (fun p => [p.1, p.2]) ++ adds
  let bad := prods.any badProd
  let infs := prods.filterMap prodInf ++ adds.filterMap addInf
  if ops.any FVal.isNan || bad then
    some (f.qnan, if bad || ops.any FVal.isSnan then flNV else 0)
  else if infs.contains true && infs.contains false then some (f.qnan, flNV)
  else match infs with
    | [] => none
    | n :: _ => some (f.inf n, 0)

/-- Round(Σ products + Σ addends), one rounding. -/
def Fmt.fused (f : Fmt) (rm : RMode) (prods : List (FVal × FVal)) (adds : List FVal) : Nat × Flags :=
  match specialSum f prods adds with
  | some r => r
  | none => f.sumRound rm (adds.map addTerm ++ prods.map prodTerm)

/-- Round(a + b). -/
def Fmt.add (f : Fmt) (rm : RMode) (a b : Nat) : Nat × Flags := f.fused rm [] [f.dec a, f.dec b]
/-- Round(a − b): the sign of b inverted, unless it is a NaN. -/
def Fmt.sub (f : Fmt) (rm : RMode) (a b : Nat) : Nat × Flags :=
  let nb := match f.dec b with
    | .nan s => .nan s
    | .inf n => .inf (!n)
    | .fin n m e => .fin (!n) m e
  f.fused rm [] [f.dec a, nb]
/-- Round(a × b): a zero product keeps the sign of the product. -/
def Fmt.mul (f : Fmt) (rm : RMode) (a b : Nat) : Nat × Flags :=
  match specialSum f [(f.dec a, f.dec b)] [] with
  | some r => r
  | none =>
    let t := prodTerm (f.dec a, f.dec b)
    f.round rm t.neg t.m t.e
/-- Round(d + a × b) (04 R117). -/
def Fmt.fma (f : Fmt) (rm : RMode) (d a b : Nat) : Nat × Flags :=
  f.fused rm [(f.dec a, f.dec b)] [f.dec d]

/-- Order of two values that are not NaN; −0 counts as less than +0 (04 R92). -/
def FVal.ltTotal (a b : FVal) : Bool :=
  match a, b with
  | .inf n, .inf n' => n && !n'
  | .inf n, _ => n
  | _, .inf n' => !n'
  | .fin n m e, .fin n' m' e' =>
    let x := sumAt [⟨n, m, e⟩] (min e e')
    let y := sumAt [⟨n', m', e'⟩] (min e e')
    if x = y then decide (x = 0) && n && !n' else decide (x < y)
  | _, _ => false

/-- Numeric equality of two values that are not NaN (−0 = +0). -/
def FVal.eqNum (a b : FVal) : Bool :=
  match a, b with
  | .inf n, .inf n' => n == n'
  | .fin n m e, .fin n' m' e' =>
    decide (sumAt [⟨n, m, e⟩] (min e e') = sumAt [⟨n', m', e'⟩] (min e e'))
  | _, _ => false

/-- Numeric order of two values that are not NaN. -/
def FVal.ltNum (a b : FVal) : Bool := FVal.ltTotal a b && !(FVal.eqNum a b)

/-- minimumNumber and maximumNumber (04 R92). -/
def Fmt.minMax (f : Fmt) (isMax : Bool) (a b : Nat) : Nat × Flags :=
  let x := f.dec a
  let y := f.dec b
  let fl : Flags := if x.isSnan || y.isSnan then flNV else 0
  if x.isNan then (if y.isNan then f.qnan else b, fl)
  else if y.isNan then (a, fl)
  else (if (if isMax then FVal.ltTotal x y else FVal.ltTotal y x) then b else a, fl)

/-- A float of one format converted to another (04 R93). -/
def Fmt.cvt (dst src : Fmt) (rm : RMode) (x : Nat) : Nat × Flags :=
  match src.dec x with
  | .nan s => (dst.qnan, if s then flNV else 0)
  | .inf n => (dst.inf n, 0)
  | .fin n m e => dst.round rm n m e

/-- f32 (or any format) to i32 by the mode (04 R93). -/
def Fmt.toI32 (f : Fmt) (rm : RMode) (x : Nat) : Lane × Flags :=
  match f.dec x with
  | .nan _ => (0, flNV)
  | .inf n => (if n then 0x80000000 else 0x7FFFFFFF, flNV)
  | .fin n m e =>
    let (k, inex) := toQuantum rm n m e 0
    let v : Int := if n then -(k : Int) else k
    if v < -2147483648 then (0x80000000, flNV)
    else if 2147483647 < v then (0x7FFFFFFF, flNV)
    else (BitVec.ofInt 32 v, if inex then flNX else 0)

/-- An i32 to a float (04 R93). -/
def Fmt.ofI32 (f : Fmt) (rm : RMode) (x : Lane) : Nat × Flags :=
  f.round rm (decide (x.toInt < 0)) x.toInt.natAbs 0

/-! ### Special functions (04 R119, R120) -/

/-- A positive value given as `q` × 2^e plus a sticky part, truncated or moved up by `k` ulp of f32. NX is always raised. -/
def sfuRound (neg : Bool) (q : Nat) (e : Int) (below up : Nat) : Nat × Flags :=
  if (fmt32.round .rne neg q e).2 &&& flOF ≠ 0 then (fmt32.inf neg, flOF ||| flNX)
  else
    let r := fmt32.round .rtz neg q e
    let floor := r.1 % 2 ^ 31
    let far := floor + up - below
    -- beyond a power of two a step is two ulp, so the nearest value there is the last within the bound
    let mag := if 2 ^ 23 ≤ floor ∧ floor / 2 ^ 23 < far / 2 ^ 23 then far / 2 ^ 23 * 2 ^ 23 else far
    let bits := fmt32.signBit neg + mag
    (bits, flNX ||| (if mag < 2 ^ 23 then flUF else 0) |||
      (if 0x7F800000 ≤ mag then flOF else 0))

/-- `vrcp` on one lane. -/
def sfuRcp (x : Lane) : Lane × Flags :=
  let r : Nat × Flags := match fmt32.dec x.toNat with
    | .nan s => (fmt32.qnan, if s then flNV else 0)
    | .inf n => (fmt32.signBit n, 0)
    | .fin n m e =>
      if m = 0 then (fmt32.inf n, flDZ)
      else if m = 2 ^ Nat.log2 m then
        let p := fmt32.round .rne n 1 (-(e + Nat.log2 m))
        p
      else sfuRound n (2 * (2 ^ 96 / m) + 1) (-e - 97) 0 (if Config.rcpUp x then 1 else 0)
  (BitVec.ofNat 32 r.1, r.2)

/-- `vrsq` on one lane. -/
def sfuRsq (x : Lane) : Lane × Flags :=
  let r : Nat × Flags := match fmt32.dec x.toNat with
    | .nan s => (fmt32.qnan, if s then flNV else 0)
    | .inf n => if n then (fmt32.qnan, flNV) else (0, 0)
    | .fin n m e =>
      if m = 0 then (fmt32.inf n, flDZ)
      else if n then (fmt32.qnan, flNV)
      else
        let odd := e.emod 2 = 1
        let m2 := if odd then 2 * m else m
        let e2 := if odd then e - 1 else e
        if m2 = 2 ^ Nat.log2 m2 ∧ Nat.log2 m2 % 2 = 0 then
          fmt32.round .rne false 1 (-(e2 / 2) - (Nat.log2 m2 / 2 : Nat))
        else sfuRound false (2 * Nat.sqrt (2 ^ 192 / m2) + 1) (-(e2 / 2) - 97) 0 (if Config.rsqUp x then 1 else 0)
  (BitVec.ofNat 32 r.1, r.2)

/-- 2^(2^−j) × 2^96 for j = 1 .. n, by repeated square roots. -/
def rootTable : Nat → Nat → List Nat
  | 0, _ => []
  | n + 1, c => let c' := Nat.sqrt (c * 2 ^ 96); c' :: rootTable n c'

/-- 2^f × 2^96 for a fraction `f` of 64 bits: the product of the roots its bits name. -/
def exp2Frac (f : Nat) : Nat :=
  ((rootTable 64 (2 ^ 97)).zipIdx).foldl
    (fun acc p => if f.testBit (63 - p.2) then acc * p.1 / 2 ^ 96 else acc) (2 ^ 96)

/-- `vex2` on one lane. -/
def sfuEx2 (x : Lane) : Lane × Flags :=
  let r : Nat × Flags := match fmt32.dec x.toNat with
    | .nan s => (fmt32.qnan, if s then flNV else 0)
    | .inf n => (if n then 0 else fmt32.inf false, 0)
    | .fin n m e =>
      if m = 0 then (0x3F800000, 0)
      else
        let sm : Int := if n then -(m : Int) else m
        let i : Int := if 0 ≤ e then sm * 2 ^ (min e 32).toNat else sm / 2 ^ (-e).toNat
        let frExact := decide (0 ≤ e) || decide (m % 2 ^ (-e).toNat = 0)
        if 128 ≤ i then (fmt32.inf false, flOF ||| flNX)
        else if frExact && decide (-149 ≤ i) then fmt32.round .rne false 1 i
        else
          let fr : Nat := ((if 0 ≤ e then 0 else (sm % 2 ^ (-e).toNat)) * 2 ^ 64 / 2 ^ (-e).toNat).toNat
          sfuRound false (2 * exp2Frac fr + 1) (max i (-200) - 97) 1 (Config.ex2Pick x).val
  (BitVec.ofNat 32 r.1, r.2)

/-- Bits of log2 of `y` ÷ 2^128 in [1, 2), most significant first, by repeated squaring. -/
def log2Bits : Nat → Nat → Nat → Nat
  | 0, _, acc => acc
  | n + 1, y, acc =>
    let y2 := y * y / 2 ^ 128
    if 2 ^ 129 ≤ y2 then log2Bits n (y2 / 2) (2 * acc + 1) else log2Bits n y2 (2 * acc)

/-- `vlg2` on one lane. DESIGN CHOICE (log 20): from 0.5 to 2 the model's free error stays within 0.75 × 2^−22 before its rounding to
f32, though the bound of 04 R119 allows 2^−22. -/
def sfuLg2 (x : Lane) : Lane × Flags :=
  let r : Nat × Flags := match fmt32.dec x.toNat with
    | .nan s => (fmt32.qnan, if s then flNV else 0)
    | .inf n => if n then (fmt32.qnan, flNV) else (fmt32.inf false, 0)
    | .fin n m e =>
      if m = 0 then (fmt32.inf true, flDZ)
      else if n then (fmt32.qnan, flNV)
      else
        let k := Nat.log2 m
        let ip : Int := e + k
        if m = 2 ^ k then fmt32.round .rne (decide (ip < 0)) ip.natAbs 0
        else
          let fr := log2Bits 60 (m * 2 ^ (128 - k)) 0
          let v : Int := ip * 2 ^ 60 + fr
          if ip = 0 ∨ ip = -1 then
            let w : Int := v + ((Config.lg2Err x).val - 12582912) * 2 ^ 14
            let p := fmt32.round .rne (decide (w < 0)) w.natAbs (-60)
            (p.1, flNX)
          else sfuRound (decide (v < 0)) (2 * v.natAbs + 1) (-61) 1 (Config.lg2Pick x).val
  (BitVec.ofNat 32 r.1, r.2)

end Sys2Proof.Machine
end

