-- ==== Sys2Proof/Machine/Maps.lean ====
section
/-! DEFINITION. Sparse memories in one canonical form, and tables keyed by identifiers. Every memory and every bank of
registers of the state is one of the two. -/

namespace Sys2Proof.Machine

/-- A sparse memory of `w`-bit cells: addresses strictly rising, no entry equal to what an unlisted address reads as. -/
abbrev Cells (w : Nat) := List (Nat × BitVec w)

/-- A byte memory: the host's cells. -/
abbrev Mem := List Host.Cell

/-- The cell at `a`; an unlisted address reads as `d`. -/
def cget {w : Nat} (d : BitVec w) : Cells w → Nat → BitVec w
  | [], _ => d
  | (k, v) :: r, a => if a = k then v else if a < k then d else cget d r a

/-- `m` with the cell at `a` holding `x`. Writing the unlisted value removes the entry. -/
def cset {w : Nat} (d : BitVec w) : Cells w → Nat → BitVec w → Cells w
  | [], a, x => if x = d then [] else [(a, x)]
  | (k, v) :: r, a, x =>
    if a < k then (if x = d then (k, v) :: r else (a, x) :: (k, v) :: r)
    else if a = k then (if x = d then r.dropWhile (fun e => decide (e.1 ≤ a)) else (a, x) :: r)
    else (k, v) :: cset d r a x

/-- The canonical form: addresses strictly rising and no entry equal to the unlisted value. -/
def cwf {w : Nat} (d : BitVec w) : Cells w → Bool
  | [] => true
  | (k, v) :: r => decide (v ≠ d) && (r.all fun e => decide (k < e.1)) && cwf d r

/-- What an unlisted byte of a memory reads as: zero (10 R289 for local memory; log 4 for global memory). -/
abbrev unlistedByte : Byte := 0

/-- One byte. -/
abbrev Mem.read (m : Mem) (a : Nat) : Byte := cget unlistedByte m a
/-- One byte written. -/
abbrev Mem.write (m : Mem) (a : Nat) (x : Byte) : Mem := cset unlistedByte m a x
/-- The canonical form of a byte memory. -/
abbrev Mem.wf (m : Mem) : Bool := cwf unlistedByte m

/-- `n` bytes from `a`, little-endian (00 R6). -/
def Mem.readN (m : Mem) (a : Nat) : Nat → Nat
  | 0 => 0
  | n + 1 => (Mem.read m a).toNat + 256 * Mem.readN m (a + 1) n

/-- The low `n` bytes of `x` written from `a`, little-endian. -/
def Mem.writeN (m : Mem) (a : Nat) : Nat → Nat → Mem
  | 0, _ => m
  | n + 1, x => Mem.writeN (Mem.write m a (BitVec.ofNat 8 x)) (a + 1) n (x / 256)

/-- `n` bytes from `a`, as a list. -/
def Mem.bytes (m : Mem) (a : Nat) : Nat → List Byte
  | 0 => []
  | n + 1 => Mem.read m a :: Mem.bytes m (a + 1) n

/-- The bytes of a list written from `a`, in order. -/
def Mem.writeBytes (m : Mem) (a : Nat) : List Byte → Mem
  | [] => m
  | x :: xs => Mem.writeBytes (Mem.write m a x) (a + 1) xs

/-- Every listed byte of `[a, a + n)` dropped, so that the range reads zero. -/
def Mem.clear (m : Mem) (a n : Nat) : Mem := m.filter fun e => decide (e.1 < a ∨ a + n ≤ e.1)

/-- `n` bytes of `src` from `a` copied into `dst` from `b`, what is unlisted too. -/
def Mem.copy (src dst : Mem) (a b n : Nat) : Mem :=
  (src.filter fun e => decide (a ≤ e.1 ∧ e.1 < a + n)).foldl (fun m e => Mem.write m (b + (e.1 - a)) e.2) (Mem.clear dst b n)

/-- Little-endian bytes as a number. -/
def leNat : List Byte → Nat
  | [] => 0
  | b :: bs => b.toNat + 256 * leNat bs

/-- The low `n` bytes of a number, little-endian. -/
def natLE : Nat → Nat → List Byte
  | 0, _ => []
  | n + 1, x => BitVec.ofNat 8 x :: natLE n (x / 256)

/-- Big-endian bytes as a number (20 R422, R465: signatures and keys). -/
def beNat (bs : List Byte) : Nat := bs.foldl (fun acc b => acc * 256 + b.toNat) 0

/-- The low `n` bytes of a number, big-endian. -/
def natBE (n x : Nat) : List Byte := (natLE n x).reverse

/-- A table: entries keyed by identifiers; an unlisted key reads as the default of its kind. -/
abbrev Tbl (κ α : Type) := List (κ × α)

/-- The entry of `k`, or `d`. -/
def tget {κ α : Type} [DecidableEq κ] (d : α) : Tbl κ α → κ → α
  | [], _ => d
  | (k', v) :: r, k => if k = k' then v else tget d r k

/-- The entry of `k`, if listed. -/
def tget? {κ α : Type} [DecidableEq κ] : Tbl κ α → κ → Option α
  | [], _ => none
  | (k', v) :: r, k => if k = k' then some v else tget? r k

/-- `k`'s entry replaced in place, or added at the end. -/
def tset {κ α : Type} [DecidableEq κ] : Tbl κ α → κ → α → Tbl κ α
  | [], k, x => [(k, x)]
  | (k', v) :: r, k, x => if k = k' then (k, x) :: r else (k', v) :: tset r k x

/-- `k`'s entry dropped. -/
def tdel {κ α : Type} [DecidableEq κ] (m : Tbl κ α) (k : κ) : Tbl κ α := m.filter fun e => decide (e.1 ≠ k)

/-- The first `n` numbers from `a`. -/
def rangeFrom (a : Nat) : Nat → List Nat
  | 0 => []
  | n + 1 => a :: rangeFrom (a + 1) n

/-- A function applied to every element of a list, threading a state from left to right. -/
def foldS {α σ : Type} (l : List α) (s : σ) (f : σ → α → σ) : σ := l.foldl f s

end Sys2Proof.Machine
end

