-- ==== Sys2Proof/Machine/State.lean ====
section
/-! DEFINITION. The state of one package as plain data: everything the manual gives the machine (INVENTORY.md, State).
Numbers in brackets in docstrings are rules of spec/. Register pages and management registers are cells keyed by address;
their reset values are `regDefault`. -/

namespace Sys2Proof.Machine

/-! ### Threads: slots and sequencers -/

/-- Why a stopped slot stopped (R25). -/
inductive Reason where
  | normal | fault | parked | killed
  deriving DecidableEq, Repr

/-- What a waiting slot waits for (R25): an instruction that has issued or that will claim later. -/
inductive Wait where
  /-- `wait` on a local word (R210); `li`: it reads the link, which it empties as it completes; `was`: D was full. -/
  | word (cc : WaitCond) (addr : Nat) (target : BitVec 32) (d : BitVec 6) (li was : Bool)
  /-- `wait` on a counter of the slot's core (R210). -/
  | ctr (cc : WaitCond) (idx : Fin 16) (target : BitVec 32) (d : BitVec 6) (li was : Bool)
  /-- `rgwait` (R220). -/
  | ring (n : Fin 32) (d : BitVec 6) (was : Bool)
  /-- A fence not yet complete (R208): its kind, its scope and the first cycle it may complete in. -/
  | fence (kind : FenceKind) (sc : Scope) (from_ : Nat)
  /-- `bar.wait` (R224). -/
  | bar (sc : Scope) (b : Fin 16)
  /-- `send.e` until its ring message is admitted (R243). -/
  | ringRoom (id : Nat)
  /-- `gath` or `scat` while its first active element is checked (R250). -/
  | check
  deriving DecidableEq, Repr

/-- The five states of a slot (R25). -/
inductive Run where
  | running | blocked | waiting (w : Wait) | stopped (r : Reason) | saved
  deriving DecidableEq, Repr

/-- A value on its way to a register; `strip` is what a write stream's strip takes as its result arrives: the local addresses and
bytes (R175). -/
inductive PVal where
  | s (x : Word) | v (x : VWord) | strip (ws : List (Nat × List Byte)) | none
  deriving DecidableEq, Repr

/-- The strip of a write stream that lands: runs of bytes by their local addresses. -/
def PVal.writes : PVal → List (Nat × List Byte)
  | .strip ws => ws
  | _ => []

/-- What produces a pending result (R28, R51). -/
inductive PKind where
  | load | atomic | calc | grain | link | remote | steal | engine (id : Nat)
  deriving DecidableEq, Repr

/-- A failure found after issue (R163, R369): its record fields. -/
structure Failure where
  cause : Byte
  detail : Byte
  addr : Word
  elem : BitVec 32
  /-- The cause and the address of a failed walk, which ends the task (16 R373): its own, or that of one reported behind it. -/
  ends : Option (Byte × Word)
  deriving DecidableEq, Repr

/-- A pending result (R28, R30): its register code, what lands, the cycle it lands in (engine results have none until their
command completes), and the failure it reports instead. -/
structure Pend where
  reg : BitVec 6
  val : PVal
  flags : Flags
  due : Option Nat
  kind : PKind
  op : BitVec 7
  fail : Option Failure
  deriving DecidableEq, Repr

/-- A bound stream (R182). -/
structure Bind where
  wr : Bool
  addr : BitVec 21
  left : BitVec 24
  bank : Fin 16
  deriving DecidableEq, Repr

/-- An entry of the loop-trip table (R137); the table lists the most recently used first. -/
structure Trip where
  site : Half
  count : Half
  deriving DecidableEq, Repr

/-- The fate of a line on its way to a buffer. -/
inductive Fate where
  | ok
  /-- Poisoned (R491). -/
  | poison
  /-- A translation (0x10) or protection (0x11) failure (R369). -/
  | walk (cause : Byte)
  /-- Outside the lease (R266, R322). -/
  | lease
  /-- A start at an address with bits 63:56 not zero (R67). -/
  | target
  deriving DecidableEq, Repr

/-- What a transfer's fault at entry takes back: a destination's old value and full bit, the trip table, and whether the
neighbour's `lo` was emptied. -/
structure Undo where
  d : BitVec 6
  old : Word
  full : Bool
  trips : List Trip
  li : Bool
  deriving DecidableEq, Repr

/-- A line on its way to a slot's buffer (R34, R35): the target, the line read, the cycle its head may issue in, what
becomes of it, and for a transfer the transferring head (none for a broadcast, fork or start). -/
structure Fetch where
  target : Word
  /-- The line, where it was read at issue; otherwise it is read when it arrives. -/
  data : Option (Vector Half 32)
  due : Nat
  fate : Fate
  from_ : Option (BitVec 7 × Word)
  /-- The line comes by a broadcast. -/
  bcast : Bool
  undo : Option Undo
  deriving DecidableEq, Repr

/-- An `xbr` that has issued and not resolved (R155). -/
structure Xbr where
  due : Nat
  taken : Bool
  target : Word
  deriving DecidableEq, Repr

/-- An open packet (R50, R243): the sends so far, their bytes, the destination address of the ring they target, the packet
buffer, the commands whose D waits for its admission, and those of them whose source has not been read yet. -/
structure Packet where
  sends : Nat
  bytes : Nat
  ring : Option Word
  buf : List (Option Byte)
  cmds : List Nat
  unread : List Nat
  deriving DecidableEq, Repr

/-- A micro-thread: a slot, or a sequencer (which uses g1–g7, pc, line and record only, R40). -/
structure Thread where
  /-- g0–g31 (R68); entry 0 stays zero. -/
  g : Vector Word 32
  /-- v0–v15 (R68). -/
  v : Vector VWord 16
  /-- p0–p7 (R68); entry 0 is never read. -/
  p : Vector Half 8
  /-- The link-out register (R31). -/
  lo : Word
  /-- Full bits by register code (R27). -/
  full : BitVec 64
  /-- The first turn in which the next slot sees `lo` full (R31). -/
  loFullFrom : Nat
  /-- The first turn in which the writer sees `lo` empty (R31). -/
  loFreeFrom : Nat
  /-- Pending results, oldest first (R28, R30). -/
  pend : List Pend
  /-- The program counter (R65). -/
  pc : Word
  /-- The line buffer (R34). -/
  line : Vector Half 32
  run : Run
  /-- A line on its way (R35). -/
  fetch : Option Fetch
  /-- The slot issues nothing before this cycle (R139, R155, R250). -/
  hold : Nat
  xbr : Option Xbr
  /-- Remaining lane-group cycles of the last vector instruction, and the cycle it issued in (R45). -/
  lanes : Nat
  lanesAt : Nat
  /-- `fpctl` (R89). -/
  fp : Word
  /-- Enabled events raised and not yet parked for (R49). -/
  parkEv : Flags
  trips : List Trip
  /-- The last-load register (R149). -/
  lastLoad : Option (Half × Word)
  /-- Bindings of v12–v15 (R182). -/
  binds : Vector (Option Bind) 4
  /-- Arrived bits and recorded phases of the 80 (scope, b) pairs (R223). -/
  arrived : BitVec 80
  phases : BitVec 80
  packet : Option Packet
  /-- Registers whose acquire holds back memory instructions while they are empty (R168, R205). -/
  acq : List (BitVec 6)
  /-- The first issue after a continuing resume is exempt from breakpoints (R443). -/
  exempt : Bool
  /-- Fault record words 0 to 3 (R231). -/
  frec : Vector Word 4
  /-- A deferred failure reported and not yet taken at a boundary (R163). -/
  deferred : Option (Failure × BitVec 6 × BitVec 7)
  /-- `kz.kill` waits for the instruction that holds the slot (R155). -/
  killReq : Bool
  /-- A pre-emption request: to be saved at the next boundary (R50). -/
  saveReq : Bool
  /-- The cycle of that request: an instruction that issues in it comes first (R54). -/
  saveAt : Nat
  /-- The private window (R287). -/
  pwin : Word
  /-- A register was found bad when the slot was saved (18 R413). -/
  badReg : Bool
  /-- Starts so far: an arrival posted before the last one marks nothing any more (R223, R269). -/
  life : Nat
  /-- The core that owns a sequencer (R494). -/
  owner : Option (Fin 4)
  deriving DecidableEq, Repr

/-! ### Cores -/

/-- The bytes of a line of 64. -/
abbrev LineData := Vector Byte 64

/-- A block of the L1 (R280): VA word number of its first word, words, words of the line read while present, last use, the
predictor entry that filled it (R281), the line's physical address, its bytes (within their line), and the cycle from which
it is present (log 76). -/
structure L1Block where
  word : Nat
  size : Nat
  read : BitVec 8
  used : Nat
  entry : Nat
  pa : Nat
  kdom : BitVec 6
  data : LineData
  due : Nat
  deriving DecidableEq, Repr

/-- A line of the instruction cache (R285). -/
structure ICLine where
  line : Nat
  data : Vector Half 32
  used : Nat
  kdom : BitVec 6
  deriving DecidableEq, Repr

/-- A line requested by `pfi`, `pfd`, `xpf` or a demand fetch (R140, R153, R181, R329): where it goes and when. -/
inductive FillLevel where
  | icache | l1 | l2 | mlc
  deriving DecidableEq, Repr
structure Fill where
  id : Nat
  core : Cid
  level : FillLevel
  line : Nat
  /-- The physical address of the line, and its domain. -/
  pa : Nat
  kdom : BitVec 6
  /-- The loading PC, for the L1 predictor (R281). -/
  pc : Word
  due : Nat
  /-- The line on its way to an instruction cache, and what has become of it. -/
  data : LineData
  fate : Fate
  deriving DecidableEq, Repr

/-- What a context image gives a core besides its launch (16 R382): JOB, the grain mode and LOCKQ. -/
structure Ids where
  job : BitVec 32
  gmode : BitVec 2
  lockq : Half
  deriving DecidableEq, Repr

/-- A core (R22). -/
structure Core where
  /-- The running launch it is assigned to (R345). -/
  launch : Option Nat
  /-- `cid` and VCORE (R347). -/
  vcore : Half
  world : BitVec 4
  acct : BitVec 6
  kdom : BitVec 6
  /-- What a RESTORE has given it; otherwise its launch's (16 R383). -/
  ids : Option Ids
  /-- Mailbox counters (R213). -/
  ctrs : Vector (BitVec 32) 16
  /-- The range deque, oldest first (R262). -/
  deque : List Word
  qwin : Word
  /-- Domain rights held in the PLB (R371). -/
  plb : Tbl Nat Byte
  l1 : List L1Block
  /-- The spatial-locality predictor (R281): stored as words − 8. -/
  pred : Cells 8
  icache : List ICLine
  /-- The control thread's own instruction cache (02 R22; log 84). -/
  ctlIcache : List ICLine
  /-- Fault-pending mask (R272). -/
  kzfp : BitVec 18
  /-- The units that the last `kz.fork` started and nothing else has started since (R43). -/
  forked : BitVec 18
  /-- The launch that it has left last, and that one's supervisor ring: for what its slots still have to report (02 R49; 07 R493). -/
  left : Option (Nat × Word)
  /-- The current task record (R271). -/
  task : Vector Word 4
  /-- Cycle before which `kz.task` stalls, when one is under way (R271). -/
  taskDue : Option Nat
  /-- Poison bits of the accumulator set's rows (R414). -/
  accPoison : BitVec 128
  /-- Matrix commands issued for the core; the number of the last one completed, and its OP (R417). -/
  matIssued : Nat
  matDone : Nat
  matLastOp : BitVec 7
  deriving DecidableEq, Repr

/-! ### Harts -/

/-- Privilege levels (R273). -/
inductive Priv where
  | u | s | m
  deriving DecidableEq, Repr

/-- A control thread or a management core: an RV64 hart (R273). CSRs are cells keyed by CSR number. -/
structure Hart where
  x : Vector Word 32
  pc : Word
  priv : Priv
  csrs : Cells 64
  /-- The load reservation: the 8-byte granule reserved (R273: A). -/
  resv : Option Nat
  /-- The hart executes instructions. -/
  active : Bool
  /-- Waiting in `wfi`. -/
  wfi : Bool
  /-- It executes nothing before this cycle: an access or a fetch of its last instruction is on its way (10 R302). -/
  due : Nat
  instret : Nat
  deriving DecidableEq, Repr

/-! ### Quads -/

/-- A ring object (R217). Until turn `rpFrom` senders still see the read pointer as `rpWas` (R221). -/
structure Ring where
  cfg : Word
  wp : BitVec 32
  cp : BitVec 32
  rp : BitVec 32
  rpWas : BitVec 32
  rpFrom : Nat
  deriving DecidableEq, Repr

/-- The matrix lease of a quad (R44). -/
structure Lease where
  holder : Option (Fin 4)
  /-- The core of the last grant, from which the arbiter goes on. -/
  last : Fin 4
  /-- Commands issued under the grant. -/
  cmds : Nat
  /-- The cycle of the grant. -/
  since : Nat
  posted : BitVec 4
  /-- Cores whose `kz.unlease` waits for their commands in flight. -/
  giving : BitVec 4
  deriving DecidableEq, Repr

/-- A SAVE or a marking round under way on a quad (R381, R384). -/
inductive QOp where
  | none | save | mark
  deriving DecidableEq, Repr

/-- A quad (R3, R347). -/
structure Quad where
  bfmt : Vector Word 16
  /-- Format registers written in this cycle, as they stood before it (04 R98). -/
  bfmtWas : Tbl Nat Word
  rings : Vector Ring 32
  /-- Band registers of the canopy's slices (R292). -/
  band : Vector Half 128
  lease : Lease
  /-- The cycle in which the quad left reset (R24). -/
  base : Nat
  /-- The last world that held the quad (R289). -/
  lastWorld : Option (BitVec 4)
  hot : Bool
  overB : Bool
  /-- The operating point (R358). -/
  point : Fin 8
  /-- The last sensor reading and energy estimate (R356). -/
  celsius : Nat
  estimate : Nat
  op : QOp
  /-- Markers held: source quad and round (R384). -/
  markers : List (Nat × Nat)
  /-- The quad's slots are held saved after a round (R384). -/
  held : Bool
  /-- A REQ that came during a SAVE: marking follows on restore (R389). -/
  markReq : Bool
  out : Bool
  /-- Cores whose lane group has run a vector instruction in this cycle (R45). -/
  vecUsed : BitVec 4
  /-- Cores whose slot of this cycle has issued (R46). -/
  issued : BitVec 4
  deriving DecidableEq, Repr

/-! ### Running launches -/

/-- What a context keeps of a unit besides its image: a breakpoint exemption (19 R443), a register found bad (18 R413), and that
the core's last fork started it (02 R43; log 113). -/
structure Kept where
  vcore : Half
  unit : Nat
  exempt : Bool
  bad : Bool
  forked : Bool
  deriving DecidableEq, Repr

/-- A running launch (R350). -/
structure Launch where
  queue : Nat
  addr : Word
  /-- The block's 32 words (R346). -/
  blk : List Word
  cores : List Cid
  lease : List (Nat × Nat)
  /-- Step 5 of R350 has happened. -/
  started : Bool
  status : Byte
  fused : Bool
  gdie : Nat
  /-- The die of each core as the launch started, by VCORE: its dispenser's, wherever the core runs now (R354; 16 R383). -/
  homes : List Nat
  /-- Records handed out by the dispensers of those dies. -/
  handed : Tbl Nat Nat
  kept : List Kept
  /-- Cores whose fork has not been delivered yet (R350). -/
  forks : List Cid
  /-- Cores that have ended their part (R351), and the last cycle in which a store they had posted is performed. -/
  exits : Nat
  storesUntil : Nat
  /-- The completion message has been queued. -/
  done : Bool
  deriving DecidableEq, Repr

/-- What a core was in a launch that it has left while commands of its threads were in flight. -/
structure Owner where
  lid : Nat
  launch : Launch
  vcore : Half
  world : BitVec 4
  acct : BitVec 6
  kdom : BitVec 6
  plb : Tbl Nat Byte
  deriving DecidableEq, Repr

/-! ### Commands and things in flight -/

inductive Engine where
  | send | skid | mat
  deriving DecidableEq, Repr

/-- An engine command in flight (R234, R238). -/
structure Cmd where
  id : Nat
  tid : Tid
  core : Cid
  eng : Engine
  /-- The instruction, with its parameter group, TGT and VAL copied at issue. -/
  ins : Instr
  ps : List Word
  tgt : Word
  val : Word
  /-- The D register code; 0 discards. -/
  d : BitVec 6
  /-- PC of the command's head. -/
  pc : Word
  /-- The format register of the bank that the command names, as it stood at issue (R254; 04 R98). -/
  bf : Word
  /-- The cycle from which its reads may begin (R237). -/
  ready : Nat
  /-- The cycle in which the completion action is performed, once known (matrix: once running; ring sends: once admitted). -/
  due : Option Nat
  /-- The cycle from which the place counts no more (R333), once completed. -/
  freeAt : Option Nat
  /-- The status word, once known. -/
  status : Option Word
  /-- The launch that issued it, once its core has ended its part in it. -/
  own : Option Owner
  /-- Statuses of skidder elements that their lease and rights, and their index, had settled at issue (R371; 18 R410). -/
  pre : List (Option Byte)
  /-- A matrix command's number among its core's (R417). -/
  num : Nat
  /-- The canopy bytes that sends have written during its run: the address, the cycle, and the byte as it stood before, none if
  poisoned (R293). -/
  overs : List (Nat × Nat × Option Byte)
  deriving DecidableEq, Repr

/-- Who asks for a line: for the log, the accounts and the walk. `code` is the operation code of a log entry (R438). -/
structure Req where
  vcore : Half
  world : BitVec 4
  acct : BitVec 6
  die : Nat
  quad : Nat
  code : Nat
  deriving DecidableEq, Repr

/-- What a slice logs of an access that it serves (R438). -/
structure LogRec where
  req : Req
  line : Nat
  hit : Bool
  deriving DecidableEq, Repr

/-- Store-queue entries (R169). The owner is a unit of the core: 0–17, or 18 for the control thread. -/
structure SQ where
  id : Nat
  core : Cid
  owner : Nat
  /-- VA lines written, if it is a store to global memory. -/
  lines : List Nat
  /-- What its slice logs as it serves the store (R438, R439). -/
  logs : List LogRec
  due : Nat
  deriving DecidableEq, Repr

inductive GrainUpd where
  | branch (taken : Bool) | load (hit : Bool) (stride : Option Half) | loop (trip : Half)
  deriving DecidableEq, Repr

/-- A posted grain update (R148). -/
structure Grain where
  id : Nat
  tid : Tid
  launch : Nat
  vcore : Half
  idx : Half
  upd : GrainUpd
  due : Nat
  deriving DecidableEq, Repr

/-- A mailbox increment in flight (R215). -/
structure Incr where
  id : Nat
  src : Option Tid
  /-- The quad it comes from. -/
  quad : Nat
  world : BitVec 4
  vcore : Half
  des : Word
  dst : Option (Cid × Fin 16)
  val : BitVec 32
  due : Nat
  /-- Cores and scopes at which threads that it happens before have released since, and the threads, beside its source, that
  it happens before (11 R310, R311, R313). -/
  rel : List (Cid × Scope)
  known : List Tid
  deriving DecidableEq, Repr

/-- A barrier's identity (R222): scope, number, unit of that scope, launch. -/
structure BarId where
  sc : Scope
  b : Fin 16
  unit : Nat
  launch : Nat
  deriving DecidableEq, Repr

/-- An arrival in flight, or a phase whose waiters are released later (R224). -/
inductive BarKind where
  | arrive (t : Tid) (life : Nat) | release (phase : Bool)
  deriving DecidableEq, Repr
structure BarEv where
  id : Nat
  bar : BarId
  kind : BarKind
  due : Nat
  deriving DecidableEq, Repr

/-- A message on its way to a ring (R219, R243). A byte that its send could not read is none, and is left unwritten (R242; 18
R417). -/
structure RingMsg where
  id : Nat
  src : Tid
  pkg : Nat
  quad : Nat
  ring : Fin 32
  /-- The ring's quad address. -/
  des : Word
  bytes : List (Option Byte)
  cmds : List Nat
  /-- Its sends whose source has not been read yet; they are read in cycle `due`. -/
  unread : List Nat
  due : Nat
  /-- Its place in the order of arrival, once it has arrived (R219). -/
  arr : Option Nat
  /-- The sends and increments it was admitted after, which land before it (R245; 11 R317). -/
  gate : Option (List Nat)
  deriving DecidableEq, Repr

/-- A hardware message to a supervisor ring (R493). -/
structure SupMsg where
  id : Nat
  des : Word
  world : BitVec 4
  w0 : Word
  w1 : Word
  /-- The launch whose completion waits for it. -/
  launch : Option Nat
  deriving DecidableEq, Repr

/-! ### Caches beyond the core, and lines of memory -/

/-- A line of a die's L2 (R295): its bytes, and which of them are valid and dirty; those in `coming` arrive with a fill in
cycle `due` (log 76). -/
structure L2Line where
  die : Nat
  line : Nat
  pa : Nat
  way : Fin 16
  valid : BitVec 64
  dirty : BitVec 64
  acct : BitVec 6
  /-- The identifiers that have written its dirty bytes, and whether one of them has released since (11 R311). -/
  writers : List (BitVec 6)
  rel : Bool
  kdom : BitVec 6
  lock : Option Nat
  pin : Bool
  data : LineData
  coming : BitVec 64
  due : Nat
  deriving DecidableEq, Repr

/-- A line of an MLC (R297, R299), present from cycle `due` on. Its bytes stand in physical memory (log 3). -/
structure MlcLine where
  line : Nat
  /-- Its last writer, if an identifier can be charged (19 R445). -/
  acct : Option (BitVec 6)
  dirty : Bool
  retained : Option (Fin 8)
  way : Fin 16
  used : Nat
  kdom : BitVec 6
  due : Nat
  /-- The line is poisoned (R400). -/
  poison : Bool
  deriving DecidableEq, Repr

/-- What a stack holds of a line (R390, R396): the 64 bytes of its data array, and the side-band record's MAC (bytes 7:0) and
ECC check bits or encoded constant (bytes 15:8); for each 16 bytes of a stored line, the code word that was written there, from
which errors are counted (18 R411). -/
structure StackLine where
  data : List Byte
  mac : BitVec 64
  tail : BitVec 64
  was : List (Option (List Byte × Half))
  deriving DecidableEq, Repr

/-- A translation-cache leaf (R368). -/
structure TLeaf where
  die : Nat
  va : Nat
  span : Nat
  pa : Nat
  leaf : Word
  comp : Word
  /-- Where the leaf lies. -/
  at_ : Nat
  deriving DecidableEq, Repr

/-! ### Launches -/

/-- A launch queue (R344). The head, once taken, carries its block and which waits have held. -/
structure LQ where
  blocks : List Word
  head : Option (List Word)
  held : BitVec 2
  rcause : Byte
  ref : Bool
  ovf : Bool
  deriving DecidableEq, Repr

/-! ### Package units -/

/-- A link (R397, R420): keys present, packet counters and epochs of both directions, the last packet of each that has crossed a
die link, lanes lost, retired lane, down. -/
structure Link where
  keyed : Bool
  key : Vector (BitVec 128) 2
  count : Vector (BitVec 64) 2
  epoch : Vector Nat 2
  retry : Vector Bool 2
  wire : Vector (Option Sealed) 2
  lost : Nat
  retired : Option Nat
  down : Bool
  deriving DecidableEq, Repr

/-- A hash context of the crypto engine (R461): the eight words, the tail bytes, the bytes absorbed. -/
structure Hash where
  h : Vector (BitVec 32) 8
  tail : List Byte
  len : Nat
  deriving DecidableEq, Repr

/-- A busy management operation (R394, R460, R461, R462): when it ends and what it then answers. -/
structure Busy where
  due : Nat
  status : Byte
  deriving DecidableEq, Repr

/-- The SPDM responder's progress (R464). -/
inductive SpdmState where
  | initial | versioned | capable | negotiated
  deriving DecidableEq, Repr
structure Spdm where
  state : SpdmState
  vca : List Byte
  m : List Byte
  l : List Byte
  /-- The chain's length CL; its hash HC. -/
  cl : Nat
  hc : List Byte
  deriving DecidableEq, Repr

/-- Who acts in a cycle (R22). -/
inductive Agent where
  | thread (t : Tid) | hart (h : Hid) | lanes (q : Nat)
  deriving DecidableEq, Repr

/-- Key material of a domain (R393): K1, K2 of 256 bits and KM of 256 bits. -/
structure DomKey where
  k1 : BitVec 256
  k2 : BitVec 256
  km : BitVec 256
  /-- The draw of the DRBG that gave them. -/
  gen : Nat
  deriving DecidableEq, Repr

/-- The state of one package. -/
structure State where
  -- The barrel and its agents.
  /-- Cycles since power-on; a quad's turn is (cycle − its base) ÷ 16 (R24). -/
  cycle : Nat
  thr : Tbl Tid Thread
  cores : Tbl Cid Core
  harts : Tbl Hid Hart
  quads : Tbl Nat Quad
  -- Memories.
  /-- Local memory: quad × 0x20_0000 + local address (R286). -/
  lm : Mem
  /-- The bytes of local memory that slots have overwritten in this cycle, as they stood before it (06 R174). -/
  lmWas : Tbl Nat Byte
  /-- Poisoned 64-bit words of local memory and of the canopy, by word index (R411). -/
  lmPoison : List Nat
  canPoison : List Nat
  /-- The canopy: quad × 0x40_0000 + offset (R292). -/
  canopy : Mem
  /-- Accumulators: (quad × 4 + core) × 0x4000 + row × 128 + column (R253). -/
  acc : Cells 32
  /-- The plaintext of physical memory (R364): what an MLC holds of a line, else what its stack holds, opened (log 3). -/
  mem : Mem
  /-- The stacks: ciphertext and records, by line number; a bitmap line by its tag. A line never written is not listed (log 4). -/
  stack : Tbl Nat StackLine
  /-- The elision bitmap's words by page number, and the tags of the bitmap lines held in the MLCs, latest first (R402). -/
  bitmap : Cells 64
  bmHeld : List Nat
  /-- Lines whose stack copy is poisoned and carries no marker of it yet. -/
  badLines : List Nat
  /-- Lines whose next read, or write (true), goes with a packet that was lost twice (R398). -/
  lost : List (Nat × Bool)
  /-- The L2s' lines (R295). -/
  l2 : List L2Line
  /-- Tree bits of the L2's sets: (die × 96 + slice) × 1024 + set (R296). -/
  l2tree : Cells 15
  mlc : List MlcLine
  /-- Fill counters of the MLC range registers: root × 8 + n (R299). -/
  mlcFill : Cells 16
  /-- The ways that each range register reserves since it was enabled (R299). -/
  mlcWays : Cells 16
  tcache : List TLeaf
  /-- Slices out of service: die × 96 + slice (R419). -/
  sliceOut : List Nat
  -- In flight.
  cmds : List Cmd
  sq : List SQ
  grains : List Grain
  incrs : List Incr
  barEvs : List BarEv
  fills : List Fill
  ringMsgs : List RingMsg
  sups : List SupMsg
  bars : Tbl BarId Word
  /-- The next identifier of something in flight, and the next free value. -/
  fresh : Nat
  -- Register pages and management registers, by address (R459), each kept as value XOR its reset value.
  regs : Cells 64
  -- Launches.
  lqs : Vector LQ 32
  /-- The queue after which round-robin goes on, per priority level (R345). -/
  rr : Vector Nat 4
  launches : Tbl Nat Launch
  nextLid : Nat
  /-- The local data of programs, by the address of a launch's block: local address and bytes, for every quad of the launch (22 R484). -/
  images : Tbl Word (List (Nat × List Byte))
  -- Confidentiality, alarm, links.
  keys : Tbl Nat DomKey
  /-- What this cycle's write-backs have replaced in the stacks, latest first: the line, its domain, the record and its bit in the bitmap;
  and the domains fenced in this cycle (R404, R408, R409). -/
  wroteBack : List (Nat × BitVec 6 × Option StackLine × Bool)
  fences : List Nat
  erased : Bool
  halted : Bool
  puf : Bool
  links : Tbl Nat Link
  -- Machine checks and margins.
  /-- Corrected events of a unit in the present millisecond: (die, unit, idx) and count (R416). -/
  merge : Tbl (Nat × Nat × Nat) Nat
  smOver : Tbl Nat Nat
  /-- Corrected SRAM errors of a die in the present margin interval (R426). -/
  sramCnt : Tbl Nat Nat
  /-- Gated ways: L2 by die × 96 + slice, MLC by root (R427). -/
  l2gate : Tbl Nat Half
  mlcgate : Tbl Nat Half
  gateBusy : List (Bool × Nat)
  /-- The configuration record's repairs and grade in force (R422). -/
  grade : Fin 3
  /-- Quad groups that the package has marked over budget: 8 × die + group (R356). -/
  groupOver : List Nat
  /-- An unmap under way: its range, as it stood at GO (R376). -/
  unmap : Option (Nat × Nat)
  /-- Physical quad of (die × 120 + virtual quad), when not the identity (R422). -/
  vqmap : Tbl Nat Nat
  badGroups : Word
  /-- Physical L2 slice of (die × 96 + logical), and physical bank of (root × 96 + bank), when not the identity; stack rows taken over,
  by root and row address; the trims VTRIM and STRIM of each die (R418, R421, R422). -/
  vsmap : Tbl Nat Nat
  bankMap : Tbl Nat Nat
  rowRepairs : List (Nat × Nat)
  trims : Tbl Nat (Half × Half)
  /-- MLC banks that have failed in this boot: root × 96 + bank (R421). -/
  bankOut : List Nat
  /-- Physical quads that have failed: die × 120 + stop (R419). -/
  failed : List Nat
  -- Observation and accounting.
  /-- Link counters: ((die × 120 + stop) × 4 + port) × 4 + channel; flits low, stalls high (R433). -/
  lcnt : Cells 64
  /-- Dies whose dump is being written, with the cycle in which it is done (R436). -/
  lcBusy : List (Nat × Nat)
  /-- Accounting counters: identifier × 6 + k (R445). -/
  accts : Cells 64
  /-- Energy remainders in units of 1/3072 µJ (R447; log 24). -/
  energy : Cells 64
  -- Management complex.
  sram : Mem
  reqbuf : Mem
  rspbuf : Mem
  flash : Mem
  flashErr : List Nat
  hostMem : Mem
  mr : Vector (BitVec 256) 16
  /-- An extension under way: the register and its value to come. -/
  mrNext : Option (Fin 16 × BitVec 256)
  /-- The crypto engine holds the device key (R466). -/
  devKey : Bool
  hash : Vector (Option Hash) 2
  ceBusy : Option Busy
  bpBusy : Option Busy
  mrBusy : Option Busy
  kdBusy : Option Busy
  draws : Nat
  spdm : Spdm
  /-- MSI-X messages sent: vector numbers, latest first (R453). -/
  msix : List Nat
  /-- What has left for other packages (R456): destination and bytes, latest first. -/
  pod : List (Nat × List Byte)
  /-- Packages of the pod (R3), and this package's own number within it (log 10). -/
  podSize : Nat
  pkg : Nat
  /-- A job's inputs in other packages: JOB, and 1,024 × (package + 1) + quad (16 R384). -/
  podInputs : List (Nat × Nat)
  powered : Bool
  -- The model's own scheduling.
  /-- Transitions due now, oldest first. -/
  agenda : List Instr
  /-- Agents that have not yet had their opportunity in this cycle. -/
  todo : List Agent
  /-- Outside happenings, with the cycle from which each may occur. -/
  inputs : List (Nat × Instr)
  /-- The thread and the hart whose instruction is executed. -/
  cur : Tid
  hart : Hid
  deriving DecidableEq, Repr

/-- The reasons a step can fault. -/
inductive Fault where
  /-- Raised by `step` when the supply is outside 46 to 56 V (20 R452) and no outside happening is left that could bring it
  back: the package is held in reset and nothing ever happens. Safe. -/
  | heldInReset
  deriving DecidableEq, Repr

/-- The reasons a step can be refused. -/
inductive Refusal where
  /-- Raised by `exec` for an instruction that has no meaning in this model yet. Safe. -/
  | notModelled (mnemonic : String)
  deriving DecidableEq, Repr

/-! ### Values at reset -/

/-- A slot at device reset: stopped with reason normal (R33); registers zero and full, `lo` empty (R32; log 1). -/
def Thread.init : Thread :=
  { g := Vector.replicate 32 0, v := Vector.replicate 16 (Vector.replicate 16 0), p := Vector.replicate 8 0, lo := 0
    full := 0x1DFFFFFFFFFFFFFF, loFullFrom := 0, loFreeFrom := 0, pend := [], pc := 0, line := Vector.replicate 32 0
    run := .stopped .normal, fetch := none, hold := 0, xbr := none, lanes := 0, lanesAt := 0, fp := 0, parkEv := 0, trips := []
    lastLoad := none, binds := Vector.replicate 4 none, arrived := 0, phases := 0, packet := none, acq := []
    exempt := false, frec := Vector.replicate 4 0, deferred := none, killReq := false, saveReq := false, saveAt := 0, pwin := 0
    badReg := false, life := 0, owner := none }

def Core.init : Core :=
  { launch := none, vcore := 0, world := 0, acct := 0, kdom := 0, ids := none, ctrs := Vector.replicate 16 0, deque := [], qwin := 0
    plb := [], l1 := [], pred := [], icache := [], ctlIcache := [], kzfp := 0, forked := 0, left := none, task := Vector.replicate 4 0, taskDue := none
    accPoison := 0, matIssued := 0, matDone := 0, matLastOp := 0 }

def Hart.init : Hart :=
  { x := Vector.replicate 32 0, pc := 0, priv := .m, csrs := [], resv := none, active := false, wfi := false, due := 0, instret := 0 }

def Ring.init : Ring := { cfg := 0, wp := 0, cp := 0, rp := 0, rpWas := 0, rpFrom := 0 }

def Quad.init : Quad :=
  { bfmt := Vector.replicate 16 0, bfmtWas := [], rings := Vector.replicate 32 Ring.init, band := Vector.replicate 128 0x3F80
    lease := { holder := none, last := 3, cmds := 0, since := 0, posted := 0, giving := 0 }, base := 0, lastWorld := none
    hot := false, overB := false, point := 0, celsius := 0, estimate := 0, op := .none, markers := [], held := false, markReq := false
    out := false, vecUsed := 0, issued := 0 }

def Link.init : Link :=
  { keyed := false, key := Vector.replicate 2 0, count := Vector.replicate 2 0, epoch := Vector.replicate 2 0
    retry := Vector.replicate 2 false, wire := Vector.replicate 2 none, lost := 0, retired := none, down := false }

def LQ.init : LQ := { blocks := [], head := none, held := 0, rcause := 0, ref := false, ovf := false }

def Spdm.init : Spdm := { state := .initial, vca := [], m := [], l := [], cl := 0, hc := [] }

/-- Management core 0 as it leaves reset: in M mode, at the base of the mask ROM (20 R458). -/
def Hart.rom : Hart := { Hart.init with pc := 0x00FF000000000000, active := true }

/-- DESIGN CHOICE (log 10): a pod of one package, whose number is 0, as the spec gives no source of either.
The package at power-on (20 R466): the boot chain is the first thing that happens. Flash is as the factory left it:
nothing listed; a flash image is an outside input (log 2). -/
def State.reset : State :=
  { cycle := 0, thr := [], cores := [], harts := [(.mgmt 0, Hart.rom)], quads := [], lm := [], lmWas := [], lmPoison := [], canPoison := [], canopy := []
    acc := [], mem := [], stack := [], bitmap := [], bmHeld := [], badLines := [], lost := []
    l2 := [], l2tree := [], mlc := [], mlcFill := [], mlcWays := [], tcache := [], sliceOut := []
    cmds := [], sq := [], grains := [], incrs := [], barEvs := [], fills := [], ringMsgs := [], sups := [], bars := []
    fresh := 0, regs := [], lqs := Vector.replicate 32 LQ.init, rr := Vector.replicate 4 31, launches := [], nextLid := 0, images := []
    keys := [], wroteBack := [], fences := [], erased := false, halted := false, puf := true, links := [], merge := [], smOver := [], sramCnt := [], l2gate := []
    mlcgate := [], gateBusy := [], grade := 0, vqmap := [], groupOver := [], unmap := none, badGroups := 0, vsmap := [], bankMap := []
    rowRepairs := [], trims := [], bankOut := [], failed := [], lcnt := [], lcBusy := [], accts := []
    energy := [], sram := [], reqbuf := [], rspbuf := [], flash := [], flashErr := [], hostMem := []
    mr := Vector.replicate 16 0, mrNext := none, devKey := false, hash := Vector.replicate 2 none, ceBusy := none, bpBusy := none
    mrBusy := none, kdBusy := none, draws := 0, spdm := Spdm.init, msix := [], pod := [], podSize := 1, pkg := 0, podInputs := []
    powered := true, agenda := [.powerOnReset], todo := [], inputs := []
    cur := ⟨0, 0, 0⟩, hart := .mgmt 0 }

end Sys2Proof.Machine
end

