-- ==== Sys2Proof/Machine/Ops.lean ====
section
/-! DEFINITION. The named operations over the state: threads and their registers, turns, register pages, designators, rings
and the hardware's messages, fault records, and taking a fault (the slots' exception) with the end of a task. -/

namespace Sys2Proof.Machine

abbrev Out := Host.Outcome State Fault Refusal

/-! ### Tables of the state -/

def State.th (s : State) (t : Tid) : Thread := tget Thread.init s.thr t
def State.setTh (s : State) (t : Tid) (x : Thread) : State := { s with thr := tset s.thr t x }
def State.modTh (s : State) (t : Tid) (f : Thread → Thread) : State := s.setTh t (f (s.th t))
def State.core (s : State) (c : Cid) : Core := tget Core.init s.cores c
def State.setCore (s : State) (c : Cid) (x : Core) : State := { s with cores := tset s.cores c x }
def State.modCore (s : State) (c : Cid) (f : Core → Core) : State := s.setCore c (f (s.core c))
def State.ht (s : State) (h : Hid) : Hart := tget Hart.init s.harts h
def State.setHt (s : State) (h : Hid) (x : Hart) : State := { s with harts := tset s.harts h x }
def State.modHt (s : State) (h : Hid) (f : Hart → Hart) : State := s.setHt h (f (s.ht h))
def State.quad (s : State) (q : Nat) : Quad := tget Quad.init s.quads q
def State.setQuad (s : State) (q : Nat) (x : Quad) : State := { s with quads := tset s.quads q x }
def State.modQuad (s : State) (q : Nat) (f : Quad → Quad) : State := s.setQuad q (f (s.quad q))
def State.link (s : State) (n : Nat) : Link := tget Link.init s.links n
def State.modLink (s : State) (n : Nat) (f : Link → Link) : State := { s with links := tset s.links n (f (s.link n)) }
def State.modLaunch (s : State) (l : Nat) (f : Launch → Launch) : State :=
  match tget? s.launches l with
  | some x => { s with launches := tset s.launches l (f x) }
  | none => s

/-- A transition queued to follow at once. -/
def State.enqueue (s : State) (i : Instr) : State := { s with agenda := s.agenda ++ [i] }

/-! ### Turns and cycles (02 R23, R24) -/

/-- Whole turns since the quad left reset. -/
def State.turn (s : State) (q : Nat) : Nat := (s.cycle - (s.quad q).base) / 16
/-- The cycle of the present turn, 0 to 15. -/
def State.phase (s : State) (q : Nat) : Nat := (s.cycle - (s.quad q).base) % 16
/-- The cycle in which the quad's turn `n` turns from now begins. -/
def State.inTurns (s : State) (q n : Nat) : Nat := (s.quad q).base + (s.turn q + n) * 16

/-! ### The core a thread acts for (02 R42; 08 R494) -/

def isSeq (t : Tid) : Bool := decide (16 ≤ t.unit.val)
def State.coreId (s : State) (t : Tid) : Cid :=
  if isSeq t then ⟨t.quad, ((s.th t).owner).getD 0⟩ else ⟨t.quad, t.core⟩
abbrev State.coreOf (s : State) (t : Tid) : Core := s.core (s.coreId t)
def slotTid (c : Cid) (n : Fin 16) : Tid := ⟨c.quad, c.core, n.castLE (by omega)⟩
def seqTid (q : Nat) (n : Fin 2) : Tid := ⟨q, 0, ⟨16 + n.val, by omega⟩⟩
/-- Slot or sequencer number `n` of a core's control thread (08 R268). -/
def unitTid (c : Cid) (n : Fin 18) : Tid := if n.val < 16 then ⟨c.quad, c.core, n⟩ else ⟨c.quad, 0, n⟩
def coreCids (q : Nat) : List Cid := [⟨q, 0⟩, ⟨q, 1⟩, ⟨q, 2⟩, ⟨q, 3⟩]
def slotsOf (c : Cid) : List Tid := (List.finRange 16).map (slotTid c)
def quadSlots (q : Nat) : List Tid := (coreCids q).flatMap slotsOf
def dieOf (q : Nat) : Nat := q / 120
/-- Virtual quad number within the die. -/
def vqOf (q : Nat) : Nat := q % 120

/-- Active quads per die in force (00 R1): 112, or 104 on KZ1-832. -/
def State.activeQuads (s : State) : Nat := if s.grade.val = 2 then 104 else 112
/-- Quads per quad group (00 R1). -/
def State.groupSize (s : State) : Nat := s.activeQuads / 8
/-- The bit of a companion word that stands for the quad's group (16 R367). -/
def State.groupBit (s : State) (q : Nat) : Nat := 8 * dieOf q + vqOf q / s.groupSize

/-! ### Registers of a thread (02 R27; 03 R68) -/

def Thread.isFull (x : Thread) (c : Nat) : Bool := x.full.getLsbD c
def Thread.setFull (x : Thread) (c : Nat) : Thread := { x with full := x.full ||| ((1 : BitVec 64) <<< c) }
/-- The thread has stopped. -/
def Thread.halted (x : Thread) : Bool :=
  match x.run with
  | .stopped _ => true
  | _ => false
/-- A register becomes empty; an acquire that once waited for it is over (06 R168). -/
def Thread.setEmpty (x : Thread) (c : Nat) : Thread :=
  { x with full := x.full &&& ~~~((1 : BitVec 64) <<< c), acq := x.acq.filter fun r => decide (r.toNat ≠ c) }

/-- A scalar register code's value: g, p zero-extended, `lo`. -/
def Thread.rdG (x : Thread) (n : Fin 32) : Word := if n.val = 0 then 0 else x.g[n]
def Thread.rdP (x : Thread) (n : Fin 8) : Half := if n.val = 0 then 0xFFFF else x.p[n]
def Thread.wrG (x : Thread) (n : Fin 32) (v : Word) : Thread :=
  if n.val = 0 then x else ({ x with g := x.g.set n.val v } : Thread).setFull n.val
def Thread.wrV (x : Thread) (n : Fin 16) (v : VWord) : Thread := ({ x with v := x.v.set n.val v } : Thread).setFull (32 + n.val)
def Thread.wrP (x : Thread) (n : Fin 8) (v : Half) : Thread :=
  if n.val = 0 then x else ({ x with p := x.p.set n.val v } : Thread).setFull (48 + n.val)
/-- A write of `lo`, seen by the neighbour from the turn after `turn` (02 R31). -/
def Thread.wrLo (x : Thread) (turn : Nat) (v : Word) : Thread := ({ x with lo := v, loFullFrom := turn + 1 } : Thread).setFull 57

/-- A result written to a register code: g, v, p or `lo` (from `turn` on). -/
def Thread.wrCode (x : Thread) (turn : Nat) (c : Nat) (v : PVal) : Thread :=
  match v with
  | .s w =>
    if c = 57 then x.wrLo turn w
    else if h : c < 32 then x.wrG ⟨c, h⟩ w
    else if h : c - 48 < 8 then (if 48 ≤ c then x.wrP ⟨c - 48, h⟩ (w.setWidth 16) else x)
    else x
  | .v w => if h : c - 32 < 16 then (if 32 ≤ c then x.wrV ⟨c - 32, h⟩ w else x) else x
  | .strip _ => x.setFull c
  | .none => x

/-- The slot whose `lo` is this slot's `li` (01 R19). -/
def prevSlot (t : Tid) : Tid := { t with unit := ⟨(t.unit.val + 15) % 16, by omega⟩ }

/-- The previous slot's `lo` can be reached: neither saved, nor of another launch or world (02 R32). -/
def State.linkOpen (s : State) (t : Tid) : Bool := decide ((s.th (prevSlot t)).run ≠ .saved) && !isSeq t

/-- `li` shows a full `lo` written in an earlier turn (02 R31). -/
def State.liFull (s : State) (t : Tid) : Bool :=
  let y := s.th (prevSlot t)
  s.linkOpen t && y.isFull 57 && decide (y.loFullFrom ≤ s.turn t.quad)

/-- A successful read of `li` empties the neighbour's `lo`, seen by its writer from the next turn (02 R31). -/
def State.takeLi (s : State) (t : Tid) : State :=
  s.modTh (prevSlot t) fun y => ({ y with loFreeFrom := s.turn t.quad + 1 } : Thread).setEmpty 57

/-! ### Register pages (20 R459) -/

def mgmtBase : Nat := 0xFF00000000
def dieBase (d : Nat) : Nat := 0xFF00010000 + 0x10000 * d
def rootBase (r : Nat) : Nat := 0xFF00100000 + 0x10000 * r
def quadBase (q : Nat) : Nat := 0xFF01000000 + 0x800000 * dieOf q + 0x10000 * vqOf q

/-- The physical address of a register page; BAR0's registers are kept where the management cores see them (20 R453). -/
def pageBase : Page → Nat
  | .mgmt => mgmtBase
  | .die d => dieBase d
  | .root r => rootBase r
  | .quad q => quadBase q
  | .host => 0xFF000020020000

/-- The reset value of a register: zero but for `qpwr` and `pkplim` (20 R459). -/
def regDefault (a : Nat) : Word :=
  if a = mgmtBase + 0x80 then 7500
  else if dieBase 0 ≤ a ∧ a < dieBase 8 ∧ 0x400 ≤ a % 0x10000 ∧ a % 0x10000 < 0x400 + 8 * 120 then 0x0069FFFF00000007
  else 0

def State.reg (s : State) (a : Nat) : Word := cget 0 s.regs a ^^^ regDefault a
def State.setReg (s : State) (a : Nat) (v : Word) : State := { s with regs := cset 0 s.regs a (v ^^^ regDefault a) }
/-- A register of the management page. -/
def State.mreg (s : State) (off : Nat) : Word := s.reg (mgmtBase + off)
def State.setMreg (s : State) (off : Nat) (v : Word) : State := s.setReg (mgmtBase + off) v

/-! ### Accounting (19 R445) -/

def State.bumpAcct (s : State) (acct : BitVec 6) (k n : Nat) : State :=
  { s with accts := cset 0 s.accts (acct.toNat * 6 + k) (cget 0 s.accts (acct.toNat * 6 + k) + BitVec.ofNat 64 n) }
/-- The model's unit of energy, in which a window's share divides exactly: 1/3072 µJ, and how many make a millijoule. -/
def mjUnits : Nat := 3072000
/-- Energy charged, the sub-millijoule remainder carried over (19 R447). -/
def State.addEnergy (s : State) (acct : BitVec 6) (n : Nat) : State :=
  let r := (cget 0 s.energy acct.toNat).toNat + n
  ({ s with energy := cset 0 s.energy acct.toNat (BitVec.ofNat 64 (r % mjUnits)) } : State).bumpAcct acct 5 (r / mjUnits)
/-- A counter is charged; stack and link bytes bring their energy with them. -/
def State.charge (s : State) (acct : BitVec 6) (k n : Nat) : State :=
  let s := s.bumpAcct acct k n
  if k = 2 then s.addEnergy acct (n * (12 * Config.stackEnergy))
  else if k = 3 then s.addEnergy acct (n * (12 * Config.linkEnergy))
  else s

/-! ### Designators (07 R214; 08 R240) -/

/-- What a well-formed designator names: the package, the core (quad, core field) and the index. -/
structure Des where
  pkg : Nat
  core : Cid
  idx : Nat
  deriving DecidableEq, Repr

/-- A counter or ring designator; `ring` excludes the core field and takes a five-bit index. -/
def State.designator (s : State) (ring : Bool) (self : Cid) (w : Word) : Option Des :=
  let n := w.toNat
  let idx := if ring then n % 32 else n % 16
  if n ≥ 2 ^ 24 then none
  else if n / 2 ^ 23 = 1 then
    if (if ring then n % 2 ^ 23 / 32 else n % 2 ^ 23 / 16) ≠ 0 then none
    else some ⟨s.pkg, self, idx⟩
  else if ring ∧ n / 32 % 2 = 1 then none
  else
    let pkg := n / 2 ^ 16 % 128
    let vq := n / 64 % 128
    if pkg ≥ s.podSize ∨ vq ≥ s.activeQuads then none
    else some ⟨pkg, ⟨(n / 2 ^ 13 % 8) * 120 + vq, if ring then 0 else Fin.ofNat 4 (n / 16)⟩, idx⟩

/-- A quad address: package, quad and offset (08 R240). -/
def State.quadAddr (s : State) (self : Nat) (w : Word) : Option (Nat × Nat × Nat) :=
  let n := w.toNat
  if n ≥ 2 ^ 56 ∨ n / 2 ^ 22 % 2 ^ 16 ≠ 0 then none
  else if n / 2 ^ 55 = 1 then
    if n / 2 ^ 38 % 2 ^ 17 ≠ 0 then none else some (s.pkg, self, n % 2 ^ 22)
  else
    let pkg := n / 2 ^ 48 % 128
    let vq := n / 2 ^ 38 % 128
    if pkg ≥ s.podSize ∨ vq ≥ s.activeQuads then none
    else some (pkg, (n / 2 ^ 45 % 8) * 120 + vq, n % 2 ^ 22)

/-! ### Local memory, raw (10 R286) -/

def lmSize : Nat := 0x200000
def canopySize : Nat := 0x400000
def State.lmRead (s : State) (q a : Nat) (n : Nat) : Nat := Mem.readN s.lm (q * lmSize + a) n
def State.lmWrite (s : State) (q a n x : Nat) : State :=
  { s with lm := Mem.writeN s.lm (q * lmSize + a) n x }
def State.lmBytes (s : State) (q a n : Nat) : List Byte := Mem.bytes s.lm (q * lmSize + a) n
def State.lmPut (s : State) (q a : Nat) (bs : List Byte) : State := { s with lm := Mem.writeBytes s.lm (q * lmSize + a) bs }

/-! ### Rings (07 R217 to R219) -/

def Ring.en (r : Ring) : Bool := bitAt r.cfg 0
def Ring.count (r : Ring) : Nat := fieldNat r.cfg 32 16
def Ring.slot (r : Ring) : Nat := 16 * 2 ^ fieldNat r.cfg 24 4
def Ring.base (r : Ring) : Nat := fieldNat r.cfg 4 17 * 16
def Ring.world (r : Ring) : BitVec 4 := BitVec.ofNat 4 (fieldNat r.cfg 48 4)
/-- The local address of ring slot `k`. -/
def Ring.addr (r : Ring) (k : Nat) : Nat := r.base + (k % r.count) * r.slot
def Ring.filled (r : Ring) : Bool := r.wp - r.cp ≠ 0
/-- Ring slots that a sender finds free in a turn (07 R219, R221). -/
def Ring.free (r : Ring) (turn : Nat) : Nat := r.count - (r.wp - if turn < r.rpFrom then r.rpWas else r.rp).toNat
def Ring.need (r : Ring) (n : Nat) : Nat := ceilDiv n r.slot

def State.ring (s : State) (q : Nat) (n : Fin 32) : Ring := (s.quad q).rings[n]
def State.setRing (s : State) (q : Nat) (n : Fin 32) (r : Ring) : State :=
  s.modQuad q fun x => { x with rings := x.rings.set n.val r }

/-- The payload written from WP on, wrapping at the region's end. -/
def ringPut (s : State) (q : Nat) (r : Ring) (bs : List Byte) : State :=
  let first := r.addr r.wp.toNat
  let room := r.base + r.count * r.slot - first
  (s.lmPut q first (bs.take room)).lmPut q r.base (bs.drop room)

/-- A message as it comes to stand in the ring: a byte that was not read leaves what stands there (08 R242; 18 R417). -/
def State.ringBytes (s : State) (q : Nat) (r : Ring) (bs : List (Option Byte)) : List Byte :=
  let first := r.addr r.wp.toNat
  let room := r.base + r.count * r.slot - first
  bs.zipIdx.map fun b => b.1.getD (Mem.read s.lm (q * lmSize + if b.2 < room then first + b.2 else r.base + (b.2 - room)))

/-- Admission: every payload byte, then the WP advance in one step (07 R219). -/
def ringAdmitNow (s : State) (q : Nat) (n : Fin 32) (bs : List Byte) : State :=
  let r := s.ring q n
  let s := ringPut s q r bs
  s.setRing q n { r with wp := r.wp + BitVec.ofNat 32 (r.need bs.length) }

/-- A message that has arrived at a ring of this package waits there, with a number below `k` (07 R219). -/
def State.ringAhead (s : State) (q : Nat) (n : Fin 32) (k : Nat) : Bool :=
  (s.ringMsgs.any fun (m : RingMsg) => decide (m.pkg = s.pkg) && decide (m.quad = q) && decide (m.ring = n) && m.arr.any (decide <| · < k)) ||
  s.sups.any fun (m : SupMsg) => decide (m.id < k) && match s.designator true ⟨0, 0⟩ m.des with
    | some d => decide (d.pkg = s.pkg) && decide (d.core.quad = q) && decide (Fin.ofNat 32 d.idx = n)
    | none => false

/-- Two words as the sixteen bytes of a message. -/
def msg16 (w0 w1 : Word) : List Byte := natLE 8 w0.toNat ++ natLE 8 w1.toNat

/-- A management record to the ring a designator names; false when it is dropped: no ring, a ring that is disabled or full
or for which a message waits, or a ring of another package (16 R380; 17 R405; 18 R416; log 87). -/
def recordTo (s : State) (des : Word) (bs : List Byte) : State × Bool :=
  if des = 0 then (s, false)
  else
    match s.designator true ⟨0, 0⟩ des with
    | none => (s, false)
    | some d =>
      if d.pkg ≠ s.pkg then (s, false)
      else
        let n : Fin 32 := Fin.ofNat 32 d.idx
        let r := s.ring d.core.quad n
        if r.en && decide (r.need bs.length ≤ r.free (s.turn d.core.quad)) && !s.ringAhead d.core.quad n s.fresh then
          ((ringAdmitNow s d.core.quad n bs).enqueue (.rgwaitClaim d.core.quad n), true)
        else (s, false)

/-- A violation record (16 R380); `vdrop` counts one that is dropped. -/
def violation (s : State) (vcore : Half) (world : BitVec 4) (kind : Nat) (addr : Word) : State :=
  let w0 : Word := BitVec.ofNat 64 (vcore.toNat * 2 ^ 48 + world.toNat * 2 ^ 36 + kind * 256 + 0x84)
  let r := recordTo s (s.mreg 0x230) (msg16 w0 addr)
  if r.2 then r.1 else r.1.setMreg 0x238 (setField (r.1.mreg 0x238) 0 32 (fieldNat (r.1.mreg 0x238) 0 32 + 1))

/-! ### Hardware messages to the supervisor ring (07 R493) -/

def Launch.word (l : Launch) (off : Nat) : Word := (l.blk[off / 8]?).getD 0
/-- The supervisor designator of a core's launch, or of the one that it has left last. -/
def State.superOf (s : State) (c : Cid) : Word :=
  match (s.core c).launch with
  | some l => match tget? s.launches l with
    | some x => x.word 0x48
    | none => 0
  | none => match (s.core c).left with
    | some x => x.2
    | none => 0

def State.sendSup (s : State) (des : Word) (world : BitVec 4) (w0 w1 : Word) (launch : Option Nat) : State :=
  let m : SupMsg := ⟨s.fresh, des, world, w0, w1, launch⟩
  { s with sups := s.sups ++ [m], fresh := s.fresh + 1, agenda := s.agenda ++ [.supervisorMessage s.fresh] }

/-! ### Stopping a thread, and its fault record (07 R231; 02 R47) -/

/-- What a fault records. -/
structure FaultInfo where
  cause : Nat
  detail : Nat
  op : Nat
  pc : Word
  addr : Word
  elem : Nat
  dreg : Option (BitVec 6)
  deriving DecidableEq, Repr

def recWord0 (vcore : Half) (world : BitVec 4) (unit : Nat) (f : FaultInfo) : Word :=
  BitVec.ofNat 64 (vcore.toNat * 2 ^ 48 + world.toNat * 2 ^ 36 + f.op % 128 * 2 ^ 24 + unit * 2 ^ 16 +
    f.detail % 256 * 256 + f.cause % 256)

/-- COUNT after one more fault, saturating. -/
def bumpCount (w3 : Word) : Nat := min (fieldNat w3 48 16 + 1) 0xFFFF

def recWord3 (old : Word) (f : FaultInfo) : Word :=
  BitVec.ofNat 64 (bumpCount old * 2 ^ 48 +
    (match f.dreg with
     | some r => 2 ^ 47 + r.toNat * 2 ^ 32
     | none => 0) + f.elem % 2 ^ 32)

def Thread.record (x : Thread) (vcore : Half) (world : BitVec 4) (unit : Nat) (f : FaultInfo) : Thread :=
  { x with frec := #v[recWord0 vcore world unit f, f.pc, f.addr, recWord3 x.frec[3] f] }

/-- A thread that stops issues nothing, fetches nothing and waits for nothing. -/
def Thread.stop (x : Thread) (r : Reason) : Thread :=
  { x with run := .stopped r, fetch := none, hold := 0, xbr := none, killReq := false, saveReq := false }

/-- A stopped thread continues at the PC that its stop left (08 R269). -/
def Thread.resumePc (x : Thread) : Option Word :=
  match x.run with
  | .stopped .fault => some x.frec[1]
  | .stopped .parked | .stopped .killed => some x.pc
  | _ => none

/-- A thread whose next line is on its way stands at its target. -/
def Thread.atTarget (x : Thread) : Thread :=
  match x.fetch with
  | some f => { x with pc := f.target }
  | none => x

/-- Taking a fault (02 R47): the thread stops with its record, and its owner's fault-pending bit is set. -/
def takeFault (s : State) (t : Tid) (f : FaultInfo) : State :=
  let c := s.coreId t
  let k := s.core c
  let s := s.modTh t fun x => (x.record k.vcore k.world t.unit.val f).stop .fault
  s.modCore c fun k => { k with kzfp := k.kzfp ||| ((1 : BitVec 18) <<< t.unit.val) }

/-- A packet discarded: every ring send of it completes with CODE 0x05 (08 R244). The commands' completion follows. -/
def abortPacket (s : State) (t : Tid) : State :=
  match (s.th t).packet with
  | none => s
  | some p =>
    let s := s.modTh t fun x => { x with packet := none }
    { s with
        cmds := s.cmds.map fun c => if p.cmds.contains c.id then { c with status := some 0x0500, due := some s.cycle } else c
        agenda := s.agenda ++ p.cmds.map .commandCompletion
        ringMsgs := s.ringMsgs.filter fun m => decide (m.src ≠ t) }

/-- Inside an instruction: a first-element check (R250), an `xbr` or grain read that holds its slot (R155), lane-group work
left (R45, R201), a `send.e` that waits for its ring (R243). Faults, parks, kills and saves wait for the boundary after it. -/
def Thread.inside (x : Thread) (cycle : Nat) : Bool :=
  (match x.run with
   | .waiting .check => decide (cycle < x.hold)
   | .waiting (.ringRoom _) => true
   | .blocked => decide (cycle < x.hold)
   | _ => false) || x.xbr.isSome || decide (x.lanes ≠ 0)

/-- The index of a head within its line. -/
def headIdx (pc : Word) : Nat := pc.toNat % 64 / 2

/-- The lowest breakpoint armed for the thread at a head (19 R442). -/
def State.breakPc (s : State) (t : Tid) (pc : Word) : Option Nat :=
  let k := s.coreOf t
  (List.range 8).find? fun n =>
    let ctl := s.mreg (0x900 + 16 * n)
    let bpc := s.mreg (0x908 + 16 * n)
    bitAt ctl 63 && decide (fieldNat ctl 52 4 = k.world.toNat) && decide (fieldNat ctl 32 16 = k.vcore.toNat) &&
    bitAt ctl t.unit.val && decide (bpc = pc) && !bitAt bpc 0 && decide (fieldNat bpc 56 8 = 0)

/-- The lowest breakpoint that matches the thread's next head. -/
def State.breakAt (s : State) (t : Tid) : Option Nat :=
  let x := s.th t
  if headIdx x.pc = 0 ∨ lineNH x.line < headIdx x.pc then none else s.breakPc t x.pc

/-- What a waiting instruction that is interrupted before it completes leaves: nothing claimed or consumed (02 R53; 07 R230). -/
def Thread.unwait (x : Thread) : Thread :=
  match x.run with
  | .waiting (.word _ _ _ d _ true) | .waiting (.ctr _ _ _ d _ true) | .waiting (.ring _ d true) => x.setFull d.toNat
  | _ => x

/-- A thread that waits within an instruction that has issued, or will issue again (02 R25). -/
def Thread.waits (x : Thread) : Bool :=
  match x.run with
  | .waiting .check => false
  | .waiting _ => true
  | _ => false

/-- A deferred fault, or a breakpoint at the next head, comes before a kill or a save at the same boundary (02 R54; 08 R250;
19 R442). -/
def State.stopsFirst (s : State) (t : Tid) : Bool :=
  let x := s.th t
  x.deferred.isSome || (!x.exempt && match x.fetch with
    | some f => (s.breakPc t f.target).isSome
    | none => !x.waits && (s.breakAt t).isSome)

/-- Where a slot's save area lies (02 R51; 10 R290). -/
def saveBase (t : Tid) : Nat := 0x1E0000 + (16 * t.core.val + t.unit.val) * 0x800

/-- A saved slot that is killed is restored stopped: STATE and REASON of its save area (16 R373; 10 R291). -/
def killSaved (s : State) (t : Tid) : State :=
  let a := saveBase t + 0x5A8
  s.lmWrite t.quad a 8 (s.lmRead t.quad a 8 / 16 * 16 + 15)

/-- A thread killed at its boundary (02 R38; 08 R244). -/
def killThread (s : State) (t : Tid) : State :=
  let x := s.th t
  match x.run with
  | .stopped _ => s
  | .saved => killSaved s t
  | .waiting (.ringRoom _) => (abortPacket s t).modTh t fun x => ({ x with pc := x.pc + 2 } : Thread).stop .killed
  | _ => if x.inside s.cycle || s.stopsFirst t then s.setTh t { x with killReq := true }
    else (abortPacket s t).modTh t fun x => x.unwait.atTarget.stop .killed

/-- The threads of a core: its slots and the sequencers it owns. -/
def State.coreThreads (s : State) (c : Cid) : List Tid :=
  slotsOf c ++ ([seqTid c.quad 0, seqTid c.quad 1].filter fun t => decide ((s.th t).owner = some c.core))

/-- A task's end as the launch and its supervisor see it (16 R373): the status 0x01 and a message. -/
def taskFailed (s : State) (c : Cid) (slot cause : Nat) (addr : Word) : State :=
  let k := s.core c
  match k.launch <|> k.left.map Prod.fst with
  | none => s
  | some l =>
    let s := s.modLaunch l fun x => if x.status = 2 then x else { x with status := 1 }
    s.sendSup (s.superOf c) k.world
      (BitVec.ofNat 64 (k.vcore.toNat * 2 ^ 48 + k.world.toNat * 2 ^ 36 + slot * 2 ^ 16 + cause % 256 * 256 + 0x83)) addr none

/-- The end of a task (16 R373): the other threads stop, the deque is discarded, the status becomes 0x01, a message is sent.
`slot` is 31 for the control thread. -/
def endTask (s : State) (c : Cid) (slot cause : Nat) (addr : Word) : State :=
  let s := foldS (s.coreThreads c) s fun s t => if t.unit.val = slot then s else killThread s t
  taskFailed (s.modCore c fun k => { k with deque := [] }) c slot cause addr

/-- A fault that ends the task (16 R373). -/
def takeFaultEnd (s : State) (t : Tid) (f : FaultInfo) : State :=
  let s := takeFault s t f
  endTask s (s.coreId t) t.unit.val f.cause f.addr

/-! ### Starting and continuing a thread (08 R269) -/

/-- What a start clears: trip table, last-load register, bindings, arrived bits (R137, R149, R186, R223). -/
def Thread.start (x : Thread) : Thread :=
  { x with trips := [], lastLoad := none, binds := Vector.replicate 4 none, arrived := 0, phases := 0, exempt := false
           run := .running, hold := 0, xbr := none, deferred := none, parkEv := 0, killReq := false, life := x.life + 1 }

/-! ### Alarms and machine checks -/

/-- An alarm's record (17 R405). -/
def alarmWord (kdom : Option (BitVec 6)) (src : Byte) (action trig : Nat) : Word :=
  BitVec.ofNat 64 ((match kdom with
    | some k => k.toNat * 2 ^ 58 + 2 ^ 57
    | none => 0) + src.toNat * 2 ^ 40 + action * 2 ^ 12 + trig * 2 ^ 8 + 0x85)

/-- A machine-check record's fields (18 R416). -/
structure McInfo where
  vcore : Half
  world : BitVec 4
  die : Nat
  unit : Nat
  idx : Nat
  sev : Nat
  action : Nat
  addr : Word
  prog0 : Word
  prog1 : Word
  deriving DecidableEq, Repr

def machineCheck (s : State) (m : McInfo) : State :=
  let w0 : Word := BitVec.ofNat 64 (m.vcore.toNat * 2 ^ 48 + m.world.toNat * 2 ^ 44 + m.die * 2 ^ 32 + m.unit * 2 ^ 24 +
    m.idx % 256 * 2 ^ 16 + m.sev * 2 ^ 14 + m.action * 256 + 0x86)
  let r := recordTo s (s.mreg 0x1C0) (msg16 w0 m.addr ++ msg16 m.prog0 m.prog1)
  if r.2 then r.1 else r.1.setMreg 0x1C8 (setField (r.1.mreg 0x1C8) 0 32 (fieldNat (r.1.mreg 0x1C8) 0 32 + 1))

/-- A record about no thread. -/
def mcOf (die unit idx sev action : Nat) (addr prog0 prog1 : Word) : McInfo :=
  ⟨0xFFFF, 0, die, unit, idx, sev, action, addr, prog0, prog1⟩

end Sys2Proof.Machine
end

