-- ==== Sys2Proof/Machine/Operands.lean ====
section
/-! DEFINITION. Operand forms and the issue of an instruction by the current thread: full/empty hazards (02 R27 to R31),
reading sources, writing destinations, pending results, and passing to the next head (03 R65). -/

namespace Sys2Proof.Machine

/-- A source as hazards see it: its register code and its empty action; a source without one has `trap = false` (02 R29). -/
structure Use where
  code : Nat
  trap : Bool
  deriving DecidableEq, Repr

def useS (a : SSrc) : Use := ⟨a.reg.code, a.trap⟩
def useV (a : VSrc) : Use := ⟨vCode a.reg, a.trap⟩
def useP (a : PSrc) : Use := ⟨pCode a.reg, a.trap⟩
/-- A source read through a field without an empty action. -/
def useC (c : Nat) : Use := ⟨c, false⟩

/-- The current thread. -/
abbrev State.me (s : State) : Thread := s.th s.cur
def State.modMe (s : State) (f : Thread → Thread) : State := s.modTh s.cur f

/-- The binding of register code `c`, when it is a bound stream (06 R182). -/
def Thread.bindOf (x : Thread) (c : Nat) : Option Bind := if h : c - 44 < 4 then (if 44 ≤ c then x.binds[c - 44] else none) else none

/-- A source register is empty (02 R27); a bound stream has no full bit of its own. -/
def State.srcEmpty (s : State) (c : Nat) : Bool :=
  if c = 0 ∨ c = 48 ∨ 58 ≤ c then false
  else if c = 56 then !(s.liFull s.cur)
  else if (s.me.bindOf c).isSome then false
  else !(s.me.isFull c)

/-- A destination cannot be written yet: its result is pending (02 R30), or `lo` is still full (02 R31). -/
def State.dstBusy (s : State) (c : Nat) : Bool :=
  (decide (c ≠ 0) && s.me.pend.any fun p => decide (p.reg.toNat = c)) ||
  (decide (c = 57) && (s.me.isFull 57 || decide (s.turn s.cur.quad < s.me.loFreeFrom)))

/-- Whether an instruction can issue. -/
inductive Hazard where
  | go | block | emptyRead (code : Nat)
  deriving DecidableEq, Repr

def State.srcHazard (s : State) : List Use → Hazard
  | [] => .go
  | u :: us => if s.srcEmpty u.code then (if u.trap then .emptyRead u.code else .block) else s.srcHazard us

/-- An acquire holds back memory instructions until its register is full (06 R168), as g0 always is (02 R27). -/
def Thread.acqHolds (x : Thread) : Bool := x.acq.any fun c => !x.isFull c.toNat

/-- The hazards of an instruction: its sources in order, its destinations, and for a memory instruction a pending acquire
(06 R168). -/
def State.hazard (s : State) (us : List Use) (ds : List Nat) (mem : Bool) : Hazard :=
  match s.srcHazard us with
  | .go => if ds.any s.dstBusy || (mem && s.me.acqHolds) then .block else .go
  | h => h

/-! ### The current head -/

def lineVA (pc : Word) : Word := pc &&& ~~~63
def State.curHead (s : State) : Half := lineH s.me.line (headIdx s.me.pc)
def State.curOp (s : State) : Nat := hdOp s.curHead

/-- The current thread takes a fault at its head (02 R47). -/
def State.faultInfo (s : State) (cause detail : Nat) (addr : Word) (elem : Nat) : FaultInfo :=
  { cause := cause, detail := detail, op := s.curOp, pc := s.me.pc, addr := addr, elem := elem, dreg := none }
def State.faultMe (s : State) (cause detail : Nat) (addr : Word) (elem : Nat) : State :=
  takeFault s s.cur (s.faultInfo cause detail addr elem)
/-- A fault that ends the task (16 R373). -/
def State.faultEndMe (s : State) (cause detail : Nat) (addr : Word) (elem : Nat) : State :=
  takeFaultEnd s s.cur (s.faultInfo cause detail addr elem)

/-- The current slot blocks and retries in its next cycle (02 R26). -/
def State.blockMe (s : State) : State := s.modMe fun x => { x with run := .blocked }

/-- Issue: block, an empty-read fault (cause 0x04, DETAIL the code), or the instruction's own effect. -/
def issue (s : State) (us : List Use) (ds : List Nat) (mem : Bool) (k : State → State) : Out :=
  match s.hazard us ds mem with
  | .go => .next (k s)
  | .block => .next s.blockMe
  | .emptyRead c => .next (s.faultMe 0x04 c 0 0)

/-! ### Values of sources, and destinations -/

def State.valS (s : State) (a : SReg) : Word :=
  match a with
  | .g n => s.me.rdG n
  | .li => (s.th (prevSlot s.cur)).lo
  | .sid => BitVec.ofNat 64 s.cur.unit.val
  | .cid => zx (s.coreOf s.cur).vcore
  | .turn => BitVec.ofNat 64 (s.turn s.cur.quad)

/-- D := v for a class w destination; g0 discards. -/
def State.setW (s : State) (d : WReg) (v : Word) : State :=
  s.modMe fun x => x.wrCode (s.turn s.cur.quad) d.code (.s v)
def State.setP (s : State) (d : PReg) (v : Half) : State := s.modMe fun x => x.wrP d v

/-- Passing to head i + 1, or the implicit stop after the last head (02 R34; 03 R65). -/
def Thread.next (x : Thread) : Thread :=
  let y : Thread := { x with pc := x.pc + 2, run := .running, exempt := false }
  if headIdx x.pc < lineNH x.line then y else y.stop .normal

/-- A link read empties the neighbour's `lo` once (05 R121). -/
def State.takeUses (s : State) (us : List Use) : State :=
  if us.any fun u => decide (u.code = 56) then s.takeLi s.cur else s

/-- The end of an instruction that goes on to the next head. -/
def State.retire (s : State) (us : List Use) : State := (s.takeUses us).modMe Thread.next

/-- A result due later: the register is empty until it lands (02 R28). -/
def State.addPend (s : State) (p : Pend) : State :=
  s.modMe fun x => if p.reg = 0 then { x with pend := x.pend ++ [p] } else ({ x with pend := x.pend ++ [p] } : Thread).setEmpty p.reg.toNat

/-- A scalar result of a long-latency producer, `n` turns from now. -/
def State.pendW (s : State) (d : Nat) (v : Word) (n : Nat) (kind : PKind) (fl : Flags) : State :=
  s.addPend { reg := BitVec.ofNat 6 d, val := .s v, flags := fl, due := some (s.inTurns s.cur.quad n), kind := kind
              op := BitVec.ofNat 7 s.curOp, fail := none }

/-- Immediates, sign-extended and zero-extended to 64 bits (03 R61). -/
def immS64 : Imm → Word
  | .k16 v => sx v
  | .k32 v => sx v
def immZ64 : Imm → Word
  | .k16 v => zx v
  | .k32 v => zx v
def mimmS64 : MImm → Word
  | .k16 v => sx v
  | .k32 v => sx v
  | .k48 v => sx v

end Sys2Proof.Machine
end

