-- ==== Sys2Proof/Machine/Flags.lean ====
section
/-! DEFINITION. Floating-point flags and modes of a slot (04 R89 to R91) and the park of an enabled event (02 R49). -/

namespace Sys2Proof.Machine

/-- The rounding mode, `fpctl` bits 9:8 (04 R89). -/
def Thread.rm (x : Thread) : RMode := RMode.ofField (fieldNat x.fp 8 2)
/-- The enable mask, bits 20:16. -/
def Thread.enables (x : Thread) : Flags := BitVec.ofNat 5 (fieldNat x.fp 16 5)
/-- The writable bits of `fpctl`. -/
def fpctlMask : Word := 0x1F031F
/-- `fpctl` with flags ORed in; the enabled ones are remembered for the park. -/
def Thread.orFlags (x : Thread) (fl : Flags) : Thread :=
  { x with fp := x.fp ||| zx fl, parkEv := x.parkEv ||| (fl &&& x.enables) }

/-- Flags land in a thread's `fpctl` (04 R91); an enabled one parks the slot at its next boundary (02 R49). -/
def landFlags (s : State) (t : Tid) (fl : Flags) : State :=
  let s := s.modTh t (·.orFlags fl)
  if (s.th t).parkEv = 0 then s else s.enqueue (.fpPark t)

/-- As `landFlags`, for the current thread. -/
def State.flagMe (s : State) (fl : Flags) : State := if fl = 0 then s else landFlags s s.cur fl

/-- The exception message of a park (07 R233). -/
def parkWord (vcore : Half) (world : BitVec 4) (unit : Nat) (ev : Flags) : Word :=
  BitVec.ofNat 64 (vcore.toNat * 2 ^ 48 + world.toNat * 2 ^ 36 + unit * 2 ^ 16 + ev.toNat * 256 + 0x80)

end Sys2Proof.Machine
end

