-- ==== Sys2Proof/Machine/Aes.lean ====
section
/-! DEFINITION. AES-256 (FIPS 197), its XTS mode (IEEE 1619) and AES-CMAC (NIST SP 800-38B), and the side-band record of a line of
a stack made with them (17 R393 to R396, R401; 18 R429). What a standard fixes is taken from it (log 45). -/

namespace Sys2Proof.Machine

/-! ### The block cipher -/

/-- The S-box of FIPS 197, thirty-two entries to a number, the first in its low byte. -/
def aesBox : List Nat :=
  [0xC072A49CAFA2D4ADF04759FA7DC982CA76ABD7FE2B670130C56F6BF27B777C63,
   0x75B227EBE28012079A059618C323C7041531D871F1E5A534CCF73F362693FDB7,
   0xCF584C4A39BECB6A5BB1FC20ED00D153842FE329B3D63B52A05A6E1B1A2C8309,
   0xD2F3FF1021DAB6BCF5389D928F40A351A89F3C507F02F94585334D43FBAAEFD0,
   0xDB0B5EDE14B8EE4688902A22DC4F816073195D643D7EA7C41744975FEC130CCD,
   0x08AE7A65EAF4566CA94ED58D6D37C8E779E4959162ACD3C25C2406490A3A32E0,
   0x9E1DC186B95735610EF6034866B53E708A8BBD4B1F74DDE8C6B4A61C2E2578BA,
   0x16BB54B00F2D99416842E6BF0D89A18CDF2855CEE9871E9B948ED9691198F8E1]

/-- Its inverse, thirty-two entries to a number, the first in its low byte. -/
def aesInvBox : List Nat :=
  [0xCBE9DEC444438E3487FF2F9B8239E37CFBD7F3819EA340BF38A53630D56A0952,
   0x25D18B6D49A25B76B224D92866A12E084EC3FA420B954CEE3D23C2A632947B54,
   0x849D8DA75746155EDAB9EDFD5048706C92B6655DCC5CA4D41698688664F6F872,
   0x6B8A130103BDAFC1020F3FCA8F1E2CD00645B3B80558E4F70AD3BC8C00ABD890,
   0x6EDF751CE837F9E28535ADE72274AC9673E6B4F0CECFF297EADC674F4111913A,
   0xF45ACD78FEC0DB9A2079D2C64B3E56FC1BBE18AA0E62B76F89C5291D711AF147,
   0xEF9CC9939F7AE52D0D4AB519A97F51605FEC8027591012B131C7078833A8DD1F,
   0x7D0C2155631469E126D677BA7E042B17619953833CBBEBC8B0F52AAE4D3BE0A0]

/-- An entry of such a table. -/
def boxAt (t : List Nat) (x : Nat) : Nat := (t.getD (x / 32) 0 >>> (8 * (x % 32))) % 256

/-- Multiplication by x, and by a constant, in the field of FIPS 197. -/
def xtime (a : Nat) : Nat := if a < 128 then 2 * a else (2 * a) ^^^ 0x11B
def gfTimes (a : Nat) : Nat → Nat
  | 1 => a
  | 2 => xtime a
  | 3 => xtime a ^^^ a
  | 9 => xtime (xtime (xtime a)) ^^^ a
  | 11 => xtime (xtime (xtime a)) ^^^ xtime a ^^^ a
  | 13 => xtime (xtime (xtime a)) ^^^ xtime (xtime a) ^^^ a
  | 14 => xtime (xtime (xtime a)) ^^^ xtime (xtime a) ^^^ xtime a
  | _ => 0

/-- Two byte strings combined bit by bit. -/
def xorL (a b : List Nat) : List Nat := (a.zip b).map fun p => p.1 ^^^ p.2

/-- The sixty words of the key schedule, latest first, from the eight of the key. -/
def aesExpand : Nat → Nat → List (List Nat) → List (List Nat)
  | 0, _, w => w
  | n + 1, rcon, w =>
    let i := w.length
    let t := w.getD 0 []
    let t := if i % 8 = 0 then
        match t with
        | [a, b, c, d] => [boxAt aesBox b ^^^ rcon, boxAt aesBox c, boxAt aesBox d, boxAt aesBox a]
        | _ => t
      else if i % 8 = 4 then t.map (boxAt aesBox) else t
    aesExpand n (if i % 8 = 0 then xtime rcon else rcon) (xorL (w.getD 7 []) t :: w)

/-- A list cut into pieces of `k`, at most `n` of them. -/
def pieces {α : Type} (k : Nat) : Nat → List α → List (List α)
  | 0, _ => []
  | n + 1, l => l.take k :: pieces k n (l.drop k)

/-- The fifteen round keys of sixteen bytes. -/
def aesKeys (key : List Nat) : List (List Nat) :=
  let w := (aesExpand 52 1 (pieces 4 8 key).reverse).reverse
  (pieces 4 15 w).map List.flatten

/-- Byte `i` of the sixteen comes from byte `f i`: ShiftRows, which works on columns of four. -/
def permute (f : Nat → Nat) (b : List Nat) : List Nat := (List.range 16).map fun i => b.getD (f i) 0
def shiftRows : List Nat → List Nat := permute fun i => (i + 4 * (i % 4)) % 16
def invShiftRows : List Nat → List Nat := permute fun i => (i + 12 * (i % 4)) % 16

/-- A column multiplied by the circulant of four constants. -/
def mixColumn (k : List Nat) (c : List Nat) : List Nat :=
  (List.range 4).map fun r => ((List.range 4).map fun j => gfTimes (c.getD j 0) (k.getD ((j + 4 - r) % 4) 0)).foldl (· ^^^ ·) 0
def mixColumns (k : List Nat) (b : List Nat) : List Nat := ((pieces 4 4 b).map (mixColumn k)).flatten

def aesEnc (keys : List (List Nat)) (b : List Nat) : List Nat :=
  let s := xorL b (keys.getD 0 [])
  let s := (rangeFrom 1 13).foldl (fun s r => xorL (mixColumns [2, 3, 1, 1] (shiftRows (s.map (boxAt aesBox)))) (keys.getD r [])) s
  xorL (shiftRows (s.map (boxAt aesBox))) (keys.getD 14 [])

def aesDec (keys : List (List Nat)) (b : List Nat) : List Nat :=
  let s := xorL b (keys.getD 14 [])
  let s := (rangeFrom 1 13).foldl (fun s r =>
    mixColumns [14, 11, 13, 9] (xorL ((invShiftRows s).map (boxAt aesInvBox)) (keys.getD (14 - r) []))) s
  xorL ((invShiftRows s).map (boxAt aesInvBox)) (keys.getD 0 [])

/-! ### XTS and CMAC -/

def bytesNat (l : List Nat) : Nat := l.foldr (fun b n => b + 256 * n) 0
def natBytes : Nat → Nat → List Nat
  | 0, _ => []
  | n + 1, x => x % 256 :: natBytes n (x / 256)
def bytesOf (l : List Byte) : List Nat := l.map BitVec.toNat
def toBytes (l : List Nat) : List Byte := l.map (BitVec.ofNat 8)
def keyBytes (k : BitVec 256) : List (List Nat) := aesKeys (natBytes 32 k.toNat)

/-- The next block's tweak: multiplication by x, little-endian. -/
def xtsNext (t : Nat) : Nat := if t < 2 ^ 127 then 2 * t else (2 * t - 2 ^ 128) ^^^ 0x87

/-- Blocks under XTS; `f` is the block cipher or its inverse. -/
def xtsBlocks (f : List Nat → List Nat) : Nat → List (List Nat) → List Nat
  | _, [] => []
  | t, b :: bs => xorL (f (xorL b (natBytes 16 t))) (natBytes 16 t) ++ xtsBlocks f (xtsNext t) bs

/-- The tweak of a line: its number under K2 (17 R395). -/
def lineTweak (k : DomKey) (line : Nat) : Nat := bytesNat (aesEnc (keyBytes k.k2) (natBytes 16 line))

def xtsEncrypt (k : DomKey) (line : Nat) (bs : List Byte) : List Byte :=
  toBytes (xtsBlocks (aesEnc (keyBytes k.k1)) (lineTweak k line) (pieces 16 4 (bytesOf bs)))
def xtsDecrypt (k : DomKey) (line : Nat) (bs : List Byte) : List Byte :=
  toBytes (xtsBlocks (aesDec (keyBytes k.k1)) (lineTweak k line) (pieces 16 4 (bytesOf bs)))

/-- AES-256-CMAC of whole blocks: the sixteen bytes of the tag. -/
def cmac (km : BitVec 256) (blocks : List (List Nat)) : List Nat :=
  let e := aesEnc (keyBytes km)
  let l := (e (List.replicate 16 0)).foldl (fun n b => 256 * n + b) 0
  let sub := (natBytes 16 (if l < 2 ^ 127 then 2 * l else (2 * l - 2 ^ 128) ^^^ 0x87)).reverse
  let x := (blocks.dropLast).foldl (fun x b => e (xorL x b)) (List.replicate 16 0)
  e (xorL (xorL x (blocks.getLastD [])) sub)

/-! ### The side-band record (17 R396, R401; 18 R429) -/

/-- The MAC of a line: `form` 0 stored, 1 elided, 2 marker. -/
def lineMac (k : DomKey) (dom : BitVec 6) (line form : Nat) (bs : List Byte) : BitVec 64 :=
  BitVec.ofNat 64 (bytesNat ((cmac k.km (pieces 16 5
    (natBytes 8 line ++ [dom.toNat, form] ++ List.replicate 6 0 ++ bytesOf bs))).take 8))

/-- A word as eight bytes, eight times. -/
def wordLine (c : Word) : List Byte := (List.replicate 8 (natLE 8 c.toNat)).flatten

/-- The encoded constant: c XOR AES(K1, T)[63:0]. It is its own inverse. -/
def encodeConst (k : DomKey) (line : Nat) (c : Word) : Word :=
  c ^^^ BitVec.ofNat 64 (bytesNat ((aesEnc (keyBytes k.k1) (natBytes 16 (lineTweak k line))).take 8))

/-! ### The root die's ECC (18 R411): 16 bytes and 16 check bits at a time; log 89 for what the manual leaves open -/

/-- The `i`-th 16 bytes of a line with their check bits. -/
def eccGroup (data : List Byte) (tail : BitVec 64) (i : Nat) : List Byte × Half :=
  ((data.drop (16 * i)).take 16, BitVec.ofNat 16 (fieldNat tail (16 * i) 16))
/-- The check bits agree. -/
def eccAgrees (g : List Byte × Half) : Bool := decide (Config.eccBits g.1 = g.2)
/-- The check bits of a line. -/
def lineEcc (data : List Byte) : BitVec 64 :=
  BitVec.ofNat 64 ((List.range 4).foldl (fun n i => n + (Config.eccBits (eccGroup data 0 i).1).toNat * 2 ^ (16 * i)) 0)
/-- The 4-bit symbols of a code word, and the number in which two differ. -/
def eccSymbols (g : List Byte × Half) : List Nat := (bytesOf g.1 ++ natBytes 2 g.2.toNat).flatMap fun b => [b % 16, b / 16]
def symbolsOff (a b : List Byte × Half) : Nat := ((eccSymbols a).zip (eccSymbols b)).countP fun p => decide (p.1 ≠ p.2)

/-- What is read of 16 bytes where `was` was written: one symbol is corrected, two are detected; with more the bytes are taken as they
stand when the check bits agree. -/
def eccRead (was : Option (List Byte × Half)) (g : List Byte × Half) : Option (List Byte) :=
  let open_ := if eccAgrees g then some g.1 else Config.eccFix g.1 g.2
  match was with
  | none => open_
  | some w => if symbolsOff w g ≤ 1 then some w.1 else if symbolsOff w g = 2 then none else open_

def StackLine.wasAt (x : StackLine) (i : Nat) : Option (List Byte × Half) := (x.was[i]?).join
/-- The line after correction; none where an error cannot be corrected. -/
def StackLine.corrected (x : StackLine) : Option (List Byte) :=
  ((List.range 4).mapM fun i => eccRead (x.wasAt i) (eccGroup x.data x.tail i)).map List.flatten
/-- Every 16 bytes are as they were written, but for a symbol that is corrected. -/
def StackLine.near (x : StackLine) : Bool := (List.range 4).all fun i => match x.wasAt i with
  | some w => decide (symbolsOff w (eccGroup x.data x.tail i) ≤ 1)
  | none => false

/-- A stored line's record of ciphertext bytes. -/
def storedLine (c : List Byte) (mac : BitVec 64) : StackLine :=
  ⟨c, mac, lineEcc c, (List.range 4).map fun i => some (eccGroup c (lineEcc c) i)⟩

/-- A record that something outside has changed: other code words that it has put there count as written, what lies nearer to the old
ones is an error in them. -/
def StackLine.alter (old : StackLine) (data : List Byte) (mac tail : BitVec 64) : StackLine :=
  ⟨data, mac, tail, (List.range 4).map fun i =>
    let g := eccGroup data tail i
    match old.wasAt i with
    | some w => if 2 < symbolsOff w g ∧ eccAgrees g = true then some g else some w
    | none => if eccAgrees g then some g else none⟩

/-- A stored line: ciphertext, MAC and ECC check bits. -/
def sealStored (k : DomKey) (dom : BitVec 6) (line : Nat) (bs : List Byte) : StackLine :=
  let c := xtsEncrypt k line bs
  storedLine c (lineMac k dom line 0 c)

/-- An elided line: the record alone; what stands in the data array stays. -/
def sealElided (k : DomKey) (dom : BitVec 6) (line : Nat) (c : Word) (old : List Byte) : StackLine :=
  ⟨old, lineMac k dom line 1 (wordLine c), encodeConst k line c, []⟩

/-- A poison marker; its message repeats bytes 15:8 (log 88). -/
def sealMarker (k : DomKey) (dom : BitVec 6) (line : Nat) (old : List Byte) : StackLine :=
  ⟨old, lineMac k dom line 2 (wordLine (BitVec.allOnes 64)), BitVec.allOnes 64, []⟩

/-- What opening a line came to. -/
inductive Opened where
  /-- Its bytes, and whether an error was corrected. -/
  | sound (bytes : List Byte) (fixed : Bool)
  /-- A marker: poison, no alarm. -/
  | marked
  /-- An error that the ECC cannot correct (18 R411). -/
  | broken
  /-- A MAC that does not match. -/
  | forged
  deriving DecidableEq, Repr

/-- A record read under a domain (17 R399): the ECC first, then the MAC, then decryption or decoding. -/
def openLine (k : DomKey) (dom : BitVec 6) (line : Nat) (elided : Bool) (x : StackLine) : Opened :=
  if elided then
    let c := encodeConst k line x.tail
    if lineMac k dom line 1 (wordLine c) = x.mac then .sound (wordLine c) false else .forged
  else if x.tail = BitVec.allOnes 64 ∧ x.mac = (sealMarker k dom line x.data).mac then .marked
  else if x.tail = BitVec.allOnes 64 ∧ lineEcc x.data ≠ x.tail ∧ x.near = false then .forged
  else
    match x.corrected with
    | none => .broken
    | some d =>
      if lineMac k dom line 0 d = x.mac then .sound (xtsDecrypt k line d) (decide (d ≠ x.data) || decide (lineEcc d ≠ x.tail))
      else .forged

end Sys2Proof.Machine
end

