-- ==== Sys2Proof/Machine/Ascon.lean ====
section
/-! DEFINITION. Ascon of NIST SP 800-232: the permutation, Ascon-XOF128 (17 R397; 20 R461), and Ascon-AEAD128, which seals what the
links carry (17 R397; 20 R457). What the standard fixes is taken from it (log 45). -/

namespace Sys2Proof.Machine

def asconRound (x : Vector Word 5) (c : Word) : Vector Word 5 :=
  let x0 := x[0] ^^^ x[4]
  let x4 := x[4] ^^^ x[3]
  let x2 := x[2] ^^^ c ^^^ x[1]
  let x1 := x[1]
  let x3 := x[3]
  let y0 := x0 ^^^ (~~~x1 &&& x2)
  let y1 := x1 ^^^ (~~~x2 &&& x3)
  let y2 := x2 ^^^ (~~~x3 &&& x4)
  let y3 := x3 ^^^ (~~~x4 &&& x0)
  let y4 := x4 ^^^ (~~~x0 &&& x1)
  let z1 := y1 ^^^ y0
  let z0 := y0 ^^^ y4
  let z3 := y3 ^^^ y2
  let z2 := ~~~y2
  let mix := fun (v : Word) (a b : Nat) => v ^^^ v.rotateRight a ^^^ v.rotateRight b
  #v[mix z0 19 28, mix z1 61 39, mix z2 1 6, mix z3 10 17, mix y4 7 41]

def ascon12 (x : Vector Word 5) : Vector Word 5 :=
  ([0xF0, 0xE1, 0xD2, 0xC3, 0xB4, 0xA5, 0x96, 0x87, 0x78, 0x69, 0x5A, 0x4B] : List Word).foldl asconRound x

def asconAbsorb : Nat → Vector Word 5 → List Byte → Vector Word 5
  | 0, x, _ => x
  | n + 1, x, m => asconAbsorb n (ascon12 (x.set 0 (x[0] ^^^ BitVec.ofNat 64 (leNat (m.take 8))))) (m.drop 8)

def asconSqueeze : Nat → Vector Word 5 → List Byte
  | 0, _ => []
  | n + 1, x => natLE 8 x[0].toNat ++ asconSqueeze n (ascon12 x)

/-- The first `n` bytes, a multiple of eight, of Ascon-XOF128. -/
def asconXof (m : List Byte) (n : Nat) : List Byte :=
  asconSqueeze (n / 8) (asconAbsorb (m.length / 8 + 1) (ascon12 #v[0x0000080000CC0003, 0, 0, 0, 0]) (m ++ [1]))

/-! ### Ascon-AEAD128 -/

def ascon8 (x : Vector Word 5) : Vector Word 5 :=
  ([0xB4, 0xA5, 0x96, 0x87, 0x78, 0x69, 0x5A, 0x4B] : List Word).foldl asconRound x

/-- A block of up to sixteen bytes added to the rate. -/
def asconXor (x : Vector Word 5) (b : List Byte) : Vector Word 5 :=
  (x.set 0 (x[0] ^^^ BitVec.ofNat 64 (leNat (b.take 8)))).set 1 (x[1] ^^^ BitVec.ofNat 64 (leNat ((b.drop 8).take 8)))
def asconRate (x : Vector Word 5) : List Byte := natLE 8 x[0].toNat ++ natLE 8 x[1].toNat

/-- Associated data, padded, in `n` blocks. -/
def aeadHeader : Nat → Vector Word 5 → List Byte → Vector Word 5
  | 0, x, _ => x
  | n + 1, x, m => aeadHeader n (ascon8 (asconXor x (m.take 16))) (m.drop 16)

/-- A text of `n` whole blocks and a rest: the other text and the state. `dec`: the text is the ciphertext. -/
def aeadText (dec : Bool) : Nat → Vector Word 5 → List Byte → List Byte × Vector Word 5
  | 0, x, m =>
    let out := List.zipWith (· ^^^ ·) m (asconRate x)
    (out, asconXor x ((if dec then out else m) ++ [1]))
  | n + 1, x, m =>
    let b := m.take 16
    let out := List.zipWith (· ^^^ ·) b (asconRate x)
    let r := aeadText dec n (ascon8 (asconXor x (if dec then out else b))) (m.drop 16)
    (out ++ r.1, r.2)

/-- The other text, and the tag. -/
def asconAead (dec : Bool) (key nonce : BitVec 128) (header text : List Byte) : List Byte × BitVec 128 :=
  let k0 : Word := key.setWidth 64
  let k1 : Word := (key >>> 64).setWidth 64
  let x := ascon12 #v[0x00001000808C0001, k0, k1, nonce.setWidth 64, (nonce >>> 64).setWidth 64]
  let x := (x.set 3 (x[3] ^^^ k0)).set 4 (x[4] ^^^ k1)
  let x := if header.isEmpty then x else aeadHeader (header.length / 16 + 1) x (header ++ [1])
  let r := aeadText dec (text.length / 16) (x.set 4 (x[4] ^^^ 0x8000000000000000)) text
  let y := r.2
  let y := ascon12 ((y.set 2 (y[2] ^^^ k0)).set 3 (y[3] ^^^ k1))
  (r.1, ((y[4] ^^^ k1) ++ (y[3] ^^^ k0)))

/-! ### Sealed packets (17 R397) -/

def dirN (dir : Bool) : Fin 2 := if dir then 1 else 0
def Link.bumpCount (l : Link) (d : Fin 2) : Link := { l with count := l.count.set d (l.count[d] + 1) }
def Link.setRetry (l : Link) (d : Fin 2) (b : Bool) : Link := { l with retry := l.retry.set d b }

/-- The nonce: the link's number, the direction, and the direction's packet counter. -/
def packetNonce (link : Nat) (dir : Bool) (count : BitVec 64) : BitVec 128 :=
  count ++ BitVec.ofNat 64 (link % 256 + if dir then 256 else 0)

/-- A packet's body and tag as the link's key of the direction seals them. -/
def Link.sealPacket (l : Link) (link : Nat) (dir : Bool) (header text : List Byte) : List Byte × BitVec 128 :=
  asconAead false l.key[dirN dir] (packetNonce link dir l.count[dirN dir]) header text

/-- The text of a packet whose tag is right. -/
def Link.openPacket (l : Link) (link : Nat) (dir : Bool) (header body : List Byte) (tag : BitVec 128) : Option (List Byte) :=
  let r := asconAead true l.key[dirN dir] (packetNonce link dir l.count[dirN dir]) header body
  if r.2 = tag then some r.1 else none

end Sys2Proof.Machine
end

