-- ==== Sys2Proof/Machine/Mlc.lean ====
section
/-! DEFINITION. The home of a line: its stack with the side-band record and the elision bitmap (17 R395 to R402; 18 R429), and the
MLC in front of it (10 R297 to R299). -/

namespace Sys2Proof.Machine

/-! ### Key domains and lines -/

/-- The domain holds no valid key, or is fenced (17 R399, R404). -/
def State.domainDead (s : State) (k : BitVec 6) : Bool :=
  !bitAt (s.mreg 0x118) k.toNat || bitAt (s.mreg 0x128) k.toNat

/-- A domain's keys. -/
def State.domKey (s : State) (k : BitVec 6) : DomKey := tget ⟨0, 0, 0, 0⟩ s.keys k.toNat

/-- The bytes of physical line `pl`. -/
def State.lineBytes (s : State) (pl : Nat) : List Byte := Mem.bytes s.mem (64 * pl) 64

/-- Eight equal words (17 R401). -/
def isConstant (bs : List Byte) : Bool :=
  decide (bs.length = 64) && (List.range 56).all fun i => decide (bs[i]? = bs[i + 8]?)
/-- The first word of a line. -/
def firstWord (bs : List Byte) : Word := BitVec.ofNat 64 (leNat (bs.take 8))

/-- Tags of bitmap lines begin here: no physical address has such a line number (17 R402). -/
def bmBase : Nat := 2 ^ 34

/-- Root die of a physical line (10 R297), or of a bitmap line. -/
def rootOf (pl : Nat) : Nat := if bmBase ≤ pl then (pl - bmBase) % 12 else pl / 64 % 12

/-- HBM bytes, to an identifier or to `acunch` (19 R445). -/
def State.chargeHbm (s : State) (acct : Option (BitVec 6)) : State :=
  match acct with
  | some a => s.charge a 2 64
  | none => s.setMreg 0x3B8 (s.mreg 0x3B8 + 64)

/-- The home link's alarm source for a line: its root die (17 R405). -/
def rootSrc (pl : Nat) : Byte := BitVec.ofNat 8 (rootOf pl)

def State.mlcFind (s : State) (pl : Nat) : Option MlcLine := s.mlc.find? fun (l : MlcLine) => decide (l.line = pl)

/-- A line poisoned where it lies: in the MLC, which then writes a marker, or in its stack (17 R400; 18 R429). -/
def poisonLine (s : State) (pl : Nat) : State :=
  match s.mlcFind pl with
  | some l => { s with mlc := s.mlc.map fun (m : MlcLine) => if m = l then { m with poison := true, dirty := true } else m }
  | none => { s with badLines := (pl :: s.badLines).eraseDups }

/-- The line is known to be poisoned. -/
def State.linePoison (s : State) (pl : Nat) : Bool :=
  match s.mlcFind pl with
  | some l => l.poison
  | none => s.badLines.contains pl

/-- An uncorrectable error of a stack is reported (18 R411, R416): unit 0x0B of the root die. -/
def hbmCheck (s : State) (pl : Nat) : State :=
  machineCheck s (mcOf (0x10 + rootOf pl) 0x0B (rootOf pl) 1 2 (if bmBase ≤ pl then 0 else BitVec.ofNat 64 (64 * pl)) 0 0)

/-- A corrected event, merged into the unit's record of the present millisecond (18 R416). -/
def noteCorrected (s : State) (die unit idx : Nat) : State :=
  { s with merge := tset s.merge (die, unit, idx) (tget 0 s.merge (die, unit, idx) + 1) }
/-- An error of a stack that a read has corrected. -/
def noteFixed (s : State) (pl : Nat) (fixed : Bool) : State :=
  if fixed then noteCorrected s (0x10 + rootOf pl) 0x0B (rootOf pl) else s

/-! ### The elision bitmap (17 R402) -/

/-- The tag of the bitmap line that holds a page's word. -/
def bmTag (page : Nat) : Nat := bmBase + page / 12 / 8 * 12 + page % 12
/-- The eight pages whose words a bitmap line holds. -/
def bmPages (tag : Nat) : List Nat := (List.range 8).map fun j => ((tag - bmBase) / 12 * 8 + j) * 12 + (tag - bmBase) % 12
def State.bmBytes (s : State) (tag : Nat) : List Byte := (bmPages tag).flatMap fun p => natLE 8 (cget 0 s.bitmap p).toNat
def State.setBitmap (s : State) (tag : Nat) (bs : List Byte) : State :=
  { s with bitmap := (bmPages tag).zipIdx.foldl (fun m p => cset 0 m p.1 (BitVec.ofNat 64 (leNat ((bs.drop (8 * p.2)).take 8)))) s.bitmap }
/-- The line's bit. -/
def State.elided (s : State) (pl : Nat) : Bool := bitAt (cget 0 s.bitmap (pl / 64)) (pl % 64)

/-- A bitmap line held in the MLC: the latest 4,096 are kept (log 91). -/
def bmHold (s : State) (tag : Nat) : State := { s with bmHeld := tag :: (s.bmHeld.filter (· ≠ tag)).take 4095 }

/-- A bitmap line that cannot be trusted: the 512 lines it covers are poisoned. -/
def bmLost (s : State) (tag : Nat) : State :=
  foldS ((bmPages tag).flatMap fun p => rangeFrom (64 * p) 64) (bmHold (s.setBitmap tag (List.replicate 64 0)) tag) poisonLine

/-- A bitmap line brought into the MLC: whether it can be read, which needs domain 0. A MAC mismatch raises BITMAP. -/
def bmRead (s : State) (tag : Nat) : Bool × State :=
  if s.domainDead 0 then (false, s)
  else if s.bmHeld.contains tag then (true, s)
  else
    let s := s.chargeHbm none
    match tget? s.stack tag with
    | none => (true, bmHold s tag)
    | some x =>
      if x = sealStored (s.domKey 0) 0 tag (s.bmBytes tag) then (true, bmHold s tag)
      else
        match openLine (s.domKey 0) 0 tag false x with
        | .sound bs fixed => (true, noteFixed (bmHold (s.setBitmap tag bs) tag) tag fixed)
        | .broken => (true, bmLost (hbmCheck s tag) tag)
        | .marked | .forged => (true, (bmLost s tag).enqueue (.alarmTrigger .bitmap none (rootSrc tag) 0))

/-- A line's bit in a bitmap line that can be read; the bitmap line is written through to its stack. -/
def bmWrite (s : State) (pl : Nat) (bit : Bool) : State :=
  let tag := bmTag (pl / 64)
  if s.elided pl = bit then s
  else
    let s : State := { s with bitmap := cset 0 s.bitmap (pl / 64) (setField (cget 0 s.bitmap (pl / 64)) (pl % 64) 1 (b2n bit)) }
    ({ s with stack := tset s.stack tag (sealStored (s.domKey 0) 0 tag (s.bmBytes tag)) } : State).chargeHbm none

/-! ### A line read from and written to its stack -/

/-- The record is the one that the plaintext gives under the domain: what opening it would show. -/
def State.stackSound (s : State) (pl : Nat) (k : BitVec 6) (x : StackLine) : Bool :=
  let bs := s.lineBytes pl
  if s.elided pl then isConstant bs && decide (x = sealElided (s.domKey k) k pl (firstWord bs) x.data)
  else decide (x = sealStored (s.domKey k) k pl bs)

/-- A read of a line from its stack, under the KDOM of its leaf: whether it reads as poison (17 R399). -/
def hbmRead (s : State) (pl : Nat) (k : BitVec 6) (acct : Option (BitVec 6)) : Bool × State :=
  if s.domainDead k then (true, s)
  else
    let b := bmRead (s.chargeHbm acct) (bmTag (pl / 64))
    let s := b.2
    if b.1 = false ∨ s.badLines.contains pl = true then (true, s)
    else
      match tget? s.stack pl with
      | none => (false, s)
      | some x =>
        if s.stackSound pl k x then (false, s)
        else
          match openLine (s.domKey k) k pl (s.elided pl) x with
          | .sound bs fixed => (false, noteFixed { s with mem := Mem.writeBytes s.mem (64 * pl) bs } pl fixed)
          | .marked => (true, s)
          | .broken => (true, hbmCheck (poisonLine s pl) pl)
          | .forged => (true, (poisonLine s pl).enqueue (.alarmTrigger .integ (some k) (rootSrc pl) (BitVec.ofNat 64 (64 * pl))))

/-- What a stack's data array holds of a line. -/
def State.stackData (s : State) (pl : Nat) : List Byte :=
  match tget? s.stack pl with
  | some x => x.data
  | none => List.replicate 64 0

/-- A line's record written, its bit in the bitmap with it. -/
def State.putStack (s : State) (pl : Nat) (x : StackLine) (bit : Bool) : State :=
  bmWrite { s with stack := tset s.stack pl x, badLines := s.badLines.filter (· ≠ pl) } pl bit

/-- A line written to its stack: a marker when poisoned (18 R429), elided when constant and allowed (17 R401); dropped when the
domain is dead (R404). -/
def hbmWrite (s : State) (pl : Nat) (k : BitVec 6) (acct : Option (BitVec 6)) (poison : Bool) : State :=
  if s.domainDead k then s
  else
    let b := bmRead (s.chargeHbm acct) (bmTag (pl / 64))
    let s : State := { b.2 with wroteBack := (pl, k, tget? b.2.stack pl, b.2.elided pl) :: b.2.wroteBack }
    let bs := s.lineBytes pl
    let key := s.domKey k
    if poison then s.putStack pl (sealMarker key k pl (s.stackData pl)) (s.elided pl && !b.1)
    else if isConstant bs && bitAt (s.mreg 0x120) k.toNat && b.1 then
      s.putStack pl (sealElided key k pl (firstWord bs) (s.stackData pl)) true
    else s.putStack pl (sealStored key k pl bs) (s.elided pl && !b.1)

/-! ### The MLC -/

/-- Set of a line within its root die; placement is the model's choice (log 12). -/
def mlcSet (pl : Nat) : Nat := (pl / 64 / 12 * 64 + pl % 64) % 196608

/-- The bank of a line's root die (log 12). -/
def mlcBank (pl : Nat) : Nat := mlcSet pl % 96

def mlccEn (w : Word) : Bool := bitAt w 63
def mlccWays (w : Word) : Nat := fieldNat w 8 4
def State.mlcc (s : State) (n : Nat) : Word := s.mreg (0x300 + 8 * n)

/-- The ways that range register `n` reserves. -/
def State.mlcMask (s : State) (n : Nat) : Half := if mlccEn (s.mlcc n) then cget 0 s.mlcWays n else 0
def waysOf (m : Half) : List Nat := (List.range 16).filter fun w => bitAt m w
/-- All reserved ways. -/
def State.mlcReserved (s : State) : Half := (List.range 8).foldl (fun m n => m ||| s.mlcMask n) 0
/-- The ways a register that is enabled now takes: the highest that no other reserves (log 12). -/
def State.mlcPick (s : State) (count : Nat) : Half :=
  ((waysOf (~~~s.mlcReserved)).reverse.take count).foldl (fun m w => m ||| ((1 : Half) <<< w)) 0
def State.mlcGated (s : State) (root way : Nat) : Bool := (tget 0 s.mlcgate root).getLsbD way
/-- The ways of the common pool. -/
def State.mlcCommon (s : State) (root : Nat) : List Nat := (waysOf (~~~s.mlcReserved)).filter fun w => !s.mlcGated root w

/-- The lowest-numbered enabled register that covers a line. -/
def State.mlcCover (s : State) (pl : Nat) : Option (Fin 8) :=
  (List.finRange 8).find? fun n =>
    mlccEn (s.mlcc n.val) && decide (fieldNat (s.mreg (0x280 + 8 * n.val)) 21 19 ≤ pl * 64 / 2 ^ 21) &&
    decide (pl * 64 / 2 ^ 21 < fieldNat (s.mreg (0x2C0 + 8 * n.val)) 21 19)

/-- A line leaves the MLC: a dirty one is written to its stack, charged to its last writer (19 R446). -/
def mlcEvict (s : State) (l : MlcLine) : State :=
  let s := { s with mlc := s.mlc.erase l }
  if l.dirty then hbmWrite s l.line l.kdom l.acct l.poison else s

/-- A line enters the MLC in one of `ways`: a free one, else in place of the least recently used that may be replaced. A bank that has
failed has no ways (18 R421). -/
def mlcPlace (s : State) (n : MlcLine) (ways : List Nat) : State :=
  let ways := if s.bankOut.contains (rootOf n.line * 96 + mlcBank n.line) then [] else ways
  let here := s.mlc.filter fun (l : MlcLine) => decide (rootOf l.line = rootOf n.line) && decide (mlcSet l.line = mlcSet n.line)
  let put := fun (s : State) (w : Nat) => { s with mlc := s.mlc ++ [{ n with way := Fin.ofNat 16 w }] }
  match ways.find? fun w => here.all fun (l : MlcLine) => decide (l.way.val ≠ w) with
  | some w => put s w
  | none =>
    let may := here.filter fun (l : MlcLine) => ways.contains l.way.val && match l.retained with
      | some r => decide (n.retained = some r) || !mlccEn (s.mlcc r.val)
      | none => true
    match may with
    | [] => if n.dirty then hbmWrite s n.line n.kdom n.acct n.poison else s
    | m :: ms =>
      let v := ms.foldl (fun (a b : MlcLine) => if b.used < a.used then b else a) m
      put (mlcEvict s v) v.way.val

/-- A fill from the stack, sampled by the range registers (10 R299). -/
def mlcFill (s : State) (n : MlcLine) : State :=
  match s.mlcCover n.line with
  | none => mlcPlace s n (s.mlcCommon (rootOf n.line))
  | some r =>
    let key := rootOf n.line * 8 + r.val
    let c : Half := cget 0 s.mlcFill key + 1
    let s := { s with mlcFill := cset 0 s.mlcFill key c }
    if c.toNat % 2 ^ fieldNat (s.mlcc r.val) 16 4 = 0 then
      mlcPlace s { n with retained := some r } ((waysOf (s.mlcMask r.val)).filter fun w => !s.mlcGated (rootOf n.line) w)
    else mlcPlace s n (s.mlcCommon (rootOf n.line))

/-- A line for the MLC. -/
def mlcNew (s : State) (pl : Nat) (k : BitVec 6) (acct : Option (BitVec 6)) (dirty poison : Bool) (due : Nat) : MlcLine :=
  { line := pl, acct := acct, dirty := dirty, retained := none, way := 0, used := s.cycle, kdom := k, due := due, poison := poison }

/-- A packet for a line on a die link, sealed under the key that both ends hold (17 R390, R397; log 97). -/
def linkPacket (s : State) (n pl : Nat) (dir : Bool) (text : List Byte) : State :=
  let l := s.link n
  let header := Config.linkHeader n dir pl
  let x := l.sealPacket n dir header text
  let l := { l.bumpCount (dirN dir) with wire := l.wire.set (dirN dir) (some ⟨header, x.1, x.2⟩) }
  let s := s.modLink n fun _ => l
  if l.count[dirN dir] = 2 ^ 48 then s.enqueue (.linkRekey n dir) else s

/-- A line crosses the link of a compute die and its root, in a packet each way (log 97): the bytes that go to the root die and those
that come back. -/
def linkCarry (s : State) (die pl : Nat) (out back : List Byte) : State :=
  let n := 12 * die + rootOf pl
  linkPacket (linkPacket s n pl false out) n pl true back

/-- Link `n` is taken down (18 R420), or is a package link without keys: it carries nothing (20 R457). -/
def Link.isDown (l : Link) (n : Nat) : Bool := l.down || (decide (96 ≤ n) && !l.keyed)

/-- A byte of the routing table for a package (20 R456). -/
def State.odrt (s : State) (p : Nat) : Nat := fieldNat (s.mreg (0x800 + p / 8 * 8)) (p % 8 * 8) 8
/-- The Odiraman link that the table names for a package, when its entry is valid. -/
def State.podLink (s : State) (p : Nat) : Option Nat := if s.odrt p / 128 = 0 then none else some (96 + s.odrt p % 32)

/-- A packet to another package, sealed under the link's key of the sending direction; nothing leaves by a link that is down
(20 R456, R457; log 97). -/
def podSend (s : State) (p : Nat) (header text : List Byte) : State :=
  match s.podLink p with
  | none => s
  | some n =>
    let l := s.link n
    if l.isDown n then s
    else
      let x := l.sealPacket n false header text
      let s : State := { s with pod := (p, header ++ x.1 ++ natLE 16 x.2.toNat) :: s.pod }
      let s := s.modLink n (Link.bumpCount · 0)
      if (s.link n).count[0] = 2 ^ 48 then s.enqueue (.linkRekey n false) else s

/-- The next read or write of a line was in a packet that is lost: whether so, and the state without it (17 R398). -/
def takeLost (s : State) (pl : Nat) (write : Bool) : Bool × State :=
  (s.lost.contains (pl, write), { s with lost := s.lost.erase (pl, write) })

/-- Turns until cycle `due`, counted from a turn that began in cycle `now`, at least `n`. -/
def turnsUntil (now due n : Nat) : Nat := max n ((due - now + 15) / 16)

/-- A line that the MLC holds under another domain than its reader's leaves it first, so that the reader meets what the stack holds
(17 R392). -/
def mlcOwn (s : State) (pl : Nat) (k : BitVec 6) : State :=
  match s.mlcFind pl with
  | some l => if l.kdom = k ∨ s.domainDead k = true then s else mlcEvict s l
  | none => s

/-- The root die of a line has left reset (21 R469). What is asked of one in reset is the model's choice: its lines read as poison, and
what is written to it is lost (DESIGN CHOICE, log 124). -/
def State.rootUp (s : State) (pl : Nat) : Bool := bitAt (s.mreg 0x40) (8 + rootOf pl)

/-- A read served at the home MLC for a requester whose turn began in cycle `now`: its latency in turns, whether it reads as
poison. A line filled is present `lag` cycles later; one still on its way from the stack is not yet in the MLC: its data comes
from the HBM (log 76). -/
def mlcRead (s : State) (now pl : Nat) (k : BitVec 6) (acct : Option (BitVec 6)) (lag : Nat) : Nat × Bool × State :=
  if s.rootUp pl = false then (32, true, s)
  else
  let x := takeLost s pl false
  let s := mlcOwn x.2 pl k
  match s.mlcFind pl with
  | some l => (if l.due ≤ now then 16 else 32, x.1 || l.poison || s.domainDead k,
      { s with mlc := s.mlc.map fun (m : MlcLine) => if m = l then { m with used := s.cycle, due := min m.due (now + lag) } else m })
  | none =>
    let r := hbmRead s pl k acct
    (32, x.1 || r.1, if r.2.domainDead k then r.2 else mlcFill r.2 (mlcNew r.2 pl k acct false r.1 (now + lag)))

/-- The same for a requester on a compute die, whose line comes over the die's link (17 R397). -/
def dieRead (s : State) (die now pl : Nat) (k : BitVec 6) (acct : Option (BitVec 6)) : Nat × Bool × State :=
  let m := mlcRead s now pl k acct 512
  (m.1, m.2.1, linkCarry m.2.2 die pl [] (if m.2.1 then [] else m.2.2.lineBytes pl))

/-- Bytes that reach the home of a line: dropped for a dead domain, and when they replace only part of a poisoned line
(17 R400), or of one that another domain wrote (R392). Part of a line that the MLC does not hold is merged into what its stack
holds (log 90). `put` writes them. -/
def mlcWrite (s : State) (pl : Nat) (k : BitVec 6) (acct : Option (BitVec 6)) (whole : Bool) (put : Mem → Mem) : State :=
  if s.rootUp pl = false then s
  else
  let x := takeLost s pl true
  let s := if whole then x.2 else mlcOwn x.2 pl k
  if x.1 || s.domainDead k then s
  else
    match s.mlcFind pl with
    | some l =>
      if l.poison && !whole then s
      else { s with
        mem := put s.mem
        mlc := s.mlc.map fun (m : MlcLine) =>
          if m = l then { m with dirty := true, acct := acct, used := s.cycle, poison := false, kdom := if whole then k else m.kdom } else m }
    | none =>
      if whole then
        let s : State := { s with mem := put s.mem }
        mlcPlace s (mlcNew s pl k acct true false 0) (s.mlcCommon (rootOf pl))
      else
        let r := hbmRead s pl k acct
        if r.1 then r.2
        else
          let s : State := { r.2 with mem := put r.2.mem }
          mlcFill s (mlcNew s pl k acct true false 0)

/-- The same for a requester on a compute die, whose bytes `text` go over the die's link. -/
def dieWrite (s : State) (die pl : Nat) (k : BitVec 6) (acct : Option (BitVec 6)) (whole : Bool) (text : List Byte) (put : Mem → Mem) : State :=
  mlcWrite (linkCarry s die pl text []) pl k acct whole put

end Sys2Proof.Machine
end

