-- ==== Sys2Proof/Machine/Lines.lean ====
section
/-! DEFINITION. Lines on the compute dies: who asks for one, its bytes, the access log of a die (19 R437, R438), and the lines of an
L2 by their addresses (10 R294). -/

namespace Sys2Proof.Machine

/-- Memory ends here; register pages lie from 0xFF_0000_0000 (16 R364). -/
def memEnd : Nat := 0x9000000000
def regSpace : Nat := 0xFF00000000

/-! ### Requesters -/

/-- The code of an access that no slice logs: one past those that OPS can name (R437). -/
def unlogged : Nat := 16
def State.req (s : State) (c : Cid) (code : Nat) : Req :=
  let k := s.core c
  ⟨k.vcore, k.world, k.acct, dieOf c.quad, c.quad, code⟩

/-! ### The bytes of a line -/

/-- Bytes `lo` to `lo + n − 1` of a line. -/
def byteMask (lo n : Nat) : BitVec 64 := BitVec.ofNat 64 (2 ^ (lo + n) - 2 ^ lo)
/-- `n` bytes from byte `o` of a line. -/
def dataBytes (d : LineData) (o n : Nat) : List Byte := (List.range n).map fun i => (d[o + i]?).getD 0
/-- The same, as a number. -/
def dataNat (d : LineData) (o n : Nat) : Nat := leNat (dataBytes d o n)
/-- A line with bytes replaced from byte `o`. -/
def dataPut (d : LineData) (o : Nat) (bs : List Byte) : LineData :=
  Vector.ofFn fun i => if o ≤ i.val then (bs[i.val - o]?).getD d[i] else d[i]
/-- The bytes of `a` where the mask has them, else those of `b`. -/
def dataMerge (m : BitVec 64) (a b : LineData) : LineData := Vector.ofFn fun i => if m.getLsbD i.val then a[i] else b[i]
/-- The halfwords of a line. -/
def dataHalves (d : LineData) : Vector Half 32 := Vector.ofFn fun i => BitVec.ofNat 16 (dataNat d (2 * i.val) 2)
def zeroLine : LineData := Vector.replicate 64 0
/-- The bytes that the home of physical line `pl` holds. -/
def State.homeData (s : State) (pl : Nat) : LineData := Vector.ofFn fun i => Mem.read s.mem (64 * pl + i.val)
/-- The bytes of a mask written to memory from `a`. -/
def Mem.putLine (m : Mem) (a : Nat) (mask : BitVec 64) (d : LineData) : Mem :=
  foldS (List.finRange 64) m fun (m : Mem) i => if mask.getLsbD i.val then Mem.write m (a + i.val) d[i] else m

/-! ### The access log of a die -/

def State.dreg (s : State) (d off : Nat) : Word := s.reg (dieBase d + off)
def State.setDreg (s : State) (d off : Nat) (v : Word) : State := s.setReg (dieBase d + off) v

/-- Home slice and set of a line (10 R294). -/
def sliceOf (line : Nat) : Nat := line % 96
def setOf (line : Nat) : Nat := line / 96 % 1024

/-- An entry for a matched access as its slice serves it (19 R437 to R439), written through the MLC under domain 0; none where
there is no memory. -/
def logEntry (s : State) (r : Req) (line : Nat) (hit : Bool) : State :=
  let ctl := s.dreg r.die 0x40
  let va : Word := BitVec.ofNat 64 (64 * line)
  let inRange := decide (fieldNat (s.dreg r.die 0x48) 6 50 ≤ line) && decide (line < fieldNat (s.dreg r.die 0x50) 6 50) &&
    decide (r.code < unlogged)
  if bitAt ctl 63 && inRange && bitAt ctl r.code && (bitAt ctl 62 || decide (fieldNat ctl 52 4 = r.world.toNat)) then
    let wp := s.dreg r.die 0x68
    let size := fieldNat (s.dreg r.die 0x60) 0 16 * 256
    if wp - s.dreg r.die 0x70 = BitVec.ofNat 64 size then s.setDreg r.die 0x78 (s.dreg r.die 0x78 + 1)
    else
      let a := fieldNat (s.dreg r.die 0x58) 12 28 * 4096 + 16 * (wp.toNat % size)
      let w0 : Word := BitVec.ofNat 64 (r.vcore.toNat * 2 ^ 48 + r.world.toNat * 2 ^ 44 + r.acct.toNat * 2 ^ 38 +
        sliceOf line * 2 ^ 29 + b2n hit * 2 ^ 28 + r.code * 2 ^ 24 + s.cycle % 2 ^ 24)
      let bs := msg16 w0 va
      let s := if memEnd ≤ a then s else dieWrite s r.die (a / 64) 0 none false bs fun m => Mem.writeBytes m a bs
      s.setDreg r.die 0x68 (wp + 1)
  else s

/-- Accesses logged in the order in which they are served. -/
def logRecs (s : State) (xs : List LogRec) : State := foldS xs s fun s x => logEntry s x.req x.line x.hit
/-- An access joins those of its requester: one to a line that is there already is the same access, a hit where both are. -/
def addRec (xs : List LogRec) (x : LogRec) : List LogRec :=
  if xs.any fun y => decide (y.line = x.line) then xs.map fun y => if y.line = x.line then { y with hit := y.hit && x.hit } else y
  else xs ++ [x]

/-! ### Lines of an L2 -/

def l2Key (die line : Nat) : Nat := (die * 96 + sliceOf line) * 1024 + setOf line

def State.l2Find (s : State) (die line : Nat) : Option L2Line :=
  s.l2.find? fun (l : L2Line) => decide (l.die = die) && decide (l.line = line)
def State.l2Put (s : State) (l : L2Line) : State :=
  { s with l2 := s.l2.map fun (m : L2Line) => if m.die = l.die ∧ m.line = l.line then l else m }
def State.sliceDown (s : State) (die line : Nat) : Bool := s.sliceOut.contains (die * 96 + sliceOf line)

end Sys2Proof.Machine
end

