-- ==== Sys2Proof/Machine/Translate.lean ====
section
/-! DEFINITION. Leases, domain rights and the page-table walk (16 R361 to R373). -/

namespace Sys2Proof.Machine


/-- A register page begins at `pa` (20 R459). -/
def State.isRegPage (s : State) (pa : Nat) : Bool :=
  let o := pa - regSpace
  decide (regSpace ≤ pa) && decide (pa % 0x10000 = 0) &&
  (decide (o < 0x90000) || (decide (0x100000 ≤ o) && decide (o < 0x1C0000)) ||
   (decide (0x1000000 ≤ o) && decide (o < 0x1000000 + 8 * 0x800000) &&
    decide ((o - 0x1000000) % 0x800000 / 0x10000 < s.activeQuads)))

inductive WalkErr where
  | translation | protection
  deriving DecidableEq, Repr

/-- A leaf found: where it lies, its words, the page's physical base and span. -/
structure Leaf where
  at_ : Nat
  leaf : Word
  comp : Word
  pa : Nat
  span : Nat
  deriving DecidableEq, Repr

def leafKdom (l : Word) : BitVec 6 := BitVec.ofNat 6 (fieldNat l 58 6)
def leafIO (l : Word) : Bool := bitAt l 56
def leafOwn (l : Word) : BitVec 4 := BitVec.ofNat 4 (fieldNat l 52 4)
def leafShared (l : Word) : Bool := bitAt l 51
def leafPin (l : Word) : Bool := bitAt l 57

/-- The levels of a walk from level 4 down: index bits, index width, and the span of a leaf (none where not allowed) (R363). -/
structure WalkLevel where
  lo : Nat
  width : Nat
  leaf : Bool
  deriving DecidableEq, Repr

def walkLevels : List WalkLevel :=
  [⟨48, 8, false⟩, ⟨39, 9, false⟩, ⟨30, 9, true⟩, ⟨21, 9, true⟩, ⟨16, 5, true⟩]

/-- A leaf's own checks (R364, R366). -/
def State.leafOk (s : State) (w : Word) (span : Nat) : Bool :=
  let pa := fieldNat w 16 24 * 65536
  decide (fieldNat w 40 11 = 0) && decide (fieldNat w 4 12 = 0) && decide (pa % span = 0) &&
  (if leafIO w then decide (span = 65536) && s.isRegPage pa
   else decide (fieldNat w 51 5 = 0) && decide (pa + span ≤ memEnd))

/-- A read of a line at its home for a unit of a compute die, or for one that is on none. -/
def homeRead (s : State) (die : Option Nat) (pl : Nat) (k : BitVec 6) : Nat × Bool × State :=
  match die with
  | some d => dieRead s d s.cycle pl k none
  | none => mlcRead s s.cycle pl k none 512

/-- An entry of a table read through the MLC, under Tvedyth's domain (R368; log 92): none where there is no memory, or poison. Its
HBM bytes have no identifier (19 R445). -/
def entryRead (s : State) (die : Option Nat) (a : Nat) : Option (Word × Word) × State :=
  if memEnd ≤ a then (none, s)
  else
    let m := homeRead s die (a / 64) 0
    if m.2.1 then (none, m.2.2)
    else (some (BitVec.ofNat 64 (Mem.readN m.2.2.mem a 8), BitVec.ofNat 64 (Mem.readN m.2.2.mem (a + 8) 8)), m.2.2)

/-- The walk below a table (R363, R365, R368). -/
def walkFrom (s : State) (die : Option Nat) (va : Nat) : List WalkLevel → Nat → Except WalkErr Leaf × State
  | [], _ => (.error .translation, s)
  | l :: ls, table =>
    let a := table + 16 * (va / 2 ^ l.lo % 2 ^ l.width)
    match entryRead s die a with
    | (none, s) => (.error .translation, s)
    | (some (w, c), s) =>
      if !bitAt w 0 then (.error .translation, s)
      else if bitAt w 1 then
        (if l.leaf && s.leafOk w (2 ^ l.lo) then .ok ⟨a, w, c, fieldNat w 16 24 * 65536, 2 ^ l.lo⟩ else .error .translation, s)
      else
        let next := fieldNat w 9 31 * 512
        match ls with
        | [] => (.error .translation, s)
        | n :: _ =>
          if fieldNat w 40 24 ≠ 0 ∨ fieldNat w 2 7 ≠ 0 ∨ c ≠ 0 ∨ next % (16 * 2 ^ n.width) ≠ 0 then (.error .translation, s)
          else walkFrom s die va ls next

/-- A walk from `tbase`, and what it would find now. -/
def walkVA (s : State) (die : Option Nat) (va : Nat) : Except WalkErr Leaf × State :=
  walkFrom s die va walkLevels (fieldNat (s.mreg 0x200) 12 28 * 4096)
def State.walk (s : State) (va : Nat) : Except WalkErr Leaf := (walkVA s none va).1

/-- A or D set in a leaf by an atomic at its home (R368). The copies that the die's L2 holds of the leaf's line are given up first, as
for every atomic (07 R203); `back` writes one's dirty bytes back. -/
def setLeafBits (back : State → L2Line → State) (s : State) (die : Option Nat) (l : Leaf) (bits : Word) : State :=
  let cur : Word := BitVec.ofNat 64 (Mem.readN s.mem l.at_ 8)
  if cur ||| bits = cur then s
  else
    let here := match die with
      | some d => s.l2.filter fun (m : L2Line) => decide (m.die = d) && decide (m.pa / 64 = l.at_ / 64)
      | none => []
    let s := foldS here s fun s m =>
      let kept := if m.lock.isSome || m.pin then [{ m with valid := 0, dirty := 0, writers := [], rel := false, coming := 0 }] else []
      back { s with l2 := s.l2.flatMap fun (x : L2Line) => if x = m then kept else [x] } m
    let w : Word := BitVec.ofNat 64 (Mem.readN s.mem l.at_ 8) ||| bits
    let put := fun (m : Mem) => Mem.writeN m l.at_ 8 w.toNat
    match die with
    | some d => dieWrite s d (l.at_ / 64) 0 none false (natLE 8 w.toNat) put
    | none => mlcWrite s (l.at_ / 64) 0 none false put

/-- A requester of a walk: the die whose translation unit serves it, and the quad whose group must be listed; a management
core has neither (R367, R368). -/
structure Walker where
  die : Option Nat
  quad : Option Nat
  deriving DecidableEq, Repr

def Req.walker (r : Req) : Walker := ⟨some r.die, some r.quad⟩

/-- The companion word lists the requester's group (R367). -/
def State.groupOk (s : State) (w : Walker) (comp : Word) : Bool :=
  match w.quad with
  | none => true
  | some q => bitAt comp (s.groupBit q)

/-- Translation at an L2 miss (R368): through the die's translation cache of 4,096 leaves, else by a walk, which sets A; D is set
for dirty bytes. -/
def translateBy (back : State → L2Line → State) (s : State) (w : Walker) (va : Nat) (dirty : Bool) : Except WalkErr Leaf × State :=
  let d := fun (l : Leaf) => dirty && !leafIO l.leaf
  let hit := match w.die with
    | some d => s.tcache.find? fun (e : TLeaf) => decide (e.die = d) && decide (e.va ≤ va) && decide (va < e.va + e.span)
    | none => none
  match hit with
  | some e =>
    let l : Leaf := ⟨e.at_, e.leaf, e.comp, e.pa, e.span⟩
    if !s.groupOk w e.comp then (.error .protection, s)
    else (.ok l, if d l then setLeafBits back s w.die l 8 else s)
  | none =>
    match walkVA s w.die va with
    | (.error e, s) => (.error e, s)
    | (.ok l, s) =>
      if !s.groupOk w l.comp then (.error .protection, s)
      else
        let s := setLeafBits back s w.die l (if d l then 12 else 4)
        let s := match w.die with
          | some d =>
            let kept := s.tcache.filter fun (e : TLeaf) => decide (e.die = d)
            let rest := if kept.length < 4096 then s.tcache
              else match kept with
                | o :: _ => s.tcache.erase o
                | [] => s.tcache
            { s with tcache := rest ++ [⟨d, va / l.span * l.span, l.span, l.pa, l.leaf, l.comp, l.at_⟩] }
          | none => s
        (.ok l, s)

/-- The dirty bytes of a line of an L2 go to its home, and the line's D bit is set (R368; 10 R295), which may drive a dirty copy of the
leaf's own line home first: each holds one line less, so `n` is the number of lines. -/
def lineBack : Nat → State → L2Line → State
  | 0, s, _ => s
  | n + 1, s, l =>
    if l.dirty = 0 then s
    else
      let s := s.l2Put { l with dirty := 0, writers := [], rel := false }
      let s := logEntry s ⟨0xFFFF, 0, l.acct, l.die, 0, 8⟩ l.line true
      let text := (List.finRange 64).filterMap fun i => if l.dirty.getLsbD i.val then some l.data[i] else none
      let s := dieWrite s l.die (l.pa / 64) l.kdom l.acct (decide (l.dirty = BitVec.allOnes 64)) text fun m =>
        Mem.putLine m (l.pa / 64 * 64) l.dirty l.data
      (translateBy (lineBack n) s ⟨some l.die, none⟩ (64 * l.line) true).2

/-- Translation for a requester. -/
def translate (s : State) (w : Walker) (va : Nat) (dirty : Bool) : Except WalkErr Leaf × State :=
  translateBy (lineBack (s.l2.length + 1)) s w va dirty

/-! ### Leases and domain rights (R370 to R372) -/

def State.launchOf (s : State) (c : Cid) : Option Launch := (s.core c).launch.bind (tget? s.launches)

def inRanges (a : Nat) (rs : List (Nat × Nat)) : Bool := rs.any fun r => decide (r.1 ≤ a) && decide (a < r.2)

/-- Every byte of [a, a + n) lies in the core's lease; ranges are multiples of 64 KiB. -/
def State.inLease (s : State) (c : Cid) (a n : Nat) : Bool :=
  match s.launchOf c with
  | some l => inRanges a l.lease && inRanges (a + n - 1) l.lease
  | none => false

/-- Rights of an access: R, W, X (R370). -/
structure Rights where
  r : Bool
  w : Bool
  x : Bool
  deriving DecidableEq, Repr
abbrev rR : Rights := ⟨true, false, false⟩
abbrev rW : Rights := ⟨false, true, false⟩
abbrev rRW : Rights := ⟨true, true, false⟩
abbrev rX : Rights := ⟨false, false, true⟩

def Rights.ok (n : Rights) (b : Byte) : Bool := (!n.r || bitAt b 0) && (!n.w || bitAt b 1) && (!n.x || bitAt b 2)

/-- The PLB grants the rights in the address's domain (R371). -/
def State.plbOk (s : State) (c : Cid) (a : Nat) (n : Rights) : Bool := n.ok (tget 0 (s.core c).plb (a / 2 ^ 48 % 256))

/-- The lease and PLB check of an access (R371, R372). -/
def State.leased (s : State) (c : Cid) (a n : Nat) (r : Rights) : Bool :=
  s.inLease c a n && s.plbOk c a r && s.plbOk c (a + n - 1) r

/-- A PLB reload from the world's domain-rights table, through the MLC (R370, R371): no rights where it has no memory or reads
as poison. -/
def plbLoad (s : State) (die : Option Nat) (world : BitVec 4) (doms : List Nat) : Tbl Nat Byte × State :=
  foldS doms ([], s) fun (x : Tbl Nat Byte × State) d =>
    let a := fieldNat (s.mreg 0x208) 12 28 * 4096 + 256 * world.toNat + d
    if memEnd ≤ a then (x.1 ++ [(d, 0)], x.2)
    else
      let m := homeRead x.2 die (a / 64) 0
      (x.1 ++ [(d, if m.2.1 then 0 else Mem.read m.2.2.mem a)], m.2.2)

end Sys2Proof.Machine
end

