-- ==== Sys2Proof/Machine/Caches.lean ====
section
/-! DEFINITION. The memory hierarchy above the MLC: the L2 (10 R294 to R296), the L1 (10 R280 to R284) and the instruction cache
(10 R285). They hold bytes of their own, which may be stale; an MLC and its stack share theirs (log 3). -/

namespace Sys2Proof.Machine

/-! ### The L2 -/

/-- Every node on the path of a way points to the child that does not hold it (10 R296). -/
def treeTouch (b : BitVec 15) (w : Nat) : BitVec 15 :=
  [16 + w, (16 + w) / 2, (16 + w) / 4, (16 + w) / 8].foldl (fun b c => setField b (c / 2 - 1) 1 (1 - c % 2)) b

/-- The victim walk among the eligible ways, from node `n` with `d` levels left. -/
def treeWalk (b : BitVec 15) (el : List Nat) : Nat → Nat → Nat
  | 0, n => n
  | d + 1, n =>
    let c := 2 * n + b2n (bitAt b (n - 1))
    let o := 2 * n + 1 - b2n (bitAt b (n - 1))
    if el.any fun w => decide ((16 + w) / 2 ^ d = c) then treeWalk b el d c else treeWalk b el d o

def l2Touch (s : State) (l : L2Line) : State :=
  let k := l2Key l.die l.line
  { s with l2tree := cset 0 s.l2tree k (treeTouch (cget 0 s.l2tree k) l.way.val) }

/-- Dirty bytes written back to the MLC, the last writer passed on (10 R295; 19 R446); the line's D bit is set (16 R368). What the L2
holds now of the line is meant: the A or D bit of another may have made it leave. -/
def l2WriteBack (s : State) (l : L2Line) : State :=
  match s.l2Find l.die l.line with
  | some m => lineBack (s.l2.length + 1) s m
  | none => s

/-- A line leaves the L2. -/
def l2Drop (s : State) (l : L2Line) : State :=
  let s := l2WriteBack s l
  { s with l2 := s.l2.filter fun (m : L2Line) => !(decide (m.die = l.die) && decide (m.line = l.line)) }

/-- The lines of a set. -/
def State.l2Set (s : State) (die line : Nat) : List L2Line :=
  s.l2.filter fun (m : L2Line) => decide (m.die = die) && decide (sliceOf m.line = sliceOf line) && decide (setOf m.line = setOf line)
/-- Locked or grain-pinned lines of a set (10 R296). -/
def heldWays (ls : List L2Line) : Nat := (ls.filter fun (m : L2Line) => m.lock.isSome || m.pin).length

/-- A way for a new line: the victim's line is dropped first; `none` when no way is eligible. -/
def l2Way (s : State) (die line : Nat) : Option Nat × State :=
  let here := s.l2Set die line
  let gated : Half := tget 0 s.l2gate (die * 96 + sliceOf line)
  let ok := (List.range 16).filter fun w => !bitAt gated w &&
    here.all fun (m : L2Line) => decide (m.way.val ≠ w) || !(m.lock.isSome || m.pin)
  match ok.find? fun w => here.all fun (m : L2Line) => decide (m.way.val ≠ w) || decide (m.valid = 0) with
  | some w => (some w, (here.filter fun (m : L2Line) => decide (m.way.val = w)).foldl l2Drop s)
  | none =>
    match ok with
    | [] => (none, s)
    | _ =>
      let w := treeWalk (cget 0 s.l2tree (l2Key die line)) ok 4 1 - 16
      match here.find? fun (m : L2Line) => decide (m.way.val = w) with
      | some m => (some w, l2Drop s m)
      | none => (some w, s)

/-- A grain line of another die, which no other L2 ever holds (05 R146). -/
def State.pinnedElsewhere (s : State) (die line : Nat) : Bool :=
  s.l2.any fun (m : L2Line) => m.pin && decide (m.line = line) && decide (m.die ≠ die)

/-- A line allocated in the L2, with the bytes of a fill that arrives in cycle `due`, or of a store. -/
def l2Alloc (s : State) (r : Req) (line : Nat) (l : Leaf) (valid dirty coming : BitVec 64) (due : Nat) (data : LineData) : Bool × State :=
  match if s.pinnedElsewhere r.die line then (none, s) else l2Way s r.die line with
  | (none, s) => (false, s)
  | (some w, s) =>
    let pa := l.pa + 64 * line % l.span
    let n : L2Line := ⟨r.die, line, pa, Fin.ofNat 16 w, valid, dirty, r.acct, if dirty = 0 then [] else [r.acct], false, leafKdom l.leaf, none,
      false, data, coming, due⟩
    (true, l2Touch { s with l2 := s.l2 ++ [n] } n)

/-- What reaching a line came to: its physical address, turns, whether the level asked first had it all, the cause of a
failure (0x0A, 0x10 or 0x11), the line's bytes and its domain. -/
structure Reach where
  pa : Nat
  lat : Nat
  hit : Bool
  fail : Option Nat
  data : LineData
  kdom : BitVec 6
  deriving DecidableEq, Repr

def walkCause : WalkErr → Nat
  | .translation => 0x10
  | .protection => 0x11

/-- The bytes of an L2 line that are not valid are filled from its home and merged under the valid ones (10 R295): the latency,
whether the line reads as poison. -/
def l2Merge (s : State) (r : Req) (l : L2Line) : (Nat × Bool) × State :=
  let now := s.inTurns r.quad 0
  let m := dieRead s r.die now (l.pa / 64) l.kdom r.acct
  if m.2.1 then ((m.1, true), m.2.2)
  else
    let d := dataMerge l.valid l.data (m.2.2.homeData (l.pa / 64))
    let old := if now < l.due then l.coming else 0
    ((m.1, false), m.2.2.l2Put { l with
      valid := BitVec.allOnes 64, data := d, coming := old ||| ~~~l.valid, due := max (if old = 0 then 0 else l.due) (now + 16 * m.1) })

/-- A read of the bytes `need` of a line through the die's L2 (10 R295; 06 R163). -/
def l2Read (s : State) (r : Req) (line : Nat) (need : BitVec 64) : Reach × State :=
  let now := s.inTurns r.quad 0
  match s.l2Find r.die line, s.sliceDown r.die line with
  | some l, false =>
    if need &&& ~~~l.valid = 0 then
      let late := decide (need &&& l.coming ≠ 0) && decide (now < l.due)
      (⟨l.pa, if late then turnsUntil now l.due 4 else 4, !late, none, l.data, l.kdom⟩, logEntry (l2Touch s l) r line (!late))
    else
      let m := l2Merge s r l
      let s := logEntry m.2 r line false
      if m.1.2 then (⟨l.pa, m.1.1, false, some 0x0A, zeroLine, l.kdom⟩, s)
      else (⟨l.pa, m.1.1, false, none, ((s.l2Find r.die line).map fun (n : L2Line) => n.data).getD zeroLine, l.kdom⟩, l2Touch s l)
  | _, down =>
    match translate s r.walker (64 * line) false with
    | (.error e, s) => (⟨0, 16, false, some (walkCause e), zeroLine, 0⟩, s)
    | (.ok l, s) =>
      let pa := l.pa + 64 * line % l.span
      let k := leafKdom l.leaf
      if leafIO l.leaf then (⟨pa, 16, false, none, zeroLine, k⟩, s)
      else
      let m := dieRead s r.die now (pa / 64) k r.acct
      let d := m.2.2.homeData (pa / 64)
      if m.2.1 then (⟨pa, m.1, false, some 0x0A, zeroLine, k⟩, if down then m.2.2 else logEntry m.2.2 r line false)
      else if down then (⟨pa, max 16 m.1, false, none, d, k⟩, m.2.2)
      else (⟨pa, m.1, false, none, d, k⟩, (l2Alloc (logEntry m.2.2 r line false) r line l (BitVec.allOnes 64) 0 (BitVec.allOnes 64)
        (now + 16 * m.1) d).2)

/-- What became of a store: the line's physical address, the cause of a failed walk, whether the bytes are written (a dead
domain's are dropped, 17 R404), and what its slice logs of it. -/
structure StoreReach where
  pa : Nat
  fail : Option Nat
  stands : Bool
  log : List LogRec
  deriving DecidableEq, Repr

/-- A store of bytes from byte `o` of a line into the die's L2 (10 R295): a line that is absent is allocated and nothing is
read from below; one that no way can hold is written at its home. -/
def l2Store (s : State) (r : Req) (line o : Nat) (bs : List Byte) : StoreReach × State :=
  let mask := byteMask o bs.length
  match s.l2Find r.die line, s.sliceDown r.die line with
  | some l, false =>
    if s.domainDead l.kdom then (⟨l.pa, none, false, [⟨r, line, decide (mask &&& ~~~l.valid = 0)⟩]⟩, s)
    else
      let n := { l with valid := l.valid ||| mask, dirty := l.dirty ||| mask, acct := r.acct, writers := (r.acct :: l.writers).eraseDups, data := dataPut l.data o bs
                        coming := l.coming &&& ~~~mask }
      (⟨l.pa, none, true, [⟨r, line, decide (mask &&& ~~~l.valid = 0)⟩]⟩, l2Touch (s.l2Put n) n)
  | _, down =>
    match translate s r.walker (64 * line) true with
    | (.error e, s) => (⟨0, some (walkCause e), false, []⟩, s)
    | (.ok l, s) =>
      let pa := l.pa + 64 * line % l.span
      let log := if down then [] else [⟨r, line, false⟩]
      if leafIO l.leaf then (⟨pa, none, false, []⟩, s)
      else if s.domainDead (leafKdom l.leaf) then (⟨pa, none, false, log⟩, s)
      else
        let a := if down then (false, s) else l2Alloc s r line l mask mask 0 0 (dataPut zeroLine o bs)
        (⟨pa, none, true, log⟩, if a.1 then a.2
          else dieWrite a.2 r.die (pa / 64) (leafKdom l.leaf) (some r.acct) (decide (mask = BitVec.allOnes 64)) bs fun m =>
            Mem.writeBytes m (pa / 64 * 64 + o) bs)

/-- The leaf of a register page, when the address lies in one. -/
def State.ioLeaf (s : State) (r : Req) (va : Nat) : Option Leaf :=
  match s.l2Find r.die (va / 64) with
  | some _ => none
  | none => match (translate s r.walker va false).1 with
    | .ok l => if leafIO l.leaf then some l else none
    | .error _ => none

/-- What a requester of the die sees of `n` bytes at a global address with its physical address, within one line: the die's L2
where its bytes are valid, else the home. -/
def State.seenAt (s : State) (die a pa n : Nat) : Nat :=
  match s.l2Find die (a / 64) with
  | some l => dataNat (dataMerge l.valid l.data (s.homeData (l.pa / 64))) (a % 64) n
  | none => Mem.readN s.mem pa n

/-- The same with the physical address, if there is one. -/
def State.seen (s : State) (die a n : Nat) : Option (Nat × Nat) :=
  match s.l2Find die (a / 64) with
  | some l => some (l.pa + a % 64, s.seenAt die a (l.pa + a % 64) n)
  | none => match s.walk a with
    | .ok l => some (l.pa + a % l.span, s.seenAt die a (l.pa + a % l.span) n)
    | .error _ => none

/-- The copy of a line that the issuing die's L2 holds is driven to the MLC and dropped, or emptied in place when locked or
pinned (07 R203): whether there were dirty bytes. -/
def l2Expel (s : State) (die line : Nat) : Bool × State :=
  match s.l2Find die line with
  | none => (false, s)
  | some l =>
    if l.lock.isSome || l.pin then (decide (l.dirty ≠ 0), (l2WriteBack s l).l2Put { l with valid := 0, dirty := 0, writers := [], rel := false, coming := 0 })
    else (decide (l.dirty ≠ 0), l2Drop s l)

/-! ### The L1 -/

/-- The L1s of the core's quad are fused (10 R284). -/
def State.fusedL1 (s : State) (c : Cid) : Bool :=
  match s.launchOf c with
  | some l => l.fused
  | none => false

/-- The core whose storage holds a line, and its set (10 R280, R284). -/
def State.l1Home (s : State) (c : Cid) (line : Nat) : Cid :=
  if s.fusedL1 c then ⟨c.quad, Fin.ofNat 4 line⟩ else c
def l1Set (fused : Bool) (line : Nat) : Nat := if fused then line / 4 % 128 else line % 128
def L1Block.line (b : L1Block) : Nat := b.word / 8

/-- The smallest naturally aligned run of at least `p` words that covers words `a` to `b` of one line. -/
def alignedRun (p a b : Nat) : Nat × Nat :=
  let n := ([1, 2, 4, 8].find? fun n => decide (p ≤ n) && decide (a / n = b / n)).getD 8
  (a / n * n, n)

/-- The words of the line that were read (10 R281). -/
def readSpan (b : L1Block) : Nat :=
  match (List.range 8).filter (bitAt b.read) with
  | [] => 1
  | lo :: r => (alignedRun 1 lo ((lo :: r).getLast?.getD lo)).2

/-- An evicted block teaches the predictor. -/
def l1Learn (k : Core) (b : L1Block) : Core := { k with pred := cset 0 k.pred b.entry (BitVec.ofNat 8 (readSpan b + 248)) }

/-- Words that the predictor gives for a PC; entries start at 8. -/
def Core.predict (k : Core) (entry : Nat) : Nat := ((cget 0 k.pred entry).toNat + 8) % 256

/-- The least recently used blocks of a set leave until `room` words are free of its 64. -/
def l1Shrink (fused : Bool) (set : Nat) (room : Nat) : Nat → Core → Core
  | 0, k => k
  | n + 1, k =>
    let here := k.l1.filter fun (b : L1Block) => decide (l1Set fused b.line = set)
    let total := here.foldl (fun a (b : L1Block) => a + b.size) 0
    if total + room ≤ 64 then k
    else
      match here with
      | [] => k
      | b :: bs =>
        let v := bs.foldl (fun (x y : L1Block) => if y.used < x.used then y else x) b
        l1Shrink fused set room n (l1Learn { k with l1 := k.l1.erase v } v)

def wordMask (a b : Nat) : BitVec 8 := BitVec.ofNat 8 (2 ^ (b % 8 + 1) - 2 ^ (a % 8))
/-- The bytes of a run of words of a line. -/
def runBytes (w n : Nat) : BitVec 64 := BitVec.ofNat 64 (2 ^ (8 * (w % 8 + n)) - 2 ^ (8 * (w % 8)))

def l1Drop (s : State) (c : Cid) (line : Nat) : State :=
  s.modCore (s.l1Home c line) fun k => { k with l1 := k.l1.filter fun (b : L1Block) => decide (b.line ≠ line) }

/-- The block that a miss of bytes `a` to `a + n − 1` fills (10 R281), present from cycle `due` on: what the L2 lacks of it is
fetched, and where that reads as poison nothing is filled (log 76). `demand`: the bytes are read, not only prefetched. -/
def l1Fill (s : State) (home : Cid) (fused : Bool) (r : Req) (entry a n : Nat) (x : Reach) (due : Nat) (demand : Bool) : State :=
  let line := a / 64
  let w0 := a / 8
  let w1 := (a + n - 1) / 8
  let old := (s.core home).l1.find? fun (b : L1Block) => decide (b.line = line)
  let lo := match old with
    | some b => min w0 b.word
    | none => w0
  let hi := match old with
    | some b => max w1 (b.word + b.size - 1)
    | none => w1
  let run := alignedRun ((s.core home).predict entry) lo hi
  let rest : (Bool × Nat) × State := match s.l2Find r.die line with
    | some l => if runBytes run.1 run.2 &&& ~~~l.valid = 0 then ((true, due), s)
        else
          let m := l2Merge s r l
          ((!m.1.2, max due (s.inTurns r.quad 0 + 16 * m.1.1)), m.2)
    | none => ((true, due), s)
  let s := rest.2
  let data := ((s.l2Find r.die line).map fun (l : L2Line) => l.data).getD x.data
  let k := s.core home
  let k := { k with l1 := k.l1.filter fun (b : L1Block) => decide (b.line ≠ line) }
  if rest.1.1 = false then s.setCore home k
  else
    let seen := match old with
      | some b => b.read
      | none => 0
    let due := match old with
      | some b => if b.word = run.1 ∧ b.size = run.2 then min rest.1.2 b.due else rest.1.2
      | none => rest.1.2
    let k := l1Shrink fused (l1Set fused line) run.2 64 k
    s.setCore home { k with l1 := k.l1 ++
      [⟨run.1, run.2, if demand then seen ||| wordMask w0 w1 else seen, s.cycle, entry, x.pa, x.kdom, data, due⟩] }

/-- A read of `n` bytes at `a`, within one line, through the L1 (10 R281): a scalar's bytes, or the bytes `need` of the line that
lie there. A block still on its way is no hit: the L2 serves the load (log 76). -/
def l1ReadNeed (s : State) (c : Cid) (r : Req) (pc : Word) (a n : Nat) (need : BitVec 64) : Reach × State :=
  let line := a / 64
  let home := s.l1Home c line
  let now := s.inTurns c.quad 0
  let w0 := a / 8
  let w1 := (a + n - 1) / 8
  let k := s.core home
  match k.l1.find? fun (b : L1Block) => decide (b.word ≤ w0) && decide (w1 < b.word + b.size) && decide (b.due ≤ now) with
  | some b =>
    (⟨b.pa, 1, true, none, b.data, b.kdom⟩,
      s.setCore home { k with l1 := k.l1.map fun (x : L1Block) =>
        if x = b then { x with used := s.cycle, read := x.read ||| wordMask w0 w1 } else x })
  | none =>
    let x := l2Read s r line need
    let miss : Reach := { x.1 with hit := false }
    match miss.fail with
    | some _ => (miss, x.2)
    | none => (miss, l1Fill x.2 home (s.fusedL1 c) r (fieldNat pc 1 8) a n miss (now + 16 * miss.lat) true)

def l1Read (s : State) (c : Cid) (r : Req) (pc : Word) (a n : Nat) : Reach × State :=
  l1ReadNeed s c r pc a n (byteMask (a % 64) n)

/-- A store of the core updates the bytes of a block that holds them (10 R282). -/
def l1Store (s : State) (c : Cid) (a : Nat) (bs : List Byte) : State :=
  s.modCore (s.l1Home c (a / 64)) fun k => { k with l1 := k.l1.map fun (b : L1Block) =>
    if b.line = a / 64 then { b with data := dataPut b.data (a % 64) bs } else b }

/-! ### The instruction cache -/

def State.icFind (s : State) (c : Cid) (line : Nat) : Option ICLine :=
  (s.core c).icache.find? fun (l : ICLine) => decide (l.line = line)

/-- A line enters the instruction cache, in place of the least recently used of its set (10 R285). -/
def icFill (k : Core) (cycle line : Nat) (data : Vector Half 32) (kd : BitVec 6) : Core :=
  let others := k.icache.filter fun (l : ICLine) => decide (l.line ≠ line)
  let here := others.filter fun (l : ICLine) => decide (l.line % 64 = line % 64)
  let others := if here.length < 8 then others
    else match here with
      | [] => others
      | b :: bs => others.erase (bs.foldl (fun (x y : ICLine) => if y.used < x.used then y else x) b)
  { k with icache := others ++ [⟨line, data, cycle, kd⟩] }

/-- A line enters the control thread's own instruction cache: 16 KiB of lines, the least recently used of which is replaced
(02 R22; log 84). -/
def ctlIcFill (k : Core) (cycle line : Nat) (data : Vector Half 32) (kd : BitVec 6) : Core :=
  let others := if k.ctlIcache.length < 256 then k.ctlIcache
    else match k.ctlIcache with
      | [] => []
      | b :: bs => k.ctlIcache.erase (bs.foldl (fun (x y : ICLine) => if y.used < x.used then y else x) b)
  { k with ctlIcache := others ++ [⟨line, data, cycle, kd⟩] }

/-! ### Scope effects of acquire and release (06 R168; 10 R283) -/

def isWide : Scope → Bool
  | .pkg | .pod => true
  | _ => false

/-- An acquire by a thread of core `c` (10 R283; 06 R168). At `pkg` and `pod` scope the die keeps only the bytes that it has
written itself and not yet driven out (log 77). -/
def acquireAt (s : State) (c : Cid) (sc : Scope) : State :=
  let s := match sc with
    | .core => s
    | .quad => if s.fusedL1 c then s else s.modCore c fun k => { k with l1 := [] }
    | _ =>
      if s.fusedL1 c then foldS (coreCids c.quad) s fun s c => s.modCore c fun k => { k with l1 := [] }
      else s.modCore c fun k => { k with l1 := [] }
  if isWide sc then
    let d := dieOf c.quad
    let keep := s.l2.filter fun (l : L2Line) => decide (l.die ≠ d) || decide (l.dirty ≠ 0) || l.lock.isSome || l.pin
    { s with l2 := keep.map fun (l : L2Line) => if l.die = d then { l with valid := l.dirty, coming := l.coming &&& l.dirty } else l }
  else s

/-- The lines that hold dirty bytes which the account has written, or which others have and then released (06 R168; 11 R311;
log 13). -/
def State.dirtyBy (s : State) (acct : BitVec 6) : List L2Line :=
  s.l2.filter fun (l : L2Line) => decide (l.dirty ≠ 0) && (l.writers.contains acct || l.rel)
/-- Those of the core's die. -/
def State.dirtyOf (s : State) (c : Cid) : List L2Line :=
  (s.dirtyBy (s.core c).acct).filter fun (l : L2Line) => decide (l.die = dieOf c.quad)

/-- Lines driven to the MLC; the L2 keeps them clean. -/
def driveOut (s : State) (ls : List L2Line) : State :=
  foldS ls s fun s l =>
    let s := l2WriteBack s l
    { s with l2 := s.l2.map fun (m : L2Line) =>
        if m.die = l.die ∧ m.line = l.line then { m with dirty := 0, writers := [], rel := false } else m }

/-- A release by a thread of core `c`: at `pkg` and `pod` scope its dirty lines are driven to the MLC; at `quad` and `die` scope
they are marked, for a wider release by another thread of the die that acquires it (11 R311). -/
def releaseAt (s : State) (c : Cid) (sc : Scope) : State :=
  match sc with
  | .core => s
  | .pkg | .pod => driveOut s (s.dirtyOf c)
  | _ =>
    let mine := s.dirtyOf c
    { s with l2 := s.l2.map fun (l : L2Line) => if mine.contains l then { l with rel := true } else l }

/-! ### Increments that a thread knows (11 R310, R311, R313; log 82) -/

/-- Two cores lie in one unit of a scope (00 R3). -/
def sameUnit (sc : Scope) (c d : Cid) : Bool :=
  match sc with
  | .core => decide (c = d)
  | .quad => decide (c.quad = d.quad)
  | .die => decide (dieOf c.quad = dieOf d.quad)
  | .pkg | .pod => true

/-- An increment on its way happens before what the thread does next. -/
def Incr.before (m : Incr) (t : Tid) : Bool := decide (m.src = some t) || m.known.contains t

/-- The increments of a counter on their way that a thread's reads of it cover. -/
def State.ownIncrs (s : State) (t : Tid) (x : Cid × Fin 16) : List Incr :=
  s.incrs.filter fun (m : Incr) => decide (m.dst = some x) && m.before t

/-- A thread's release carries the increments that happen before it. -/
def noteReleased (s : State) (t : Tid) (sc : Scope) : State :=
  { s with incrs := s.incrs.map fun (m : Incr) => if m.before t then { m with rel := ((s.coreId t, sc) :: m.rel).eraseDups } else m }

/-- A thread of core `c` comes to know the increments that satisfy a test. -/
def learn (s : State) (t : Tid) (p : Incr → Bool) : State :=
  { s with incrs := s.incrs.map fun (m : Incr) => if p m && !m.before t then { m with known := m.known ++ [t] } else m }

/-- A thread's acquire makes it know the increments that a release in its unit has carried. -/
def noteAcquired (s : State) (t : Tid) (sc : Scope) : State :=
  learn s t fun m => m.rel.any fun r => sameUnit r.2 r.1 (s.coreId t) && sameUnit sc r.1 (s.coreId t)

def releaseBy (s : State) (t : Tid) (sc : Scope) : State := releaseAt (noteReleased s t sc) (s.coreId t) sc
def acquireBy (s : State) (t : Tid) (sc : Scope) : State := acquireAt (noteAcquired s t sc) (s.coreId t) sc

/-- A thread that core `c` starts knows what the core's stopped threads know, and what a release in its unit has carried (11 R309). -/
def noteStarted (s : State) (c : Cid) (t : Tid) : State :=
  learn s t fun m => (m.rel.any fun r => sameUnit r.2 r.1 c) || (m.src.toList ++ m.known).any fun u =>
    decide (s.coreId u = c) && (s.th u).halted

end Sys2Proof.Machine
end

