-- ==== Sys2Proof/Machine/Fetch.lean ====
section
/-! DEFINITION. Instruction fetch: requests through the instruction cache (02 R35; 12 R320), transfers (03 R67; 05 R132 to
R135; 12 R322), and a line's entry into a buffer (02 R34; 17 R491). -/

namespace Sys2Proof.Machine

def State.setFill (s : State) (f : Fill) : State := { s with fills := s.fills ++ [f], fresh := s.fresh + 1 }

/-- A line on its way to the core's instruction cache. -/
def State.icFlight (s : State) (c : Cid) (line : Nat) : Option Fill :=
  s.fills.find? fun (f : Fill) => decide (f.core = c) && decide (f.level = .icache) && decide (f.line = line)

def fateOf (cause : Nat) : Fate := if cause = 0x0A then .poison else .walk (BitVec.ofNat 8 cause)
def Reach.fate (x : Reach) : Fate := match x.fail with
  | some cause => fateOf cause
  | none => .ok

/-- A line asked for by a thread of core `c`: the cycle its head may issue in, the line if the instruction cache holds it,
its fate (02 R35; 12 R320). A miss starts a fill, which later requests for the line share until it arrives (13 R329). -/
def lineRequest (s : State) (c : Cid) (line : Nat) : (Nat × Option (Vector Half 32) × Fate) × State :=
  match s.icFind c line with
  | some l =>
    ((s.inTurns c.quad 1, some l.data, .ok),
      s.modCore c fun k => { k with icache := k.icache.map fun (x : ICLine) => if x = l then { x with used := s.cycle } else x })
  | none =>
    match s.icFlight c line with
    | some f => ((max (s.inTurns c.quad 1) f.due, none, f.fate), s)
    | none =>
      let r := s.req c 3
      match s.ioLeaf r (64 * line) with
      | some _ =>
        -- a register page gives zeros, and a violation record (16 R378)
        ((s.inTurns c.quad 16, some (Vector.replicate 32 0), .ok), violation s r.vcore r.world 1 (BitVec.ofNat 64 (64 * line)))
      | none =>
      let x := l2Read s r line (BitVec.allOnes 64)
      let due := s.inTurns c.quad x.1.lat
      let fate := x.1.fate
      ((due, none, fate), x.2.setFill ⟨x.2.fresh, c, .icache, line, x.1.pa, x.1.kdom, 0, due, x.1.data, fate⟩)

/-- A target is a head of the line: even, and its index between 1 and NH (03 R67). -/
def headOk (line : Vector Half 32) (target : Word) : Bool :=
  !bitAt target 0 && decide (1 ≤ headIdx target) && decide (headIdx target ≤ lineNH line)

/-- A fault without an opcode: illegal line or target (07 R231). -/
def State.faultInfo0 (s : State) (cause : Nat) (addr : Word) : FaultInfo :=
  { s.faultInfo cause 0 addr 0 with op := 0 }

/-- What a transfer with a destination remembers until its line has entered. -/
def State.undoOf (s : State) (d : Nat) (us : List Use) : Undo :=
  ⟨BitVec.ofNat 6 d, if d = 57 then s.me.lo else if h : d < 32 then s.me.g[d] else 0, s.me.isFull d, s.me.trips,
    us.any fun u => decide (u.code = 56)⟩

def Thread.undo (x : Thread) (u : Undo) : Thread :=
  let c := u.d.toNat
  let x := if c = 57 then { x with lo := u.old } else if h : c < 32 then { x with g := x.g.set c u.old } else x
  let x := { x with trips := u.trips }
  if c = 0 then x else if u.full then x.setFull c else x.setEmpty c

/-- A link read taken back: the neighbour's `lo` is full again, unless it has been written or claimed since (log 85). -/
def State.giveLi (s : State) (t : Tid) : State :=
  s.modTh (prevSlot t) fun y => if y.isFull 57 || y.pend.any fun p => decide (p.reg = 57) then y else y.setFull 57

/-- A transfer of the current thread (05 R132). `eff` is its effect on registers, made only when the transfer does not
fault at issue; `undo` takes it back when it faults at entry. `again` re-reads the line it is in (`fetch` with offset 0). -/
def transferTo (s : State) (target : Word) (again : Bool) (undo : Option Undo) (eff : State → State) : State :=
  let c := s.coreId s.cur
  if fieldNat target 56 8 ≠ 0 then takeFault s s.cur (s.faultInfo0 0x02 target)
  else if lineVA target = lineVA s.me.pc ∧ again = false then
    if headOk s.me.line target then
      (eff s).modMe fun x => { x with pc := target, run := .running, exempt := false }
    else takeFault s s.cur (s.faultInfo0 0x02 target)
  else if !s.leased c (lineVA target).toNat 64 rX then s.faultEndMe 0x07 2 target 0
  else
    let r := lineRequest s c (target.toNat / 64)
    let from_ := some (BitVec.ofNat 7 s.curOp, s.me.pc)
    (eff r.2).modMe fun x => { x with
      fetch := some ⟨target, r.1.2.1, r.1.1, r.1.2.2, from_, false, undo⟩, run := .blocked, exempt := false }

/-- A thread that starts or resumes at `pc` by a line still to be read (02 R37; 08 R269). -/
def startFetch (s : State) (t : Tid) (pc : Word) : State :=
  let c := s.coreId t
  let s := noteStarted s c t
  if fieldNat pc 56 8 ≠ 0 then
    s.modTh t fun x => { x with fetch := some ⟨pc, none, s.inTurns t.quad 1, .target, none, false, none⟩, run := .blocked }
  else if !s.leased c (lineVA pc).toNat 64 rX then
    s.modTh t fun x => { x with fetch := some ⟨pc, none, s.inTurns t.quad 1, .lease, none, false, none⟩, run := .blocked }
  else
    let r := lineRequest s c (pc.toNat / 64)
    r.2.modTh t fun x => { x with fetch := some ⟨pc, r.1.2.1, r.1.1, r.1.2.2, none, false, none⟩, run := .blocked }

/-- What has become of a line when it arrives, and its halfwords: one that no cache holds any more is read again (16 R376). -/
def lineNow (s : State) (c : Cid) (f : Fetch) : (Fate × Vector Half 32) × State :=
  let line := f.target.toNat / 64
  match f.fate, f.data, s.icFind c line with
  | .ok, some d, _ => ((.ok, d), s)
  | .ok, none, some l => ((.ok, l.data), s)
  | .ok, none, none =>
    let x := l2Read s (s.req c 3) line (BitVec.allOnes 64)
    ((x.1.fate, dataHalves x.1.data), x.2)
  | fate, _, _ => ((fate, Vector.replicate 32 0), s)

/-- The threads that receive the line of a fetch: every slot of its broadcast, else the one (08 R266). -/
def State.receivers (s : State) (t : Tid) (f : Fetch) : List Tid :=
  if f.bcast then (slotsOf (s.coreId t)).filter fun u => match (s.th u).fetch with
    | some g => g.bcast && decide (g.target = f.target) && decide (g.due = f.due)
    | none => false
  else [t]

/-- A transfer that faults as its line enters has had no effect. -/
def takeBack (s : State) (t : Tid) (f : Fetch) : State :=
  let s := s.modTh t fun x => match f.undo with
    | some u => { x.undo u with fetch := none }
    | none => { x with fetch := none }
  if f.undo.any Undo.li then s.giveLi t else s

/-- A line enters a buffer: poison first, then a failed walk or lease, then the line's form, then the target (R81, R491). An
illegal line is the target's fault, and the transfer to it stands (02 R34, R47). -/
def enterLine (s : State) (t : Tid) (f : Fetch) : State :=
  let c := s.coreId t
  let r := lineNow s c f
  let s := r.2
  let x := s.th t
  let back := takeBack s t f
  let all := fun (i : FaultInfo) =>
    endTask (foldS (s.receivers t f) back fun s u => takeFault s u i) c t.unit.val i.cause i.addr
  let op := match f.from_ with
    | some (o, _) => o.toNat
    | none => 0
  let pc := match f.from_ with
    | some (_, p) => p
    | none => f.target
  let info := fun (cause detail op : Nat) (pc addr : Word) => ({ cause := cause, detail := detail, op := op, pc := pc, addr := addr, elem := 0, dreg := none } : FaultInfo)
  match r.1.1 with
  | .poison => takeFault back t (info 0x0A 0x80 op pc (if f.bcast then lineVA f.target else f.target))
  | .walk cause => all (info cause.toNat 0x80 op pc f.target)
  | .lease => all (info 0x07 2 op pc (if f.bcast then lineVA f.target else f.target))
  | .target => takeFault back t (info 0x02 0 0 pc f.target)
  | .ok =>
    let data := r.1.2
    if !lineLegal data (isSeq t) then takeFault (s.modTh t fun x => { x with fetch := none }) t (info 0x01 0 0 f.target (lineVA f.target))
    else if !headOk data f.target then takeFault back t (info 0x02 0 0 pc f.target)
    else s.setTh t { x with line := data, pc := f.target, fetch := none, run := .running }

end Sys2Proof.Machine
end

