-- ==== Sys2Proof/Machine/Control.lean ====
section
/-! DEFINITION. Control flow (05 R131 to R140) and grain (05 R141 to R158): transfers, loops and the trip table, grain
updates and grain reads. -/

namespace Sys2Proof.Machine

/-! ### Grain copies (05 R141, R146, R147) -/

/-- The grain mode: 0 off, 1 live, 2 frozen. -/
def Launch.gmode (l : Launch) : Nat := fieldNat (l.word 0x20) 18 2
/-- The grain mode of a core. -/
def State.gmodeOf (s : State) (c : Cid) : Nat :=
  match (s.core c).ids with
  | some x => x.gmode.toNat
  | none => ((s.launchOf c).map Launch.gmode).getD 0
def Launch.gcount (l : Launch) : Nat := fieldNat (l.word 0x20) 0 17
def Launch.glive (l : Launch) : Nat := (l.word 0x10).toNat
def Launch.gsnap (l : Launch) : Nat := (l.word 0x18).toNat
/-- The accounting identifier. -/
def Launch.acct (l : Launch) : BitVec 6 := BitVec.ofNat 6 (fieldNat (l.word 0x50) 4 6)

def State.word64 (s : State) (pa : Nat) : Word := BitVec.ofNat 64 (Mem.readN s.mem pa 8)

/-- The die that holds a line of a launch's copy: its grain die; once it has ended, the one in which a launch that runs on the same
lines has pinned them (R146; log 42). -/
def State.grainDie (s : State) (l : Launch) (line : Nat) : Nat :=
  match s.l2Find l.gdie line, s.l2.find? fun (m : L2Line) => m.pin && decide (m.line = line) with
  | none, some m => m.die
  | _, _ => l.gdie

/-- A grain slot read where its line is held: a hit on its way of the L2 (10 R296), whose bytes that are not valid are filled from the
home; where no L2 holds it, at its home. None where it reads as poison, its domain is dead, or it does not translate (17 R399, R400;
18 R410, R429; log 93). -/
def grainWord (s : State) (l : Launch) (a : Nat) : Option Word × State :=
  let die := s.grainDie l (a / 64)
  match s.l2Find die (a / 64) with
  | some m =>
    if s.domainDead m.kdom then (none, s)
    else
      let x : Bool × State := if byteMask (a % 64) 8 &&& ~~~m.valid = 0 then (false, s)
        else
          let y := l2Merge s ⟨0xFFFF, 0, l.acct, die, 0, 0⟩ m
          (y.1.2, y.2)
      if x.1 then (none, x.2)
      else (some (BitVec.ofNat 64 (dataNat (((x.2.l2Find die (a / 64)).map fun (n : L2Line) => n.data).getD m.data) (a % 64) 8)), l2Touch x.2 m)
  | none =>
    match translate s ⟨some die, none⟩ a false with
    | (.error _, s) => (none, s)
    | (.ok x, s) =>
      let pa := x.pa + a % x.span
      if leafIO x.leaf then (none, s)
      else
        let m := dieRead s die s.cycle (pa / 64) (leafKdom x.leaf) (some l.acct)
        (if m.2.1 then none else some (m.2.2.word64 pa), m.2.2)

/-- The address of the grain slot that a read sees, of the live copy or of the snapshot; none beyond the count and in off mode
(05 R147). -/
def State.grainSlot (s : State) (c : Cid) (l : Launch) (site : Half) : Option Nat :=
  let m := s.gmodeOf c
  if m = 0 ∨ l.gcount ≤ site.toNat then none else some ((if m = 2 then l.gsnap else l.glive) + 8 * site.toNat)

/-- A read of a grain slot: never visited where there is none, or where it cannot be read (log 93). -/
def grainLook (s : State) (c : Cid) (site : Half) : Word × State :=
  match s.launchOf c with
  | none => (0, s)
  | some l => match s.grainSlot c l site with
    | none => (0, s)
    | some a =>
      let x := grainWord s l a
      (x.1.getD 0, x.2)
/-- What the read sees, and the state it leaves. -/
def State.grainRead (s : State) (c : Cid) (site : Half) : Word := (grainLook s c site).1
def grainTouch (s : State) (c : Cid) (site : Half) : State := (grainLook s c site).2

/-- Turns of a grain read or update: 4 on the grain die, 16 from another die (05 R146, R155; 09 R276). -/
def State.grainTurns (s : State) (c : Cid) : Nat :=
  match s.launchOf c with
  | some l => if l.gdie = dieOf c.quad then 4 else 16
  | none => 4

/-- The count incremented, both halved first at the limit (05 R148). -/
def bump (a b : Nat) : Nat × Nat := if a = 0xFFFF then (a / 2 + 1, b / 2) else (a + 1, b)

def kindCode : GrainUpd → Nat
  | .branch _ => 1
  | .load _ _ => 2
  | .loop _ => 3

/-- One update of a grain slot (05 R148). -/
def grainStep (w0 : Word) (u : GrainUpd) : Word :=
  let fresh := decide (fieldNat w0 62 2 ≠ kindCode u)
  let w : Word := if fresh then 0 else w0
  match u with
  | .branch taken =>
    let tn := if taken then bump (fieldNat w 46 16) (fieldNat w 30 16)
      else (bump (fieldNat w 30 16) (fieldNat w 46 16)).swap
    let h := (fieldNat w 22 8 * 2 + b2n taken) % 256
    BitVec.ofNat 64 (2 ^ 62 + tn.1 * 2 ^ 46 + tn.2 * 2 ^ 30 + h * 2 ^ 22)
  | .load hit stride =>
    let am := if hit then bump (fieldNat w 46 16) (fieldNat w 30 16)
      else (bump (fieldNat w 30 16) (fieldNat w 46 16)).swap
    let st := match stride with
      | some x => x.toNat
      | none => fieldNat w 14 16
    BitVec.ofNat 64 (2 * 2 ^ 62 + am.1 * 2 ^ 46 + am.2 * 2 ^ 30 + st * 2 ^ 14)
  | .loop trip =>
    let x := min (trip.toNat * 16) 0xFFFF
    let e := if fresh then x else (7 * fieldNat w 46 16 + x + 4) / 8
    let mx := if fresh then trip.toNat else max (fieldNat w 30 16) trip.toNat
    let en := if fresh then 1 else (bump (fieldNat w 14 16) 0).1
    BitVec.ofNat 64 (3 * 2 ^ 62 + e * 2 ^ 46 + mx * 2 ^ 30 + en * 2 ^ 14)

/-- When an update posted now is applied: no sooner than the slot's earlier ones to that index, wherever it has posted them (05 R150). -/
def State.grainDue (s : State) (c : Cid) (launch : Nat) (site : Half) : Nat :=
  (s.grains.filter fun (g : Grain) => decide (g.launch = launch) && decide (g.idx = site) && decide (g.vcore = (s.core c).vcore) &&
    decide (g.tid.unit = s.cur.unit)).foldl (fun m (g : Grain) => max m g.due) (s.inTurns s.cur.quad (s.grainTurns c))

/-- An update posted by the current thread (05 R148): discarded in off mode and beyond the count. -/
def postGrain (s : State) (site : Half) (u : GrainUpd) : State :=
  let c := s.coreId s.cur
  match (s.core c).launch, s.launchOf c with
  | some id, some l =>
    if s.gmodeOf c = 0 ∨ l.gcount ≤ site.toNat then s
    else { s with
      grains := s.grains ++ [⟨s.fresh, s.cur, id, (s.core c).vcore, site, u, s.grainDue c id site⟩], fresh := s.fresh + 1 }
  | _, _ => s

def postSite (s : State) (site : Site) (u : GrainUpd) : State :=
  match site with
  | some i => postGrain s i u
  | none => s

/-- A grain slot written at its home slice, where its line is held; where it is not, at the line's home (log 42). -/
def grainPut (s : State) (l : Launch) (a : Nat) (w : Nat) : State :=
  let die := s.grainDie l (a / 64)
  match s.l2Find die (a / 64) with
  | some m =>
    let mask := byteMask (a % 64) 8
    let n := { m with data := dataPut m.data (a % 64) (natLE 8 w), valid := m.valid ||| mask, dirty := m.dirty ||| mask
                      coming := m.coming &&& ~~~mask, acct := l.acct, writers := (l.acct :: m.writers).eraseDups }
    if s.domainDead m.kdom then s else l2Touch (s.l2Put n) n
  | none => match translate s ⟨some die, none⟩ a true with
    | (.ok x, s) =>
      let pa := x.pa + a % x.span
      if leafIO x.leaf then s
      else dieWrite s die (pa / 64) (leafKdom x.leaf) (some l.acct) false (natLE 8 w) fun m => Mem.writeN m pa 8 w
    | (.error _, s) => s

/-- A posted update is applied to the live copy, once, in its thread's order for that index (05 R150; 09 R276). -/
def execGrainUpdateApplied (id : Nat) (s : State) : Out :=
  match s.grains.find? fun (g : Grain) => decide (g.id = id) with
  | none => .next s
  | some g =>
    let s := { s with grains := s.grains.filter fun (x : Grain) => decide (x.id ≠ id) }
    match tget? s.launches g.launch with
    | none => .next s
    | some l =>
      let a := l.glive + 8 * g.idx.toNat
      let x := grainWord s l a
      .next (match x.1 with
        | none => x.2
        | some w => grainPut x.2 l a (grainStep w g.upd).toNat)

/-! ### Transfers (05 R132) -/

/-- The target of a displacement in halfwords. -/
def dispTarget (pc d : Word) : Word := pc + 2 * d

def execBr (disp : Imm) (s : State) : Out :=
  issue s [] [] false fun s => transferTo s (dispTarget s.me.pc (immS64 disp)) false none id

def condHolds (cc : Cond) (a b : Word) : Bool :=
  match cc with
  | .eq => a == b
  | .ne => a != b
  | .lt => a.slt b
  | .ge => !a.slt b
  | .ltu => a.ult b
  | .geu => !a.ult b

/-- The grain update is posted at issue, before the target is looked at (05 R135). -/
def execBc (cc : Cond) (a b : SSrc) (disp : BitVec 16) (site : Site) (s : State) : Out :=
  issue s [useS a, useS b] [] false fun s =>
    let taken := condHolds cc (s.valS a.reg) (s.valS b.reg)
    let s := postSite s site (.branch taken)
    if taken then
      transferTo s (dispTarget s.me.pc (sx disp)) false (some (s.undoOf 0 [useS a, useS b])) (State.takeUses · [useS a, useS b])
    else s.retire [useS a, useS b]

/-- The trip table counts one more trip of a site, most recently used first (05 R137). -/
def tripCount (ts : List Trip) (site : Half) : Half × List Trip :=
  let old := match ts.find? fun (t : Trip) => decide (t.site = site) with
    | some t => t.count
    | none => 0
  let n : Half := if old = 0xFFFF then old else old + 1
  let rest := ts.filter fun (t : Trip) => decide (t.site ≠ site)
  (n, ⟨site, n⟩ :: rest.take 3)

def dropTrip (ts : List Trip) (site : Half) : List Trip := ts.filter fun (t : Trip) => decide (t.site ≠ site)

/-- A loop's end (05 R137): the trip is counted, then the transfer, or the update and the next head. `eff` is the loop's own
effect on registers. -/
def loopEnd (s : State) (more : Bool) (disp : BitVec 16) (site : Site) (d : Nat) (eff : State → State) : State :=
  let count := fun (s : State) => match site with
    | some i => s.modMe fun x => { x with trips := (tripCount x.trips i).2 }
    | none => s
  if more then
    transferTo s (dispTarget s.me.pc (sx disp)) false (some (s.undoOf d [])) fun s => eff (count s)
  else
    let s := match site with
      | some i =>
        let t := tripCount s.me.trips i
        (postGrain s i (.loop t.1)).modMe fun x => { x with trips := dropTrip t.2 i }
      | none => s
    (eff s).retire []

def execLoop (d : Fin 32) (disp : BitVec 16) (site : Site) (s : State) : Out :=
  issue s [useC d.val] [d.val] false fun s =>
    let n := s.me.rdG d - 1
    loopEnd s (decide (n ≠ 0)) disp site d.val fun s => s.setW (.g d) n

/-- `fetch` with no tail: head 1 of the next line. -/
def execFetch (s : State) : Out :=
  issue s [] [] false fun s => transferTo s (lineVA s.me.pc + 64 + 2) true none id
/-- `fetch n`; offset 0 re-reads the current line (05 R133). -/
def execFetchLines (k : BitVec 16) (s : State) : Out :=
  issue s [] [] false fun s => transferTo s (lineVA s.me.pc + 64 * sx k + 2) true none id

def execCall (d : WReg) (disp : Imm) (s : State) : Out :=
  issue s [] [d.code] false fun s =>
    let ret := s.me.pc + 2
    transferTo s (dispTarget s.me.pc (immS64 disp)) false (some (s.undoOf d.code [])) fun s => s.setW d ret

def execJmp (a : SSrc) (s : State) : Out :=
  issue s [useS a] [] false fun s =>
    transferTo s (s.valS a.reg) false (some (s.undoOf 0 [useS a])) (State.takeUses · [useS a])

/-! ### Stop, nop, yield (05 R138, R139) -/

def execStop (s : State) : Out :=
  issue s [] [] false fun s => s.modMe fun x => ({ x with pc := x.pc + 2, exempt := false } : Thread).stop .normal
def execNop (s : State) : Out := issue s [] [] false fun s => s.retire []
/-- The slot issues nothing in its cycle of the next turn. -/
def execYield (s : State) : Out :=
  issue s [] [] false fun s =>
    let h := s.inTurns s.cur.quad 2
    (s.modMe fun x => { x with pc := x.pc + 2, run := .running, exempt := false, hold := h })

/-! ### Prefetch (05 R140; 06 R181) -/

/-- An address that a prefetch may use: bits 63:56 zero, in the lease with its right, translatable. A line of a register page is
dropped with no record too, which R140 and R181 do not list (DESIGN CHOICE, log 115). -/
def State.prefetchable (s : State) (c : Cid) (a : Word) (r : Rights) : Bool :=
  decide (fieldNat a 56 8 = 0) && s.leased c (a.toNat / 64 * 64) 64 r &&
  match (translate s ⟨some (dieOf c.quad), some c.quad⟩ a.toNat false).1 with
  | .ok l => !leafIO l.leaf
  | .error _ => false

/-- A line asked for the instruction cache; dropped silently in the cases of R140, and when it reads as poison (R491). -/
def pfiLine (s : State) (c : Cid) (a : Word) : State :=
  let line := a.toNat / 64
  if !s.prefetchable c a rX || (s.icFind c line).isSome || (s.icFlight c line).isSome then s
  else
    let r := s.req c 3
    let x := l2Read s r line (BitVec.allOnes 64)
    x.2.setFill ⟨x.2.fresh, c, .icache, line, x.1.pa, x.1.kdom, 0, s.inTurns c.quad x.1.lat, x.1.data, x.1.fate⟩

def execPfi (f : PfiForm) (s : State) : Out :=
  match f with
  | .line k => issue s [] [] false fun s =>
      (pfiLine s (s.coreId s.cur) (lineVA s.me.pc + 64 * sx k)).retire []
  | .addr a k => issue s [useS a] [] false fun s =>
      (pfiLine s (s.coreId s.cur) ((s.valS a.reg + sx k) &&& ~~~63)).retire [useS a]

/-- A line asked for a data level: dropped when it is there or closer (06 R181), and when it reads as poison. The levels
below are asked at once, and it arrives after the latency of the place where it is found. -/
def pfdLine (s : State) (c : Cid) (level : FillLevel) (a pc : Word) : State :=
  let line := a.toNat / 64
  let r := s.req c 0
  let inL1 := (s.core (s.l1Home c line)).l1.any fun (b : L1Block) => decide (b.line = line) && decide (b.size = 8)
  let inL2 := (s.l2Find r.die line).any fun (l : L2Line) => decide (l.valid = BitVec.allOnes 64)
  if !s.prefetchable c a rR then s
  else
    let pa := ((translate s r.walker (64 * line) false).1.toOption.map fun (l : Leaf) => l.pa + 64 * line % l.span).getD 0
    let there := match level with
      | .l1 | .icache => inL1
      | .l2 => inL1 || inL2
      | .mlc => inL1 || inL2 || (s.mlcFind (pa / 64)).isSome
    if there then s
    else
      let x : (Nat × Bool × BitVec 6) × State := match level with
        | .mlc =>
          let l := translate s r.walker (64 * line) false
          let kd := (l.1.toOption.map fun (l : Leaf) => leafKdom l.leaf).getD 0
          let m := dieRead l.2 r.die (s.inTurns c.quad 0) (pa / 64) kd r.acct
          ((m.1, m.2.1, kd), m.2.2)
        | _ =>
          let m := l2Read s r line (BitVec.allOnes 64)
          ((m.1.lat, m.1.fail.isSome, m.1.kdom), m.2)
      if x.1.2.1 then x.2 else x.2.setFill ⟨x.2.fresh, c, level, line, pa, x.1.2.2, pc, s.inTurns c.quad x.1.1, zeroLine, .ok⟩

/-- What has been on its way to a line of an L2, or of an MLC, is present. -/
def l2Arrived (s : State) (die line : Nat) : State :=
  { s with l2 := s.l2.map fun (l : L2Line) => if l.die = die ∧ l.line = line ∧ l.due ≤ s.cycle then { l with coming := 0 } else l }

/-- A line enters the L1 of a core by a prefetch (05 R153; 06 R181), present at once; no word of it has been read. Its slice has
logged the access when it was asked for it (19 R438). -/
def l1Prefetched (s : State) (f : Fill) : State :=
  let home := s.l1Home f.core f.line
  if (s.core home).l1.any fun (b : L1Block) => decide (b.line = f.line) && decide (b.size = 8) then s
  else
    let r := s.req f.core unlogged
    let x := l2Read s r f.line (BitVec.allOnes 64)
    match x.1.fail with
    | some _ => x.2
    | none => l1Fill x.2 home (s.fusedL1 f.core) r (fieldNat f.pc 1 8) (64 * f.line) 64 x.1 s.cycle false

/-- A prefetched line arrives (05 R140; 06 R181). -/
def execPrefetchFillArrives (id : Nat) (s : State) : Out :=
  match s.fills.find? fun (f : Fill) => decide (f.id = id) with
  | none => .next s
  | some f =>
    let s := { s with fills := s.fills.filter fun (x : Fill) => decide (x.id ≠ id) }
    match f.level with
    | .icache => .next (if f.fate = .ok then s.modCore f.core fun k => icFill k s.cycle f.line (dataHalves f.data) f.kdom else s)
    | .l1 => .next (l1Prefetched s f)
    | .l2 => .next (l2Arrived s (dieOf f.core.quad) f.line)
    | .mlc => .next s

/-! ### Grain reads (05 R153 to R155) -/

def visited (g : Word) (k : Nat) : Bool := decide (fieldNat g 62 2 = k)

def execXrd (d : WReg) (site : Half) (s : State) : Out :=
  issue s [] [d.code] false fun s =>
    let c := s.coreId s.cur
    ((grainTouch s c site).pendW d.code (s.grainRead c site) (s.grainTurns c) .grain 0).retire []

/-- Predicted taken: visited, and taken at least `thr` in sixteen. -/
def xbrTaken (g : Word) (thr : Nat) : Bool :=
  let t := fieldNat g 46 16
  let n := fieldNat g 30 16
  visited g 1 && decide (0 < t + n) && decide (thr * (t + n) ≤ t * 16)

/-- Resolves one turn before its successor can issue (05 R155); the lease is checked then (12 R322). -/
def execXbr (thr : BitVec 6) (disp : BitVec 16) (site : Half) (s : State) : Out :=
  issue s [] [] false fun s =>
    let c := s.coreId s.cur
    let due := s.inTurns s.cur.quad (s.grainTurns c - 1)
    let b : Xbr := ⟨due, xbrTaken (s.grainRead c site) thr.toNat, dispTarget s.me.pc (sx disp)⟩
    (grainTouch s c site).modMe fun x => { x with xbr := some b, run := .blocked, hold := due, exempt := false }

/-- The resolution of the current thread's `xbr`; a failure or a kill that waited for it takes
effect at the boundary after it (05 R155). -/
def resolveXbr (s : State) (b : Xbr) : State :=
  let t := s.cur
  let s := s.modMe fun x => { x with xbr := none, hold := 0 }
  let s := if b.taken then transferTo s b.target false none id else s.retire []
  let s := if (s.th t).deferred.isSome then s.enqueue (.deferredFault t) else s
  if (s.th t).killReq then killThread (s.modTh t fun x => { x with killReq := false }) t else s

def xselCond (op : XselOp) (g : Word) : Bool :=
  match op with
  | .bt => visited g 1 && decide (fieldNat g 30 16 < fieldNat g 46 16)
  | .bh => visited g 1 && bitAt g 22
  | .lm => visited g 2 && decide (fieldNat g 46 16 < fieldNat g 30 16)
  | .lt => visited g 3 && decide (0x100 ≤ fieldNat g 46 16)

/-- A result of an instruction that holds its slot for `n` turns: seen from turn t + n (05 R155). -/
def State.setHeld (s : State) (d : WReg) (v : Word) (n : Nat) (us : List Use) : State :=
  let q := s.cur.quad
  let s := s.modMe fun x => x.wrCode (s.turn q + n - 1) d.code (.s v)
  let h := s.inTurns q n
  (s.takeUses us).modMe fun x => { x with pc := x.pc + 2, run := .blocked, exempt := false, hold := h }

def execXsel (op : XselOp) (d : WReg) (a b : SSrc) (site : Half) (s : State) : Out :=
  issue s [useS a, useS b] [d.code] false fun s =>
    let c := s.coreId s.cur
    let v := if xselCond op (s.grainRead c site) then s.valS a.reg else s.valS b.reg
    (grainTouch s c site).setHeld d v (s.grainTurns c) [useS a, useS b]

/-- How many lines ahead: the share of misses in eighths, at most B and 8. -/
def xpfDepth (g b : Word) : Nat :=
  let h := fieldNat g 46 16
  let m := fieldNat g 30 16
  if visited g 2 ∧ 0 < h + m then min (min (8 * m / (h + m)) b.toNat) 8 else 0

def execXpf (a b : SSrc) (site : Half) (s : State) : Out :=
  issue s [useS a, useS b] [] false fun s =>
    let c := s.coreId s.cur
    let g := s.grainRead c site
    let s := grainTouch s c site
    let stride : Word := sx (BitVec.ofNat 16 (fieldNat g 14 16)) * 8
    let addr := s.valS a.reg
    let js := if stride = 0 then [] else rangeFrom 1 (xpfDepth g (s.valS b.reg))
    let s := foldS js s fun s j => pfdLine s c .l1 (addr + BitVec.ofNat 64 j * stride) s.me.pc
    s.retire [useS a, useS b]

/-- The largest unroll factor within the cap that the average trip count bears. -/
def xunrFactor (g : Word) (cap : Nat) : Nat :=
  ([8, 4, 2].find? fun f => decide (f ≤ cap) && visited g 3 && decide (f * 16 ≤ fieldNat g 46 16)).getD 1

def execXunr (d : WReg) (cap : Cap) (site : Half) (s : State) : Out :=
  issue s [] [d.code] false fun s =>
    let c := s.coreId s.cur
    (grainTouch s c site).setHeld d (BitVec.ofNat 64 (xunrFactor (s.grainRead c site) cap.val)) (s.grainTurns c) []

end Sys2Proof.Machine
end

