-- ==== Sys2Proof/Machine/Integer.lean ====
section
/-! DEFINITION. Integer and address arithmetic, constants, selects, compares and field operations (05 R121 to R130). -/

namespace Sys2Proof.Machine

/-- An operation of two scalar sources whose result is ready in the next turn (05 R121). -/
def alu2 (d : WReg) (a b : SSrc) (f : Word → Word → Word) (s : State) : Out :=
  issue s [useS a, useS b] [d.code] false fun s =>
    (s.setW d (f (s.valS a.reg) (s.valS b.reg))).retire [useS a, useS b]

/-- An operation of one scalar source. -/
def alu1 (d : WReg) (a : SSrc) (f : Word → Word) (s : State) : Out :=
  issue s [useS a] [d.code] false fun s => (s.setW d (f (s.valS a.reg))).retire [useS a]

/-- A long-latency operation of two scalar sources, `n` turns (02 R28). -/
def alu2Late (n : Nat) (d : WReg) (a b : SSrc) (f : Word → Word → Word) (s : State) : Out :=
  issue s [useS a, useS b] [d.code] false fun s =>
    (s.pendW d.code (f (s.valS a.reg) (s.valS b.reg)) n .calc 0).retire [useS a, useS b]

/-! ### Arithmetic (05 R124, R125) -/

def mulHigh (op : MulhOp) (a b : Word) : Word :=
  match op with
  | .ss => ((a.signExtend 128 * b.signExtend 128) >>> 64).setWidth 64
  | .zz => ((a.setWidth 128 * b.setWidth 128) >>> 64).setWidth 64
  | .sz => ((a.signExtend 128 * b.setWidth 128) >>> 64).setWidth 64

/-- Truncating division; by zero it gives all ones, and the one overflow wraps (05 R125). -/
def divW (signed : Bool) (a b : Word) : Word :=
  if b = 0 then BitVec.allOnes 64 else if signed then a.sdiv b else a.udiv b
/-- The remainder takes the sign of the dividend; by zero it is the dividend. -/
def remW (signed : Bool) (a b : Word) : Word :=
  if b = 0 then a else if signed then a.srem b else a.umod b

def logW (op : LogOp) (a k : Word) : Word :=
  match op with
  | .and => a &&& k
  | .or => a ||| k
  | .xor => a ^^^ k
  | .andn => a &&& ~~~k

def shrW (arith : Bool) (a : Word) (n : Nat) : Word := if arith then a.sshiftRight n else a >>> n

def mnxW (op : MnxOp) (a b : Word) : Word :=
  match op with
  | .mins => if a.slt b then a else b
  | .minz => if a.ult b then a else b
  | .maxs => if a.slt b then b else a
  | .maxz => if a.ult b then b else a

/-- The number of set bits below bit `n`. -/
def popTo (a : Word) : Nat → Nat
  | 0 => 0
  | n + 1 => b2n (bitAt a n) + popTo a n
/-- Zero bits above the highest set bit below bit `n`. -/
def clzTo (a : Word) : Nat → Nat
  | 0 => 0
  | n + 1 => if bitAt a n then 0 else 1 + clzTo a n
/-- Zero bits from bit `i` up, of `n` bits. -/
def ctzFrom (a : Word) : Nat → Nat → Nat
  | 0, _ => 0
  | n + 1, i => if bitAt a i then 0 else 1 + ctzFrom a n (i + 1)

def bcntW (op : BcntOp) (a : Word) : Word :=
  match op with
  | .clz => BitVec.ofNat 64 (clzTo a 64)
  | .ctz => BitVec.ofNat 64 (ctzFrom a 64 0)
  | .popc => BitVec.ofNat 64 (popTo a 64)

def cmpW (op : CmpOp) (a b : Word) : Bool :=
  match op with
  | .eq => a == b
  | .ne => a != b
  | .lt => a.slt b
  | .ge => !a.slt b
def cmpzW (op : CmpzOp) (a b : Word) : Bool :=
  match op with
  | .ltu => a.ult b
  | .geu => !a.ult b
  | .leu => !b.ult a
  | .gtu => b.ult a

/-- Bits `l` to `l + w − 1`, extended (05 R130). -/
def fieldW (sign : Bool) (a : Word) (l w : Nat) : Word :=
  let x := (a >>> l) <<< (64 - w)
  if sign then x.sshiftRight (64 - w) else x >>> (64 - w)
def insertW (d a : Word) (l w : Nat) : Word :=
  let m : Word := (BitVec.allOnes 64 >>> (64 - w)) <<< l
  (d &&& ~~~m) ||| ((a <<< l) &&& m)

def execAdd (d : WReg) (a b : SSrc) (s : State) : Out := alu2 d a b (· + ·) s
def execSub (d : WReg) (a b : SSrc) (s : State) : Out := alu2 d a b (· - ·) s
def execAddk (d : WReg) (a : SSrc) (k : Imm) (s : State) : Out := alu1 d a (· + immS64 k) s
def execMul (d : WReg) (a b : SSrc) (s : State) : Out := alu2 d a b (· * ·) s
def execMulh (op : MulhOp) (d : WReg) (a b : SSrc) (s : State) : Out := alu2 d a b (mulHigh op) s
def execDiv (signed : Bool) (d : WReg) (a b : SSrc) (s : State) : Out := alu2Late 3 d a b (divW signed) s
def execRem (signed : Bool) (d : WReg) (a b : SSrc) (s : State) : Out := alu2Late 3 d a b (remW signed) s
def execAnd (d : WReg) (a b : SSrc) (s : State) : Out := alu2 d a b (· &&& ·) s
def execOr (d : WReg) (a b : SSrc) (s : State) : Out := alu2 d a b (· ||| ·) s
def execXor (d : WReg) (a b : SSrc) (s : State) : Out := alu2 d a b (· ^^^ ·) s
def execLogk (op : LogOp) (d : WReg) (a : SSrc) (k : Imm) (s : State) : Out := alu1 d a (logW op · (immZ64 k)) s

/-- In the register form bits 63:6 of B are ignored (05 R124). -/
def execShl (d : WReg) (a : SSrc) (n : ShAmt) (s : State) : Out :=
  match n with
  | .reg b => alu2 d a b (fun x y => x <<< (fieldNat y 0 6)) s
  | .imm k => alu1 d a (fun x => x <<< k.toNat) s
def execShr (arith : Bool) (d : WReg) (a : SSrc) (n : ShAmt) (s : State) : Out :=
  match n with
  | .reg b => alu2 d a b (fun x y => shrW arith x (fieldNat y 0 6)) s
  | .imm k => alu1 d a (fun x => shrW arith x k.toNat) s
def execMnx (op : MnxOp) (d : WReg) (a b : SSrc) (s : State) : Out := alu2 d a b (mnxW op) s
def execBcnt (op : BcntOp) (d : WReg) (a : SSrc) (s : State) : Out := alu1 d a (bcntW op) s

/-! ### Constants, selects and compares (05 R129) -/

def execMovk (d : WReg) (k : MImm) (s : State) : Out :=
  issue s [] [d.code] false fun s => (s.setW d (mimmS64 k)).retire []

/-- The p register has no empty action: an empty one blocks. -/
def execSel (d : WReg) (a b : SSrc) (p : PReg) (s : State) : Out :=
  issue s [useS a, useS b, useC (pCode p)] [d.code] false fun s =>
    (s.setW d (if s.me.rdP p ≠ 0 then s.valS a.reg else s.valS b.reg)).retire [useS a, useS b]

def execCmp (op : CmpOp) (d : WReg) (a b : SSrc) (s : State) : Out := alu2 d a b (fun x y => b2w (cmpW op x y)) s
def execCmpz (op : CmpzOp) (d : WReg) (a b : SSrc) (s : State) : Out := alu2 d a b (fun x y => b2w (cmpzW op x y)) s
def execLea (d : WReg) (a b : SSrc) (sh : BitVec 2) (k : Imm) (s : State) : Out :=
  alu2 d a b (fun x y => x + (y <<< sh.toNat) + immS64 k) s

/-! ### Field operations (05 R130) -/

/-- Illegal-instruction, found at issue (07 R232). -/
def illegalMe (s : State) : State := s.faultMe 0x03 0 0 0

def execExt (zero : Bool) (d : WReg) (a : SSrc) (w1 : BitVec 6) (s : State) : Out :=
  alu1 d a (fun x => fieldW (!zero) x 0 (w1.toNat + 1)) s

/-- A field that runs past bit 63 is an illegal instruction. -/
def execBfx (sign : Bool) (d : WReg) (a : SSrc) (lsb w1 : BitVec 6) (s : State) : Out :=
  if 64 < lsb.toNat + (w1.toNat + 1) then .next (illegalMe s)
  else alu1 d a (fun x => fieldW sign x lsb.toNat (w1.toNat + 1)) s

/-- D is read as a source (02 R29). `lo` is no source, so a `bfi` into it is an illegal instruction (03 R68). -/
def execBfi (d : WReg) (a : SSrc) (lsb w1 : BitVec 6) (s : State) : Out :=
  if 64 < lsb.toNat + (w1.toNat + 1) then .next (illegalMe s)
  else
    match d with
    | .g n =>
      issue s [useS a, useC n.val] [n.val] false fun s =>
        (s.setW d (insertW (s.me.rdG n) (s.valS a.reg) lsb.toNat (w1.toNat + 1))).retire [useS a]
    | .lo => .next (illegalMe s)

end Sys2Proof.Machine
end

