-- ==== Sys2Proof/Machine/Formats.lean ====
section
/-! DEFINITION. The element formats of banks and of the matrix array (04 R94 to R110): decoding and encoding of one element
and of one FP4 block. -/

namespace Sys2Proof.Machine

/-- Exact comparison of a × 2^ea with b × 2^eb. -/
def geExp (a : Nat) (ea : Int) (b : Nat) (eb : Int) : Bool :=
  let e := min ea eb
  decide (b <<< (eb - e).toNat ≤ a <<< (ea - e).toNat)

abbrev canonNaN32 : Nat := 0x7FC00000
abbrev fmtE5M2 : Fmt := ⟨5, 2⟩

/-- An E4M3 byte (04 R99): no infinity; NaN is 0x7F and 0xFF. -/
def decE4M3 (x : Nat) : FVal :=
  let neg := x.testBit 7
  let ex := x / 8 % 16
  let fr := x % 8
  if ex = 15 ∧ fr = 7 then .nan false
  else if ex = 0 then .fin neg fr (-9)
  else .fin neg (8 + fr) ((ex : Int) - 10)

/-- An exact value as f32 bits; a NaN is canonical (04 R97). -/
def toF32 (v : FVal) : Nat :=
  match v with
  | .nan _ => canonNaN32
  | .inf n => fmt32.inf n
  | .fin n m e => (fmt32.round .rne n m e).1

/-- The exact value of an element of FMT 2 to 5, 8, from its bits (04 R95). -/
def elemVal (fmt : Nat) (x : Nat) : FVal :=
  match fmt with
  | 2 => fmtBf.dec x
  | 3 => fmt16.dec x
  | 4 => decE4M3 x
  | 5 => fmtE5M2.dec x
  | 8 => fmt64.dec x
  | _ => fmt32.dec x

/-- The f32 view of an element of FMT 2 to 5 (04 R97). -/
def elemDec (fmt : Nat) (x : Nat) : Nat := toF32 (elemVal fmt x)

/-- Encoding a finite value as E4M3 (04 R100). DESIGN CHOICE (log 106): with SAT 0 a negative finite overflow stores 0x7F, as the rule's
words have it, while −infinity stores 0xFF, as the table of R101 has it. -/
def encE4M3 (sat rtz neg : Bool) (m : Nat) (e : Int) : Nat × Flags :=
  let sgn := if neg then 0x80 else 0
  if m = 0 then (sgn, 0)
  else
    let rm : RMode := if rtz then .rtz else .rne
    let top : Int := (Nat.log2 m : Int) + e
    let q : Int := max (top - 3) (-9)
    let r := toQuantum rm neg m e q
    let u := toQuantum rm neg m e (top - 3)
    if !(geExp 448 0 r.1 q) then
      (if sat || rtz then sgn + 0x7E else 0x7F, flOF ||| flNX)
    else
      let tiny := !(geExp u.1 (top - 3) 1 (-6))
      let fl : Flags := if r.2 then (if tiny then flUF ||| flNX else flNX) else 0
      (sgn + (q + 9).toNat * 8 + r.1, fl)

/-- Encoding an f32 lane into FMT 2 to 5 (04 R97, R100, R101). A signalling NaN raises NV (04 R87). -/
def elemEnc (fmt : Nat) (sat rtz : Bool) (x : Nat) : Nat × Flags :=
  let rm : RMode := if rtz then .rtz else .rne
  match fmt32.dec x with
  | .nan sn =>
    (match fmt with
     | 2 => 0x7FC0
     | 3 => 0x7E00
     | 4 => 0x7F
     | _ => 0x7E, if sn then flNV else 0)
  | .inf n =>
    match fmt with
    | 2 => (if sat then fmtBf.maxFin n else fmtBf.inf n, 0)
    | 3 => (if sat then fmt16.maxFin n else fmt16.inf n, 0)
    | 4 => ((if n then 0x80 else 0) + (if sat then 0x7E else 0x7F), if sat then 0 else flNV)
    | _ => (if sat then fmtE5M2.maxFin n else fmtE5M2.inf n, 0)
  | .fin n m e =>
    match fmt with
    | 4 => encE4M3 sat rtz n m e
    | f =>
      let g : Fmt := if f = 2 then fmtBf else if f = 3 then fmt16 else fmtE5M2
      let r := g.round rm n m e
      if r.2 &&& flOF ≠ 0 ∧ sat then (g.maxFin n, flOF ||| flNX) else r

/-- Width in bytes of an element; FP4 elements are half a byte (04 R95). -/
def fmtWidth (fmt : Nat) : Nat :=
  match fmt with
  | 2 | 3 => 2
  | 4 | 5 => 1
  | 8 => 8
  | _ => 4

/-- Elements of a strip: 16, or 8 in an FP64 bank (06 R172). -/
def stripElems (fmt : Nat) : Nat := if fmt = 8 then 8 else 16

/-! ### FP4 (04 R102 to R110) -/

/-- Twice the magnitude of an E2M1 code. -/
def e2m1 (c : Nat) : Nat := [0, 1, 2, 3, 4, 6, 8, 12].getD (c % 8) 0
def e2m1Neg (c : Nat) : Bool := c / 8 % 2 == 1

/-- An E3M5 scale in units of 2^−7 (04 R103). -/
def e3m5 (b : Nat) : Nat :=
  let e := b / 32 % 8
  let m := b % 32
  if e = 0 then m else (32 + m) <<< (e - 1)

/-- The smallest E3M5 code, 0 to 254, with value × k × 2^ek ≥ m × 2^em, value in units of 2^−7. -/
def e3m5Ceil (k : Nat) (ek : Int) (m : Nat) (em : Int) : Option Nat :=
  (List.range 255).find? fun c => geExp (e3m5 c * k) (ek - 7) m em

/-- The E2M1 code of magnitude num ÷ den, saturated at 6, and whether it is inexact (04 R107). -/
def e2m1Round (rtz : Bool) (num den : Nat) : Nat × Bool :=
  let c :=
    if rtz then ([1, 2, 3, 4, 6, 8, 12].filter fun v => decide (v * den ≤ 2 * num)).length
    else (([1, 3, 5, 7, 10, 14, 20].zipIdx).filter fun p =>
        decide (p.1 * den < 4 * num) || (decide (p.1 * den = 4 * num) && p.2 % 2 == 1)).length
  (c, decide (e2m1 c * den ≠ 2 * num))

/-- num ÷ den of (m × 2^e) ÷ (k × 2^ek), as integers. -/
def ratio (m : Nat) (e : Int) (k : Nat) (ek : Int) : Nat × Nat :=
  let b := min e ek
  (m <<< (e - b).toNat, k <<< (ek - b).toNat)

/-- The largest magnitude of finite values as (m, e); none when some value is a NaN or an infinity. -/
def amaxOf : List FVal → Option (Nat × Int)
  | [] => some (0, 0)
  | v :: vs =>
    match amaxOf vs, v with
    | some (m, e), .fin _ m' e' => if geExp m e m' e' then some (m, e) else some (m', e')
    | _, _ => none

/-- Codes of a block whose scale is k × 2^ek, with the flags of its elements. `satFlag` raises OF on saturation (04
R110). DESIGN CHOICE (log 109): an element saturates from 7 up under RNE and from 8 up under RTZ, where rounding without a limit would
leave 6; below that it is inexact only. -/
def fp4Codes (rtz satFlag : Bool) (k : Nat) (ek : Int) : List FVal → List Nat × Flags
  | [] => ([], 0)
  | v :: vs =>
    let r := fp4Codes rtz satFlag k ek vs
    match v with
    | .fin n m e =>
      let sgn := if n then 8 else 0
      if m = 0 ∨ k = 0 then (sgn :: r.1, r.2)
      else
        let q := ratio m e k ek
        let c := e2m1Round rtz q.1 q.2
        let sat : Bool := satFlag && !(decide (if rtz then q.1 < 8 * q.2 else q.1 < 7 * q.2))
        let fl : Flags := (if c.2 then flNX else 0) ||| (if c.1 = 0 then flUF else 0) |||
          (if sat then flOF ||| flNX else 0)
        ((sgn + c.1) :: r.1, r.2 ||| fl)
    | _ => (0 :: r.1, r.2)

/-- A fine-block store of eight values under a band scale (BF16 bits): codes, scale byte, flags (04 R107). -/
def fineStore (rtz : Bool) (band : Nat) (xs : List FVal) : List Nat × Nat × Flags :=
  let nan := (xs.map fun _ => 0, 0xFF, flNV)
  match fmtBf.dec band with
  | .fin false bm be =>
    if band / 128 % 256 = 0 then nan
    else
      match amaxOf xs with
      | none => nan
      | some (m, e) =>
        match e3m5Ceil (6 * bm) be m e with
        | some c =>
          let r := fp4Codes rtz false (e3m5 c * bm) (be - 7) xs
          (r.1, c, r.2)
        | none =>
          let r := fp4Codes rtz false (e3m5 0xFE * bm) (be - 7) xs
          (r.1, 0xFE, r.2 ||| flOF ||| flNX)
  | _ => nan

/-- An MXFP4 store of 32 values: codes, scale byte, flags (04 R110). DESIGN CHOICE (log 121): the codes of a block with a NaN or an
infinity, whose scale byte is 0xFF, are 0000. -/
def mxStore (rtz : Bool) (xs : List FVal) : List Nat × Nat × Flags :=
  match amaxOf xs with
  | none => (xs.map fun _ => 0, 0xFF, flNV)
  | some (m, e) =>
    if m = 0 then ((fp4Codes rtz true 0 0 xs).1, 0, 0)
    else
      let x : Int := max (-127) (min 127 ((Nat.log2 m : Int) + e - 2))
      let r := fp4Codes rtz true 1 x xs
      (r.1, (x + 127).toNat, r.2)

/-- The exact value of a fine-block element: code × scale × band (04 R106), with NV where that rule raises it. -/
def fineVal (code scale band : Nat) : FVal × Flags :=
  let b := fmtBf.dec band
  if scale = 0xFF then (.nan false, flNV)
  else
    match b with
    | .nan _ => (.nan false, flNV)
    | .inf n =>
      if e2m1 code = 0 ∨ e3m5 scale = 0 then (.nan false, flNV) else (.inf (n != e2m1Neg code), 0)
    | .fin n m e => (.fin (n != e2m1Neg code) (e2m1 code * e3m5 scale * m) (e - 8), 0)

/-- The exact value of an MXFP4 element (04 R110). -/
def mxVal (code scale : Nat) : FVal × Flags :=
  if scale = 0xFF then (.nan false, flNV)
  else (.fin (e2m1Neg code) (e2m1 code) ((scale : Int) - 128), 0)

/-- An FP4 element's exact value as an f32 lane, rounded once by RNE (04 R106). -/
def fp4Lane (v : FVal × Flags) : Nat × Flags :=
  match v.1 with
  | .nan _ => (canonNaN32, v.2)
  | .inf n => (fmt32.inf n, v.2)
  | .fin n m e =>
    let r := fmt32.round .rne n m e
    (r.1, v.2 ||| r.2)

/-! ### Format registers (04 R94, R96) -/

def bfFmt (r : Word) : Nat := fieldNat r 0 4
def bfSat (r : Word) : Bool := bitAt r 4
def bfRtz (r : Word) : Bool := bitAt r 5
def bfRow (r : Word) : Nat := fieldNat r 16 16
def bfBand (r : Word) : Nat := fieldNat r 32 24 * 16

/-- The field cases that refuse a format-register value (04 R96). -/
def bfRefused (r : Word) : Bool :=
  decide (10 ≤ bfFmt r) || decide (fieldNat r 6 10 ≠ 0) || decide (fieldNat r 56 8 ≠ 0) ||
  (bfFmt r == 6 && (bfRow r == 0 || decide (bfRow r % 64 ≠ 0) || decide (0x200000 ≤ bfBand r))) ||
  (bfFmt r == 7 && (bfRow r == 0 || decide (bfRow r % 32 ≠ 0)))

/-- Elements of an FP4 block; bytes of a row with its scales. -/
def fp4Block (fmt : Nat) : Nat := if fmt = 6 then 8 else 32
def fp4RowBytes (fmt row : Nat) : Nat := row / 2 + row / fp4Block fmt

end Sys2Proof.Machine
end

