-- ==== Sys2Proof/Machine/Strips.lean ====
section
/-! DEFINITION. Local memory as slots reach it (06 R161, R162, R164, R172; 10 R286 to R288): windows, elements and strips by
bank format, bound streams (06 R182 to R186), and the frame of a vector instruction (02 R45; 06 R185, R188). -/

namespace Sys2Proof.Machine

/-! ### Windows (10 R287, R288) -/

/-- The window holds byte `a` for a thread of the world. -/
def winHas (w : Word) (world : BitVec 4) (a : Nat) : Bool :=
  bitAt w 63 && decide (fieldNat w 48 4 = world.toNat) && decide (fieldNat w 0 10 * 4096 ≤ a) &&
  decide (a < fieldNat w 16 10 * 4096)

/-- Every byte of [a, a + n) lies in the thread's windows; the save areas lie outside every window. -/
def State.inWin (s : State) (t : Tid) (a n : Nat) : Bool :=
  let k := s.coreOf t
  let has := fun a => winHas (s.th t).pwin k.world a || winHas k.qwin k.world a
  decide (a + n ≤ 0x1E0000) && (decide (n = 0) ||
    (rangeFrom (a / 4096) ((a + n - 1) / 4096 - a / 4096 + 1)).all fun g => has (max a (g * 4096)))

def bankOf (a : Nat) : Nat := a / 0x20000 % 16
def bankBase (a : Nat) : Nat := a / 0x20000 * 0x20000
/-- A bank's format as accesses of this cycle see it (04 R98). -/
def State.bfmt (s : State) (q b : Nat) : Word :=
  match tget? (s.quad q).bfmtWas b with
  | some w => w
  | none => (s.quad q).bfmt[Fin.ofNat 16 b]

/-- A fault of an access: cause, detail, address, lane. -/
structure AccFault where
  cause : Nat
  detail : Nat
  addr : Nat
  lane : Nat
  deriving DecidableEq, Repr

def State.accFault (s : State) (f : AccFault) : State :=
  s.faultMe f.cause f.detail (BitVec.ofNat 64 f.addr) f.lane

def guardAcc (bad : Bool) (f : AccFault) : Option AccFault := if bad then some f else none

/-! ### Poisoned words of local memory (18 R411) -/

/-- A poisoned 64-bit word meets [a, a + n) of quad `q`. -/
def State.lmBad (s : State) (q a n : Nat) : Bool :=
  s.lmPoison.any fun w => decide (w * 8 < q * lmSize + a + n) && decide (q * lmSize + a < w * 8 + 8)

/-- A byte as slots see it in this cycle: as it stood before the cycle's writes (06 R174). -/
def State.lmSee (s : State) (x : Nat) : Byte :=
  match tget? s.lmWas x with
  | some b => b
  | none => Mem.read s.lm x
def lmSeeFrom (s : State) (x : Nat) : Nat → Nat
  | 0 => 0
  | n + 1 => (s.lmSee x).toNat + 256 * lmSeeFrom s (x + 1) n
/-- `n` bytes, little-endian, as slots see them. -/
def State.lmSeeN (s : State) (q a n : Nat) : Nat := lmSeeFrom s (q * lmSize + a) n

/-- Local memory written by an engine, or by a result that lands: raw; a poisoned word replaced as a whole is sound again. -/
def lmRaw (s : State) (q a : Nat) (bs : List Byte) : State :=
  let lo := q * lmSize + a
  { s.lmPut q a bs with lmPoison := s.lmPoison.filter fun w => !(decide (lo ≤ w * 8) && decide (w * 8 + 8 ≤ lo + bs.length)) }

/-- Bytes written by a slot; a poisoned word replaced as a whole is sound again. -/
def State.lmStore (s : State) (q a : Nat) (bs : List Byte) : State :=
  let lo := q * lmSize + a
  let was := (rangeFrom lo bs.length).filterMap fun x => if (tget? s.lmWas x).isSome then none else some (x, Mem.read s.lm x)
  { s.lmPut q a bs with
      lmWas := s.lmWas ++ was
      lmPoison := s.lmPoison.filter fun w => !(decide (lo ≤ w * 8) && decide (w * 8 + 8 ≤ lo + bs.length)) }

/-- A strip of the slot's own that has not landed yet has bytes in [a, a + n): its accesses there take effect in program order, so a
later one waits for it (06 R165; log 119). -/
def State.lmComing (s : State) (a n : Nat) : Bool :=
  s.me.pend.any fun p => p.val.writes.any fun w => decide (w.1 < a + n) && decide (a < w.1 + w.2.length)

/-! ### Elements (04 R95, R97) -/

def isFp4 (fmt : Nat) : Bool := fmt == 6 || fmt == 7

/-- The check of one element access at `la` (06 R162): alignment, windows, then the formats that have no scalar view. -/
def State.elemCheck (s : State) (la : Nat) (lane : Nat) (vec store : Bool) : Option AccFault :=
  let t := s.cur
  let fmt := bfFmt (s.bfmt t.quad (bankOf la))
  let w := fmtWidth fmt
  if !isFp4 fmt && decide (la % w ≠ 0) then some ⟨0x06, w, la, lane⟩
  else if !s.inWin t la (if isFp4 fmt then 1 else w) then some ⟨0x08, bankOf la, la, lane⟩
  else if isFp4 fmt || decide (10 ≤ fmt) || (vec && fmt == 8) then some ⟨0x09, fmt, la, lane⟩
  else guardAcc (!store && s.lmBad t.quad la w) ⟨0x0A, 0, la, lane⟩

/-- A strip on its way has bytes of the element at `la`. -/
def State.elemComing (s : State) (la : Nat) : Bool := s.lmComing la (fmtWidth (bfFmt (s.bfmt s.cur.quad (bankOf la))))

/-- The scalar view of an element (04 R95). -/
def State.elemLoad (s : State) (la : Nat) : Word :=
  let q := s.cur.quad
  let fmt := bfFmt (s.bfmt q (bankOf la))
  let x := s.lmSeeN q la (fmtWidth fmt)
  match fmt with
  | 2 | 3 | 4 | 5 => BitVec.ofNat 64 (elemDec fmt x)
  | 9 => sx (BitVec.ofNat 32 x)
  | _ => BitVec.ofNat 64 x

/-- The bytes of an element encoded into its bank, with its flags (06 R172). -/
def State.elemBytes (s : State) (la : Nat) (d : Word) : List Byte × Flags :=
  let r := s.bfmt s.cur.quad (bankOf la)
  let w := fmtWidth (bfFmt r)
  match bfFmt r with
  | 2 | 3 | 4 | 5 =>
    let e := elemEnc (bfFmt r) (bfSat r) (bfRtz r) (fieldNat d 0 32)
    (natLE w e.1, e.2)
  | _ => (natLE w d.toNat, 0)
/-- The element stored. -/
def elemStore (s : State) (la : Nat) (d : Word) : State × Flags :=
  let x := s.elemBytes la d
  (s.lmStore s.cur.quad la x.1, x.2)

/-! ### Strips (04 R105, R110; 06 R172) -/

/-- Row start, and byte offset within the row, of an element byte of an FP4 bank. -/
def fp4Pos (r : Word) (la : Nat) : Nat × Nat :=
  let rb := fp4RowBytes (bfFmt r) (bfRow r)
  let o := la - bankBase la
  (bankBase la + o / rb * rb, o % rb)
def fp4RowNo (r : Word) (la : Nat) : Nat := (la - bankBase la) / fp4RowBytes (bfFmt r) (bfRow r)

/-- Bytes of a strip's elements. -/
def stripBytes (fmt : Nat) : Nat := if isFp4 fmt then 8 else stripElems fmt * fmtWidth fmt

/-- The strip that follows (06 R184): in an FP4 bank the next row follows the last strip of a row. -/
def nextStrip (r : Word) (la : Nat) : Nat :=
  if isFp4 (bfFmt r) then
    let p := fp4Pos r la
    if bfRow r / 2 ≤ p.2 + 8 then p.1 + fp4RowBytes (bfFmt r) (bfRow r) else la + 8
  else la + stripBytes (bfFmt r)

/-- The start of a strip is aligned (06 R164; 04 R105). -/
def stripStart (r : Word) (la : Nat) : Bool :=
  if isFp4 (bfFmt r) then decide ((fp4Pos r la).2 % 8 = 0) && decide ((fp4Pos r la).2 < bfRow r / 2)
  else decide (la % fmtWidth (bfFmt r) = 0)

/-- The last byte of elements `0` to `last` of an FP4 row that begins at `rs`: the scale byte of the last one's block. -/
def fp4End (r : Word) (rs last : Nat) : Nat := rs + bfRow r / 2 + last / fp4Block (bfFmt r)

/-- Alignment of a strip of `n` elements, one or more: its start, and that it stays in its bank (06 R164). -/
def stripAligned (r : Word) (la n : Nat) : Bool :=
  stripStart r la &&
  (if isFp4 (bfFmt r) then decide (fp4End r (fp4Pos r la).1 (2 * (fp4Pos r la).2 + n - 1) < bankBase la + 0x20000)
   else decide (la % 0x20000 + n * fmtWidth (bfFmt r) ≤ 0x20000))

/-- The runs of bytes that one active lane of a strip reaches; a store re-encodes whole FP4 blocks (04 R108). -/
def laneRuns (r : Word) (la : Nat) (store : Bool) (lane : Nat) : Nat × List (Nat × Nat) :=
  let fmt := bfFmt r
  if isFp4 fmt then
    let p := fp4Pos r la
    let eb := fp4Block fmt / 2
    let k := (p.2 + lane / 2) / eb
    (la + lane / 2, [if store then (p.1 + k * eb, eb) else (la + lane / 2, 1), (p.1 + bfRow r / 2 + k, 1)])
  else
    let a := la + fmtWidth fmt * (if fmt = 8 then lane / 2 else lane)
    (a, [(a, fmtWidth fmt)])

/-- Elements of a whole strip at an address. -/
def State.stripLen (s : State) (la : Nat) : Nat := stripElems (bfFmt (s.bfmt s.cur.quad (bankOf la)))

/-- Element `e` of an FP4 row is among the active elements of the strip at `la`. -/
def fp4Covers (r : Word) (la : Nat) (act : Half) (e : Nat) : Bool :=
  let first := 2 * (fp4Pos r la).2
  decide (first ≤ e) && decide (e < first + 16) && bitAt act (e - first)
/-- What a store to lane `i` of an FP4 strip reads: the codes of its block that it does not cover, and then their scale (04 R108). -/
def fp4Reads (r : Word) (la : Nat) (act : Half) (i : Nat) : List Nat :=
  let p := fp4Pos r la
  let n := fp4Block (bfFmt r)
  let b := (2 * p.2 + i) / n
  match (rangeFrom (b * n) n).filter fun e => !fp4Covers r la act e with
  | [] => []
  | es => es.map (fun e => p.1 + e / 2) ++ [p.1 + bfRow r / 2 + b]

/-- The band word of a fine-block row: its address, and whether it is poisoned (04 R104; 18 R410). -/
def bandWord (r : Word) (la : Nat) : Nat := bfBand r + 2 * (fp4RowNo r la / 64)
def State.bandBad (s : State) (q : Nat) (r : Word) (la : Nat) : Bool := bfFmt r == 6 && s.lmBad q (bandWord r la) 2

/-- The checks of a strip of `n` elements (06 R162): alignment, then the windows of each active lane, the band table (04 R104), the format, and
poisoned words that are read. DESIGN CHOICE (log 120): a fault of the band word comes after those of every lane, with its own address
and ELEM 0; a strip `lld` or `lst` with no active lane is still checked for its alignment, with ELEM 0. -/
def State.stripCheck (s : State) (la n : Nat) (act : Half) (store : Bool) : Option AccFault :=
  let t := s.cur
  let r := s.bfmt t.quad (bankOf la)
  let fmt := bfFmt r
  let w := if isFp4 fmt then 8 else fmtWidth fmt
  let band := bandWord r la
  if la < lmSize ∧ 10 ≤ fmt then some ⟨0x09, fmt, la, 0⟩
  else if !stripAligned r la n then some ⟨0x06, w, la, 0⟩
  else
    let lanes := (List.range 16).filter (bitAt act)
    match lanes.find? fun i => !((laneRuns r la store i).2.all fun p => s.inWin t p.1 p.2) with
    | some i => some ⟨0x08, bankOf (laneRuns r la store i).1, (laneRuns r la store i).1, i⟩
    | none =>
      if fmt = 6 ∧ lanes ≠ [] ∧ s.inWin t band 2 = false then some ⟨0x08, bankOf band, band, 0⟩
      else
        let bad := fun i => if !store then (laneRuns r la store i).2.any fun p => s.lmBad t.quad p.1 p.2
          else isFp4 fmt && (fp4Reads r la act i).any fun a => s.lmBad t.quad a 1
        match lanes.find? bad with
        | some i => some ⟨0x0A, 0, (laneRuns r la store i).1, i⟩
        | none => guardAcc (decide (lanes ≠ []) && s.bandBad t.quad r la) ⟨0x0A, 0, band, 0⟩

/-- A strip on its way has bytes among those that an access of the strip at `la` reads or writes. -/
def State.stripComing (s : State) (la : Nat) (act : Half) (store : Bool) : Bool :=
  let r := s.bfmt s.cur.quad (bankOf la)
  let lanes := (List.range 16).filter (bitAt act)
  (lanes.any fun i => (laneRuns r la store i).2.any fun p => s.lmComing p.1 p.2) ||
  (bfFmt r == 6 && !lanes.isEmpty && s.lmComing (bandWord r la) 2)

/-- The exact value of FP4 element `e` of the row at `rs`. -/
def State.fp4At (s : State) (q : Nat) (r : Word) (rs band e : Nat) : FVal × Flags :=
  let b := s.lmSeeN q (rs + e / 2) 1
  let code := if e % 2 = 1 then b / 16 else b % 16
  let sc := s.lmSeeN q (rs + bfRow r / 2 + e / fp4Block (bfFmt r)) 1
  if bfFmt r = 6 then fineVal code sc band else mxVal code sc

/-- The band scale of an element byte's row (04 R104). -/
def State.bandAt (s : State) (q : Nat) (r : Word) (la : Nat) : Nat := s.lmSeeN q (bandWord r la) 2

/-- A strip decoded: its active lanes, zero elsewhere, and its flags (04 R97, R106, R110). -/
def State.readStrip (s : State) (la : Nat) (act : Half) : VWord × Flags :=
  let q := s.cur.quad
  let r := s.bfmt q (bankOf la)
  let fmt := bfFmt r
  let p := fp4Pos r la
  let band := s.bandAt q r la
  let one := fun (i : Nat) =>
    if !bitAt act i then ((0 : Lane), (0 : Flags))
    else if isFp4 fmt then
      let x := fp4Lane (s.fp4At q r p.1 band (2 * p.2 + i))
      (BitVec.ofNat 32 x.1, x.2)
    else if fmt = 8 then (BitVec.ofNat 32 (s.lmSeeN q (la + 4 * i) 4), 0)
    else
      let x := s.lmSeeN q (la + fmtWidth fmt * i) (fmtWidth fmt)
      (BitVec.ofNat 32 (if 2 ≤ fmt ∧ fmt ≤ 5 then elemDec fmt x else x), 0)
  let xs : Vector (Lane × Flags) 16 := Vector.ofFn fun i => one i.val
  (xs.map Prod.fst, (xs.map Prod.snd).foldl (· ||| ·) 0)

/-- Pairs of 4-bit codes as bytes. -/
def packCodes : List Nat → List Byte
  | a :: b :: r => BitVec.ofNat 8 (a + 16 * b) :: packCodes r
  | _ => []

/-- What stores a strip makes: runs of bytes by their local addresses, and its flags. -/
abbrev StripW := List (Nat × List Byte) × Flags

/-- The blocks of an FP4 strip that hold an active lane, each re-encoded whole (04 R107, R108, R110). DESIGN CHOICE (log 121): decoding
the elements that are not covered raises no flag. -/
def State.fp4Writes (s : State) (la : Nat) (act : Half) (v : VWord) : StripW :=
  let q := s.cur.quad
  let r := s.bfmt q (bankOf la)
  let p := fp4Pos r la
  let band := s.bandAt q r la
  let n := fp4Block (bfFmt r)
  let first := 2 * p.2
  let blocks := rangeFrom (first / n) ((first + 15) / n - first / n + 1)
  foldS (blocks.filter fun b => (rangeFrom (b * n) n).any (fp4Covers r la act)) ([], 0) fun (w : StripW) b =>
    let xs := (rangeFrom (b * n) n).map fun e =>
      fmt32.dec (if fp4Covers r la act e then (v[Fin.ofNat 16 (e - first)]).toNat else (fp4Lane (s.fp4At q r p.1 band e)).1)
    let x := if bfFmt r = 6 then fineStore (bfRtz r) band xs else mxStore (bfRtz r) xs
    (w.1 ++ [(p.1 + b * n / 2, packCodes x.1), (p.1 + bfRow r / 2 + b, [BitVec.ofNat 8 x.2.1])], w.2 ||| x.2.2)

/-- A strip encoded: its active lanes in ascending order (06 R172). -/
def State.stripWrites (s : State) (la : Nat) (act : Half) (v : VWord) : StripW :=
  let r := s.bfmt s.cur.quad (bankOf la)
  let fmt := bfFmt r
  if isFp4 fmt then s.fp4Writes la act v
  else
    foldS ((List.finRange 16).filter fun (i : Fin 16) => bitAt act i.val) ([], 0) fun (w : StripW) i =>
      if fmt = 8 then (w.1 ++ [(la + 4 * i.val, natLE 4 (v[i]).toNat)], w.2)
      else
        let a := la + fmtWidth fmt * i.val
        let x := s.elemBytes a (zx v[i])
        (w.1 ++ [(a, x.1)], w.2 ||| x.2)

def writeStrip (s : State) (la : Nat) (act : Half) (v : VWord) : State × Flags :=
  let w := s.stripWrites la act v
  (foldS w.1 s fun s x => s.lmStore s.cur.quad x.1 x.2, w.2)

/-- The strip reaches into a second bank row (02 R45). -/
def spansRows (r : Word) (la : Nat) : Bool := decide (la / 256 ≠ (la + stripBytes (bfFmt r) - 1) / 256)

/-! ### Streams (06 R184, R185) -/

def State.bindAt (s : State) (c : Nat) : Option Bind := s.me.bindOf c
/-- Bound streams among register codes, each once. -/
def State.named (s : State) (cs : List Nat) : List Nat := cs.eraseDups.filter fun c => (s.bindAt c).isSome

/-- The first register named against its stream's direction. -/
def State.wrongWay (s : State) (rd wr : List Nat) : Option Nat :=
  match rd.find? fun c => (s.bindAt c).any (·.wr) with
  | some c => some c
  | none => wr.find? fun c => (s.bindAt c).any fun b => !b.wr

/-- The lanes that a stream's LEFT makes active. -/
def State.bindLanes (s : State) (b : Bind) : Half :=
  let n := if bfFmt (s.bfmt s.cur.quad b.bank.val) = 8 then 2 * min b.left.toNat 8 else min b.left.toNat 16
  BitVec.ofNat 16 (2 ^ n - 1)

/-- The active lanes of an instruction that names these registers. -/
def State.activeOf (s : State) (cs : List Nat) : Half :=
  (s.named cs).foldl (fun (m : Half) c => match s.bindAt c with
    | some b => m &&& s.bindLanes b
    | none => m) 0xFFFF

/-- Each stream named advances once. -/
def State.advance (s : State) (cs : List Nat) : State :=
  s.modMe fun x => foldS (s.named cs) x fun x c =>
    if h : c - 44 < 4 then
      match x.binds[c - 44] with
      | some b =>
        let r := s.bfmt s.cur.quad b.bank.val
        let e := if bfFmt r = 8 then 8 else 16
        let n := min b.left.toNat e
        { x with binds := x.binds.set (c - 44) (some { b with
            left := BitVec.ofNat 24 (b.left.toNat - n)
            addr := BitVec.ofNat 21 (nextStrip r b.addr.toNat) }) }
      | none => x
    else x

/-- A v operand's lanes, with the flags of decoding a stream's strip. -/
def State.vread (s : State) (r : VReg) (act : Half) : VWord × Flags :=
  match s.bindAt (vCode r) with
  | none => (s.me.v[r], 0)
  | some b => if act = 0 then (Vector.replicate 16 0, 0) else s.readStrip b.addr.toNat act

def maskV (act : Half) (v : VWord) : VWord := Vector.ofFn fun i => if bitAt act i.val then v[i] else 0

/-- A v destination: a register with its inactive lanes zero, or a stream's strip. -/
def vwrite (s : State) (d : VReg) (act : Half) (v : VWord) : State × Flags :=
  match s.bindAt (vCode d) with
  | none => (s.modMe fun x => x.wrV d (maskV act v), 0)
  | some b => if act = 0 then (s, 0) else writeStrip s b.addr.toNat act v

/-- A vector result that is full only later (02 R28): a register's value, or the strip of a write stream, which lands with its flags. -/
def State.vlater (s : State) (d : VReg) (act : Half) (v : VWord) : PVal × Flags :=
  match s.bindAt (vCode d) with
  | none => (.v (maskV act v), 0)
  | some b =>
    let w := if act = 0 then ([], 0) else s.stripWrites b.addr.toNat act v
    (.strip w.1, w.2)

/-- The checks of every stream named, as its strip stands now; a last strip has only the elements that are left (06 R162, R164, R184).
DESIGN CHOICE (log 123): where ADDR has stepped past BANK, the format of ADDR's bank decodes and checks, that of BANK counts. -/
def State.namedCheck (s : State) (rd wr : List Nat) : Option AccFault :=
  let act := s.activeOf (rd ++ wr)
  let one := fun (store : Bool) (c : Nat) => match s.bindAt c with
    | some b => if act = 0 then none
      else s.stripCheck b.addr.toNat (min b.left.toNat (s.stripLen b.addr.toNat)) act store
    | none => none
  match (s.named rd).findSome? (one false) with
  | some f => some f
  | none => (s.named wr).findSome? (one true)

/-- A strip on its way has bytes in the strip of a stream named. -/
def State.namedComing (s : State) (rd wr : List Nat) : Bool :=
  let one := fun (store : Bool) (c : Nat) => (s.bindAt c).any fun b => s.stripComing b.addr.toNat (s.activeOf (rd ++ wr)) store
  (s.named rd).any (one false) || (s.named wr).any (one true)

/-! ### A vector instruction (02 R45; 06 R188, R199) -/

/-- Lane-group cycles beyond the first that named streams need. DESIGN CHOICE (log 122): a last strip counts by its full extent. -/
def State.extraRows (s : State) (cs : List Nat) : Nat :=
  ((s.named cs).filter fun c => match s.bindAt c with
    | some b => decide (b.left ≠ 0) && spansRows (s.bfmt s.cur.quad b.bank.val) b.addr.toNat
    | none => false).length

/-- Issue of a vector instruction that reads `rd` and writes `wr`: hazards, the directions of its streams, their checks,
then its own effect on its active lanes. Its first lane-group cycle runs at issue. -/
def vissue (s : State) (us : List Use) (rd wr : List Nat) (ds : List Nat) (mem : Bool) (k : State → Half → State) : Out :=
  issue s us ds (mem || !(s.named (rd ++ wr)).isEmpty) fun s =>
    match s.wrongWay rd wr with
    | some c => s.faultMe 0x0B c 0 0
    | none =>
      match s.namedCheck rd wr with
      | some f => s.accFault f
      | none => if s.namedComing rd wr then s.blockMe else k s (s.activeOf (rd ++ wr))

/-- The lane group of core `c` runs in this cycle. -/
def State.useGroup (s : State) (q c : Nat) : State :=
  s.modQuad q fun x => { x with vecUsed := x.vecUsed ||| ((1 : BitVec 4) <<< c) }

/-- The end of a vector instruction: flags, streams, remaining lane-group cycles, next head. -/
def vdone (s : State) (us : List Use) (cs : List Nat) (cycles : Nat) (fl : Flags) : State :=
  let more := cycles - 1 + s.extraRows cs
  let s := (s.advance cs).takeUses us
  let s := s.useGroup s.cur.quad s.cur.core.val
  let s := if more = 0 then s.modMe Thread.next
    else s.modMe fun x => { x with pc := x.pc + 2, run := .running, exempt := false, lanes := more, lanesAt := s.cycle }
  s.flagMe fl

end Sys2Proof.Machine
end

