-- ==== Sys2Proof/Machine/Local.lean ====
section
/-! DEFINITION. Local loads and stores, indexed local access, streams (06 R171 to R187), and `mov`, whose v form may read or
write a stream (05 R128). -/

namespace Sys2Proof.Machine

/-! ### lld and lst (06 R171 to R173) -/

def execLld (d : LDst) (a : SSrc) (k : BitVec 16) (s : State) : Out :=
  match d with
  | .s d => issue s [useS a] [d.code] true fun s =>
      let la := (s.valS a.reg + sx k).toNat
      match s.elemCheck la 0 false false with
      | some f => s.accFault f
      | none => if s.elemComing la then s.blockMe else (s.setW d (s.elemLoad la)).retire [useS a]
  | .v d => vissue s [useS a] [] [vCode d] [vCode d] true fun s act =>
      let la := (s.valS a.reg + sx k).toNat
      match s.stripCheck la (s.stripLen la) act false with
      | some f => s.accFault f
      | none =>
        if s.stripComing la act false then s.blockMe else
        let x := s.readStrip la act
        let w := vwrite s d act x.1
        vdone w.1 [useS a] [vCode d] (1 + b2n (spansRows (s.bfmt s.cur.quad (bankOf la)) la)) (x.2 ||| w.2)

def execLst (d : LSrc) (a : SSrc) (k : BitVec 16) (s : State) : Out :=
  match d with
  | .s d => issue s [useS a, useC d.code] [] true fun s =>
      let la := (s.valS a.reg + sx k).toNat
      match s.elemCheck la 0 false true with
      | some f => s.accFault f
      | none =>
        if s.elemComing la then s.blockMe else
        let w := elemStore s la (s.valS d)
        (w.1.retire [useS a, useC d.code]).flagMe w.2
  | .v d => vissue s [useS a, useC (vCode d)] [vCode d] [] [] true fun s act =>
      let la := (s.valS a.reg + sx k).toNat
      match s.stripCheck la (s.stripLen la) act true with
      | some f => s.accFault f
      | none =>
        if s.stripComing la act true then s.blockMe else
        let x := s.vread d act
        let w := writeStrip s la act x.1
        vdone w.1 [useS a] [vCode d] (1 + b2n (spansRows (s.bfmt s.cur.quad (bankOf la)) la)) (x.2 ||| w.2)

/-! ### vldx and vstx (06 R176 to R178) -/

def scaleOf (sz : Size) : Nat := 2 ^ sz.code

/-- The address of a lane of an indexed access. -/
def laneAddr (base : Word) (idx : VWord) (sz : Size) (i : Fin 16) : Word := base + sx idx[i] * BitVec.ofNat 64 (scaleOf sz)

def lanesOf (act : Half) : List (Fin 16) := (List.finRange 16).filter fun i => bitAt act i.val

/-- The largest number of distinct rows that the lanes touch in one bank. -/
def rowCost (las : List Nat) : Nat :=
  let rows := (las.map (· / 256)).eraseDups
  max 1 ((rows.map fun r => (rows.filter fun r' => r' / 512 == r / 512).length).foldl max 1)

def execVldx (d : VReg) (a : SSrc) (b : VSrc) (scale : Size) (s : State) : Out :=
  vissue s [useS a, useV b] [vCode b.reg] [vCode d] [vCode d] true fun s act =>
    let idx := s.vread b.reg act
    let la := fun (i : Fin 16) => (laneAddr (s.valS a.reg) idx.1 scale i).toNat
    match (lanesOf act).findSome? fun i => s.elemCheck (la i) i.val true false with
    | some f => s.accFault f
    | none =>
      if (lanesOf act).any fun i => s.elemComing (la i) then s.blockMe else
      let v : VWord := Vector.ofFn fun i => if bitAt act i.val then (s.elemLoad (la i)).setWidth 32 else 0
      let w := vwrite s d act v
      vdone w.1 [useS a] [vCode b.reg, vCode d] (rowCost ((lanesOf act).map la)) (idx.2 ||| w.2)

def execVstx (d : VReg) (a : SSrc) (b : VSrc) (scale : Size) (s : State) : Out :=
  vissue s [useS a, useV b, useC (vCode d)] [vCode b.reg, vCode d] [] [] true fun s act =>
    let idx := s.vread b.reg act
    let x := s.vread d act
    let la := fun (i : Fin 16) => (laneAddr (s.valS a.reg) idx.1 scale i).toNat
    match (lanesOf act).findSome? fun i => s.elemCheck (la i) i.val true true with
    | some f => s.accFault f
    | none =>
      if (lanesOf act).any fun i => s.elemComing (la i) then s.blockMe else
      let w := foldS (lanesOf act) (s, (0 : Flags)) fun (sf : State × Flags) i =>
        let y := elemStore sf.1 (la i) (zx x.1[i])
        (y.1, sf.2 ||| y.2)
      vdone w.1 [useS a] [vCode b.reg, vCode d] (rowCost ((lanesOf act).map la)) (idx.2 ||| x.2 ||| w.2)

/-! ### Streams (06 R183, R187) -/

/-- The check of a whole run (06 R183): its alignment and its end in the bank, then the windows, then the format. A run of no elements
has only its start. -/
def State.runCheck (s : State) (a n : Nat) : Option AccFault :=
  let t := s.cur
  let r := s.bfmt t.quad (bankOf a)
  let fmt := bfFmt r
  if isFp4 fmt then
    let p := fp4Pos r a
    let rb := fp4RowBytes fmt (bfRow r)
    let e0 := 2 * p.2
    let last := e0 + n - 1
    let rows := last / bfRow r
    if !stripStart r a || (decide (n ≠ 0) && decide (bankBase a + 0x20000 ≤ fp4End r (p.1 + rows * rb) (last % bfRow r))) then
      some ⟨0x06, 8, a, 0⟩
    else
      let blk := fp4Block fmt
      guardAcc (decide (n ≠ 0) && !((List.range (rows + 1)).all fun i =>
        let rs := p.1 + i * rb
        let b0 := (if i = 0 then e0 else 0) / blk
        let b1 := min (last - i * bfRow r) (bfRow r - 1) / blk
        s.inWin t (rs + b0 * blk / 2) ((b1 - b0 + 1) * blk / 2) && s.inWin t (rs + bfRow r / 2 + b0) (b1 - b0 + 1)))
        ⟨0x08, bankOf a, a, 0⟩
  else
    let w := fmtWidth fmt
    if !stripStart r a || (decide (n ≠ 0) && decide (0x20000 < a % 0x20000 + n * w)) then some ⟨0x06, w, a, 0⟩
    else if decide (n ≠ 0) && !s.inWin t a (n * w) then some ⟨0x08, bankOf a, a, 0⟩
    else guardAcc (decide (10 ≤ fmt)) ⟨0x09, fmt, a, 0⟩

/-- A binding made, once its whole run passes. -/
def bindTo (s : State) (d : StReg) (wr : Bool) (a b : SSrc) : Out :=
  issue s [useS a, useS b] [] true fun s =>
    let addr := s.valS a.reg
    match s.runCheck addr.toNat (s.valS b.reg).toNat with
    | some f => s.accFault f
    | none =>
      let v : Bind := ⟨wr, addr.setWidth 21, (s.valS b.reg).setWidth 24, Fin.ofNat 16 (bankOf addr.toNat)⟩
      (s.modMe fun x => { x with binds := x.binds.set d.val (some v) }).retire [useS a, useS b]

def execSbind (d : StReg) (f : BindForm) (s : State) : Out :=
  match f with
  | .rd a b => bindTo s d false a b
  | .wr a b => bindTo s d true a b
  | .un => issue s [] [] false fun s => (s.modMe fun x => { x with binds := x.binds.set d.val none }).retire []

/-- LEFT decides, without advancing. -/
def execSloop (d : StReg) (disp : BitVec 16) (site : Site) (s : State) : Out :=
  issue s [] [] false fun s =>
    match s.me.binds[d] with
    | none => s.faultMe 0x0B (stCode d) 0 0
    | some b => loopEnd s (decide (b.left ≠ 0)) disp site 0 id

/-! ### mov (05 R128) -/

def execMov (f : MovForm) (s : State) : Out :=
  match f with
  | .ss d a => alu1 d a id s
  | .vv d a => vissue s [useV a] [vCode a.reg] [vCode d] [vCode d] false fun s act =>
      let x := s.vread a.reg act
      let w := vwrite s d act x.1
      vdone w.1 [useV a] [vCode a.reg, vCode d] 1 (x.2 ||| w.2)
  | .pp d a => issue s [useP a] [pCode d] false fun s => (s.setP d (s.me.rdP a.reg)).retire [useP a]
  | .ps d a => issue s [useS a] [pCode d] false fun s => (s.setP d ((s.valS a.reg).setWidth 16)).retire [useS a]
  | .sp d a => issue s [useP a] [d.code] false fun s => (s.setW d (zx (s.me.rdP a.reg))).retire [useP a]

end Sys2Proof.Machine
end

