-- ==== Sys2Proof/Machine/Pages.lean ====
section
/-! DEFINITION. Register pages as agents reach them (16 R378 to R380; 20 R459): who may, what a read returns, and the
transition that a write stands for. -/

namespace Sys2Proof.Machine

/-- The eight bytes of a mailbox buffer that hold offset `o` (20 R463). -/
def bufWord (m : Mem) (o : Nat) : Word := BitVec.ofNat 64 (Mem.readN m (o / 8 * 8) 8)

/-- The page and offset of a register address. -/
def pageOf (pa : Nat) : Page × Nat :=
  let o := pa - regSpace
  let n := o / 0x10000
  let p : Page :=
    if o < 0x10000 then .mgmt
    else if o < 0x90000 then .die (n - 1)
    else if o < 0x1C0000 then .root (n - 16)
    else .quad ((o - 0x1000000) / 0x800000 * 120 + (o - 0x1000000) % 0x800000 / 0x10000)
  (p, o % 0x10000)

/-- A quad over its own budget, or in a group the package has marked (15 R356). -/
def State.overBudget (s : State) (q : Nat) : Bool := (s.quad q).overB || s.groupOver.contains (s.groupBit q)

/-- `lqstat` of a queue (15 R344). -/
def lqstatOf (l : LQ) : Word :=
  BitVec.ofNat 64 (l.rcause.toNat * 2 ^ 24 + b2n l.ref * 2 ^ 9 + b2n l.ovf * 2 ^ 8 + l.blocks.length % 32)

/-- A register's value as a normal read returns it; a write-only register, and an offset that no table names, read zero. -/
def State.regRead (s : State) (p : Page) (off : Nat) : Word :=
  match p with
  | .mgmt =>
    if 0x400 ≤ off ∧ off < 0x800 then
      if off % 0x20 = 0x10 then lqstatOf s.lqs[Fin.ofNat 32 ((off - 0x400) / 0x20)]
      else if off % 0x20 = 0 then s.mreg off
      else 0
    else if off = 0x210 then 0
    else s.mreg off
  | .die d =>
    if 0x400 ≤ off ∧ off < 0x400 + 8 * s.activeQuads then
      let x := s.quad (d * 120 + (off - 0x400) / 8)
      s.reg (dieBase d + off) ||| (b2w x.hot <<< 63) ||| (b2w (s.overBudget (d * 120 + (off - 0x400) / 8)) <<< 62)
    else if 0x400 ≤ off ∧ off < 0x400 + 8 * 120 then 0
    else s.reg (dieBase d + off)
  | .root r => s.reg (rootBase r + off)
  | .quad q =>
    if 0x100 ≤ off ∧ off < 0x300 then
      let n := (off - 0x100) / 8
      (s.th ⟨q, Fin.ofNat 4 (n / 16), Fin.ofNat 18 (n % 16)⟩).pwin
    else if 0x300 ≤ off ∧ off < 0x320 then (s.core ⟨q, Fin.ofNat 4 ((off - 0x300) / 8)⟩).qwin
    else s.reg (quadBase q + off)
  | .host =>
    if 0x1000 ≤ off ∧ off < 0x2000 then bufWord s.reqbuf (off - 0x1000)
    else if 0x2000 ≤ off ∧ off < 0x3000 then bufWord s.rspbuf (off - 0x2000)
    else s.reg (pageBase .host + off)

/-- The transition that a trusted write stands for: the rows that a register names, else the general one. -/
def regEvent (p : Page) (off : Nat) (v : Word) : Instr :=
  match p with
  | .mgmt =>
    if off = 0x008 ∨ off = 0x010 ∨ off = 0x018 then .mcstartWrite (Fin.ofNat 4 (off / 8)) v
    else if off = 0x040 then .rstrelWrite v
    else if off = 0x128 then .kdfenceClear v
    else if off = 0x180 then .alcfgWrite v
    else if off = 0x210 then .plbflush (v.setWidth 16)
    else if 0x300 ≤ off ∧ off < 0x340 then .mlccWrite (Fin.ofNat 8 ((off - 0x300) / 8)) v
    else if 0x400 ≤ off ∧ off < 0x800 ∧ off % 0x20 = 8 then .lqpost ((off - 0x400) / 0x20) v
    else .registerWrite p off v
  | .die d =>
    if off = 0x080 then .l2wgRequest d v
    else if off = 0x0C0 then .smctlWrite d v
    else .registerWrite p off v
  | .root r => if off = 0 then .mlcwgRequest r v else .registerWrite p off v
  | .quad q => if off = 0x010 then .cxipiWrite q v else .registerWrite p off v
  | .host =>
    if off = 0 ∧ bitAt v 0 then .mbxRequestPost (BitVec.ofNat 16 (fieldNat v 16 16))
    else if off = 8 ∧ bitAt v 0 then .mbxResponseClear
    else if off = 0x110 then .hrtailDoorbell v
    else .registerWrite p off v

/-- Who makes an access to a register page. -/
structure Asker where
  vcore : Half
  world : BitVec 4
  trusted : Bool
  deriving DecidableEq, Repr

/-- The access is normal (16 R380); the management page is never shared. -/
def pageNormal (p : Page) (leaf : Word) (w : Asker) : Bool :=
  match p with
  | .mgmt => w.trusted && decide (w.world = leafOwn leaf)
  | _ => if leafShared leaf then w.trusted || decide (w.world = leafOwn leaf) else w.trusted && decide (w.world = leafOwn leaf)

/-- Registers that an untrusted read sees as zero. -/
def pageHidden (p : Page) (off : Nat) : Bool :=
  match p with
  | .quad _ => decide (off = 0x010) || (decide (0x100 ≤ off) && decide (off < 0x320))
  | _ => false

/-- A load of `n` bytes at `va`, which lies at `pa` of a register page. -/
def pageLoad (s : State) (w : Asker) (leaf : Word) (va pa n : Nat) : Word × State :=
  let x := pageOf pa
  if n ≠ 8 ∨ pa % 8 ≠ 0 ∨ pageNormal x.1 leaf w = false then (0, violation s w.vcore w.world 1 (BitVec.ofNat 64 va))
  else if !w.trusted && pageHidden x.1 x.2 then (0, s)
  else (s.regRead x.1 x.2, s)

/-- A store: a trusted one acts as its register's rule gives; an untrusted one reaches `l2lrp` only. -/
def pageStore (s : State) (w : Asker) (leaf : Word) (va pa n : Nat) (v : Word) : State :=
  let x := pageOf pa
  if n ≠ 8 ∨ pa % 8 ≠ 0 ∨ pageNormal x.1 leaf w = false then violation s w.vcore w.world 2 (BitVec.ofNat 64 va)
  else if w.trusted then s.enqueue (regEvent x.1 x.2 v)
  else
    match x.1 with
    | .die d => if x.2 = 0x070 then s.enqueue (.registerWrite (.die d) 0x070 v)
      else violation s w.vcore w.world 2 (BitVec.ofNat 64 va)
    | _ => violation s w.vcore w.world 2 (BitVec.ofNat 64 va)

end Sys2Proof.Machine
end

