-- ==== Sys2Proof/Machine/Global.lean ====
section
/-! DEFINITION. Global loads and stores of slots (06 R163 to R170, R175, R179 to R181), the landing of results and of deferred
faults (06 R163; 02 R28, R30), parks (02 R49), and the threads' own transitions: a line's entry, an illegal head, a
breakpoint (02 R34; 03 R81; 19 R442). -/

namespace Sys2Proof.Machine

/-! ### Checks at issue (06 R162, R164) -/

/-- The check of a global access of `n` bytes: address, alignment, lease and domain rights. -/
def State.globalCheck (s : State) (ea : Word) (n lane : Nat) (store : Bool) (r : Rights) : Option AccFault :=
  if fieldNat ea 56 8 ≠ 0 then some ⟨0x05, n, ea.toNat, lane⟩
  else if ea.toNat % n ≠ 0 then some ⟨0x06, n, ea.toNat, lane⟩
  else guardAcc (!s.leased (s.coreId s.cur) ea.toNat n r) ⟨0x07, b2n store, ea.toNat, lane⟩

/-- A fault of a global access; out of lease ends the task (16 R373). -/
def State.accFaultG (s : State) (f : AccFault) : State :=
  if f.cause = 7 then s.faultEndMe f.cause f.detail (BitVec.ofNat 64 f.addr) f.lane else s.accFault f

def State.asker (s : State) (c : Cid) : Asker := ⟨(s.core c).vcore, (s.core c).world, false⟩

/-! ### Failures found after issue (06 R163; 16 R369) -/

/-- The record of a failed load or atomic: DETAIL is its opcode for a failed walk, 0 for poison. -/
def failureOf (cause op : Nat) (addr : Word) (lane : Nat) : Failure :=
  { cause := BitVec.ofNat 8 cause, detail := if cause = 0x0A then 0 else BitVec.ofNat 8 op, addr := addr
    elem := BitVec.ofNat 32 lane, ends := if cause = 0x0A then none else some (BitVec.ofNat 8 cause, addr) }

/-- The register code of a store's failure: no destination. -/
def noReg : BitVec 6 := 63

/-- A store whose walk failed: dropped, and reported when its walk has read through the MLC. -/
def State.storeFails (s : State) (cause : Nat) (addr : Word) (lane : Nat) : State :=
  s.addPend { reg := noReg, val := .none, flags := 0, due := some (s.inTurns s.cur.quad 16), kind := .calc
              op := BitVec.ofNat 7 s.curOp, fail := some (failureOf cause s.curOp addr lane) }

/-! ### Grain sites of loads (05 R149; 06 R170) -/

/-- (a − b) ÷ 8 rounded down, clamped to 16 bits. -/
def strideOf (a b : Word) : Half :=
  let d := ((a - b).sshiftRight 3).toInt
  if d < -32768 then 0x8000 else if 32767 < d then 0x7FFF else BitVec.ofInt 16 d

def siteLoad (s : State) (site : Site) (addr : Word) (hit : Bool) : State :=
  match site with
  | none => s
  | some i =>
    let stride := match s.me.lastLoad with
      | some (j, a) => if j = i then some (strideOf addr a) else none
      | none => none
    (postGrain s i (.load hit stride)).modMe fun x => { x with lastLoad := some (i, addr) }

/-! ### Loads -/

/-- What a read came to: the value, turns, whether the L1 had it all, the cause of a failure. -/
structure Got where
  val : Nat
  lat : Nat
  hit : Bool
  fail : Option Nat
  deriving DecidableEq, Repr

/-- A read of `n` bytes within one line by a thread of core `c`. A register page is read past the caches in sixteen turns
(log 30). -/
def readGlobal (s : State) (c : Cid) (a n : Nat) : Got × State :=
  let r := s.req c 0
  match s.ioLeaf r a with
  | some l =>
    let x := pageLoad (translate s r.walker a false).2 (s.asker c) l.leaf a (l.pa + a % l.span) n
    (⟨x.1.toNat, 16, false, none⟩, x.2)
  | none =>
    let x := l1Read s c r s.me.pc a n
    match x.1.fail with
    | some f => (⟨0, x.1.lat, false, some f⟩, x.2)
    | none => (⟨dataNat x.1.data (a % 64) n, x.1.lat, x.1.hit, none⟩, x.2)

/-- A pending load: its value or its failure. -/
def State.pendLoad (s : State) (d : Nat) (v : PVal) (lat : Nat) (fail : Option Failure) (kind : PKind) : State :=
  s.addPend { reg := BitVec.ofNat 6 d, val := v, flags := 0, due := some (s.inTurns s.cur.quad lat), kind := kind
              op := BitVec.ofNat 7 s.curOp, fail := fail }

def sizeN (sz : Size) : Nat := 2 ^ sz.code

/-- The value of `n` bytes, extended to 64 bits. -/
def extN (sign : Bool) (n v : Nat) : Word := fieldW sign (BitVec.ofNat 64 v) 0 (8 * n)

/-- An acquire of the current thread that waits for D (06 R168), unless that is g0, which is always full (02 R27). -/
def acquiring (s : State) (sc : Scope) (d : WReg) : State :=
  (acquireBy s s.cur sc).modMe fun y => if d.code = 0 then y else { y with acq := y.acq ++ [BitVec.ofNat 6 d.code] }

/-- A scalar load (06 R167, R169); `acq` is the scope of a load-acquire. -/
def loadG (s : State) (sign : Bool) (sz : Size) (d : WReg) (a : SSrc) (k : BitVec 16) (site : Site) (acq : Option Scope) : Out :=
  issue s [useS a] [d.code] true fun s =>
    let ea := s.valS a.reg + sx k
    let n := sizeN sz
    match s.globalCheck ea n 0 false rR with
    | some f => s.accFaultG f
    | none =>
      let c := s.coreId s.cur
      let x := readGlobal s c ea.toNat n
      let s := siteLoad x.2 site ea x.1.hit
      let s := s.pendLoad d.code (.s (extN sign n x.1.val)) x.1.lat (x.1.fail.map fun f => failureOf f s.curOp ea 0) .load
      let s := match acq with
        | some sc => acquiring s sc d
        | none => s
      s.retire [useS a]

def execLd (sz : Size) (d : WReg) (a : SSrc) (k : BitVec 16) (site : Site) (s : State) : Out :=
  loadG s true sz d a k site none
def execLdz (sz : Size) (d : WReg) (a : SSrc) (k : BitVec 16) (site : Site) (s : State) : Out :=
  loadG s false sz d a k site none
/-- No later memory instruction issues until D is full (06 R168). -/
def execLdAcq (sz : Size) (d : WReg) (a : SSrc) (k : BitVec 16) (sc : Scope) (s : State) : Out :=
  loadG s true sz d a k none (some sc)

/-! ### Stores (06 R167, R169) -/

/-- Store-queue entries of the core. -/
def State.sqUsed (s : State) (c : Cid) : Nat := (s.sq.filter fun (e : SQ) => decide (e.core = c)).length

/-- The cycle in which every earlier entry of the thread is performed, every earlier load has returned, and every strip has landed
(06 R168; 07 R208). -/
def State.ownDone (s : State) (t : Tid) : Nat :=
  let c := s.coreId t
  let q := (s.sq.filter fun (e : SQ) => decide (e.core = c) && decide (e.owner = t.unit.val)).foldl (fun m (e : SQ) => max m e.due) s.cycle
  (s.th t).pend.foldl (fun m p => match p.due with
    | some d => if p.kind = .load ∨ p.kind = .atomic ∨ p.val.writes ≠ [] then max m d else m
    | none => m) q

/-- An entry of the store queue for a store to some lines, served and logged in `due`. -/
def State.addSQ (s : State) (lines : List Nat) (logs : List LogRec) (due : Nat) : State :=
  { s with sq := s.sq ++ [⟨s.fresh, s.coreId s.cur, s.cur.unit.val, lines, logs, due⟩], fresh := s.fresh + 1 }

/-- Bytes stored within one line by a thread of core `c`; the cause of a failed walk, and what is logged of the store. -/
def writeGlobal (s : State) (c : Cid) (a : Nat) (bs : List Byte) : (Option Nat × List LogRec) × State :=
  let r := s.req c 1
  match s.ioLeaf r a with
  | some l => ((none, []), pageStore (translate s r.walker a false).2 (s.asker c) l.leaf a (l.pa + a % l.span) bs.length (BitVec.ofNat 64 (leNat bs)))
  | none =>
    let x := l2Store s r (a / 64) (a % 64) bs
    ((x.1.fail, x.1.log), if x.1.stands then l1Store x.2 c a bs else x.2)

/-- A posted scalar store; a release is performed after every earlier access of the thread. -/
def storeG (s : State) (sz : Size) (d : SReg) (a : SSrc) (k : BitVec 16) (rel : Option Scope) : Out :=
  issue s [useS a, useC d.code] [] true fun s =>
    let ea := s.valS a.reg + sx k
    let n := sizeN sz
    let c := s.coreId s.cur
    match s.globalCheck ea n 0 true rW with
    | some f => s.accFaultG f
    | none =>
      if 32 ≤ s.sqUsed c then s.blockMe
      else
        let early := s.inTurns s.cur.quad 4
        let due := match rel with
          | some _ => max early (s.ownDone s.cur)
          | none => early
        let x := writeGlobal s c ea.toNat (natLE n (s.valS d).toNat)
        let s := match x.1.1 with
          | some f => x.2.storeFails f ea 0
          | none => x.2.addSQ [ea.toNat / 64] x.1.2 due
        let s := match rel with
          | some sc => releaseBy s s.cur sc
          | none => s
        s.retire [useS a, useC d.code]

def execSt (sz : Size) (d : SReg) (a : SSrc) (k : BitVec 16) (s : State) : Out := storeG s sz d a k none
def execStRel (sz : Size) (d : SReg) (a : SSrc) (k : BitVec 16) (sc : Scope) (s : State) : Out := storeG s sz d a k (some sc)

/-- A store reaches its home slice (06 R169): its slices log it, and its queue entry is free. -/
def execStorePerformed (id : Nat) (s : State) : Out :=
  let done := s.sq.filter fun (e : SQ) => decide (e.id = id)
  let s : State := { s with sq := s.sq.filter fun (e : SQ) => decide (e.id ≠ id) }
  .next (logRecs s (done.flatMap fun (e : SQ) => e.logs))

/-! ### Lanes in global memory (06 R175, R179, R180) -/

/-- What the lanes of a load came to: their values, turns, whether the L1 had them all, and the lowest failing lane. -/
structure GotV where
  val : VWord
  lat : Nat
  hit : Bool
  fail : Option (Fin 16 × Nat × Nat)
  deriving DecidableEq, Repr

/-- The distinct lines of some addresses, in the order of their first lane. -/
def linesOf (las : List (Fin 16 × Nat)) : List Nat := (las.map fun p => p.2 / 64).eraseDups

/-- A failing lane before or after another: the lower stays. -/
def lowerLane (a b : Option (Fin 16 × Nat × Nat)) : Option (Fin 16 × Nat × Nat) :=
  match a, b with
  | some x, some y => if y.1 < x.1 then some y else some x
  | none, y => y
  | x, none => x

/-- The active lanes read: each distinct line once. -/
def readLanes (s : State) (c : Cid) (las : List (Fin 16 × Nat)) : GotV × State :=
  foldS (linesOf las) (⟨Vector.replicate 16 0, 1, true, none⟩, s) fun (g : GotV × State) line =>
    let mine := las.filter fun p => p.2 / 64 == line
    let r := g.2.req c 0
    match g.2.ioLeaf r (64 * line) with
    | some l =>
      let s := (translate g.2 r.walker (64 * line) false).2
      (⟨g.1.val, max g.1.lat 16, false, g.1.fail⟩,
        foldS mine s fun s p => (pageLoad s (s.asker c) l.leaf p.2 (l.pa + p.2 % l.span) 4).2)
    | none =>
      let lo := (mine.map Prod.snd).foldl min (64 * line + 60)
      let hi := (mine.map Prod.snd).foldl max lo
      let need : BitVec 64 := mine.foldl (fun m p => m ||| byteMask (p.2 % 64) 4) 0
      let x := l1ReadNeed g.2 c r g.2.me.pc lo (hi + 4 - lo) need
      match x.1.fail with
      | some f =>
        let bad := match mine with
          | p :: _ => some (p.1, f, x.1.lat)
          | [] => none
        (⟨g.1.val, max g.1.lat x.1.lat, false, lowerLane g.1.fail bad⟩, x.2)
      | none =>
        let v := foldS mine g.1.val fun (v : VWord) p =>
          v.set p.1.val (BitVec.ofNat 32 (dataNat x.1.data (p.2 % 64) 4))
        (⟨v, max g.1.lat x.1.lat, g.1.hit && x.1.hit, g.1.fail⟩, x.2)

/-- The result of a lane load, to a register or to a stream when it lands, or a failure of the lowest failing lane. -/
def finishLanes (s : State) (d : VReg) (act : Half) (g : GotV) (las : List (Fin 16 × Nat)) (more : Nat) : State :=
  match g.fail with
  | some (lane, f, lat) =>
    let addr := match las.find? fun p => p.1 == lane with
      | some p => BitVec.ofNat 64 p.2
      | none => 0
    s.pendLoad (vCode d) .none (lat + more) (some (failureOf f s.curOp addr lane.val)) .load
  | none =>
    let w := s.vlater d act g.val
    s.addPend { reg := BitVec.ofNat 6 (vCode d), val := w.1, flags := w.2, due := some (s.inTurns s.cur.quad (g.lat + more))
                kind := .load, op := BitVec.ofNat 7 s.curOp, fail := none }

/-- The active lanes of a strip access, with their addresses. -/
def stripLanes (ea : Word) (act : Half) : List (Fin 16 × Word) := (lanesOf act).map fun i => (i, ea + BitVec.ofNat 64 (4 * i.val))

def natLanes (xs : List (Fin 16 × Word)) : List (Fin 16 × Nat) := xs.map fun p => (p.1, p.2.toNat)

def State.lanesCheck (s : State) (xs : List (Fin 16 × Word)) (store : Bool) : Option AccFault :=
  xs.findSome? fun p => s.globalCheck p.2 4 p.1.val store (if store then rW else rR)

/-- DESIGN CHOICE (log 107): with no active lane, no access is made and the load update of its site counts a hit (06 R175). -/
def execVld (d : VReg) (a : SSrc) (k : BitVec 16) (site : Site) (s : State) : Out :=
  vissue s [useS a] [] [vCode d] [vCode d] true fun s act =>
    let ea := s.valS a.reg + sx k
    let xs := stripLanes ea act
    match s.lanesCheck xs false with
    | some f => s.accFaultG f
    | none =>
      let g := readLanes s (s.coreId s.cur) (natLanes xs)
      vdone (finishLanes (siteLoad g.2 site ea g.1.hit) d act g.1 (natLanes xs) 0) [useS a] [vCode d] 1 0

/-- An access to no lane makes none: zero is full in the next turn (06 R179, R180). -/
def execVldg (d : VReg) (a : SSrc) (b : VSrc) (scale : Size) (site : Site) (s : State) : Out :=
  vissue s [useS a, useV b] [vCode b.reg] [vCode d] [vCode d] true fun s act =>
    let idx := s.vread b.reg act
    let xs := (lanesOf act).map fun i => (i, laneAddr (s.valS a.reg) idx.1 scale i)
    match s.lanesCheck xs false with
    | some f => s.accFaultG f
    | none =>
      let g := readLanes s (s.coreId s.cur) (natLanes xs)
      let s := match xs with
        | p :: _ => siteLoad g.2 site p.2 g.1.hit
        | [] => g.2
      vdone (finishLanes s d act g.1 (natLanes xs) (((linesOf (natLanes xs)).length - 1) / 4)) [useS a] [vCode b.reg, vCode d] 1 idx.2

/-- What some lanes' stores came to: the lowest lane whose walk failed, the lines of the failed ones, and what is logged. -/
structure PutV where
  fail : Option (Fin 16 × Nat × Nat)
  lost : List Nat
  logs : List LogRec
  deriving DecidableEq, Repr

/-- Active lanes stored in ascending order. -/
def writeLanes (s : State) (c : Cid) (las : List (Fin 16 × Nat)) (v : VWord) : PutV × State :=
  foldS las (⟨none, [], []⟩, s) fun (g : PutV × State) p =>
    let x := writeGlobal g.2 c p.2 (natLE 4 (v[p.1]).toNat)
    (⟨lowerLane g.1.fail (x.1.1.map fun f => (p.1, f, 16)),
      if x.1.1.isSome then p.2 / 64 :: g.1.lost else g.1.lost, x.1.2.foldl addRec g.1.logs⟩, x.2)

/-- A posted lane store with its entries of the store queue, each for some lines. DESIGN CHOICE (log 108): when a lane's walk fails,
that lane's store is dropped and the others stand; the lines that fail take no entry (06 R169). -/
def storeLanes (s : State) (xs : List (Fin 16 × Word)) (v : VWord) (entries : List (List Nat)) : State :=
  let w := writeLanes s (s.coreId s.cur) (natLanes xs) v
  let due := s.inTurns s.cur.quad 4
  let stand := (entries.map fun e => e.filter fun l => !w.1.lost.contains l).filter fun e => !e.isEmpty
  let t := foldS stand w.2 fun s e => s.addSQ e (w.1.logs.filter fun y => e.contains y.line) due
  match w.1.fail with
  | some (lane, f, _) =>
    let addr := match xs.find? fun p => p.1 == lane with
      | some p => p.2
      | none => 0
    t.storeFails f addr lane.val
  | none => t

def execVst (d : VReg) (a : SSrc) (k : BitVec 16) (s : State) : Out :=
  vissue s [useS a, useC (vCode d)] [vCode d] [] [] true fun s act =>
    let xs := stripLanes (s.valS a.reg + sx k) act
    match s.lanesCheck xs true with
    | some f => s.accFaultG f
    | none =>
      if 32 < s.sqUsed (s.coreId s.cur) + 1 then s.blockMe
      else
        let x := s.vread d act
        vdone (storeLanes s xs x.1 [linesOf (natLanes xs)]) [useS a] [vCode d] 1 x.2

def execVstg (d : VReg) (a : SSrc) (b : VSrc) (scale : Size) (s : State) : Out :=
  vissue s [useS a, useV b, useC (vCode d)] [vCode b.reg, vCode d] [] [] true fun s act =>
    let idx := s.vread b.reg act
    let xs := (lanesOf act).map fun i => (i, laneAddr (s.valS a.reg) idx.1 scale i)
    let lines := linesOf (natLanes xs)
    match s.lanesCheck xs true with
    | some f => s.accFaultG f
    | none =>
      if 32 < s.sqUsed (s.coreId s.cur) + lines.length then s.blockMe
      else
        let x := s.vread d act
        vdone (storeLanes s xs x.1 (lines.map fun l => [l])) [useS a] [vCode b.reg, vCode d] 1 (idx.2 ||| x.2)

/-! ### pfd (06 R181) -/

def execPfd (lvl : PfdLevel) (a : SSrc) (k : BitVec 16) (s : State) : Out :=
  issue s [useS a] [] false fun s =>
    let level : FillLevel := match lvl with
      | .l1 => .l1
      | .l2 => .l2
      | .mlc => .mlc
    (pfdLine s (s.coreId s.cur) level (s.valS a.reg + sx k) s.me.pc).retire [useS a]

/-! ### Landing (02 R28, R30; 06 R163) -/

/-- A failure reported to its thread (06 R163): to be taken at the next boundary; a second one only counts, and ends the task if
its kind does (16 R369), with the first. A thread that has stopped takes it at once; one that stopped by a fault only counts it. -/
def reportFailure (s : State) (t : Tid) (f : Failure) (reg : BitVec 6) (op : BitVec 7) : State :=
  let x := s.th t
  let count : State := s.modTh t fun x => { x with frec := x.frec.set 3 (setField x.frec[3] 48 16 (bumpCount x.frec[3])) }
  match x.run with
  | .stopped .fault => match f.ends with
    | some e => endTask count (s.coreId t) t.unit.val e.1.toNat e.2
    | none => count
  | _ =>
    match x.deferred with
    | some d => count.modTh t fun x => { x with deferred := some ({ d.1 with ends := d.1.ends <|> f.ends }, d.2) }
    | none => (s.modTh t fun x => { x with deferred := some (f, reg, op) }).enqueue (.deferredFault t)

/-- An engine result of a saved slot goes into its save area: the register, its FE bit, its ENGPEND bit (10 R291). -/
def savedResult (s : State) (t : Tid) (reg : Nat) (v : PVal) : State :=
  match v with
  | .s w =>
    let b := saveBase t
    let s := s.lmWrite t.quad (b + (if reg = 57 then 0x518 else 8 * reg)) 8 w.toNat
    let s := s.lmWrite t.quad (b + 0x510) 8 (s.lmRead t.quad (b + 0x510) 8 ||| 2 ^ reg)
    s.lmWrite t.quad (b + 0x530) 8 (setField (BitVec.ofNat 64 (s.lmRead t.quad (b + 0x530) 8)) reg 1 0).toNat
  | _ => s

/-- The first due result of a register lands, also in a thread that has stopped; the register of a failed one stays empty. -/
def execResultArrives (t : Tid) (reg : BitVec 6) (s : State) : Out :=
  let x := s.th t
  match x.pend.find? fun p => decide (p.reg = reg) && (match p.due with
    | some d => decide (d ≤ s.cycle)
    | none => false) with
  | none => .next s
  | some p =>
    let x := { x with pend := x.pend.erase p }
    match p.fail with
    | some f => .next (reportFailure (s.setTh t x) t f p.reg p.op)
    | none =>
      if x.run = .saved then .next (savedResult (s.setTh t x) t p.reg.toNat p.val)
      else
      let s := foldS p.val.writes s fun s w => lmRaw s t.quad w.1 w.2
      let y := { x.wrCode (s.turn t.quad - 1) p.reg.toNat p.val with acq := x.acq.erase p.reg }
      .next (if p.flags = 0 then s.setTh t y else landFlags (s.setTh t y) t p.flags)

/-- A reported failure is taken at an instruction boundary; the record names the next head (06 R163). -/
def execDeferredFault (t : Tid) (s : State) : Out :=
  let x := s.th t
  match x.deferred with
  | none => .next s
  | some (f, reg, op) =>
    if x.inside s.cycle then .next s
    else
      let y := x.unwait.atTarget
      let info : FaultInfo :=
        { cause := f.cause.toNat, detail := f.detail.toNat, op := op.toNat, pc := y.pc, addr := f.addr, elem := f.elem.toNat
          dreg := if reg = noReg then none else some reg }
      let s := s.modTh t fun x => { x.unwait with deferred := none }
      let s := takeFault s t info
      .next (match f.ends with
        | some e => endTask s (s.coreId t) t.unit.val e.1.toNat e.2
        | none => s)

/-- A slot whose enabled event has landed parks at its boundary, unless a fault waits there too; one that has stopped only
sends its message (02 R49, R54). -/
def execFpPark (t : Tid) (s : State) : Out :=
  let x := s.th t
  let c := s.coreId t
  if x.parkEv = 0 ∨ x.inside s.cycle ∨ x.deferred.isSome then .next s
  else
    let y := x.unwait.atTarget
    let stopped : Thread := match x.run with
      | .stopped _ => { x with parkEv := 0 }
      | _ => { y.stop .parked with parkEv := 0 }
    let k := s.core c
    let pc := x.resumePc.getD y.pc
    .next ((s.setTh t stopped).sendSup (s.superOf c) k.world (parkWord k.vcore k.world t.unit.val x.parkEv) pc none)

/-! ### Heads (02 R34; 03 R81; 19 R442) -/

/-- A line on its way enters the buffer once it is due. -/
def execLineEntersBuffer (t : Tid) (s : State) : Out :=
  match (s.th t).fetch with
  | some f => .next (if f.due ≤ s.cycle then enterLine s t f else s)
  | none => .next s

/-- A head that is no instruction faults at issue and leaves every register as it was. -/
def execIllegalHead (head : Half) (s : State) : Out :=
  .next (takeFault s s.cur { s.faultInfo 0x03 0 0 0 with op := hdOp head })

/-- The stop at an armed breakpoint: cause trap, ELEM 0x8000_0000 + n; the instruction takes no effect. -/
def execBreakpointStop (t : Tid) (s : State) : Out :=
  let x := s.th t
  match s.breakAt t with
  | none => .next s
  | some n =>
    let op := hdOp (lineH x.line (headIdx x.pc))
    .next (takeFault s t { cause := 0x0F, detail := 0, op := op, pc := x.pc, addr := 0, elem := 0x80000000 + n, dreg := none })

end Sys2Proof.Machine
end

