-- ==== Sys2Proof/Machine/Sync.lean ====
section
/-! DEFINITION. Atomics (07 R202 to R206), fences (R207 to R209), waits and mailbox counters (R210 to R216), rings (R217 to
R221), barriers (R222 to R224), line locks (R225), `ifence`, `trap` and the system registers (R226 to R229), with their own
transitions. -/

namespace Sys2Proof.Machine

/-! ### Atomics -/

def amoW (op : AmoOp) (n : Nat) (old b : Nat) : Nat :=
  let so := extN true n old
  let sb := extN true n b
  match op with
  | .add => (old + b) % 256 ^ n
  | .and => old &&& b
  | .or => old ||| b
  | .xor => old ^^^ b
  | .mins => if so.slt sb then old else b
  | .maxs => if so.slt sb then b else old
  | .minz => min old b
  | .maxz => max old b
  | .swap => b

/-- A read, a change and a write of `n` bytes at the home of their line, indivisibly (07 R203): `f` gives the new value, if
one is written. -/
def atomicAt (s : State) (c : Cid) (a n : Nat) (f : Nat → Option Nat) : Got × State :=
  let r := s.req c 2
  match s.ioLeaf r a with
  | some l =>
    let s := (translate s r.walker a false).2
    (⟨0, 16, false, none⟩, pageStore s (s.asker c) l.leaf a (l.pa + a % l.span) n.succ 0)
  | none =>
    let line := a / 64
    let held := if s.sliceDown r.die line then none else s.l2Find r.die line
    let home : (Except Nat (Nat × BitVec 6)) × State := match held with
      | some l => (.ok (l.pa, l.kdom), s)
      | none => match translate s r.walker a true with
        | (.ok l, s) => (.ok (l.pa + 64 * line % l.span, leafKdom l.leaf), s)
        | (.error e, s) => (.error (walkCause e), s)
    match home with
    | (.error e, s) => (⟨0, 16, false, some e⟩, s)
    | (.ok (pa, kd), s) =>
      let hit := held.any fun (l : L2Line) => decide (byteMask (a % 64) n &&& ~~~l.valid = 0)
      let s := match held with
        | some l => if hit then l2Touch s l else s
        | none => s
      let x := l2Expel (if s.sliceDown r.die line then s else logEntry s r line hit) r.die line
      let more := if x.1 then 4 else 0
      let m := dieRead (l1Drop x.2 c line) r.die (s.inTurns c.quad 0) (pa / 64) kd r.acct
      if m.2.1 then (⟨0, m.1 + more, false, some 0x0A⟩, m.2.2)
      else
        let old := Mem.readN m.2.2.mem (pa + a % 64) n
        match f old with
        | none => (⟨old, m.1 + more, false, none⟩, m.2.2)
        | some new =>
          (⟨old, m.1 + more, false, none⟩,
            mlcWrite m.2.2 (pa / 64) kd r.acct false fun mem => Mem.writeN mem (pa + a % 64) n new)

def acqScopeOf : Ord → Option Scope
  | .acq s | .ar s => some s
  | _ => none
def relScopeOf : Ord → Option Scope
  | .rel s | .ar s => some s
  | _ => none

/-- An atomic instruction (07 R204 to R206): `f` gives the new value and its flags, `sign` whether a 4-byte old value is
sign-extended. -/
def atomicG (s : State) (us : List Use) (dbl : Bool) (ord : Ord) (d : WReg) (a b : SSrc) (sign : Bool)
    (f : State → Nat → Nat → Option (Nat × Flags)) : Out :=
  issue s us [d.code] true fun s =>
    let ea := s.valS a.reg
    let n := if dbl then 8 else 4
    let c := s.coreId s.cur
    match s.globalCheck ea n 0 true rRW with
    | some e => s.accFaultG e
    | none =>
      if 32 ≤ s.sqUsed c then s.blockMe
      else
        let s := match relScopeOf ord with
          | some sc => releaseBy s s.cur sc
          | none => s
        let bv := (s.valS b.reg).toNat % 256 ^ n
        let g := f s bv
        let x := atomicAt s c ea.toNat n fun old => (g old).map Prod.fst
        let fl : Flags := match g x.1.val with
          | some r => if x.1.fail.isSome then 0 else r.2
          | none => 0
        let due := x.2.inTurns x.2.cur.quad x.1.lat
        let s := x.2.addPend
          { reg := BitVec.ofNat 6 d.code, val := .s (extN (sign && !dbl) n x.1.val), flags := fl, due := some due, kind := .atomic
            op := BitVec.ofNat 7 x.2.curOp, fail := x.1.fail.map fun e => failureOf e x.2.curOp ea 0 }
        let s := s.addSQ (if (g x.1.val).isSome && x.1.fail.isNone then [ea.toNat / 64] else []) [] due
        let s := match acqScopeOf ord with
          | some sc => acquiring s sc d
          | none => s
        s.retire [useS a, useS b]

def execAmo (op : AmoOp) (dbl : Bool) (ord : Ord) (d : WReg) (a b : SSrc) (s : State) : Out :=
  atomicG s [useS a, useS b] dbl ord d a b true fun _ bv old => some (amoW op (if dbl then 8 else 4) old bv, 0)

/-- D supplies the expected value; `lo` is no source (03 R68). -/
def execCas (dbl : Bool) (ord : Ord) (d : WReg) (a b : SSrc) (s : State) : Out :=
  match d with
  | .g n =>
    atomicG s [useS a, useS b, useC n.val] dbl ord d a b true fun s bv old =>
      if old = (s.me.rdG n).toNat % (if dbl then 2 ^ 64 else 2 ^ 32) then some (bv, 0) else none
  | .lo => .next (illegalMe s)

/-- Rounds to nearest even; its flags land with D. -/
def amofW (op : AmofOp) (f : Fmt) (old b : Nat) : Nat × Flags :=
  match op with
  | .add => f.add .rne old b
  | .min => f.minMax false old b
  | .max => f.minMax true old b

def execAmof (op : AmofOp) (dbl : Bool) (ord : Ord) (d : WReg) (a b : SSrc) (s : State) : Out :=
  atomicG s [useS a, useS b] dbl ord d a b false fun _ bv old => some (amofW op (if dbl then fmt64 else fmt32) old bv)

/-! ### Fences (07 R207 to R209) -/

/-- The first cycle in which a fence's next head may issue: none when nothing is outstanding and the scope is narrow. -/
def State.fenceUntil (s : State) (kind : FenceKind) (sc : Scope) : Option Nat :=
  let t := s.cur
  let loads := (s.me.pend.filterMap fun p => if p.kind = .load ∨ p.kind = .atomic then p.due else none).foldl max s.cycle
  let last := match kind with
    | .acq => loads
    | _ => s.ownDone t
  if isWide sc then some (if last = s.cycle then s.inTurns t.quad 16 else last + 256)
  else if last = s.cycle then none
  else some (max (last + 16) (s.inTurns t.quad 4))

def fenceAcquires : FenceKind → Bool
  | .rel => false
  | _ => true

def execFence (kind : FenceKind) (sc : Scope) (s : State) : Out :=
  issue s [] [] true fun s =>
    let until_ := s.fenceUntil kind sc
    let s := match kind with
      | .acq => s
      | _ => releaseBy s s.cur sc
    match until_ with
    | none => (if fenceAcquires kind then acquireBy s s.cur sc else s).retire []
    | some n => s.modMe fun x => { x with run := .waiting (.fence kind sc n), exempt := false }

/-- A waiting fence completes: its acquire is made, and the next head may issue (07 R208, R209). -/
def execFenceCompletes (t : Tid) (s : State) : Out :=
  match (s.th t).run with
  | .waiting (.fence kind sc n) =>
    if s.cycle < n then .next s
    else .next ((if fenceAcquires kind then acquireBy s t sc else s).modTh t Thread.next)
  | _ => .next s

/-! ### wait (07 R210 to R212) -/

def waitHolds (cc : WaitCond) (v target : BitVec 32) : Bool :=
  match cc with
  | .eq => v == target
  | .ne => v != target
  | .gem => decide ((v - target).toNat < 2 ^ 31)
  | .ltm => decide (2 ^ 31 ≤ (v - target).toNat)

/-- The value that a waiting slot looks at. -/
def State.waitValue (s : State) (t : Tid) : Option (WaitCond × BitVec 32 × BitVec 32 × BitVec 6) :=
  match (s.th t).run with
  | .waiting (.word cc a target d _ _) => some (cc, BitVec.ofNat 32 (s.lmRead t.quad a 4), target, d)
  | .waiting (.ctr cc i target d _ _) => some (cc, (s.core (s.coreId t)).ctrs[i], target, d)
  | _ => none

/-- The wait's condition holds now. -/
def State.waitReady (s : State) (t : Tid) : Bool :=
  match s.waitValue t with
  | some (cc, v, target, _) => waitHolds cc v target
  | none => false

/-- D is written, full for a reader in the turn after, in which the next head issues. -/
def wakeWith (s : State) (t : Tid) (d : BitVec 6) (v : Word) : State :=
  let h := s.inTurns t.quad 1
  s.modTh t fun x => ({ x.wrCode (s.turn t.quad) d.toNat (.s v) with hold := h } : Thread).next

/-- A waiting `wait` that read the link: its read is made good as it completes (log 86). -/
def State.waitLi (s : State) (t : Tid) : State :=
  match (s.th t).run with
  | .waiting (.word _ _ _ _ true _) | .waiting (.ctr _ _ _ _ true _) => s.takeLi t
  | _ => s

/-- A wait sees its condition hold (07 R211): an acquire at `die` scope. -/
def execWaitCompletes (t : Tid) (s : State) : Out :=
  match s.waitValue t with
  | some (cc, v, target, d) =>
    if waitHolds cc v target then .next (wakeWith (acquireBy (s.waitLi t) t .die) t d (zx v)) else .next s
  | none => .next s

/-- D is empty from the issue of an instruction that waits (07 R211, R220). -/
def Thread.waitD (x : Thread) (d : WReg) (w : Wait) : Thread :=
  { (if d.code = 0 then x else x.setEmpty d.code) with run := .waiting w, exempt := false }

/-- The wait proper, once its location is known: completes at once or waits with D empty. -/
def waitOn (s : State) (us : List Use) (d : WReg) (cc : WaitCond) (v target : BitVec 32) (w : Bool → Bool → Wait) : State :=
  if waitHolds cc v target then ((acquireBy s s.cur .die).setW d (zx v)).retire us
  else s.modMe fun x => x.waitD d (w (us.any fun u => decide (u.code = 56)) (decide (d.code ≠ 0) && x.isFull d.code))

/-- A wait on a counter issues once the increments that happen before it have landed (11 R307, R313; log 82). -/
def execWait (cc : WaitCond) (ctr : Bool) (d : WReg) (a b : SSrc) (s : State) : Out :=
  let us := [useS a, useS b]
  issue s us [d.code] true fun s =>
    let w := s.valS a.reg
    let target : BitVec 32 := (s.valS b.reg).setWidth 32
    let dc := BitVec.ofNat 6 d.code
    if ctr then
      let c := s.coreId s.cur
      match s.designator false c w with
      | some x =>
        if x.pkg = s.pkg ∧ x.core = c then
          let i : Fin 16 := Fin.ofNat 16 x.idx
          if s.ownIncrs s.cur (c, i) ≠ [] then s.blockMe
          else waitOn s us d cc (s.core c).ctrs[i] target (.ctr cc i target dc)
        else s.faultMe 0x0D 0 w 0
      | none => s.faultMe 0x0D 0 w 0
    else
      let la := w.toNat
      if la % 4 ≠ 0 then s.faultMe 0x06 4 w 0
      else if !s.inWin s.cur la 4 then s.faultMe 0x08 (bankOf la) w 0
      else if s.lmBad s.cur.quad la 4 then s.faultMe 0x0A 0 w 0
      else if s.lmComing la 4 then s.blockMe
      else waitOn s us d cc (BitVec.ofNat 32 (s.lmSeeN s.cur.quad la 4)) target (.word cc la target dc)

/-! ### Mailbox counters (07 R213 to R216) -/

/-- Turns to another core, and the smallest scope that holds both. -/
def reachOf (c d : Cid) : Nat × Scope :=
  if c = d then (1, .core) else if c.quad = d.quad then (1, .quad) else if dieOf c.quad = dieOf d.quad then (4, .die) else (16, .pkg)

/-- Cycles that an increment of a quad for another package comes no sooner than: the quad's earlier sends there (07 R213; 11 R317). -/
def State.incrAfter (s : State) (quad pkg : Nat) : List Nat :=
  (s.cmds.filter fun (c : Cmd) => decide (c.core.quad = quad) && c.freeAt.isNone && match c.ins with
    | .send _ _ dest _ => decide (dest ≠ .glob) && (s.quadAddr c.core.quad (c.ps.getD 0 0)).any fun d => decide (d.1 = pkg)
    | .csend _ => (s.quadAddr c.core.quad (c.ps.getD 0 0)).any fun d => decide (d.1 = pkg)
    | _ => false).filterMap fun (c : Cmd) => c.due.map (· + 1)

def execMbinc (a b : SSrc) (s : State) : Out :=
  issue s [useS a, useS b] [] true fun s =>
    let c := s.coreId s.cur
    let w := s.valS a.reg
    match s.designator false c w with
    | none => s.faultMe 0x0D 0 w 0
    | some x =>
      if 32 ≤ s.sqUsed c then s.blockMe
      else
        let far := decide (x.pkg ≠ s.pkg)
        let r := if far then (64, Scope.pod) else reachOf c x.core
        let dst := if far then none else some (x.core, (Fin.ofNat 16 x.idx : Fin 16))
        let after := if far then s.incrAfter s.cur.quad x.pkg else []
        let due := after.foldl max (max (s.inTurns s.cur.quad r.1) (s.ownDone s.cur))
        let s := releaseBy s s.cur r.2
        let k := s.core c
        let m : Incr := ⟨s.fresh, some s.cur, s.cur.quad, k.world, k.vcore, w, dst, (s.valS b.reg).setWidth 32, due, [(c, r.2)], []⟩
        ({ s with incrs := s.incrs ++ [m], fresh := s.fresh + 1 }.addSQ [] [] due).retire [useS a, useS b]

/-- Enabled waits of a queue's head that hold now, among those on one counter, or all (15 R349). -/
def State.heldNow (s : State) (blk : List Word) (on : Option (Cid × Fin 16)) : BitVec 2 :=
  let test := fun (k : Nat) =>
    let w : Word := (blk[13 + k]?).getD 0
    bitAt w 24 && (match s.designator false ⟨0, 0⟩ (BitVec.ofNat 64 (fieldNat w 0 24)) with
      | some d =>
        let i : Fin 16 := Fin.ofNat 16 d.idx
        (on.all fun c => decide (c = (d.core, i))) && waitHolds .gem (s.core d.core).ctrs[i] (BitVec.ofNat 32 (fieldNat w 32 32))
      | none => false)
  BitVec.ofNat 2 (b2n (test 0) + 2 * b2n (test 1))

/-- The dispatcher looks at the waits again after an increment; one that held stays (15 R349). -/
def noteWaits (s : State) (on : Option (Cid × Fin 16)) : State :=
  { s with lqs := s.lqs.map fun (q : LQ) => match q.head with
      | some blk => { q with held := q.held ||| s.heldNow blk on }
      | none => q }

/-- Adds to a counter of a core that runs work of the same world; else it is dropped and logged (07 R213, R215). -/
def counterAdd (s : State) (dst : Cid) (i : Fin 16) (world : BitVec 4) (vcore : Half) (des : Word) (v : BitVec 32) : State :=
  let k := s.core dst
  if k.launch.isSome && decide (k.world ≠ world) then violation s vcore world 3 des
  else noteWaits (s.modCore dst fun k => { k with ctrs := k.ctrs.set i.val (k.ctrs[i] + v) }) (some (dst, i))

/-- An increment lands, or leaves for another package. -/
def execIncrementLands (id : Nat) (s : State) : Out :=
  match s.incrs.find? fun (m : Incr) => decide (m.id = id) with
  | none => .next s
  | some m =>
    let s := { s with incrs := s.incrs.filter fun (x : Incr) => decide (x.id ≠ id) }
    match m.dst with
    | some (c, i) => .next (counterAdd s c i m.world m.vcore m.des m.val)
    | none => .next (podSend s (fieldNat m.des 16 7) (natLE 8 m.des.toNat) (natLE 8 m.val.toNat))

/-- The counter is read at issue, once the increments that happen before the read have landed (11 R307, R313; log 82). -/
def execMbrd (d : WReg) (a : SSrc) (s : State) : Out :=
  issue s [useS a] [d.code] false fun s =>
    let c := s.coreId s.cur
    let w := s.valS a.reg
    match s.designator false c w with
    | none => s.faultMe 0x0D 0 w 0
    | some x =>
      if x.pkg ≠ s.pkg then s.faultMe 0x0D 0 w 0
      else if s.ownIncrs s.cur (x.core, Fin.ofNat 16 x.idx) ≠ [] then s.blockMe
      else
        let k := s.core x.core
        let alien := k.launch.isSome && decide (k.world ≠ (s.core c).world)
        let i : Fin 16 := Fin.ofNat 16 x.idx
        let s := if alien then violation s (s.core c).vcore (s.core c).world 5 w else s
        let n := (reachOf c x.core).1
        let v : Word := if alien then 0 else zx k.ctrs[i]
        if n = 1 then (s.setW d v).retire [useS a]
        else (s.addPend { reg := BitVec.ofNat 6 d.code, val := .s v, flags := 0, due := some (s.inTurns s.cur.quad n)
                          kind := .remote, op := BitVec.ofNat 7 s.curOp, fail := none }).retire [useS a]

/-! ### Rings (07 R217 to R221) -/

/-- The window fault of another world's ring: the bank and address of its region. -/
def ringAlien (s : State) (r : Ring) : State := s.faultMe 0x08 (bankOf r.base) (BitVec.ofNat 64 r.base) 0

/-- The address of the next filled ring slot, claimed (07 R220). -/
def Ring.claim (r : Ring) : Word × Ring := (BitVec.ofNat 64 (r.addr r.cp.toNat), { r with cp := r.cp + 1 })

def execRgwait (d : WReg) (ring : Fin 32) (s : State) : Out :=
  issue s [] [d.code] false fun s =>
    let q := s.cur.quad
    let r := s.ring q ring
    if r.world ≠ (s.coreOf s.cur).world then ringAlien s r
    else if r.en && r.filled then
      (((acquireBy s s.cur .quad).setRing q ring r.claim.2).setW d r.claim.1).retire []
    else s.modMe fun x => x.waitD d (.ring ring (BitVec.ofNat 6 d.code) (decide (d.code ≠ 0) && x.isFull d.code))

/-- The slots that wait on a ring, lowest core, then lowest `sid`. -/
def State.ringWaiters (s : State) (q : Nat) (ring : Fin 32) : List (Tid × BitVec 6) :=
  (quadSlots q).filterMap fun t => match (s.th t).run with
    | .waiting (.ring n d _) => if n = ring then some (t, d) else none
    | _ => none

/-- Waiting slots claim filled ring slots after a WP advance. -/
def execRgwaitClaim (q : Nat) (ring : Fin 32) (s : State) : Out :=
  .next (foldS (s.ringWaiters q ring) s fun s w =>
    let r := s.ring q ring
    if r.en && r.filled then wakeWith ((acquireBy s w.1 .quad).setRing q ring r.claim.2) w.1 w.2 r.claim.1 else s)

/-- RP moves on by `n`; senders see it from the next turn (07 R221). -/
def Ring.freed (r : Ring) (n : BitVec 32) (turn : Nat) : Ring :=
  { r with rp := r.rp + n, rpWas := if turn < r.rpFrom then r.rpWas else r.rp, rpFrom := turn + 1 }

def execRgrel (ring : Fin 32) (b : SSrc) (s : State) : Out :=
  issue s [useS b] [] false fun s =>
    let q := s.cur.quad
    let r := s.ring q ring
    let n : BitVec 32 := (s.valS b.reg).setWidth 32
    if r.world ≠ (s.coreOf s.cur).world then ringAlien s r
    else if r.cp - r.rp < n then s.faultMe 0x0C ring.val 0 0
    else ((releaseBy s s.cur .quad).setRing q ring (r.freed n (s.turn q))).retire [useS b]

/-! ### Barriers (07 R222 to R224) -/

def unitOf (sc : Scope) (c : Cid) : Nat :=
  match sc with
  | .core => c.quad * 4 + c.core.val
  | .quad => c.quad
  | .die => dieOf c.quad
  | .pkg | .pod => 0

/-- Turns from issue to landing, and from completion to release. -/
def barTurns : Scope → Nat
  | .core | .quad => 1
  | .die => 4
  | .pkg => 16
  | .pod => 64

def State.barId (s : State) (c : Cid) (sc : Scope) (b : Fin 16) : BarId :=
  ⟨sc, b, unitOf sc c, match (s.core c).launch with
    | some l => l + 1
    | none => 0⟩

/-- `bexp`: EXPECT starts as the launch's slots in the unit (07 R223). -/
def State.bexp (s : State) (id : BarId) : Word :=
  match tget? s.bars id with
  | some w => w
  | none =>
    match tget? s.launches (id.launch - 1) with
    | some l => if id.launch = 0 then 0
        else BitVec.ofNat 64 (16 * (l.cores.filter fun c => decide (unitOf id.sc c = id.unit)).length)
    | none => 0
def State.setBexp (s : State) (id : BarId) (w : Word) : State := { s with bars := tset s.bars id w }

def bexpPhase (w : Word) : Bool := bitAt w 56
def bexpArrived (w : Word) : Nat := fieldNat w 32 24
def bexpExpect (w : Word) : Nat := fieldNat w 0 24
def mkBexp (phase : Bool) (arrived expect : Nat) : Word :=
  BitVec.ofNat 64 (b2n phase * 2 ^ 56 + arrived % 2 ^ 24 * 2 ^ 32 + expect % 2 ^ 24)

/-- The phase completes now; its waiters are released after the scope's turns. -/
def barComplete (s : State) (id : BarId) (expect : Nat) (q : Nat) : State :=
  let p := bexpPhase (s.bexp id)
  let s := s.setBexp id (mkBexp (!p) 0 expect)
  { s with barEvs := s.barEvs ++ [⟨s.fresh, id, .release p, s.inTurns q (barTurns id.sc)⟩], fresh := s.fresh + 1 }

/-- Bit number of a (scope, b) pair among a slot's arrived bits. -/
def barBit (sc : Scope) (b : Fin 16) : Nat :=
  16 * (match sc with
    | .core => 0
    | .quad => 1
    | .die => 2
    | .pkg => 3
    | .pod => 4) + b.val

/-- An arrival of the slot is still on its way. -/
def State.barFlight (s : State) (t : Tid) (id : BarId) : Bool :=
  s.barEvs.any fun (e : BarEv) => decide (e.bar = id) && decide (e.kind = .arrive t (s.th t).life)
/-- A completed phase's waiters have not been released yet. -/
def State.barClosing (s : State) (id : BarId) (phase : Bool) : Bool :=
  s.barEvs.any fun (e : BarEv) => decide (e.bar = id) && decide (e.kind = .release phase)

/-- Posted; counted after the slot's earlier accesses have been performed at the scope. -/
def execBarArrive (sc : Scope) (b : Fin 16) (s : State) : Out :=
  issue s [] [] true fun s =>
    let t := s.cur
    let c := s.coreId t
    let due := max (s.inTurns t.quad (barTurns sc)) (s.ownDone t)
    let s := releaseBy s t sc
    let e : BarEv := ⟨s.fresh, s.barId c sc b, .arrive t (s.th t).life, due⟩
    ({ s with barEvs := s.barEvs ++ [e], fresh := s.fresh + 1 } : State).retire []

/-- A wait that has its release: its arrived bit clears, with an acquire. -/
def barPass (s : State) (t : Tid) (sc : Scope) (b : Fin 16) : State :=
  (acquireBy s t sc).modTh t fun x =>
    ({ x with arrived := x.arrived &&& ~~~((1 : BitVec 80) <<< barBit sc b) } : Thread).next

def execBarWait (sc : Scope) (b : Fin 16) (s : State) : Out :=
  issue s [] [] true fun s =>
    let t := s.cur
    let id := s.barId (s.coreId t) sc b
    let mine := bitAt s.me.phases (barBit sc b)
    if (bitAt s.me.arrived (barBit sc b) = false ∧ s.barFlight t id = false) ∨ bexpExpect (s.bexp id) = 0 then s.retire []
    else if !s.barFlight t id && decide (bexpPhase (s.bexp id) ≠ mine) && !s.barClosing id mine then barPass s t sc b
    else s.modMe fun x => { x with run := .waiting (.bar sc b), exempt := false }

/-- The thread is still in the launch and the life in which it posted an arrival (07 R223). -/
def State.sameLife (s : State) (id : BarId) (t : Tid) (life : Nat) : Bool :=
  decide (s.barId (s.coreId t) id.sc id.b = id) && decide ((s.th t).life = life)

/-- The arrived bit and the phase that an arrival records. -/
def Thread.marked (x : Thread) (bit : Nat) (phase : Bool) : Thread :=
  { x with arrived := x.arrived ||| ((1 : BitVec 80) <<< bit), phases := setField x.phases bit 1 (b2n phase) }

/-- An arrival counts, and completes the phase when it is the last. At a disabled barrier it counts nothing, and a slot that
waited for it alone goes on (07 R224). -/
def barLand (s : State) (id : BarId) (t : Tid) (life : Nat) : State :=
  let w := s.bexp id
  if bexpExpect w = 0 then
    if (s.th t).run = .waiting (.bar id.sc id.b) ∧ s.sameLife id t life = true ∧ s.barFlight t id = false then s.modTh t Thread.next
    else s
  else
    let s := if s.sameLife id t life then s.modTh t (·.marked (barBit id.sc id.b) (bexpPhase w)) else s
    if bexpArrived w + 1 = bexpExpect w then barComplete s id (bexpExpect w) t.quad
    else s.setBexp id (mkBexp (bexpPhase w) (bexpArrived w + 1) (bexpExpect w))

/-- The slots that wait on the phase of a barrier. -/
def State.barWaiters (s : State) (id : BarId) (phase : Bool) : List Tid :=
  (s.thr.map Prod.fst).filter fun t => match (s.th t).run with
    | .waiting (.bar sc b) => decide (s.barId (s.coreId t) sc b = id) && bitAt (s.th t).arrived (barBit sc b) &&
        (bitAt (s.th t).phases (barBit sc b) == phase) && !s.barFlight t id
    | _ => false

/-- An arrival lands, or a completed phase releases its waiters (07 R224). -/
def execBarrierPhaseCompletes (id : Nat) (s : State) : Out :=
  match s.barEvs.find? fun (e : BarEv) => decide (e.id = id) with
  | none => .next s
  | some e =>
    let s := { s with barEvs := s.barEvs.filter fun (x : BarEv) => decide (x.id ≠ id) }
    match e.kind with
    | .arrive t life => .next (barLand s e.bar t life)
    | .release p => .next (foldS (s.barWaiters e.bar p) s fun s t => barPass s t e.bar.sc e.bar.b)

/-! ### Line locks (07 R225) -/

def Launch.lockq (l : Launch) : Nat := fieldNat (l.word 0x50) 16 16

/-- The lock quota of a core. -/
def State.lockqOf (s : State) (c : Cid) : Nat :=
  match (s.core c).ids with
  | some x => x.lockq.toNat
  | none => ((s.launchOf c).map Launch.lockq).getD 0

/-- The lock's status and its effect on a line that the L2 holds. -/
def lockLine (s : State) (die line launch quota : Nat) (l : L2Line) : Nat × State :=
  let mineInSlice := (s.l2.filter fun (m : L2Line) =>
    decide (m.die = die) && decide (sliceOf m.line = sliceOf line) && decide (m.lock = some launch)).length
  if l.lock.isSome then (0, s)
  else if mineInSlice = quota then (1, s)
  else if 12 ≤ heldWays (s.l2Set die line) then (2, s)
  else (0, s.l2Put { l with lock := some launch })

/-- The check of `lck` and `ulck`: address, then the lease. -/
def State.lockCheck (s : State) (a : Word) : Option AccFault :=
  if fieldNat a 56 8 ≠ 0 then some ⟨0x05, 1, a.toNat, 0⟩
  else guardAcc (!s.leased (s.coreId s.cur) a.toNat 1 rR) ⟨0x07, 0, a.toNat, 0⟩

/-- A line that an L2 cannot hold (its slice is out, its page is a register page) reports status 2 (log 31). -/
def execLck (d : WReg) (a : SSrc) (s : State) : Out :=
  issue s [useS a] [d.code] true fun s =>
    let ea := s.valS a.reg
    let c := s.coreId s.cur
    match s.lockCheck ea with
    | some f => s.accFaultG f
    | none =>
      let r := s.req c 6
      let line := ea.toNat / 64
      let x := l2Read s r line (BitVec.allOnes 64)
      let id := match (s.core c).launch with
        | some l => l
        | none => 0
      let quota := s.lockqOf c
      match x.1.fail with
      | some 0x10 | some 0x11 =>
        let f := (x.1.fail).getD 0
        (x.2.pendLoad d.code .none x.1.lat (some (failureOf f s.curOp ea 0)) .calc).retire [useS a]
      | bad =>
        let s := match bad, x.2.l2Find r.die line with
          | some _, none => match translate x.2 r.walker (64 * line) false with
            | (.ok l, s) => (l2Alloc s r line l 0 0 0 0 zeroLine).2
            | (.error _, s) => s
          | _, _ => x.2
        let y := match s.l2Find r.die line with
          | some l => lockLine s r.die line id quota l
          | none => (2, s)
        (y.2.pendLoad d.code (.s (BitVec.ofNat 64 y.1)) x.1.lat none .calc).retire [useS a]

def execUlck (a : SSrc) (s : State) : Out :=
  issue s [useS a] [] true fun s =>
    let ea := s.valS a.reg
    let c := s.coreId s.cur
    match s.lockCheck ea with
    | some f => s.accFaultG f
    | none =>
      if 32 ≤ s.sqUsed c then s.blockMe
      else
        let r := s.req c 7
        let line := ea.toNat / 64
        let held := s.l2Find r.die line
        let log := if s.sliceDown r.die line then [] else [⟨r, line, held.isSome⟩]
        let s := match held with
          | some l => l2Touch (if l.lock.isSome && decide (l.lock = (s.core c).launch) then s.l2Put { l with lock := none } else s) l
          | none => s
        (s.addSQ [] log (s.inTurns s.cur.quad 4)).retire [useS a]

/-! ### ifence, trap (07 R226, R227) -/

/-- Waits for the slot's own accesses, then empties the core's instruction cache and drops its fills. -/
def execIfence (s : State) : Out :=
  issue s [] [] true fun s =>
    if s.cycle < s.ownDone s.cur then s.blockMe
    else
      let c := s.coreId s.cur
      let s := s.modCore c fun k => { k with icache := [] }
      let s : State := { s with fills := s.fills.filter fun (f : Fill) => !(decide (f.core = c) && decide (f.level = FillLevel.icache)) }
      s.retire []

def execTrap (code : BitVec 16) (s : State) : Out :=
  issue s [] [] false fun s => s.faultMe 0x0F 0 0 code.toNat

/-! ### System registers (07 R228, R229) -/

/-- A result with floating-point flags has not landed (04 R91). -/
def Thread.fpPending (x : Thread) : Bool :=
  x.pend.any fun p => decide (p.op.toNat = 0x62) || (decide (0x4D ≤ p.op.toNat) && decide (p.op.toNat ≤ 0x50))

def State.slinfo (s : State) (c : Cid) : Word :=
  let k := s.core c
  BitVec.ofNat 64 (k.world.toNat + k.acct.toNat * 2 ^ 4 + k.kdom.toNat * 2 ^ 10 + s.gmodeOf c * 2 ^ 16 + s.lockqOf c * 2 ^ 18)

def scopeOf : Nat → Scope
  | 0 => .core
  | 1 => .quad
  | 2 => .die
  | 3 => .pkg
  | _ => .pod

def rcfgOf (r : Ring) : Word := r.cfg

/-- A system register's value as the current thread reads it, and the turns it takes. -/
def State.srRead (s : State) (n : Nat) : Word × Nat :=
  let q := s.cur.quad
  let c := s.coreId s.cur
  let ring := s.ring q (Fin.ofNat 32 n)
  let own := decide (ring.world = (s.core c).world)
  if n = 0 then (s.me.fp, 1)
  else if n = 1 then (s.slinfo c, 1)
  else if 0x010 ≤ n ∧ n < 0x020 then (s.bfmt q (n - 0x010), 1)
  else if 0x100 ≤ n ∧ n < 0x120 then (if own then rcfgOf ring else 0, 1)
  else if 0x120 ≤ n ∧ n < 0x140 then (if own then zx ring.wp else 0, 1)
  else if 0x140 ≤ n ∧ n < 0x160 then (if own then BitVec.ofNat 64 (ring.cp.toNat * 2 ^ 32 + ring.rp.toNat) else 0, 1)
  else if 0x200 ≤ n ∧ n < 0x250 then
    let sc := scopeOf ((n - 0x200) / 16)
    (s.bexp (s.barId c sc (Fin.ofNat 16 n)), barTurns sc)
  else (0, 1)

def execRdsr (d : WReg) (sr : BitVec 12) (s : State) : Out :=
  issue s [] [d.code] false fun s =>
    if sr = 0 ∧ s.me.fpPending then s.blockMe
    else
      let x := s.srRead sr.toNat
      if x.2 = 1 then (s.setW d x.1).retire []
      else (s.pendW d.code x.1 x.2 .remote 0).retire []

/-- The writable bits of `rcfg`. -/
def rcfgMask : Word := 0x0000FFFF0F1FFFF1

/-- A region inside the thread's quad-shared window, below the save areas (07 R218). -/
def State.inQwin (s : State) (c : Cid) (a n : Nat) : Bool :=
  let k := s.core c
  decide (a + n ≤ 0x1E0000) && bitAt k.qwin 63 && decide (fieldNat k.qwin 48 4 = k.world.toNat) &&
  decide (fieldNat k.qwin 0 10 * 4096 ≤ a) && decide (a + n ≤ fieldNat k.qwin 16 10 * 4096)

/-- The write that enables a ring is refused. -/
def State.ringRefused (s : State) (c : Cid) (old : Ring) (v : Word) : Bool :=
  let r : Ring := { old with cfg := v }
  old.en || decide (8 < fieldNat v 24 4) || decide (r.count = 0) || decide (v &&& ~~~(rcfgMask ||| (0xF <<< 48)) ≠ 0) ||
  decide (r.base % r.slot ≠ 0) || !s.inQwin c r.base (r.count * r.slot)

/-- A write of a system register by the current thread: none when it faults, with the fault's state. DESIGN CHOICE (log 105): a slot's
windows include a bank, for 04 R96, when every byte of its 128 KiB lies in them; those of bank 15 never do. -/
def srWrite (s : State) (n : Nat) (v : Word) : Except State State :=
  let q := s.cur.quad
  let c := s.coreId s.cur
  let k := s.core c
  let rn : Fin 32 := Fin.ofNat 32 n
  let ring := s.ring q rn
  let ringFault := Except.error (s.faultMe 0x0C rn.val 0 0)
  if n = 0 then .ok (s.modMe fun x => { x with fp := v &&& fpctlMask })
  else if 0x010 ≤ n ∧ n < 0x020 then
    let b := n - 0x010
    if bfRefused v || !s.inWin s.cur (b * 0x20000) 0x20000 then
      .error (s.faultMe 0x09 (bfFmt v) (BitVec.ofNat 64 (b * 0x20000)) 0)
    else .ok (s.modQuad q fun x =>
      { x with bfmt := x.bfmt.set (b % 16) v (Nat.mod_lt _ (by decide))
               bfmtWas := if (tget? x.bfmtWas b).isSome then x.bfmtWas else x.bfmtWas ++ [(b, x.bfmt[Fin.ofNat 16 b])] })
  else if 0x100 ≤ n ∧ n < 0x160 then
    if ring.world ≠ k.world then .error (ringAlien s ring)
    else if n < 0x120 then
      if bitAt v 0 then
        if s.ringRefused c ring v then ringFault
        else .ok ((s.setRing q rn { ring with cfg := (v &&& rcfgMask) ||| (zx k.world <<< 48) }).enqueue (.rgwaitClaim q rn))
      else .ok (s.setRing q rn { ring with cfg := (v &&& rcfgMask) ||| (ring.cfg &&& (0xF <<< 48)) })
    else if ring.en then ringFault
    else if n < 0x140 then .ok (s.setRing q rn { ring with wp := v.setWidth 32 })
    else .ok (s.setRing q rn { ring with cp := BitVec.ofNat 32 (fieldNat v 32 32), rp := v.setWidth 32, rpFrom := 0 })
  else if 0x200 ≤ n ∧ n < 0x250 then
    let id := s.barId c (scopeOf ((n - 0x200) / 16)) (Fin.ofNat 16 n)
    let w := s.bexp id
    let e := fieldNat v 0 24
    if e ≤ bexpArrived w then .ok (barComplete s id e q)
    else .ok (s.setBexp id (mkBexp (bexpPhase w) (bexpArrived w) e))
  else .ok s

def execWrsr (sr : BitVec 12) (a : SSrc) (s : State) : Out :=
  issue s [useS a] [] false fun s =>
    if sr = 0 ∧ s.me.fpPending then s.blockMe
    else
      match srWrite s sr.toNat (s.valS a.reg) with
      | .ok s => s.retire [useS a]
      | .error s => s

end Sys2Proof.Machine
end

