-- ==== Sys2Proof/Machine/Engines.lean ====
section
/-! DEFINITION. Engine commands (08 R234 to R252): what every command shares at issue, `send`, `send.e` and `csend` with packets
and ring messages, and the skidder's `gath` and `scat`. A command's payload is performed with its completion action
(Matrix.lean holds the matrix array and the completion itself). -/

namespace Sys2Proof.Machine

/-! ### Checks at issue (08 R235; 03 R81) -/

/-- The rank of a fault's cause in the order of 06 R162. -/
def causeRank (c : Nat) : Nat :=
  if c = 0x05 then 0 else if c = 0x06 then 1 else if c = 0x07 ∨ c = 0x08 then 2 else if c = 0x09 then 3 else 4

/-- Of several faults the first in the order; of equals the first listed. -/
def firstFault (fs : List (Option AccFault)) : Option AccFault :=
  (fs.filterMap id).foldl (fun a f => match a with
    | some b => if causeRank f.cause < causeRank b.cause then some f else some b
    | none => some f) none

def State.localRegion (s : State) (a n : Nat) : Option AccFault := guardAcc (!s.inWin s.cur a n) ⟨0x08, bankOf a, a, 0⟩
def State.globalRegion (s : State) (a : Word) (n : Nat) (r : Rights) : Option AccFault :=
  if fieldNat a 56 8 ≠ 0 then some ⟨0x05, n, a.toNat, 0⟩
  else guardAcc (!s.leased (s.coreId s.cur) a.toNat n r) ⟨0x07, 3, a.toNat, 0⟩

/-- A completion target: a local word, or a counter's designator. -/
def State.complCheck (s : State) (k : Compl) : Option AccFault :=
  match k with
  | .none => none
  | .st t _ =>
    let a := (s.me.rdG t).toNat
    if a % 4 ≠ 0 then some ⟨0x06, 4, a, 0⟩ else s.localRegion a 4
  | .inc t _ =>
    let w := s.me.rdG t
    guardAcc (s.designator false (s.coreId s.cur) w).isNone ⟨0x0D, 0, w.toNat, 0⟩

/-- Sources of a command: its group, TGT and VAL, all under EA (03 R80). -/
def engUses (e : Eng) (n : Nat) : List Use :=
  (rangeFrom e.a.val n).map (fun c => ⟨c, e.trap⟩) ++ match e.compl with
    | .none => []
    | .st t v | .inc t v => [⟨t.val, e.trap⟩, ⟨v.val, e.trap⟩]

/-- A scope field's meaning (03 R78). -/
def engScope (e : Eng) : Scope := scopeOf (e.scope.toNat - 1)

/-- Commands of a core that count against an engine's limit (08 R234; 14 R333). -/
def State.inFlight (s : State) (c : Cid) (g : Engine) : Nat :=
  (s.cmds.filter fun (x : Cmd) => decide (x.core = c) && decide (x.eng = g) && match x.freeAt with
    | some f => decide (s.cycle < f)
    | none => true).length

/-- The cycle from which a command's reads may begin: at once, or with ACQ when every earlier load and atomic has returned;
never before an earlier command of the core and engine, nor before the slot's strips have landed (08 R234, R237; 11 R312). -/
def State.engReady (s : State) (e : Eng) (c : Cid) (g : Engine) : Nat :=
  let own := (s.me.pend.filterMap fun p =>
    if p.val.writes ≠ [] ∨ (e.acq = true ∧ (p.kind = .load ∨ p.kind = .atomic)) then p.due else none).foldl max s.cycle
  (s.cmds.filter fun (x : Cmd) => decide (x.core = c) && decide (x.eng = g)).foldl (fun m (x : Cmd) => max m x.ready) own

/-- `n` turns after the turn of cycle `c`. -/
def State.turnsFrom (s : State) (q c n : Nat) : Nat := (s.quad q).base + ((c - (s.quad q).base) / 16 + n) * 16

/-- The command that the current instruction makes of its group. -/
def State.mkCmd (s : State) (i : Instr) (e : Eng) (g : Engine) (ps : List Word) (bf : Word) : Cmd :=
  let c := s.coreId s.cur
  let tv := match e.compl with
    | .none => (0, 0)
    | .st t v | .inc t v => (s.me.rdG t, s.me.rdG v)
  { id := s.fresh, tid := s.cur, core := c, eng := g, ins := i, ps := ps, tgt := tv.1, val := tv.2, d := BitVec.ofNat 6 e.d.code
    pc := s.me.pc, bf := bf, ready := s.engReady e c g, due := none, freeAt := none, status := none, own := none, pre := [], overs := []
    num := if g = .mat then (s.core c).matIssued + 1 else 0 }

/-- A command queued: its D is empty until it completes (08 R234). -/
def State.queueCmd (s : State) (e : Eng) (c : Cmd) : State :=
  let kept := s.cmds.filter fun (x : Cmd) => match x.freeAt with
    | some f => decide (s.cycle < f)
    | none => true
  let s := { s with cmds := kept ++ [c], fresh := s.fresh + 1 }
  let s := if c.eng = .mat then s.modCore c.core fun k => { k with matIssued := c.num } else s
  let s := if e.acq then acquireAt s c.core (engScope e) else s
  if c.d = 0 then s
  else s.addPend { reg := c.d, val := .none, flags := 0, due := none, kind := .engine c.id, op := BitVec.ofNat 7 s.curOp, fail := none }

/-- The issue of an engine command: its group's limits once all of it is full (R235; 03 R81), its hazards, its place, its faults, then
its own effect on a group of values. -/
def engIssue (s : State) (e : Eng) (n : Nat) (g : Engine) (limits : List Word → Bool)
    (faults : State → List Word → List (Option AccFault)) (k : State → List Word → State) : Out :=
  let ps := fun (s : State) => (rangeFrom e.a.val n).map fun c => s.me.rdG (Fin.ofNat 32 c)
  if e.a.val = 0 ∨ (if isSeq s.cur then 8 else 32) < e.a.val + n then .next (illegalMe s)
  else if (rangeFrom e.a.val n).all (fun c => !s.srcEmpty c) && !limits (ps s) then .next (illegalMe s)
  else
    issue s (engUses e n) [e.d.code] true fun s =>
      let ps := ps s
      if 8 ≤ s.inFlight (s.coreId s.cur) g then s.blockMe
      else
        match firstFault (faults s ps ++ [s.complCheck e.compl]) with
        | some f => s.accFaultG f
        | none => k s ps

/-- The `i`-th register of a group. -/
def grp (ps : List Word) (i : Nat) : Word := ps.getD i 0

/-! ### Reading and writing for the send engine (08 R242) -/

/-- The pieces of [a, a + n) that lie in one line each. -/
def lineSpans (a : Nat) : Nat → Nat → List (Nat × Nat)
  | 0, _ => []
  | _ + 1, 0 => []
  | k + 1, n => let m := min n (64 - a % 64); (a, m) :: lineSpans (a + m) k (n - m)
def spansOf (a n : Nat) : List (Nat × Nat) := lineSpans a (n / 64 + 2) n

/-- What the send engine has moved: the bytes, the CODE (4 poison, 3 a failed walk, 0), and that walk's cause and address. -/
structure Moved where
  bytes : List Byte
  code : Nat
  walk : Option (Nat × Word)
  deriving DecidableEq, Repr

def movedFail (bs : List Byte) (cause a : Nat) : Moved :=
  if cause = 0x0A then ⟨bs, 4, none⟩ else ⟨bs, 3, some (cause, BitVec.ofNat 64 a)⟩

/-- Bytes of a source, up to the first piece that fails. -/
def sendSource (s : State) (c : Cid) (srcG : Bool) (q : Nat) (a n : Nat) : Moved × State :=
  foldS (spansOf a n) (⟨[], 0, none⟩, s) fun (x : Moved × State) p =>
    if x.1.code ≠ 0 then x
    else if !srcG then
      if x.2.lmBad q p.1 p.2 then (movedFail x.1.bytes 0x0A p.1, x.2) else (⟨x.1.bytes ++ x.2.lmBytes q p.1 p.2, 0, none⟩, x.2)
    else
      let r := x.2.req c 4
      match x.2.ioLeaf r p.1 with
      | some l =>
        let s := (translate x.2 r.walker p.1 false).2
        (⟨x.1.bytes ++ List.replicate p.2 0, 0, none⟩, (pageLoad s (s.asker c) l.leaf p.1 (l.pa + p.1 % l.span) 0).2)
      | none =>
        let y := l2Read x.2 r (p.1 / 64) (byteMask (p.1 % 64) p.2)
        match y.1.fail with
        | some f => (movedFail x.1.bytes f p.1, y.2)
        | none => (⟨x.1.bytes ++ dataBytes y.1.data (p.1 % 64) p.2, 0, none⟩, y.2)

/-- Bytes sent to a global address: those committed, up to a walk that fails. The core's own L1 keeps none of their lines (11 R312). -/
def sendGlobal (s : State) (c : Cid) (a : Nat) (bs : List Byte) : Moved × State :=
  foldS (spansOf a bs.length) (⟨[], 0, none⟩, s) fun (x : Moved × State) p =>
    if x.1.code ≠ 0 then x
    else
      let r := x.2.req c 5
      let part := (bs.drop (p.1 - a)).take p.2
      match x.2.ioLeaf r p.1 with
      | some l =>
        let s := (translate x.2 r.walker p.1 false).2
        (⟨x.1.bytes ++ part, 0, none⟩, pageStore s (s.asker c) l.leaf p.1 (l.pa + p.1 % l.span) 0 0)
      | none =>
        let y := l2Store x.2 r (p.1 / 64) (p.1 % 64) part
        let s := logRecs y.2 y.1.log
        match y.1.fail with
        | some f => (movedFail x.1.bytes f p.1, s)
        | none => (⟨x.1.bytes ++ part, 0, none⟩, l1Drop s c (p.1 / 64))

/-- The quad runs a launch of the world (08 R242). -/
def State.runsWorld (s : State) (q : Nat) (world : BitVec 4) : Bool :=
  (coreCids q).any fun c => (s.core c).launch.isSome && decide ((s.core c).world = world)
/-- The range lies in the quad-shared window of a launch of the world that runs there, below 0x1E_0000. -/
def State.qwinTakes (s : State) (q : Nat) (world : BitVec 4) (a n : Nat) : Bool :=
  decide (a + n ≤ 0x1E0000) && (coreCids q).any fun c =>
    let k := s.core c
    k.launch.isSome && bitAt k.qwin 63 && decide (fieldNat k.qwin 48 4 = world.toNat) && decide (k.world = world) &&
    decide (fieldNat k.qwin 0 10 * 4096 ≤ a) && decide (a + n ≤ fieldNat k.qwin 16 10 * 4096)

/-- A refusal is logged as a world violation when the quad runs other worlds only. -/
def refusal (s : State) (c : Cid) (q : Nat) (des : Word) : State :=
  let k := s.core c
  if (coreCids q).any (fun c => (s.core c).launch.isSome) && !s.runsWorld q k.world then violation s k.vcore k.world 4 des else s

def statusW (code value : Nat) : Word := BitVec.ofNat 64 (value % 2 ^ 32 * 2 ^ 32 + code * 256)

/-- A command to another package: its bytes leave, and what becomes of them there is not this package's to say (log 32). Where no link
leads there, or it is down and carries nothing (20 R457), it is refused. -/
def sendAway (s : State) (p : Nat) (des : Word) (bs : List Byte) (cmp : Bool) : Word × State :=
  if (s.podLink p).all fun n => (s.link n).isDown n then (statusW 2 0, s)
  else
    let w := Config.freeWord s.fresh
    let s := podSend { s with fresh := s.fresh + 1 } p (natLE 8 des.toNat) bs
    (if w.toNat % 3 = 0 then statusW 0 bs.length else if w.toNat % 3 = 1 ∨ cmp = false then statusW 2 0
     else statusW 1 (w.toNat / 2 ^ 32), s)

/-- A send's walk that has failed after issue ends the task, the command's own slot with it (16 R369, R373; log 96). A core that has
left the launch has nothing to stop there. -/
def sendEnds (s : State) (c : Cmd) (m : Moved) : State :=
  match m.walk with
  | none => s
  | some (cause, a) =>
    match c.own with
    | none => killThread (endTask s c.core c.tid.unit.val cause a) c.tid
    | some _ => taskFailed s c.core c.tid.unit.val cause a

/-! ### send (08 R241 to R245) -/

/-- One-way distance in turns to a package and quad. -/
def State.sendTurns (s : State) (c : Cid) (pkg q : Nat) : Nat :=
  if pkg ≠ s.pkg then 64 else if q = c.quad then 1 else if dieOf q = dieOf c.quad then 4 else 16

/-- Package and quad of a command's destination; none of a global one. -/
def State.destOf (s : State) (c : Cmd) : Option (Nat × Nat) :=
  match c.ins with
  | .send _ _ .glob _ => none
  | .send .. | .csend _ => (s.quadAddr c.core.quad (grp c.ps 0)).map fun x => (x.1, x.2.1)
  | _ => none

/-- The lines of a command's global destination, first and last. -/
def Cmd.globLines (c : Cmd) : Option (Nat × Nat) :=
  match c.ins with
  | .send _ _ .glob _ => some ((grp c.ps 0).toNat / 64, ((grp c.ps 0).toNat + (grp c.ps 2).toNat - 1) / 64)
  | _ => none

/-- Two sends to one destination quad, or to a common global line (R245). -/
def State.sameDest (s : State) (x y : Cmd) : Bool :=
  match x.globLines, y.globLines with
  | some a, some b => decide (a.1 ≤ b.2) && decide (b.1 ≤ a.2)
  | none, none => (s.destOf x).isSome && decide (s.destOf x = s.destOf y)
  | _, _ => false

/-- An earlier send of the quad in flight to the same place as a command, a ring's excepted, whose place is its message's. -/
def State.sendsBefore (s : State) (c : Cmd) : List Cmd :=
  s.cmds.filter fun (x : Cmd) => decide (x.eng = .send) && decide (x.core.quad = c.core.quad) && decide (x.id < c.id) &&
    x.freeAt.isNone && s.sameDest x c

/-- Cycles that a send comes no sooner than: earlier sends to the same place, messages admitted there and waiting for such, and to
another package the quad's increments on their way (R245; 11 R317). -/
def State.sendAfter (s : State) (c : Cmd) : List Nat :=
  let dues := fun (ids : List Nat) => (s.cmds.filter fun (x : Cmd) => ids.contains x.id).filterMap fun (x : Cmd) => x.due.map (· + 1)
  (s.sendsBefore c).filterMap Cmd.due ++
  (s.ringMsgs.filter fun (m : RingMsg) => decide (m.src.quad = c.core.quad) && decide (s.destOf c = some (m.pkg, m.quad))).flatMap
    (fun (m : RingMsg) => dues (m.gate.getD [])) ++
  (s.incrs.filter fun (m : Incr) => m.dst.isNone && decide (m.quad = c.core.quad) &&
    (s.destOf c).any fun d => decide (d.1 = fieldNat m.des 16 7)).map fun (m : Incr) => m.due + 1

/-- The cycle of a send's completion: two ways and 2 KiB a turn, in its order (R245). -/
def State.sendDue (s : State) (c : Cmd) (d : Nat) (start : Nat) : Nat :=
  (s.sendAfter c).foldl max (s.turnsFrom c.core.quad start (2 * d + ceilDiv (grp c.ps 2).toNat 2048))

def sendLimits (ps : List Word) : Bool := decide (1 ≤ (grp ps 2).toNat) && decide ((grp ps 2).toNat ≤ 4096)

/-- Whether the offset of a quad address fits the destination kind (R240). -/
def offsetOk (dk : DKind) (off : Nat) : Bool :=
  match dk with
  | .loc => decide (off < 2 ^ 21)
  | .ring => decide (off < 32)
  | _ => true

def sendFaults (dk : DKind) (srcG : Bool) (s : State) (ps : List Word) : List (Option AccFault) :=
  let n := (grp ps 2).toNat
  let dst := grp ps 0
  [if srcG then s.globalRegion (grp ps 1) n rR else s.localRegion (grp ps 1).toNat n,
   match dk with
   | .glob => s.globalRegion dst n rW
   | _ => guardAcc (match s.quadAddr s.cur.quad dst with
      | some x => !offsetOk dk x.2.2
      | none => true) ⟨0x0D, 0, dst.toNat, 0⟩]

/-- A packet fault: the packet is discarded (R50, R244). -/
def packetFault (s : State) (f : AccFault) : State := (abortPacket s s.cur).accFault f

/-- The ring that a quad address names. -/
def State.ringOf (s : State) (des : Word) : Option (Nat × Nat × Fin 32) :=
  (s.quadAddr s.cur.quad des).map fun x => (x.1, x.2.1, Fin.ofNat 32 x.2.2)

/-- A command of the list. -/
def State.cmd? (s : State) (id : Nat) : Option Cmd := s.cmds.find? fun (c : Cmd) => decide (c.id = id)

/-- The source of a ring send read into its packet's buffer, from byte `at_` of it on; its status is what was read (R242). -/
def readSend (s : State) (c : Cmd) (at_ : Nat) (buf : List (Option Byte)) : List (Option Byte) × State :=
  let srcG := match c.ins with
    | .send _ _ _ g => g
    | _ => false
  let y := sendSource s c.core srcG c.core.quad (grp c.ps 1).toNat (grp c.ps 2).toNat
  let s : State := { y.2 with cmds := y.2.cmds.map fun (z : Cmd) =>
    if z.id = c.id then { z with status := some (statusW y.1.code y.1.bytes.length) } else z }
  (buf.take at_ ++ y.1.bytes.map some ++ buf.drop (at_ + y.1.bytes.length), sendEnds s c y.1)

/-- The sources of some ring sends of a packet read into its buffer (R243), each at the place that the sends before it leave. -/
def readSends (s : State) (cmds unread : List Nat) (buf : List (Option Byte)) : List (Option Byte) × State :=
  let len := fun (s : State) (id : Nat) => ((s.cmd? id).map fun (c : Cmd) => (grp c.ps 2).toNat).getD 0
  foldS unread (buf, s) fun (x : List (Option Byte) × State) id =>
    match x.2.cmd? id with
    | none => x
    | some c => readSend x.2 c (((cmds.takeWhile (· ≠ id)).map (len x.2)).foldl (· + ·) 0) x.1

/-- The buffer of a thread's packet, if it is still open, with the first `n` of its unread sends read. -/
def State.packetRead (s : State) (t : Tid) (buf : List (Option Byte)) (n : Nat) : State :=
  s.modTh t fun y => match y.packet with
    | some p => { y with packet := some { p with buf := buf, unread := p.unread.drop n } }
    | none => y

/-- The sends of an open packet read that may be read by now, in their order (R237, R243). -/
def readPacket (s : State) (t : Tid) : State :=
  match (s.th t).packet with
  | none => s
  | some p =>
    let ids := p.unread.takeWhile fun id => (s.cmd? id).any fun (c : Cmd) => decide (c.ready ≤ s.cycle)
    if ids.isEmpty then s
    else
      let x := readSends s p.cmds ids p.buf
      x.2.packetRead t x.1 ids.length

/-- A message's sends end: refused now with a status, or `d` turns away from their admission. -/
def endSends (s : State) (m : RingMsg) (st : Option Word) (d : Nat) : State :=
  let s : State := { s with cmds := s.cmds.map fun (x : Cmd) => if m.cmds.contains x.id then
      { x with status := st.or x.status, due := some (match st with
          | some _ => s.cycle
          | none => s.sendDue x d s.cycle) }
    else x }
  match st with
  | some _ => { s with agenda := s.agenda ++ m.cmds.map .commandCompletion }
  | none => s

/-- A message leaves the list, and its slot, if it still waits, goes on (R243). -/
def ringDone (s : State) (m : RingMsg) : State :=
  let h := s.inTurns m.src.quad 1
  { s with ringMsgs := s.ringMsgs.filter fun (x : RingMsg) => decide (x.id ≠ m.id) }.modTh m.src fun x =>
    match x.run with
    | .waiting (.ringRoom _) => ({ x with packet := none, hold := h } : Thread).next
    | _ => { x with packet := none }

/-- Sends and increments in flight that a message is admitted after, whenever they were issued (R245; 11 R317). -/
def State.gateOf (s : State) (m : RingMsg) : List Nat :=
  match m.cmds.getLast?.bind s.cmd? with
  | none => []
  | some c => (s.cmds.filter fun (x : Cmd) => decide (x.eng = .send) && decide (x.core.quad = c.core.quad) && x.freeAt.isNone &&
        s.sameDest x c && !m.cmds.contains x.id && x.due.isSome).map Cmd.id ++
      (s.incrs.filter fun (i : Incr) => i.dst.isNone && decide (i.quad = m.src.quad) && decide (m.pkg ≠ s.pkg) &&
        decide (fieldNat i.des 16 7 = m.pkg)).map Incr.id
/-- All of them have landed. -/
def State.gateOpen (s : State) (ids : List Nat) : Bool :=
  (s.cmds.all fun (x : Cmd) => x.freeAt.isSome || !ids.contains x.id) && s.incrs.all fun (i : Incr) => !ids.contains i.id

/-- What a message finds at its place: refused with a status and a world violation or none; no room yet; or admitted. -/
inductive RingSays where
  | refused (alien : Bool) | wait | admits
  deriving DecidableEq, Repr

/-- The tests of R219, R242 and R243, in their order; a message waits behind those that have arrived at its ring before it. -/
def State.ringSays (s : State) (m : RingMsg) : RingSays :=
  let r := s.ring m.quad m.ring
  if m.pkg ≠ s.pkg then .admits
  else if r.en = false ∨ r.world ≠ (s.coreOf m.src).world then .refused (decide (r.world ≠ (s.coreOf m.src).world))
  else if s.ringAhead m.quad m.ring (m.arr.getD s.fresh) || decide (r.free (s.turn m.quad) < r.need m.bytes.length) then .wait
  else .admits

/-- The scopes at which a message's sends release as it is admitted (R237; 11 R309). -/
def State.ringScopes (s : State) (m : RingMsg) : List Scope :=
  .quad :: m.cmds.filterMap fun id => match (s.cmd? id).map Cmd.ins with
    | some (.send e ..) => if e.rel then some (engScope e) else none
    | _ => none

/-- An admitted message is written and WP moves on, or it leaves for its package (R219). -/
def ringWrite (s : State) (m : RingMsg) : State :=
  if m.pkg ≠ s.pkg then
    let x := sendAway s m.pkg m.des (m.bytes.map fun b => b.getD ((Config.freeWord s.fresh).setWidth 8)) false
    endSends x.2 m (if x.1 = statusW 2 0 then some x.1 else none) 64
  else
    let c := s.coreId m.src
    let r := s.ring m.quad m.ring
    let s := foldS (s.ringScopes m) s fun s sc => releaseBy s m.src sc
    let s := ringAdmitNow s m.quad m.ring (s.ringBytes m.quad r m.bytes)
    (endSends s m none (s.sendTurns c m.pkg m.quad)).enqueue (.rgwaitClaim m.quad m.ring)

/-- A message as it stands replaced. -/
def State.putMsg (s : State) (m : RingMsg) : State :=
  { s with ringMsgs := s.ringMsgs.map fun (x : RingMsg) => if x.id = m.id then m else x }

/-- A message arrives, once every source of its packet has been read: it takes its place in the order of its ring. -/
def ringArrive (s : State) (m : RingMsg) : RingMsg × State :=
  match m.arr with
  | some _ => (m, s)
  | none =>
    let x := readSends s m.cmds m.unread m.bytes
    let m := { m with bytes := x.1, unread := [], arr := some x.2.fresh }
    (m, { x.2 with fresh := x.2.fresh + 1 }.putMsg m)

/-- A message tries its ring (R219, R243): it goes in whole, after the sends that come before it, or is refused, or waits. One whose
packet was discarded as a source's walk failed is no more (R244). -/
def ringTry (s : State) (m : RingMsg) : State :=
  if s.cycle < m.due then s
  else
    let x := ringArrive s m
    let s := x.2
    let m := x.1
    if !(s.ringMsgs.any fun (y : RingMsg) => decide (y.id = m.id)) then s
    else match s.ringSays m with
    | .refused alien =>
      let k := s.coreOf m.src
      let s := if alien then violation s k.vcore k.world 4 m.des else s
      endSends (ringDone s m) m (some (statusW 2 0)) 0
    | .wait => s
    | .admits =>
      let m := { m with gate := some (m.gate.getD (s.gateOf m)) }
      if s.gateOpen (m.gate.getD []) then ringWrite (ringDone s m) m else s.putMsg m

/-- A packet's ring message after its last send; `now`: that send and its place in the buffer, when it alone is still to be read and
may be read at once. -/
def closePacket (s : State) (p : Packet) (now : Option (Cmd × Nat)) : State :=
  let t := s.cur
  match p.ring.bind fun des => (s.ringOf des).map fun x => (des, x) with
  | none => (s.modMe fun x => { x with packet := none }).retire []
  | some (des, pkg, q, n) =>
    let due := if now.isSome then s.cycle else (p.unread.filterMap fun id => (s.cmd? id).map Cmd.ready).foldl max s.cycle
    let m : RingMsg := ⟨s.fresh, t, pkg, q, n, des, p.buf, p.cmds, p.unread, due, none, none⟩
    let s : State := { s with ringMsgs := s.ringMsgs ++ [m], fresh := s.fresh + 1 }
    let s := s.modMe fun x => { x with run := .waiting (.ringRoom m.id), exempt := false }
    match now with
    | none => ringTry s m
    | some (c, at_) =>
      let x := readSend s c at_ m.bytes
      let m := { m with bytes := x.1, unread := [] }
      ringTry (x.2.putMsg m) m

/-- The ring that a packet's message would never fit (R243). -/
def State.tooBig (s : State) (ring : Option Word) (n : Nat) : Bool :=
  match ring.bind s.ringOf with
  | some (pkg, q, r) => decide (pkg = s.pkg) && (s.ring q r).en && decide ((s.ring q r).count < (s.ring q r).need n)
  | none => false

/-- A send joins its slot's packet: too many sends or bytes, a second ring, or at its end a message that never fits, faults. -/
def sendJoin (s : State) (e : Eng) (last : Bool) (dk : DKind) (srcG : Bool) (ps : List Word) : State :=
  let n := (grp ps 2).toNat
  let dst := grp ps 0
  let old : Packet := (s.me.packet).getD ⟨0, 0, none, [], [], []⟩
  let ring := if dk = .ring then some dst else old.ring
  if 16 < old.sends + 1 then packetFault s ⟨0x0E, 0, 0, 0⟩
  else if 4096 < old.bytes + n then packetFault s ⟨0x0E, 1, 0, 0⟩
  else if dk = .ring ∧ old.ring.isSome ∧ old.ring.bind s.ringOf ≠ s.ringOf dst then
    s.accFault ⟨0x0C, dst.toNat % 32, dst.toNat, 0⟩
  else if last && s.tooBig ring (old.buf.length + if dk = .ring then n else 0) then
    packetFault s ⟨0x0C, (ring.getD 0).toNat % 32, (ring.getD 0).toNat, 0⟩
  else
    let c := s.mkCmd (.send e last dk srcG) e .send ps 0
    let p : Packet := { old with sends := old.sends + 1, bytes := old.bytes + n, ring := ring }
    if dk = .ring then
      let now := if old.unread.isEmpty && decide (c.ready ≤ s.cycle) then some (c, old.buf.length) else none
      let p := { p with buf := p.buf ++ List.replicate n none, cmds := p.cmds ++ [c.id], unread := p.unread ++ [c.id] }
      let s := (s.queueCmd e c).modMe fun y => { y with packet := some p }
      if last then closePacket s p now
      else
        let s := s.retire []
        match now with
        | none => readPacket s s.cur
        | some (c, at_) =>
          let x := readSend s c at_ p.buf
          x.2.packetRead s.cur x.1 1
    else
      let d := if dk = .glob then 16 else match s.quadAddr s.cur.quad dst with
        | some y => s.sendTurns c.core y.1 y.2.1
        | none => 1
      let s := (s.queueCmd e { c with due := some (s.sendDue c d c.ready) }).modMe fun y => { y with packet := some p }
      if last then closePacket s p none else s.retire []

def execSend (e : Eng) (last : Bool) (dk : DKind) (srcG : Bool) (s : State) : Out :=
  engIssue s e 3 .send sendLimits (sendFaults dk srcG) fun s ps => sendJoin s e last dk srcG ps

/-- A message may go on: it arrives, is refused, or goes in. -/
def State.msgReady (s : State) (m : RingMsg) : Bool :=
  decide (m.due ≤ s.cycle) && (m.arr.isNone || match s.ringSays m with
    | .refused _ => true
    | .wait => false
    | .admits => s.gateOpen (m.gate.getD []) || m.gate.isNone)

/-- A ring message is admitted once every source has been read and its ring has room (R219, R243); the slot goes on. -/
def execRingAdmit (id : Nat) (s : State) : Out :=
  match s.ringMsgs.find? fun (m : RingMsg) => decide (m.id = id) with
  | none => .next s
  | some m => .next (ringTry s m)

/-- Canopy bytes written from byte `lo` of the canopies by a send. What it overwrites is kept for the quad's matrix command that runs:
a cycle in which the array reads them has the bytes as they stood before it (10 R293; log 117). -/
def canopyPut (s : State) (q lo : Nat) (bs : List Byte) : State :=
  let old := (rangeFrom lo bs.length).map fun i => (i, s.cycle, if s.canPoison.contains (i / 8) then none else some (Mem.read s.canopy i))
  let keep := fun (c : Cmd) => if c.eng = .mat ∧ c.core.quad = q ∧ c.due.isSome ∧ c.freeAt.isNone then
      { c with overs := c.overs ++ old } else c
  { s with
      cmds := s.cmds.map keep
      canopy := Mem.writeBytes s.canopy lo bs
      canPoison := s.canPoison.filter fun p => !(decide (lo ≤ p * 8) && decide (p * 8 + 8 ≤ lo + bs.length)) }

/-- What a send to another place than a ring does, and its status (R242): with `cut`, only of its first bytes, though the whole of it
must be accepted (18 R417). -/
def sendPayload (s : State) (c : Cmd) (dk : DKind) (srcG : Bool) (cut : Option Nat) : Word × State :=
  let n := (grp c.ps 2).toNat
  let dst := grp c.ps 0
  let x := sendSource s c.core srcG c.core.quad (grp c.ps 1).toNat (cut.getD n)
  let s := sendEnds x.2 c x.1
  let w := (s.core c.core).world
  let st := statusW x.1.code x.1.bytes.length
  match dk with
  | .glob =>
    let y := sendGlobal s c.core dst.toNat x.1.bytes
    (statusW (if y.1.code ≠ 0 then y.1.code else x.1.code) y.1.bytes.length, sendEnds y.2 c y.1)
  | _ =>
    match s.quadAddr c.core.quad dst with
    | none => (statusW 2 0, s)
    | some (pkg, q, off) =>
      if pkg ≠ s.pkg then sendAway s pkg dst x.1.bytes false
      else if dk = .canopy then
        if s.runsWorld q w && decide (off + n ≤ canopySize) then
          (st, canopyPut s q (q * canopySize + off) x.1.bytes)
        else (statusW 2 0, refusal s c.core q dst)
      else if s.qwinTakes q w off n then (st, lmRaw s q off x.1.bytes)
      else (statusW 2 0, refusal s c.core q dst)

/-! ### csend (08 R246) -/

def csendLimits (ps : List Word) : Bool :=
  let n := (grp ps 2).toNat
  let v := (grp ps 4).toNat
  let off := fieldNat (grp ps 0) 0 22
  decide (1 ≤ n) && decide (n ≤ 4096) && decide (v % 4 = 0) && (decide (v + 4 ≤ off) || decide (off + n ≤ v))

def csendFaults (s : State) (ps : List Word) : List (Option AccFault) :=
  [s.localRegion (grp ps 1).toNat (grp ps 2).toNat,
   guardAcc (match s.quadAddr s.cur.quad (grp ps 0) with
     | some x => decide (2 ^ 21 ≤ x.2.2)
     | none => true) ⟨0x0D, 0, (grp ps 0).toNat, 0⟩]

def execCsend (e : Eng) (s : State) : Out :=
  engIssue s e 5 .send csendLimits csendFaults fun s ps =>
    let c := s.mkCmd (.csend e) e .send ps 0
    let d := match s.quadAddr s.cur.quad (grp ps 0) with
      | some y => s.sendTurns c.core y.1 y.2.1
      | none => 1
    (s.queueCmd e { c with due := some (s.sendDue c d c.ready) }).retire []

/-- The tile and then the version, if the version is the one expected; indivisible with every other `csend`. One cut after
`done` bytes leaves the version (18 R417); a version that reads as poison matches nothing (18 R410). -/
def csendServe (s : State) (c : Cmd) (done : Option Nat) : Word × State :=
  let n := (grp c.ps 2).toNat
  let x := sendSource s c.core false c.core.quad (grp c.ps 1).toNat (done.getD n)
  let s := x.2
  let w := (s.core c.core).world
  let v := (grp c.ps 4).toNat
  match s.quadAddr c.core.quad (grp c.ps 0) with
  | none => (statusW 2 0, s)
  | some (pkg, q, off) =>
    if pkg ≠ s.pkg then sendAway s pkg (grp c.ps 0) x.1.bytes true
    else if !(s.qwinTakes q w off n && s.qwinTakes q w v 4) then (statusW 2 0, refusal s c.core q (grp c.ps 0))
    else
      let now := s.lmRead q v 4
      if s.lmBad q v 4 then (statusW 4 0, s)
      else if now = fieldNat (grp c.ps 3) 0 32 then
        let s := lmRaw s q off x.1.bytes
        if x.1.code ≠ 0 then (statusW x.1.code x.1.bytes.length, s)
        else if done.isSome then (statusW 4 x.1.bytes.length, s)
        else (statusW 0 n, lmRaw s q v (natLE 4 (now + 1)))
      else (statusW 1 now, s)

def csendPayload (s : State) (c : Cmd) : Word × State := csendServe s c none

/-! ### gath and scat (08 R247 to R252) -/

def idxBytes : IdxW → Nat
  | .i64 => 8
  | _ => 4
def idxNone : IdxW → Nat
  | .i32 => 0x80000000
  | .i64 => 0x8000000000000000
  | .u32 => 0xFFFFFFFF

/-- An element's address; none when its index makes it inactive (R248). -/
def elemAddr (iw : IdxW) (ps : List Word) (raw : Word) : Option Word :=
  if raw.toNat = idxNone iw then none
  else
    let i : Word := match iw with
      | .i32 => sx (raw.setWidth 32)
      | _ => raw
    some (grp ps 2 + i * grp ps 3)

def isAdd : ScatOp → Bool
  | .st => false
  | _ => true

def skidLimits (iw : IdxW) (add : Bool) (seqA : Bool) (ps : List Word) : Bool :=
  let n := (grp ps 1).toNat
  let sz := (grp ps 4).toNat
  decide ((grp ps 0).toNat % idxBytes iw = 0) && decide (1 ≤ n) && decide (n ≤ 65536) &&
  decide ((grp ps 2).toNat % 2 = 0) && decide ((grp ps 3).toNat % 2 = 0) && decide (2 ≤ sz) && decide (sz ≤ 4096) &&
  decide (sz % (if add then 4 else 2) = 0) && decide ((grp ps 5).toNat % 64 = 0) && seqA

/-- The word of the flags of an add, after the status vector (R251). -/
def flagsAt (ps : List Word) : Nat := ceilDiv ((grp ps 6).toNat + (grp ps 1).toNat) 4 * 4

def skidFaults (iw : IdxW) (add : Bool) (s : State) (ps : List Word) : List (Option AccFault) :=
  let n := (grp ps 1).toNat
  [s.localRegion (grp ps 0).toNat (n * idxBytes iw),
   s.localRegion (grp ps 5).toNat (ceilDiv (n * (grp ps 4).toNat) 64 * 64),
   s.localRegion (grp ps 6).toNat n, if add then s.localRegion (flagsAt ps) 4 else none]

/-- What stands against an element before its lines are read: its status, and the fault and DETAIL of a first element. -/
structure ElemBad where
  status : Byte
  cause : Nat
  detail : Nat
  deriving DecidableEq, Repr

/-- What stands against an element at issue: its address, its lease, its domain's rights (R248; 16 R371). -/
def elemRights (s : State) (c : Cid) (op : Nat) (a : Word) (size : Nat) (r : Rights) : Option ElemBad :=
  if fieldNat a 56 8 ≠ 0 then some ⟨3, 0x05, size⟩
  else if !s.inLease c a.toNat size then some ⟨3, 0x07, 3⟩
  else if !s.leased c a.toNat size r then some ⟨2, 0x11, op⟩
  else none

/-- A walk of one of its lines that fails. -/
def elemWalk (s : State) (c : Cid) (op : Nat) (a : Word) (size : Nat) : Option ElemBad :=
  (spansOf a.toNat size).findSome? fun p => match (translate s ⟨some (dieOf c.quad), some c.quad⟩ p.1 false).1 with
    | .ok _ => none
    | .error .translation => some ⟨1, 0x10, op⟩
    | .error .protection => some ⟨2, 0x11, op⟩

/-- Every line that the command's elements touch is in the MLC (R252). -/
def State.linesInMlc (s : State) (as : List Word) (size : Nat) : Bool :=
  as.all fun a => (spansOf a.toNat size).all fun p => match s.walk p.1 with
    | .ok l => (s.mlcFind ((l.pa + p.1 % l.span) / 64)).any fun (m : MlcLine) => decide (m.due ≤ s.inTurns s.cur.quad 0)
    | .error _ => true

/-- The global ranges that a command names: address and length (16 R376). -/
def Cmd.spans (c : Cmd) : List (Nat × Nat) :=
  let els := fun (iw : IdxW) => (c.ps.drop 7).filterMap fun w => (elemAddr iw c.ps w).map fun a => (a.toNat, (grp c.ps 4).toNat)
  let n := (grp c.ps 2).toNat
  match c.ins with
  | .send _ _ dk g => (if dk = .glob then [((grp c.ps 0).toNat, n)] else []) ++ (if g then [((grp c.ps 1).toNat, n)] else [])
  | .gath _ iw | .scat _ _ iw => els iw
  | _ => []

/-- The command touches [lo, hi). -/
def Cmd.touches (c : Cmd) (lo hi : Nat) : Bool := c.spans.any fun p => decide (p.1 < hi) && decide (lo < p.1 + p.2)

def skidRights : Instr → Rights
  | .scat _ .st _ => rW
  | .scat .. => rRW
  | _ => rR

/-- Issue of a `gath` or `scat`: the index list is read, and the first active element is checked in the turns t + 1 to t + 3;
its fault stops the slot before any later head (R250). -/
def skidIssue (s : State) (e : Eng) (i : Instr) (iw : IdxW) (add : Bool) : Out :=
  engIssue s e 7 .skid (skidLimits iw add (!isSeq s.cur || decide (e.a.val = 1))) (skidFaults iw add) fun s ps =>
    let q := s.cur.quad
    let n := (grp ps 1).toNat
    let size := (grp ps 4).toNat
    let c := s.coreId s.cur
    let h := s.inTurns q 4
    let at_ := fun (k : Nat) => (grp ps 0).toNat + k * idxBytes iw
    let raws := (List.range n).map fun k => BitVec.ofNat 64 (s.lmSeeN q (at_ k) (idxBytes iw))
    -- an index that reads as poison gives its element status 0x04 (18 R410; log 98)
    let els := raws.zipIdx.map fun x => if s.lmBad q (at_ x.2) (idxBytes iw) then none else elemAddr iw ps x.1
    let pre := els.zipIdx.map fun x => match x.1 with
      | some a => (elemRights s c s.curOp a size (skidRights i)).map ElemBad.status
      | none => if s.lmBad q (at_ x.2) (idxBytes iw) then some 4 else none
    let first := (els.zipIdx).findSome? fun x => x.1.map fun a => (a, x.2)
    let bad := first.bind fun x => ((elemRights s c s.curOp x.1 size (skidRights i)).or (elemWalk s c s.curOp x.1 size)).map fun b => (x, b)
    match bad with
    | some ((a, k), b) =>
      let f : Failure := ⟨BitVec.ofNat 8 b.cause, BitVec.ofNat 8 b.detail, a, BitVec.ofNat 32 k, some (BitVec.ofNat 8 b.cause, a)⟩
      let op := BitVec.ofNat 7 s.curOp
      s.modMe fun x => { x with run := .waiting .check, hold := h, deferred := some (f, noReg, op), exempt := false }
    | none =>
      let m := { s.mkCmd i e .skid (ps ++ raws) 0 with pre := pre }
      let lat := if s.linesInMlc (els.filterMap id) size then 16 else 32
      let due := s.turnsFrom q (max h m.ready) (lat + ceilDiv (n * size) 2048)
      let s := (s.queueCmd e { m with due := some due }).charge (s.core c).acct 4 n
      s.modMe fun x => { x with pc := x.pc + 2, run := .waiting .check, hold := h, exempt := false }

def execGath (e : Eng) (iw : IdxW) (s : State) : Out := skidIssue s e (.gath e iw) iw false
def execScat (e : Eng) (op : ScatOp) (iw : IdxW) (s : State) : Out := skidIssue s e (.scat e op iw) iw (isAdd op)

/-- A line brought to its home for the skidder: the issuing die's copies are driven there (11 R312). -/
def homeLine (s : State) (c : Cid) (va : Nat) (dirty : Bool) : Except Nat (Nat × BitVec 6 × Option Leaf) × State :=
  let r := s.req c 4
  let line := va / 64
  match s.l2Find r.die line with
  | some l => (.ok (l.pa, l.kdom, none), l1Drop (l2Expel s r.die line).2 c line)
  | none => match translate s r.walker va dirty with
    | (.ok l, s) => (.ok (l.pa + 64 * line % l.span, leafKdom l.leaf, if leafIO l.leaf then some l else none), l1Drop s c line)
    | (.error e, s) => (.error (walkCause e), s)

def statusOfCause (c : Nat) : Byte := if c = 0x0A then 4 else if c = 0x10 then 1 else 2

/-- An element read at its home: its bytes, or its status. -/
def skidRead (s : State) (c : Cid) (a : Word) (size : Nat) : Except Byte (List Byte) × State :=
  foldS (spansOf a.toNat size) (.ok [], s) fun (x : Except Byte (List Byte) × State) p =>
    match x.1 with
    | .error _ => x
    | .ok bs =>
      match homeLine x.2 c p.1 false with
      | (.error e, s) => (.error (statusOfCause e), s)
      | (.ok (_, _, some l), s) =>
        (.ok (bs ++ List.replicate p.2 0), (pageLoad s (s.asker c) l.leaf p.1 (l.pa + p.1 % l.span) 0).2)
      | (.ok (pa, kd, none), s) =>
        let m := mlcRead s (s.inTurns c.quad 0) (pa / 64) kd (s.core c).acct 0
        let part := Mem.bytes m.2.2.mem (pa + p.1 % 64) p.2
        if m.2.1 then (.error 4, m.2.2) else (.ok (bs ++ part), linkCarry m.2.2 (dieOf c.quad) (pa / 64) [] part)

/-- An element written at its home; its lines have been found sound. -/
def skidWrite (s : State) (c : Cid) (a : Word) (bs : List Byte) : State :=
  foldS (spansOf a.toNat bs.length) s fun s p =>
    match homeLine s c p.1 true with
    | (.error _, s) => s
    | (.ok (_, _, some l), s) => pageStore s (s.asker c) l.leaf p.1 (l.pa + p.1 % l.span) 0 0
    | (.ok (pa, kd, none), s) =>
      let part := (bs.drop (p.1 - a.toNat)).take p.2
      dieWrite s (dieOf c.quad) (pa / 64) kd (s.core c).acct (decide (p.2 = 64)) part fun m => Mem.writeBytes m (pa + p.1 % 64) part

/-- A word added at its home. -/
def skidAdd (s : State) (c : Cid) (fl : Bool) (a : Word) (w : Nat) : Flags × State :=
  match skidRead s c a 4 with
  | (.error _, s) => (0, s)
  | (.ok bs, s) =>
    let r := if fl then fmt32.add .rne (leNat bs) w else ((leNat bs + w) % 2 ^ 32, 0)
    (r.2, skidWrite s c a (natLE 4 r.1))

/-- The words of the active elements in the order in which they add. -/
def addOrder (n : Nat) (xs : List (Nat × Nat)) : List (Nat × Nat) :=
  xs.mergeSort fun a b => decide (Config.scatterRank n a.1 a.2 ≤ Config.scatterRank n b.1 b.2)

/-- Leading elements whose status is ok or inactive (R249). -/
def leadRun : List Byte → Nat
  | [] => 0
  | b :: bs => if b = 0 ∨ b = 5 then 1 + leadRun bs else 0

/-- The payload of a `gath` or `scat`: what D receives. A command cut after `served` elements leaves the rest with status
0x04 and lands no byte of them (18 R417). -/
def skidServe (s : State) (c : Cmd) (gath : Bool) (op : ScatOp) (iw : IdxW) (served : Nat) : Word × State :=
  let n := (grp c.ps 1).toNat
  let size := (grp c.ps 4).toNat
  let q := c.core.quad
  let land := (grp c.ps 5).toNat
  let opc := if gath then 0x72 else 0x73
  let els := (c.ps.drop 7).map (elemAddr iw c.ps)
  let sourceBad := fun (s : State) (i : Nat) => !gath && s.lmBad q (land + i * size) size
  -- the status of each element, and for gath its bytes
  let x := foldS els (([] : List (Byte × List Byte)), s) fun (x : List (Byte × List Byte) × State) a =>
    let none_ := fun (st : Byte) (s : State) => (x.1 ++ [(st, List.replicate size 0)], s)
    if served ≤ x.1.length then none_ 4 x.2
    else
      match a, c.pre.getD x.1.length none with
      | _, some st => none_ st x.2
      | none, none => none_ 5 x.2
      | some a, none =>
        match elemWalk x.2 c.core opc a size with
        | some b => none_ b.status x.2
        | none =>
          if sourceBad x.2 x.1.length then none_ 4 x.2
          else match skidRead x.2 c.core a size with
            | (.ok bs, s) => (x.1 ++ [(0, bs)], s)
            | (.error st, s) => none_ st s
  let stat := x.1.map Prod.fst
  let good := (els.zip stat).zipIdx.filterMap fun y => if y.1.2 = 0 then y.1.1.map fun a => (y.2, a) else none
  let source := fun (s : State) (i : Nat) => s.lmBytes q (land + i * size) size
  let y : Flags × State :=
    if gath then
      let bs := (x.1.take served).flatMap Prod.snd
      if served < n then (0, lmRaw x.2 q land bs) else
      (0, lmRaw x.2 q land (bs ++ List.replicate (ceilDiv (n * size) 64 * 64 - bs.length) 0))
    else if op = .st then (0, foldS good x.2 fun s p => skidWrite s c.core p.2 (source s p.1))
    else
      let ws := addOrder c.id (good.flatMap fun p => (List.range (size / 4)).map fun j => (p.1, j))
      foldS ws (0, x.2) fun (z : Flags × State) w =>
        match good.find? fun p => p.1 == w.1 with
        | some p =>
          let r := skidAdd z.2 c.core (op == .addf) (p.2 + BitVec.ofNat 64 (4 * w.2)) (leNat ((source z.2 p.1).drop (4 * w.2) |>.take 4))
          (z.1 ||| r.1, r.2)
        | none => z
  let s := lmRaw y.2 q (grp c.ps 6).toNat stat
  let s := if gath ∨ op = .st then s
    else lmRaw s q (flagsAt c.ps) (natLE 4 (s.lmRead q (flagsAt c.ps) 4 ||| y.1.toNat))
  (BitVec.ofNat 64 (leadRun stat), s)

def skidPayload (s : State) (c : Cmd) (gath : Bool) (op : ScatOp) (iw : IdxW) : Word × State :=
  skidServe s c gath op iw (grp c.ps 1).toNat

end Sys2Proof.Machine
end

