-- ==== Sys2Proof/Machine/Matrix.lean ====
section
/-! DEFINITION. The matrix array (08 R253 to R261; 04 R111 to R115, R118), its lease (02 R44) and the completion of every
engine command (08 R237). -/

namespace Sys2Proof.Machine

/-! ### The lease (02 R44) -/

def State.lease (s : State) (q : Nat) : Lease := (s.quad q).lease
def State.modLease (s : State) (q : Nat) (f : Lease → Lease) : State := s.modQuad q fun x => { x with lease := f x.lease }

/-- The array is running a command. -/
def State.matRunning (s : State) (q : Nat) : Bool :=
  s.cmds.any fun (c : Cmd) => decide (c.eng = .mat) && decide (c.core.quad = q) && c.due.isSome && c.freeAt.isNone

/-- The grant has ended by its count or its cycles; this is looked at between commands. -/
def State.leaseOver (s : State) (q : Nat) : Bool :=
  let l := s.lease q
  decide (64 ≤ l.cmds) || decide (32768 ≤ s.cycle - l.since)

/-- Core `c` may issue a matrix command now. -/
def State.leaseOpen (s : State) (c : Cid) : Bool :=
  let l := s.lease c.quad
  decide (l.holder = some c.core) && !bitAt l.giving c.core.val && decide (l.cmds < 64) &&
    (decide (s.cycle - l.since < 32768) || s.matRunning c.quad)

/-- A request posted; with no holder, the arbiter follows. -/
def postLease (s : State) (c : Cid) : State :=
  let l := s.lease c.quad
  if bitAt l.giving c.core.val then s
  else
    let s := s.modLease c.quad fun l => { l with posted := l.posted ||| ((1 : BitVec 4) <<< c.core.val) }
    if l.holder.isNone then s.enqueue (.leaseGrant c.quad) else s

/-! ### Rows and formats (08 R254, R255) -/

/-- The class of a matrix format, 0 for none. -/
def matClass (fmt : Nat) : Nat := if fmt < 2 ∨ 8 < fmt then 0 else if fmt = 5 then 4 else fmt
def matDepth : Nat → Nat
  | 2 | 3 => 128
  | 4 | 5 => 256
  | 6 | 7 => 512
  | _ => 1
def matGroup : Nat → Nat
  | 2 | 3 => 16
  | 4 | 5 => 32
  | 6 | 7 => 64
  | _ => 1

/-- Bytes of a row, or of a slice, of `k` elements. -/
def rowBytes (fmt k : Nat) : Nat := if isFp4 fmt then fp4RowBytes fmt k else k * fmtWidth fmt
/-- Bytes of the kept values of `k` elements: half the elements and every block scale (08 R259). -/
def keptBytes (fmt k : Nat) : Nat := if isFp4 fmt then k / 4 + k / fp4Block fmt else k / 2 * fmtWidth fmt
def depthOk (fmt k : Nat) : Bool := decide (1 ≤ k) && (!isFp4 fmt || decide (k % fp4Block fmt = 0))
def sliceSize : Nat := 32768
def sliceFits (off n : Nat) : Bool := decide (off % 64 = 0) && decide (off + n ≤ sliceSize)

/-- The local addresses of `n` rows; FP4 rows are the format rows of their bank and the pitch is ignored. -/
def rowAddrs (r base pitch : Word) (n len : Nat) : List Nat :=
  (List.range n).map fun i =>
    (base + BitVec.ofNat 64 i * (if isFp4 (bfFmt r) then BitVec.ofNat 64 len else pitch)).toNat

/-- Checks of rows of `len` bytes: alignment within one bank each, windows, and the band table (04 R104; 06 R164). -/
def State.rowFaults (s : State) (r : Word) (rows : List Nat) (len : Nat) : List (Option AccFault) :=
  let fmt := bfFmt r
  rows.flatMap fun a =>
    let bad := if isFp4 fmt then decide ((a - bankBase a) % len ≠ 0) else decide (a % fmtWidth fmt ≠ 0)
    let band := bfBand r + 2 * (fp4RowNo r a / 64)
    [guardAcc (bad || decide (a / 0x20000 ≠ (a + len - 1) / 0x20000)) ⟨0x06, if isFp4 fmt then 8 else fmtWidth fmt, a, 0⟩,
     s.localRegion a len,
     guardAcc (fmt == 6 && !s.inWin s.cur band 2) ⟨0x08, bankOf band, band, 0⟩]

/-- The format register of the bank that holds a local address, as the issuing slot sees it. -/
def State.bankFmt (s : State) (a : Word) : Word := s.bfmt s.cur.quad (bankOf a.toNat)

/-! ### Issue -/

/-- The array takes the lease holder's next command (08 R253, R261). -/
def matCycles (c : Cmd) : Nat :=
  let p := fun i => (grp c.ps i).toNat
  match c.ins with
  | .mzero _ => ceilDiv (p 1) 8 + 2
  | .mbld _ => p 3 * ceilDiv (rowBytes (bfFmt c.bf) (p 2)) 256 + 16
  | .mma _ b _ => p 3 * ceilDiv (p 2) (matDepth b.toNat) + 16
  | .mmas _ b _ => p 3 * ceilDiv (p 2) (2 * matDepth b.toNat) + 16
  | .mcmpr _ _ => p 1 / 4 + 16
  | .mst _ _ =>
    let w := if isFp4 (bfFmt c.bf) then ceilDiv (p 4) 2 else p 4 * fmtWidth (bfFmt c.bf)
    p 3 * ceilDiv w 256 + 16
  | _ => 0

def matPump (s : State) (q : Nat) : State :=
  if s.matRunning q then s
  else
    match (s.lease q).holder with
    | none => s
    | some k =>
      if s.leaseOver q then s.enqueue (.leaseExpiry q)
      else
        match s.cmds.find? fun (c : Cmd) => decide (c.eng = .mat) && decide (c.core = ⟨q, k⟩) && c.due.isNone && c.freeAt.isNone with
        | none => s
        | some c =>
          let due := max s.cycle c.ready + matCycles c
          { s with cmds := s.cmds.map fun (x : Cmd) => if x.id = c.id then { x with due := some due } else x }

/-- A matrix command at issue: its group's limits once all of it is full (08 R235; 03 R81), its hazards, the lease, a place, its
faults (08 R253). -/
def matIssue (s : State) (e : Eng) (n : Nat) (i : Instr) (limits : State → List Word → Bool)
    (faults : State → List Word → List (Option AccFault)) (fmtOf : State → List Word → Word) : Out :=
  let ps := fun (s : State) => (rangeFrom e.a.val n).map fun c => s.me.rdG (Fin.ofNat 32 c)
  if e.a.val = 0 ∨ (if isSeq s.cur then 8 else 32) < e.a.val + n then .next (illegalMe s)
  else if (rangeFrom e.a.val n).all (fun c => !s.srcEmpty c) && !limits s (ps s) then .next (illegalMe s)
  else
    issue s (engUses e n) [e.d.code] true fun s =>
      let ps := ps s
      let c := s.coreId s.cur
      let s := postLease s c
      if !s.leaseOpen c || decide (8 ≤ s.inFlight c .mat) then s.blockMe
      else
        match firstFault (faults s ps ++ [s.complCheck e.compl]) with
        | some f => s.accFaultG f
        | none =>
          let s := matPump ((s.queueCmd e (s.mkCmd i e .mat ps (fmtOf s ps))).retire []) c.quad
          s.modLease c.quad fun l => { l with cmds := l.cmds + 1 }

def execMzero (e : Eng) (s : State) : Out :=
  matIssue s e 2 (.mzero e)
    (fun _ ps => decide ((grp ps 0).toNat ≤ 127) && decide (1 ≤ (grp ps 1).toNat) && decide ((grp ps 0).toNat + (grp ps 1).toNat ≤ 128))
    (fun _ _ => []) fun _ _ => 0

/-- For FP4 rows, K is the row length of the bank. -/
def rowLenOk (r : Word) (k : Nat) : Bool := !isFp4 (bfFmt r) || decide (k = bfRow r)

def execMbld (e : Eng) (s : State) : Out :=
  let fmt := fun (s : State) (ps : List Word) => s.bankFmt (grp ps 0)
  matIssue s e 5 (.mbld e)
    (fun s ps =>
      let f := bfFmt (fmt s ps)
      let k := (grp ps 2).toNat
      let n := (grp ps 3).toNat
      decide (1 ≤ n) && decide (n ≤ 128) && depthOk f k && sliceFits (grp ps 4).toNat (rowBytes f k) && rowLenOk (fmt s ps) k)
    (fun s ps =>
      let r := fmt s ps
      let len := rowBytes (bfFmt r) (grp ps 2).toNat
      s.rowFaults r (rowAddrs r (grp ps 0) (grp ps 1) (grp ps 3).toNat len) len ++
        [guardAcc (matClass (bfFmt r) == 0) ⟨0x09, bfFmt r, (grp ps 0).toNat, 0⟩]) fmt

/-- Limits of `mma` and `mmas`. -/
def mmaLimits (b : Nat) (sparse : Bool) (s : State) (ps : List Word) : Bool :=
  let r := s.bankFmt (grp ps 0)
  let k := (grp ps 2).toNat
  let m := (grp ps 3).toNat
  let top := if b = 8 then 64 else 128
  decide (matClass b ≠ 0) && decide (1 ≤ m) && decide (m ≤ top) && decide ((grp ps 4).toNat + m ≤ top) && depthOk b k &&
  sliceFits (grp ps 5).toNat (if sparse then keptBytes b k else rowBytes b k) &&
  (!sparse || (decide (k % 4 = 0) && sliceFits (grp ps 6).toNat (ceilDiv k 8))) &&
  (decide (matClass (bfFmt r) ≠ matClass b) || rowLenOk r k)

def mmaFaults (b : Nat) (sparse : Bool) (s : State) (ps : List Word) : List (Option AccFault) :=
  let r := s.bankFmt (grp ps 0)
  let len := rowBytes (bfFmt r) (grp ps 2).toNat
  s.rowFaults r (rowAddrs r (grp ps 0) (grp ps 1) (grp ps 3).toNat len) len ++
    [guardAcc (decide (matClass (bfFmt r) ≠ matClass b) || (sparse && b == 8)) ⟨0x09, bfFmt r, (grp ps 0).toNat, 0⟩]

def execMma (e : Eng) (bfmt : BitVec 4) (zero : Bool) (s : State) : Out :=
  matIssue s e 6 (.mma e bfmt zero) (mmaLimits bfmt.toNat false) (mmaFaults bfmt.toNat false) fun s ps => s.bankFmt (grp ps 0)
def execMmas (e : Eng) (bfmt : BitVec 4) (zero : Bool) (s : State) : Out :=
  matIssue s e 7 (.mmas e bfmt zero) (mmaLimits bfmt.toNat true) (mmaFaults bfmt.toNat true) fun s ps => s.bankFmt (grp ps 0)

/-- The three ranges of a `mcmpr` in a slice. -/
def mcmprRanges (b : Nat) (ps : List Word) : List (Nat × Nat) :=
  let k := (grp ps 1).toNat
  [((grp ps 0).toNat, rowBytes b k), ((grp ps 2).toNat, keptBytes b k), ((grp ps 3).toNat, ceilDiv k 8)]
def disjoint (a b : Nat × Nat) : Bool := decide (a.1 + a.2 ≤ b.1) || decide (b.1 + b.2 ≤ a.1)

def mcmprLimits (b : Nat) (ps : List Word) : Bool :=
  let k := (grp ps 1).toNat
  decide (2 ≤ b) && decide (b ≤ 7) && decide (k % 4 = 0) && depthOk b k &&
  match mcmprRanges b ps with
  | [x, y, z] => sliceFits x.1 x.2 && sliceFits y.1 y.2 && sliceFits z.1 z.2 && disjoint x y && disjoint x z && disjoint y z
  | _ => false

def execMcmpr (e : Eng) (bfmt : BitVec 4) (s : State) : Out :=
  matIssue s e 4 (.mcmpr e bfmt) (fun _ ps => mcmprLimits bfmt.toNat ps) (fun _ _ => []) fun _ _ => 0

def execMst (e : Eng) (clr : Bool) (s : State) : Out :=
  let fmt := fun (s : State) (ps : List Word) => s.bankFmt (grp ps 0)
  matIssue s e 5 (.mst e clr)
    (fun s ps =>
      let top := if bfFmt (fmt s ps) = 8 then 64 else 128
      let n := (grp ps 4).toNat
      decide (1 ≤ (grp ps 3).toNat) && decide ((grp ps 2).toNat + (grp ps 3).toNat ≤ top) && decide (1 ≤ n) &&
        decide (n ≤ 128) && rowLenOk (fmt s ps) n)
    (fun s ps =>
      let r := fmt s ps
      let len := rowBytes (bfFmt r) (grp ps 4).toNat
      s.rowFaults r (rowAddrs r (grp ps 0) (grp ps 1) (grp ps 3).toNat len) len) fmt

/-! ### Arithmetic of the array (04 R111 to R115) -/

/-- The exact values of a row of `k` elements from its bytes; a NaN that raises NV is marked signalling (04 R109, R113). -/
def rowVals (fmt k band : Nat) (bs : List Byte) : List FVal :=
  let byte := fun i => (bs.getD i 0).toNat
  (List.range k).map fun i =>
    if isFp4 fmt then
      let code := if i % 2 = 1 then byte (i / 2) / 16 else byte (i / 2) % 16
      let sc := byte (k / 2 + i / fp4Block fmt)
      let v := if fmt = 6 then fineVal code sc band else mxVal code sc
      if v.2 &&& flNV ≠ 0 then .nan true else v.1
    else elemVal fmt (leNat ((bs.drop (i * fmtWidth fmt)).take (fmtWidth fmt)))

/-- A group's terms truncated to 32 bits below the largest, summed exactly and rounded once (04 R112). -/
def groupRound (ts : List Term) : Nat × Flags :=
  match ts.filter fun t => decide (t.m ≠ 0) with
  | [] => (fmt32.signBit (ts.all fun t => t.neg), 0)
  | t :: more =>
    let top := fun (t : Term) => (Nat.log2 t.m : Int) + t.e
    let q := more.foldl (fun a u => max a (top u)) (top t) - 31
    let cut := (t :: more).map fun u => (u.neg, toQuantum .rtz u.neg u.m u.e q)
    let sum := cut.foldl (fun (a : Int) u => a + (if u.1 then -(u.2.1 : Int) else u.2.1)) 0
    let nx : Flags := if cut.any fun u => u.2.2 then flNX else 0
    if sum = 0 then (0, nx)
    else
      let r := fmt32.round .rne (decide (sum < 0)) sum.natAbs q
      (r.1, r.2 ||| nx)

/-- One output element: the products by group, in ascending k, over the incoming `c` (04 R112, R113). DESIGN CHOICE (log
104): special values are judged over all groups at once, so both infinities in one group raise no NV beside a quiet NaN in another, and
an infinite term decides the result whatever an earlier group's sum would overflow to. -/
def dotGroups (c : Nat) (gs : List (List (FVal × FVal))) : Nat × Flags :=
  match specialSum fmt32 gs.flatten [fmt32.dec c] with
  | some r => r
  | none =>
    match gs with
    | [] => (c, 0)
    | g :: more =>
      more.foldl (fun (a : Nat × Flags) g =>
        let r := groupRound (g.map prodTerm)
        let y := fmt32.add .rne a.1 r.1
        (y.1, a.2 ||| r.2 ||| y.2)) (groupRound (addTerm (fmt32.dec c) :: g.map prodTerm))

/-- A list cut into runs of `n`. -/
def chunks {α : Type} (n : Nat) : Nat → List α → List (List α)
  | 0, _ => []
  | k + 1, xs => if xs.isEmpty then [] else xs.take n :: chunks n k (xs.drop n)

def dotDense (fmt c : Nat) (a b : List FVal) : Nat × Flags := dotGroups c (chunks (matGroup fmt) a.length (a.zip b))

/-- Positions that a group's metadata names, lower field first (08 R258, R259). -/
def metaAt (md : List Byte) (g : Nat) : Nat × Nat :=
  let b := (md.getD (g / 2) 0).toNat / (if g % 2 = 1 then 16 else 1)
  (b % 4, b / 4 % 4)

/-- The exact value of kept element `i`, which came from group `i ÷ 2` of four. -/
def keptVal (fmt k band : Nat) (bs : List Byte) (i : Nat) : FVal :=
  let byte := fun j => (bs.getD j 0).toNat
  if isFp4 fmt then
    let code := if i % 2 = 1 then byte (i / 2) / 16 else byte (i / 2) % 16
    let sc := byte (k / 4 + (i / 2) * 4 / fp4Block fmt)
    let v := if fmt = 6 then fineVal code sc band else mxVal code sc
    if v.2 &&& flNV ≠ 0 then .nan true else v.1
  else elemVal fmt (leNat ((bs.drop (i * fmtWidth fmt)).take (fmtWidth fmt)))

/-- The two products of each group of four (08 R258). -/
def dotSparse (fmt k band c : Nat) (a : List FVal) (kept md : List Byte) : Nat × Flags :=
  let pairs := (List.range (k / 4)).flatMap fun g =>
    let p := metaAt md g
    [(a.getD (4 * g + p.1) (.fin false 0 0), keptVal fmt k band kept (2 * g)),
     (a.getD (4 * g + p.2) (.fin false 0 0), keptVal fmt k band kept (2 * g + 1))]
  dotGroups c (chunks (matGroup fmt / 2) k pairs)

/-- FP64: one rounding a step (04 R115). -/
def dot64 (c : Nat) : List (Nat × Nat) → Nat × Flags
  | [] => (c, 0)
  | p :: ps =>
    let r := fmt64.fma .rne c p.1 p.2
    let y := dot64 r.1 ps
    (y.1, r.2 ||| y.2)

/-! ### Accumulators and the canopy (08 R253; 10 R292) -/

def accKey (c : Cid) (row col : Nat) : Nat := (c.quad * 4 + c.core.val) * 0x4000 + row * 128 + col
def State.accAt (s : State) (c : Cid) (row col : Nat) : Nat := (cget 0 s.acc (accKey c row col)).toNat
def State.setAcc (s : State) (c : Cid) (row col x : Nat) : State := { s with acc := cset 0 s.acc (accKey c row col) (BitVec.ofNat 32 x) }
/-- The FP64 view. -/
def State.acc64 (s : State) (c : Cid) (r j : Nat) : Nat := s.accAt c (2 * r) j + 2 ^ 32 * s.accAt c (2 * r + 1) j
def State.setAcc64 (s : State) (c : Cid) (r j x : Nat) : State :=
  (s.setAcc c (2 * r) j (x % 2 ^ 32)).setAcc c (2 * r + 1) j (x / 2 ^ 32)
/-- Accumulator rows behind row `r` of a view. -/
def accRows (wide : Bool) (r : Nat) : List Nat := if wide then [2 * r, 2 * r + 1] else [r]
def clearRows (s : State) (c : Cid) (rows : List Nat) : State :=
  { s with acc := s.acc.filter fun x => !(rows.any fun r => decide (accKey c r 0 ≤ x.1) && decide (x.1 < accKey c r 128)) }
def State.poisonRows (s : State) (c : Cid) (rows : List Nat) : State :=
  s.modCore c fun k => { k with accPoison := rows.foldl (fun (m : BitVec 128) r => m ||| ((1 : BitVec 128) <<< r)) k.accPoison }
def State.soundRows (s : State) (c : Cid) (rows : List Nat) : State :=
  s.modCore c fun k => { k with accPoison := rows.foldl (fun (m : BitVec 128) r => m &&& ~~~((1 : BitVec 128) <<< r)) k.accPoison }

def sliceAt (q j off : Nat) : Nat := q * canopySize + j * sliceSize + off
def State.sliceBytes (s : State) (q j off n : Nat) : List Byte := Mem.bytes s.canopy (sliceAt q j off) n
/-- A poisoned word of the canopy meets a range of a slice (18 R411). -/
def State.canBad (s : State) (q j off n : Nat) : Bool :=
  s.canPoison.any fun w => decide (w * 8 < sliceAt q j off + n) && decide (sliceAt q j off < w * 8 + 8)
def putSlice (s : State) (q j off : Nat) (bs : List Byte) : State :=
  let lo := sliceAt q j off
  { s with
      canopy := Mem.writeBytes s.canopy lo bs
      canPoison := s.canPoison.filter fun w => !(decide (lo ≤ w * 8) && decide (w * 8 + 8 ≤ lo + bs.length)) }
/-- The element to which byte `i` of a slice of `k` elements belongs; of a slice of kept values with `kept` (08 R254, R259). -/
def byteElem (fmt k : Nat) (kept : Bool) (i : Nat) : Nat :=
  let w := if kept then 2 else 1
  if isFp4 fmt then (if i < k / 2 / w then 2 * w * i else (i - k / 2 / w) * fp4Block fmt) else i / fmtWidth fmt * w
/-- The cycle in which a matrix command starts to run. -/
def Cmd.start (c : Cmd) : Nat := c.due.getD 0 - matCycles c
/-- A byte of the canopies as the array reads it in a cycle of a command's run: what a send has written in that cycle or later is not
there yet (10 R293); none when poisoned. -/
def State.canSee (s : State) (c : Cmd) (cyc a : Nat) : Option Byte :=
  match c.overs.find? fun e => decide (e.1 = a) && decide (cyc ≤ e.2.1) with
  | some e => e.2.2
  | none => if s.canPoison.contains (a / 8) then none else some (Mem.read s.canopy a)
/-- `n` bytes of slice `j` as a command's run reads them, byte `i` in cycle `cyc i`. -/
def State.runSlice (s : State) (c : Cmd) (j off n : Nat) (cyc : Nat → Nat) : List (Option Byte) :=
  (List.range n).map fun i => s.canSee c (cyc i) (sliceAt c.core.quad j off + i)
def soundBytes (bs : List (Option Byte)) : List Byte := bs.map fun b => b.getD 0
def State.bandOf (s : State) (q j : Nat) : Nat := ((s.quad q).band[Fin.ofNat 128 j]).toNat

/-! ### Payloads -/

/-- What a matrix command came to: its flags, and whether poison cut it (18 R414, R417). -/
structure MatDone where
  flags : Flags
  cut : Bool
  deriving DecidableEq, Repr

def matStatus (d : MatDone) : Word := BitVec.ofNat 64 ((if d.cut then 0x400 else 0) + d.flags.toNat)

def mzeroPayload (s : State) (c : Cmd) : MatDone × State :=
  let rows := rangeFrom (grp c.ps 0).toNat (grp c.ps 1).toNat
  (⟨0, false⟩, (clearRows s c.core rows).soundRows c.core rows)

/-- Row j into slice j; a poisoned source row ends the command there. -/
def mbldPayload (s : State) (c : Cmd) : MatDone × State :=
  let q := c.core.quad
  let len := rowBytes (bfFmt c.bf) (grp c.ps 2).toNat
  let rows := rowAddrs c.bf (grp c.ps 0) (grp c.ps 1) (grp c.ps 3).toNat len
  foldS rows.zipIdx ((⟨0, false⟩ : MatDone), s) fun (x : MatDone × State) p =>
    if x.1.cut then x
    else if x.2.lmBad q p.1 len || x.2.bandBad q c.bf p.1 then (⟨0, true⟩, x.2)
    else
      let s := putSlice x.2 q p.2 (grp c.ps 4).toNat (x.2.lmBytes q p.1 len)
      (x.1, if bfFmt c.bf = 6 then
          s.modQuad q fun y => { y with band := y.band.set (Fin.ofNat 128 p.2) (BitVec.ofNat 16 (s.bandAt q c.bf p.1)) }
        else s)

/-- The cycles in which `mma` reads the bytes of B for its row `m`: K ÷ depth steps for each row (08 R257, R258; log 117). -/
def mmaCyc (c : Cmd) (b k m : Nat) (sparse : Bool) (elem : Nat → Nat) (i : Nat) : Nat :=
  let per := if sparse then 2 * matDepth b else matDepth b
  c.start + m * ceilDiv k per + elem i / per
/-- What slice `j` gives to row `m` of A: the values of B, and the metadata of a sparse tile. -/
def State.mmaSlice (s : State) (c : Cmd) (b : Nat) (sparse : Bool) (m j : Nat) : List (Option Byte) × List (Option Byte) :=
  let k := (grp c.ps 2).toNat
  (s.runSlice c j (grp c.ps 5).toNat (if sparse then keptBytes b k else rowBytes b k) (mmaCyc c b k m sparse (byteElem b k sparse)),
   if sparse then s.runSlice c j (grp c.ps 6).toNat (ceilDiv k 8) (mmaCyc c b k m sparse (8 * ·)) else [])

/-- Row `m` of A against the 128 slices. -/
def mmaRow (s : State) (c : Cmd) (b : Nat) (zero sparse : Bool) (a m k : Nat) : Flags × State :=
  let q := c.core.quad
  let f := bfFmt c.bf
  let row := (grp c.ps 4).toNat + m
  let bytes := s.lmBytes q a (rowBytes f k)
  let words := fun (bs : List Byte) => (List.range k).map fun i => leNat ((bs.drop (8 * i)).take 8)
  let av := rowVals f k (if f = 6 then s.bandAt q c.bf a else 0) bytes
  foldS (List.range 128) ((0 : Flags), s) fun (x : Flags × State) j =>
    let t := x.2.mmaSlice c b sparse m j
    let y := soundBytes t.1
    if b = 8 then
      let r := dot64 (if zero then 0 else x.2.acc64 c.core row j) ((words bytes).zip (words y))
      (x.1 ||| r.2, x.2.setAcc64 c.core row j r.1)
    else
      let old := if zero then 0 else x.2.accAt c.core row j
      let r := if sparse then dotSparse b k (s.bandOf q j) old av y (soundBytes t.2) else dotDense b old av (rowVals b k (s.bandOf q j) y)
      (x.1 ||| r.2, x.2.setAcc c.core row j r.1)

/-- A row of A that is poisoned, its band with it, or that meets a poisoned byte of B cuts the command (18 R410, R414). -/
def State.mmaBad (s : State) (c : Cmd) (b : Nat) (sparse : Bool) (a m : Nat) : Bool :=
  s.lmBad c.core.quad a (rowBytes (bfFmt c.bf) (grp c.ps 2).toNat) || s.bandBad c.core.quad c.bf a ||
  (List.range 128).any fun j =>
    let t := s.mmaSlice c b sparse m j
    (t.1 ++ t.2).any Option.isNone

def mmaPayload (s : State) (c : Cmd) (b : Nat) (zero sparse : Bool) : MatDone × State :=
  let k := (grp c.ps 2).toNat
  let rows := rowAddrs c.bf (grp c.ps 0) (grp c.ps 1) (grp c.ps 3).toNat (rowBytes (bfFmt c.bf) k)
  foldS rows.zipIdx ((⟨0, false⟩ : MatDone), s) fun (x : MatDone × State) p =>
    let view := accRows (b == 8) ((grp c.ps 4).toNat + p.2)
    if x.1.cut then x
    else if x.2.mmaBad c b sparse p.1 p.2 then (⟨x.1.flags, true⟩, x.2.poisonRows c.core view)
    else
      let r := mmaRow x.2 c b zero sparse p.1 p.2 k
      (⟨x.1.flags ||| r.1, false⟩, if zero then r.2.soundRows c.core view else r.2)

/-- The order of magnitudes of 04 R118: NaN above infinity above finite. -/
def magLe (a b : FVal) : Bool :=
  match a, b with
  | _, .nan _ => true
  | .nan _, _ => false
  | _, .inf _ => true
  | .inf _, _ => false
  | .fin _ m e, .fin _ m' e' => geExp m' e' m e

/-- The two kept indices of four values, ascending; a tie keeps the lower index. -/
def keepTwo (xs : List FVal) : Nat × Nat :=
  let v := fun i => xs.getD i (.fin false 0 0)
  let better := fun i j => if i < j then magLe (v j) (v i) else !(magLe (v i) (v j))
  match (List.range 4).filter fun i => decide (2 ≤ ((List.range 4).filter fun j => decide (i ≠ j) && better i j).length) with
  | i :: j :: _ => (i, j)
  | _ => (0, 1)

/-- Kept values and metadata of one slice. -/
def compressSlice (b k band : Nat) (bs : List Byte) : List Byte × List Byte :=
  let vs := rowVals b k band bs
  let keep := (List.range (k / 4)).map fun g => (g, keepTwo (vs.drop (4 * g) |>.take 4))
  let pos := keep.flatMap fun x => [4 * x.1 + x.2.1, 4 * x.1 + x.2.2]
  let byte := fun i => (bs.getD i 0).toNat
  let kept := if isFp4 b then
      packCodes (pos.map fun p => if p % 2 = 1 then byte (p / 2) / 16 else byte (p / 2) % 16) ++ bs.drop (k / 2)
    else pos.flatMap fun p => (bs.drop (p * fmtWidth b)).take (fmtWidth b)
  let codes := keep.map fun x => x.2.1 + 4 * x.2.2
  (kept, packCodes (if codes.length % 2 = 1 then codes ++ [0] else codes))

/-- The first `n` slices compressed; a group of four is read in a cycle (08 R259; log 117). -/
def mcmprSlices (s : State) (c : Cmd) (b n : Nat) : MatDone × State :=
  let q := c.core.quad
  let off := (grp c.ps 0).toNat
  let k := (grp c.ps 1).toNat
  let slice := fun (j : Nat) => s.runSlice c j off (rowBytes b k) fun i => c.start + byteElem b k false i / 4
  if ((List.range 128).any fun j => (slice j).any Option.isNone) then (⟨0, true⟩, s)
  else
    (⟨0, false⟩, foldS (List.range n) s fun s j =>
      let r := compressSlice b k (s.bandOf q j) (soundBytes (slice j))
      putSlice (putSlice s q j (grp c.ps 2).toNat r.1) q j (grp c.ps 3).toNat r.2)

def mcmprPayload (s : State) (c : Cmd) (b : Nat) : MatDone × State := mcmprSlices s c b 128

/-- A row of accumulator words encoded for a bank (08 R260). -/
def encodeRow (r : Word) (band : Nat) (xs : List Nat) : List Byte × Flags :=
  let fmt := bfFmt r
  if isFp4 fmt then
    let blocks := (chunks (fp4Block fmt) xs.length (xs.map fmt32.dec)).map fun b =>
      if fmt = 6 then fineStore (bfRtz r) band b else mxStore (bfRtz r) b
    (blocks.flatMap (fun x => packCodes x.1) ++ blocks.map (fun x => BitVec.ofNat 8 x.2.1),
     blocks.foldl (fun (f : Flags) x => f ||| x.2.2) 0)
  else
    let ys := xs.map fun x => if 2 ≤ fmt ∧ fmt ≤ 5 then elemEnc fmt (bfSat r) (bfRtz r) x else (x, 0)
    (ys.flatMap fun y => natLE (fmtWidth fmt) y.1, ys.foldl (fun (f : Flags) y => f ||| y.2) 0)

def mstPayload (s : State) (c : Cmd) (clr : Bool) : MatDone × State :=
  let q := c.core.quad
  let n := (grp c.ps 4).toNat
  let first := (grp c.ps 2).toNat
  let wide := bfFmt c.bf == 8
  let len := rowBytes (bfFmt c.bf) n
  let rows := rowAddrs c.bf (grp c.ps 0) (grp c.ps 1) (grp c.ps 3).toNat len
  foldS rows.zipIdx ((⟨0, false⟩ : MatDone), s) fun (x : MatDone × State) p =>
    let view := accRows wide (first + p.2)
    if (view.any fun r => (x.2.core c.core).accPoison.getLsbD r) || x.2.bandBad q c.bf p.1 then (⟨x.1.flags, true⟩, x.2)
    else
      let xs := (List.range n).map fun j => if wide then x.2.acc64 c.core (first + p.2) j else x.2.accAt c.core (first + p.2) j
      let y := encodeRow c.bf (if bfFmt c.bf = 6 then x.2.bandAt q c.bf p.1 else 0) xs
      let s := lmRaw x.2 q p.1 y.1
      (⟨x.1.flags ||| y.2, x.1.cut⟩, if clr then clearRows s c.core view else s)

/-! ### Completion (08 R237) -/

def engOf : Instr → Option Eng
  | .send e .. | .csend e | .gath e _ | .scat e .. | .mzero e | .mbld e | .mma e .. | .mmas e .. | .mcmpr e _ | .mst e _ => some e
  | _ => none

/-- The operation code of a matrix command (08 R255). -/
def matOp : Instr → Nat
  | .mzero _ => 0x74
  | .mbld _ => 0x75
  | .mma .. => 0x76
  | .mmas .. => 0x77
  | .mcmpr .. => 0x78
  | .mst .. => 0x79
  | _ => 0

/-- What a matrix command does: its status, and the state after it. -/
def matPayload (s : State) (c : Cmd) : MatDone × State :=
  match c.ins with
  | .mzero _ => mzeroPayload s c
  | .mbld _ => mbldPayload s c
  | .mma _ b z => mmaPayload s c b.toNat z false
  | .mmas _ b z => mmaPayload s c b.toNat z true
  | .mcmpr _ b => mcmprPayload s c b.toNat
  | .mst _ clr => mstPayload s c clr
  | _ => (⟨0, false⟩, s)

/-- The payload and what D receives: sends are charged their bytes, the array its cycles (19 R445). -/
def cmdPayload (s : State) (c : Cmd) : Word × State :=
  let acct := (s.core c.core).acct
  let sent := fun (x : Word × State) => (x.1, if fieldNat x.1 8 8 = 1 then x.2 else x.2.charge acct 3 (fieldNat x.1 32 32))
  match c.status with
  | some w => sent (w, s)
  | none =>
    match c.ins with
    | .send _ _ dk g => sent (sendPayload s c dk g none)
    | .csend _ => sent (csendPayload s c)
    | .gath _ iw => skidPayload s c true .st iw
    | .scat _ op iw => skidPayload s c false op iw
    | _ =>
      let x := matPayload s c
      (matStatus x.1, x.2.charge acct 1 (matCycles c))

/-- What the core's progress record will say of the last matrix command completed (18 R417). -/
def noteMat (s : State) (c : Cmd) : State :=
  if c.eng = .mat then s.modCore c.core fun k => { k with matDone := c.num, matLastOp := BitVec.ofNat 7 (matOp c.ins) } else s

/-- The completion action: a store into the issuing quad, or an increment on its way, which a release carries (11 R312). -/
def complAction (s : State) (c : Cmd) (rel : Option Scope) (k : Compl) : State :=
  match k with
  | .none => s
  | .st _ _ => lmRaw s c.core.quad c.tgt.toNat (natLE 4 c.val.toNat)
  | .inc _ _ =>
    match s.designator false c.core c.tgt with
    | none => s
    | some x =>
      let far := decide (x.pkg ≠ s.pkg)
      let n := if far then 64 else (reachOf c.core x.core).1
      let k := s.core c.core
      let after := if far then s.incrAfter c.core.quad x.pkg else []
      let m : Incr := ⟨s.fresh, none, c.core.quad, k.world, k.vcore, c.tgt, if far then none else some (x.core, Fin.ofNat 16 x.idx),
        c.val.setWidth 32, after.foldl max (s.inTurns c.core.quad n), rel.toList.map fun sc => (c.core, sc),
        if rel.isSome then [c.tid] else []⟩
      { s with incrs := s.incrs ++ [m], fresh := s.fresh + 1 }

/-- D is full for a reader in the turn after the completion action. -/
def landStatus (s : State) (c : Cmd) (w : Word) : State :=
  if c.d = 0 then s
  else
    let land := fun (p : Pend) =>
      if p.kind = .engine c.id then { p with val := .s w, due := some (s.inTurns c.core.quad 1) } else p
    s.modTh c.tid fun x => { x with pend := x.pend.map land }

/-- A withdrawn request takes effect once the core's matrix commands have completed (02 R44). -/
def giveLease (s : State) (c : Cid) : State :=
  let l := s.lease c.quad
  if bitAt l.giving c.core.val && !(s.cmds.any fun (x : Cmd) => decide (x.eng = .mat) && decide (x.core = c) && x.freeAt.isNone) then
    let mask : BitVec 4 := ~~~((1 : BitVec 4) <<< c.core.val)
    let s := s.modLease c.quad fun l =>
      { l with giving := l.giving &&& mask, posted := l.posted &&& mask, holder := if l.holder = some c.core then none else l.holder }
    if (s.lease c.quad).holder.isNone then s.enqueue (.leaseGrant c.quad) else s
  else s

/-- A core withdraws its request and its lease; one that has neither withdraws nothing (02 R44). -/
def withdrawLease (s : State) (c : Cid) : State :=
  let l := s.lease c.quad
  if l.holder = some c.core ∨ bitAt l.posted c.core.val then
    giveLease (s.modLease c.quad fun l => { l with giving := l.giving ||| ((1 : BitVec 4) <<< c.core.val) }) c
  else s

/-- A command of a launch that its core has left is performed as the core was in that launch (log 80). -/
def asOwner (s : State) (c : Cmd) (f : State → Word × State) : Word × State :=
  match c.own with
  | none => f s
  | some o =>
    let k := s.core c.core
    let gone := (tget? s.launches o.lid).isNone
    let s := s.setCore c.core { Core.init with
      launch := some o.lid, vcore := o.vcore, world := o.world, acct := o.acct, kdom := o.kdom, plb := o.plb }
    let x := f (if gone then { s with launches := tset s.launches o.lid o.launch } else s)
    let s := x.2.setCore c.core k
    (x.1, if gone then { s with launches := tdel s.launches o.lid } else s)

/-- The end of a command: payload, release, completion action, result, in that order. -/
def execCommandCompletion (id : Nat) (s : State) : Out :=
  match s.cmds.find? fun (c : Cmd) => decide (c.id = id) && c.freeAt.isNone with
  | none => .next s
  | some c =>
    match c.due, engOf c.ins with
    | some d, some e =>
      if s.cycle < d then .next s
      else
        let x := asOwner s c fun s =>
          let x := cmdPayload s c
          let rel := if e.rel then some (engScope e) else none
          let s := match rel with
            | some sc => releaseAt (noteReleased x.2 c.tid sc) c.core sc
            | none => x.2
          (x.1, complAction s c rel e.compl)
        let s := noteMat (landStatus x.2 c x.1) c
        let done := s.inTurns c.core.quad 1
        let s := { s with cmds := s.cmds.map fun (y : Cmd) => if y.id = id then { y with freeAt := some done, status := some x.1 } else y }
        .next (if c.eng = .mat then matPump (giveLease s c.core) c.core.quad else s)
    | _, _ => .next s

/-- The arbiter grants a free lease to the next core that has posted a request. -/
def execLeaseGrant (q : Nat) (s : State) : Out :=
  let l := s.lease q
  match l.holder with
  | some _ => .next s
  | none =>
    match ([1, 2, 3, 4] : List Nat).find? fun i => bitAt l.posted ((l.last.val + i) % 4) with
    | none => .next s
    | some i =>
      let k : Fin 4 := Fin.ofNat 4 (l.last.val + i)
      .next (matPump (s.modLease q fun l => { l with holder := some k, last := k, cmds := 0, since := s.cycle }) q)

/-- A grant that has ended passes, at a command boundary, to the next core with a request, else to its holder afresh. -/
def execLeaseExpiry (q : Nat) (s : State) : Out :=
  let l := s.lease q
  match l.holder with
  | none => .next s
  | some h =>
    if s.matRunning q || !s.leaseOver q then .next s
    else
      let k : Fin 4 := match ([1, 2, 3] : List Nat).find? fun i => bitAt l.posted ((h.val + i) % 4) with
        | some i => Fin.ofNat 4 (h.val + i)
        | none => h
      .next (matPump (s.modLease q fun l => { l with holder := some k, last := k, cmds := 0, since := s.cycle }) q)

end Sys2Proof.Machine
end

