-- ==== Sys2Proof/Machine/Tasks.lean ====
section
/-! DEFINITION. A launch's groups, their traversal orders and the dispenser's task records (15 R353, R354, R357), and the range
deque (08 R262 to R264). -/

namespace Sys2Proof.Machine

/-! ### The fields of a parameter block (15 R346) -/

def Launch.fld (l : Launch) (off lo len : Nat) : Nat := fieldNat (l.word off) lo len
def Launch.gx (l : Launch) : Nat := l.fld 0x28 0 21
def Launch.gy (l : Launch) : Nat := l.fld 0x28 21 21
def Launch.gz (l : Launch) : Nat := l.fld 0x28 42 21
def Launch.groups (l : Launch) : Nat := l.gx * l.gy * l.gz
def Launch.task (l : Launch) : Nat := l.fld 0x30 16 16

/-! ### Traversal orders (15 R353) -/

/-- Points of the grid inside the square of side `s` at (x, y). -/
def squareCount (gx gy x y s : Nat) : Nat := (min gx (x + s) - x) * (min gy (y + s) - y)

/-- The j-th grid point in Morton order inside the square of side 2^k at (x, y). -/
def mortonPoint (gx gy : Nat) : Nat → Nat → Nat → Nat → Nat × Nat
  | 0, x, y, _ => (x, y)
  | k + 1, x, y, j =>
    let s := 2 ^ k
    let a := squareCount gx gy x y s
    let b := squareCount gx gy (x + s) y s
    let c := squareCount gx gy x (y + s) s
    if j < a then mortonPoint gx gy k x y j
    else if j < a + b then mortonPoint gx gy k (x + s) y (j - a)
    else if j < a + b + c then mortonPoint gx gy k x (y + s) (j - a - b)
    else mortonPoint gx gy k (x + s) (y + s) (j - a - b - c)

/-- One digit of HilbertXY: the point of a quadrant's own square of side `s`, seen in the square of side 2s. -/
def hilbertTurn (s t : Nat) (p : Nat × Nat) : Nat × Nat :=
  match t with
  | 0 => (p.2, p.1)
  | 1 => (p.1, p.2 + s)
  | 2 => (p.1 + s, p.2 + s)
  | _ => (s - 1 - p.2 + s, s - 1 - p.1)

/-- The j-th grid point in Hilbert order inside a square of side 2^k that `place` puts into the grid. -/
def hilbertPoint (gx gy : Nat) : Nat → (Nat × Nat → Nat × Nat) → Nat → Nat × Nat
  | 0, place, _ => place (0, 0)
  | k + 1, place, j =>
    let s := 2 ^ k
    let q := fun (t : Nat) (p : Nat × Nat) => place (hilbertTurn s t p)
    let n := fun (t : Nat) =>
      let a := q t (0, 0)
      let b := q t (s - 1, s - 1)
      squareCount gx gy (min a.1 b.1) (min a.2 b.2) s
    if j < n 0 then hilbertPoint gx gy k (q 0) j
    else if j < n 0 + n 1 then hilbertPoint gx gy k (q 1) (j - n 0)
    else if j < n 0 + n 1 + n 2 then hilbertPoint gx gy k (q 2) (j - n 0 - n 1)
    else hilbertPoint gx gy k (q 3) (j - n 0 - n 1 - n 2)

/-- The least k with 2^k ≥ n, for n ≥ 1. -/
def ceilLog (n : Nat) : Nat := Nat.log2 (2 * n - 1)

/-- The coordinates of traversal index `i`. -/
def traverse (order swz gx gy i : Nat) : Nat × Nat × Nat :=
  let z := i / (gx * gy)
  let j := i % (gx * gy)
  let w := 2 ^ swz
  let p : Nat × Nat :=
    match order with
    | 0 =>
      let b0 := j / (w * gx) * w
      let h := min w (gy - b0)
      let r := j % (w * gx)
      (r / h, b0 + r % h)
    | 1 =>
      let b0 := j / (w * gy) * w
      let v := min w (gx - b0)
      let r := j % (w * gy)
      (b0 + r % v, r / v)
    | 2 => mortonPoint gx gy (ceilLog (max gx gy)) 0 0 j
    | _ => hilbertPoint gx gy (ceilLog (max gx gy)) id j
  (p.1, p.2, z)

/-! ### The dispenser (15 R354, R357) -/

/-- The dies on which the launch started. -/
def Launch.dies (l : Launch) : List Nat := (List.range 8).filter l.homes.contains
/-- The die whose dispenser serves a core of the launch. -/
def Launch.homeOf (l : Launch) (vcore : Half) : Nat := l.homes.getD vcore.toNat 0
def Launch.records (l : Launch) : Nat := ceilDiv l.groups l.task
/-- The next record of a die's dispenser for the launch. -/
def Launch.nextRecord (l : Launch) (die : Nat) : Nat :=
  ((l.dies.idxOf? die).getD 0) + tget 0 l.handed die * l.dies.length

/-- A marked quad's cores are withheld (15 R357), and those of a quad that is out of service, being saved or marking (18 R419;
16 R381, R384). -/
def State.withheld (s : State) (q : Nat) : Bool :=
  (s.quad q).hot || s.overBudget q || (s.quad q).out || decide ((s.quad q).op ≠ .none) || (s.quad q).held

def rangeWord (b e : Nat) : Word := BitVec.ofNat 64 (e * 2 ^ 32 + b)
def rangeBegin (w : Word) : Nat := fieldNat w 0 32
def rangeEnd (w : Word) : Nat := fieldNat w 32 32

/-- A request for a task record: the four words. -/
def takeTask (s : State) (c : Cid) : Vector Word 4 × State :=
  match (s.core c).launch with
  | none => (Vector.replicate 4 0, s)
  | some n =>
    match tget? s.launches n with
    | none => (Vector.replicate 4 0, s)
    | some l =>
      if s.withheld c.quad then (Vector.replicate 4 0, s)
      else
        let d := l.homeOf (s.core c).vcore
        let k := l.nextRecord d
        if l.records ≤ k then (#v[BitVec.ofNat 64 (2 ^ 62), 0, 0, 0], s)
        else
          let b := k * l.task
          let e := min (b + l.task) l.groups
          let p := traverse (l.fld 0x30 0 2) (l.fld 0x30 2 4) l.gx l.gy b
          (#v[BitVec.ofNat 64 (2 ^ 63 + (e - b) * 2 ^ 32 + k), rangeWord b e,
              BitVec.ofNat 64 (p.2.2 * 2 ^ 42 + p.2.1 * 2 ^ 21 + p.1), 0],
           s.modLaunch n fun x => { x with handed := tset x.handed d (tget 0 x.handed d + 1) })

/-! ### The deque (08 R263) -/

def execDpush (d : WReg) (a : SSrc) (s : State) : Out :=
  issue s [useS a] [d.code] false fun s =>
    let c := s.coreId s.cur
    let w := s.valS a.reg
    let dq := (s.core c).deque
    if rangeEnd w ≤ rangeBegin w then (s.setW d 2).retire [useS a]
    else if 32 ≤ dq.length then (s.setW d 1).retire [useS a]
    else ((s.modCore c fun k => { k with deque := k.deque ++ [w] }).setW d 0).retire [useS a]

def execDsplit (d : WReg) (s : State) : Out :=
  issue s [] [d.code] false fun s =>
    let c := s.coreId s.cur
    match (s.core c).deque with
    | [] => (s.setW d 1).retire []
    | w :: rest =>
      let b := rangeBegin w
      let e := rangeEnd w
      if e < b + 2 then (s.setW d 1).retire []
      else if 32 ≤ rest.length + 1 then (s.setW d 2).retire []
      else
        let m := b + (e - b) / 2
        ((s.modCore c fun k => { k with deque := rangeWord b m :: rangeWord m e :: rest }).setW d 0).retire []

def execDlen (d : WReg) (s : State) : Out :=
  issue s [] [d.code] false fun s => (s.setW d (BitVec.ofNat 64 (s.coreOf s.cur).deque.length)).retire []

/-- The physical stop of a virtual quad, and the virtual quad at a stop (18 R422; 19 R435). -/
def State.stopOf (s : State) (q : Nat) : Nat := tget (vqOf q) s.vqmap q
def State.quadAtStop (s : State) (die stop : Nat) : Option Nat :=
  ((List.range s.activeQuads).map fun v => die * 120 + v).find? fun q => decide (s.stopOf q = stop)

/-- The neighbouring stops on the 12 × 10 mesh: east, south, west, north. -/
def neighbours (stop : Nat) : List Nat :=
  let x := stop % 12
  let y := stop / 12
  (if x < 11 then [stop + 1] else []) ++ (if y < 9 then [stop + 12] else []) ++ (if 0 < x then [stop - 1] else []) ++
    (if 0 < y then [stop - 12] else [])

/-- The neighbouring quads a thief probes: at most three that hold cores of launch `n`. -/
def State.probes (s : State) (c : Cid) (n : Nat) : List Nat :=
  (((neighbours (s.stopOf c.quad)).filterMap fun p => s.quadAtStop (dieOf c.quad) p).filter fun q =>
    !(s.quad q).out && (coreCids q).any fun k => decide ((s.core k).launch = some n)).take 3

/-- A core of the launch with a range to steal. -/
def State.hasWork (s : State) (n : Nat) (c : Cid) : Bool := decide ((s.core c).launch = some n) && !(s.core c).deque.isEmpty

/-- The thief's half of the victim's oldest range. -/
def stealFrom (s : State) (v : Cid) : Word × State :=
  match (s.core v).deque with
  | [] => (0, s)
  | w :: rest =>
    let b := rangeBegin w
    let e := rangeEnd w
    let h := ceilDiv (e - b) 2
    (rangeWord (e - h) e, s.modCore v fun k => { k with deque := if h = e - b then rest else rangeWord b (e - h) :: rest })

/-- Nothing is left for the launch on a core's die. -/
def State.exhausted (s : State) (n : Nat) (l : Launch) (c : Cid) : Bool :=
  let here := l.cores.filter fun d => decide (dieOf d.quad = dieOf c.quad) && decide ((s.core d).launch = some n)
  (here.all fun d => (s.core d).deque.isEmpty && decide (l.records ≤ l.nextRecord (l.homeOf (s.core d).vcore))) &&
  here.all fun c => (slotsOf c).all fun t => (s.th t).pend.all fun p => decide (p.kind ≠ .steal)

/-- A range found, with the turns until it is there; or a status, with the turns until it is known. -/
def steal (s : State) (c : Cid) (n : Nat) (l : Launch) : (Word × Nat × Nat) × State :=
  let sib : Option Cid := ([1, 2, 3].map fun i => ({ quad := c.quad, core := Fin.ofNat 4 (c.core.val + i) } : Cid)).find? (s.hasWork n)
  match sib with
  | some v => let r := stealFrom s v; ((r.1, 0, 2), r.2)
  | none =>
    let ps := s.probes c n
    match (ps.zipIdx).findSome? fun p => ((coreCids p.1).find? (s.hasWork n)).map fun v => (v, p.2 + 1) with
    | some (v, k) => let r := stealFrom s v; ((r.1, 0, 4 * k + 1), r.2)
    | none => ((0, if s.exhausted n l c then 2 else 1, 4 * ps.length + 1), s)

def execDpop (d : Fin 32) (s : State) : Out :=
  if h : d.val = 0 ∨ d.val = 31 then .next (illegalMe s)
  else
    let d1 : Fin 32 := ⟨d.val + 1, by omega⟩
    issue s [] [d.val, d1.val] false fun s =>
      let c := s.coreId s.cur
      let both := fun (s : State) (r : Word) (st : Nat) => ((s.setW (.g d) r).setW (.g d1) (BitVec.ofNat 64 st)).retire []
      match (s.core c).deque.reverse with
      | w :: rest => both (s.modCore c fun k => { k with deque := rest.reverse }) w 0
      | [] =>
        match (s.core c).launch with
        | none => both s 0 1
        | some n =>
          match tget? s.launches n with
          | none => both s 0 1
          | some l =>
            if s.withheld c.quad then both s 0 1
            else
              let x := steal s c n l
              let kind : PKind := if x.1.2.1 = 0 then .steal else .remote
              ((x.2.pendW d.val x.1.1 x.1.2.2 kind 0).pendW d1.val (BitVec.ofNat 64 x.1.2.1) x.1.2.2 kind 0).retire []

end Sys2Proof.Machine
end

