-- ==== Sys2Proof/Machine/Harts.lean ====
section
/-! DEFINITION. The harts (08 R273): registers, CSRs, taking an exception or an interrupt and returning from one, and their
accesses to memory: a control thread's through the shared translation (16 R369 to R373, R379), a management core's through
its local map first (20 R458, R492). What the RISC-V privileged architecture fixes and the manual only names is log 5. -/

namespace Sys2Proof.Machine

/-! ### Registers -/

abbrev State.hme (s : State) : Hart := s.ht s.hart
def Hart.rd (h : Hart) (n : XReg) : Word := if n.val = 0 then 0 else h.x[n]
def State.hx (s : State) (n : XReg) : Word := s.hme.rd n
def State.setX (s : State) (n : XReg) (v : Word) : State :=
  if n.val = 0 then s else s.modHt s.hart fun h => { h with x := h.x.set n.val v }
/-- The end of a hart's instruction of `len` bytes. -/
def hretire (s : State) (len : Nat) : State :=
  s.modHt s.hart fun h => { h with pc := h.pc + BitVec.ofNat 64 len, instret := h.instret + 1 }

/-- The core of a control thread. -/
def hidCore : Hid → Option Cid
  | .ctl c => some c
  | .mgmt _ => none

/-! ### CSRs -/

/-- `kztcmp` resets to all ones (15 R352); `mcounteren` and `scounteren` leave `cycle`, `time` and `instret` open (log 5); every
other cell resets to zero. -/
def csrDefault (n : Nat) : Word := if n = 0x8C0 then BitVec.allOnes 64 else if n = 0x306 ∨ n = 0x106 then 7 else 0
def State.csr (s : State) (h : Hid) (n : Nat) : Word := cget 0 (s.ht h).csrs n ^^^ csrDefault n
def State.setCsr (s : State) (h : Hid) (n : Nat) (v : Word) : State :=
  s.modHt h fun x => { x with csrs := cset 0 x.csrs n (v ^^^ csrDefault n) }

/-- Writable bits of `mstatus` and `sstatus`; XLEN of S and U is fixed at 64. -/
def mstatusMask : Word := 0x7A19AA
def sstatusMask : Word := 0x80122
def mstatusFixed : Word := 0xA00000000
def sstatusFixed : Word := 0x200000000
/-- Interrupts a hart has: the standard six, and for a control thread causes 16 and 17 (08 R272; 15 R352). -/
def intMask (h : Hid) : Word :=
  match h with
  | .ctl _ => 0x30AAA
  | .mgmt _ => 0xAAA
def delegMask (h : Hid) : Word := intMask h &&& 0x30222
/-- RV64 with A, C, I, M, S and U. -/
def misaValue : Word := 0x8000000000141105

/-- `time`: turns since the quad left reset; on a management core, microseconds (08 R273; 20 R492; log 6). -/
def State.hartTime (s : State) (h : Hid) : Word :=
  match h with
  | .ctl c => BitVec.ofNat 64 (s.turn c.quad)
  | .mgmt _ => BitVec.ofNat 64 (s.cycle / 1000)
def State.hartCycle (s : State) (h : Hid) : Word :=
  match h with
  | .ctl c => BitVec.ofNat 64 (s.cycle - (s.quad c.quad).base)
  | .mgmt _ => BitVec.ofNat 64 s.cycle

/-- A unit of a core is stopped, or idle (08 R272): not while saved. -/
def State.kzstp (s : State) (c : Cid) : Word :=
  BitVec.ofNat 64 ((List.finRange 18).foldl (fun n u => n + b2n (s.th (unitTid c u)).halted * 2 ^ u.val) 0)
def State.kzlse (s : State) (c : Cid) : Word :=
  let l := s.lease c.quad
  let held := decide (l.holder = some c.core)
  BitVec.ofNat 64 ((if held then (32768 - (s.cycle - l.since)) * 2 ^ 16 + (64 - l.cmds) * 2 ^ 8 else 0) +
    b2n (bitAt l.posted c.core.val) * 2 + b2n held)

/-- Pending interrupts: those that hardware holds, over the ones that software sets. -/
def State.mip (s : State) (h : Hid) : Word :=
  let soft := s.csr h 0x344 &&& 0x222
  match h with
  | .ctl c =>
    soft ||| (if bitAt (s.reg (quadBase c.quad + 0x10)) c.core.val then 8 else 0) |||
      (if (s.core c).kzfp ≠ 0 then 0x10000 else 0) ||| (if (s.csr h 0x8C0).toNat ≤ (s.hartTime h).toNat then 0x20000 else 0)
  | .mgmt n => soft ||| (if n.val = 0 ∧ bitAt (s.reg 0xFF000020020000) 0 then 0x800 else 0)

/-- The value of a CSR; none where there is no such CSR. -/
def State.csrRead (s : State) (h : Hid) (n : Nat) : Option Word :=
  let st := (s.csr h 0x300 &&& mstatusMask) ||| mstatusFixed
  match n with
  | 0x100 => some ((st &&& sstatusMask) ||| sstatusFixed)
  | 0x104 => some (s.csr h 0x304 &&& s.csr h 0x303)
  | 0x144 => some (s.mip h &&& s.csr h 0x303)
  | 0x300 => some st
  | 0x301 => some misaValue
  | 0x344 => some (s.mip h)
  | 0xB00 | 0xC00 => some (s.hartCycle h + s.csr h 0xB00)
  | 0xC01 => some (s.hartTime h)
  | 0xB02 | 0xC02 => some (BitVec.ofNat 64 (s.ht h).instret)
  | 0xF14 => some (match h with
      | .mgmt n => BitVec.ofNat 64 n.val
      | .ctl c => BitVec.ofNat 64 (4 + c.quad * 4 + c.core.val))
  | 0x180 | 0xF11 | 0xF12 | 0xF13 | 0xF15 | 0x320 => some 0
  | 0x105 | 0x106 | 0x10A | 0x140 | 0x141 | 0x142 | 0x143 | 0x302 | 0x303 | 0x304 | 0x305 | 0x306 | 0x30A | 0x340 | 0x341
  | 0x342 | 0x343 => some (s.csr h n)
  | _ =>
    match h with
    | .ctl c =>
      if n = 0x8C0 then some (s.csr h n)
      else if n = 0xCC0 then some ((s.core c).kzfp.setWidth 64)
      else if n = 0xCC1 then some (s.kzstp c)
      else if n = 0xCC2 then some (s.kzlse c)
      else if (0xB03 ≤ n ∧ n < 0xB20) ∨ (0xC03 ≤ n ∧ n < 0xC20) ∨ (0x323 ≤ n ∧ n < 0x340) ∨ (0x3B0 ≤ n ∧ n < 0x3F0) ∨ (0x3A0 ≤ n ∧ n < 0x3B0 ∧ n % 2 = 0) then some 0
      else none
    | .mgmt _ =>
      if (0xB03 ≤ n ∧ n < 0xB20) ∨ (0xC03 ≤ n ∧ n < 0xC20) ∨ (0x323 ≤ n ∧ n < 0x340) ∨ (0x3B0 ≤ n ∧ n < 0x3F0) ∨ (0x3A0 ≤ n ∧ n < 0x3B0 ∧ n % 2 = 0) then some 0
      else none

/-- A counter is open to the present level. -/
def State.counterOpen (s : State) (h : Hid) (n : Nat) : Bool :=
  let i := n - 0xC00
  match (s.ht h).priv with
  | .m => true
  | .s => bitAt (s.csr h 0x306) i
  | .u => bitAt (s.csr h 0x306) i && bitAt (s.csr h 0x106) i

def privNat : Priv → Nat
  | .u => 0
  | .s => 1
  | .m => 3

/-- The present level may name the CSR. -/
def State.csrMay (s : State) (h : Hid) (n : Nat) (write : Bool) : Bool :=
  decide (n / 256 % 4 ≤ privNat (s.ht h).priv) && !(write && decide (3 * 1024 ≤ n)) &&
  (if 0xC00 ≤ n ∧ n < 0xC20 then s.counterOpen h n else true) &&
  !(n == 0x180 && decide ((s.ht h).priv = .s) && bitAt (s.csr h 0x300) 20)

def legalMpp (old v : Word) : Word := if fieldNat v 11 2 = 2 then setField v 11 2 (fieldNat old 11 2) else v

/-- `kztcmp` written; the stall timer's pending bit follows (15 R352). -/
def setKztcmp (s : State) (h : Hid) (v : Word) : State := s.setCsr h 0x8C0 v

/-- A CSR written. -/
def csrWrite (s : State) (h : Hid) (n : Nat) (v : Word) : State :=
  let upd := fun (n : Nat) (m w : Word) => s.setCsr h n ((s.csr h n &&& ~~~m) ||| (w &&& m))
  match n with
  | 0x100 => upd 0x300 sstatusMask v
  | 0x300 => upd 0x300 mstatusMask (legalMpp (s.csr h 0x300) v)
  | 0x104 => upd 0x304 (s.csr h 0x303) v
  | 0x304 => upd n (intMask h) v
  | 0x144 => upd 0x344 (s.csr h 0x303 &&& 2) v
  | 0x344 => upd n 0x222 v
  | 0x302 => upd n 0xB3FF v
  | 0x303 => upd n (delegMask h) v
  | 0x105 | 0x305 => upd n (~~~(2 : Word)) v
  | 0x106 | 0x306 => upd n 7 v
  | 0x10A | 0x30A => upd n 1 v
  | 0x141 | 0x341 => upd n (~~~(1 : Word)) v
  | 0x140 | 0x142 | 0x143 | 0x340 | 0x342 | 0x343 => s.setCsr h n v
  | 0xB00 => s.setCsr h n (v - s.hartCycle h)
  | 0xB02 => s.modHt h fun x => { x with instret := v.toNat }
  | 0x8C0 => setKztcmp s h v
  | _ => s

/-! ### Taking a trap, and returning from one -/

/-- An exception or interrupt is taken: saved pc, cause, value and status; the level and the pc change. -/
def takeTrap (s : State) (h : Hid) (int : Bool) (cause : Nat) (tval : Word) : State :=
  let x := s.ht h
  let ms := s.csr h 0x300
  let toS := decide (x.priv ≠ .m) && bitAt (s.csr h (if int then 0x303 else 0x302)) cause
  let code : Word := BitVec.ofNat 64 (b2n int * 2 ^ 63 + cause)
  let entry := fun (v : Word) => (v &&& ~~~3) + (if int && bitAt v 0 then BitVec.ofNat 64 (4 * cause) else 0)
  let s := match hidCore h with
    | some c => s.modCore c fun k => { k with taskDue := none }
    | none => s
  if toS then
    let st := setField (setField (setField ms 5 1 (fieldNat ms 1 1)) 1 1 0) 8 1 (b2n (decide (x.priv = .s)))
    let s := (((s.setCsr h 0x141 x.pc).setCsr h 0x142 code).setCsr h 0x143 tval).setCsr h 0x300 st
    s.modHt h fun y => { y with priv := .s, pc := entry (s.csr h 0x105), wfi := false }
  else
    let st := setField (setField (setField ms 7 1 (fieldNat ms 3 1)) 3 1 0) 11 2 (privNat x.priv)
    let s := (((s.setCsr h 0x341 x.pc).setCsr h 0x342 code).setCsr h 0x343 tval).setCsr h 0x300 st
    s.modHt h fun y => { y with priv := .m, pc := entry (s.csr h 0x305), wfi := false }

/-- An exception of the current hart's instruction. -/
def State.except (s : State) (cause : Nat) (tval : Word) : State := takeTrap s s.hart false cause tval
def hartIllegal (s : State) : State := s.except 2 0

def privOf : Nat → Priv
  | 0 => .u
  | 1 => .s
  | _ => .m

/-- `mret` and `sret`: the level, the interrupt enable and the pc come back. -/
def trapReturn (s : State) (h : Hid) (fromM : Bool) : State :=
  let ms := s.csr h 0x300
  let p := if fromM then privOf (fieldNat ms 11 2) else privOf (fieldNat ms 8 1)
  let st := if fromM then setField (setField (setField ms 3 1 (fieldNat ms 7 1)) 7 1 1) 11 2 0
    else setField (setField (setField ms 1 1 (fieldNat ms 5 1)) 5 1 1) 8 1 0
  let st := if p = .m then st else setField st 17 1 0
  let s := s.setCsr h 0x300 st
  s.modHt h fun x => { x with priv := p, pc := s.csr h (if fromM then 0x341 else 0x141), instret := x.instret + 1 }

/-- The order among pending interrupts of one level (08 R272). -/
def intOrder : List Nat := [11, 3, 7, 9, 1, 5, 16, 17]

/-- The interrupt that the hart takes at its next boundary. -/
def State.takenInt (s : State) (h : Hid) : Option Nat :=
  let x := s.ht h
  let p := s.mip h &&& s.csr h 0x304
  let ms := s.csr h 0x300
  let toM := if x.priv ≠ .m ∨ bitAt ms 3 then p &&& ~~~(s.csr h 0x303) else 0
  let toS := if x.priv = .u ∨ (x.priv = .s ∧ bitAt ms 1) then p &&& s.csr h 0x303 else 0
  match intOrder.find? (bitAt toM) with
  | some i => some i
  | none => intOrder.find? (bitAt toS)

/-- `wfi` ends when an enabled interrupt is pending, whether or not it is taken. -/
def State.wfiOver (s : State) (h : Hid) : Bool := s.mip h &&& s.csr h 0x304 ≠ 0

/-! ### The management cores' local map (20 R458) -/

def localBase : Nat := 0xFF000000000000
/-- A byte of the mask ROM. -/
def romAt (o : Nat) : Byte :=
  if 0xFF00 ≤ o ∧ o < 0xFF20 then (natBE 32 Config.vendorKeyHash.toNat).getD (o - 0xFF00) 0
  else if o = 0xFF20 then BitVec.ofNat 8 Config.minSvn.toNat
  else if o = 0xFF21 then BitVec.ofNat 8 (Config.minSvn.toNat / 256)
  else Config.romByte o
def sramSize : Nat := 0x80000

/-- The registers of the crypto engine, the measurement unit, the mailbox with the host ring, and the boot-partition reader
are kept under their local addresses. -/
def State.lreg (s : State) (o : Nat) : Word := s.reg (localBase + o)
def State.setLreg (s : State) (o : Nat) (v : Word) : State := s.setReg (localBase + o) v

/-- An eight-byte register of the local map as it reads. -/
def State.localReg (s : State) (o : Nat) : Word :=
  let b := o % 0x10000
  if 0x20040000 ≤ o then s.regRead .mgmt b
  else if 0x20010000 ≤ o ∧ o < 0x20010200 then
    BitVec.ofNat 64 (leNat (((natBE 32 (s.mr[Fin.ofNat 16 (b / 32)]).toNat).drop (b % 32)).take 8))
  else s.lreg o

/-- A read of the local map: none is an access fault. A register gives those of its bytes that are asked for (21 R468). -/
def localRead (s : State) (o n : Nat) : Option Nat :=
  if o < 0x10000 then some (leNat ((rangeFrom o n).map romAt))
  else if 0x10000000 ≤ o ∧ o < 0x10000000 + sramSize then some (Mem.readN s.sram (o - 0x10000000) n)
  else if 0x20021000 ≤ o ∧ o < 0x20022000 then some (Mem.readN s.reqbuf (o - 0x20021000) n)
  else if 0x20022000 ≤ o ∧ o < 0x20023000 then some (Mem.readN s.rspbuf (o - 0x20022000) n)
  else if 0x20000000 ≤ o ∧ o < 0x20050000 then some ((s.localReg (o / 8 * 8)).toNat / 2 ^ (8 * (o % 8)) % 2 ^ (8 * n))
  else none

/-- What a write of the crypto engine's control starts (20 R461). -/
def ceOp : Nat → Option Instr
  | 1 => some .ceHinit
  | 2 => some .ceHupd
  | 3 => some .ceHfin
  | 4 => some .ceVerify
  | 5 => some .ceSign
  | 6 => some .ceRand
  | 7 => some .ceDevpub
  | 8 => some .ceLinkkey
  | 9 => some .ceEcdh
  | _ => none

/-- A write of `old` that reaches only the bits of `m`. -/
def maskWrite (old m v : Word) : Word := (old &&& ~~~m) ||| (v &&& m)

/-- The crypto engine's control: OP 0 and 10 to 15 end at once with STATUS 0x06. -/
def writeCectl (s : State) (v : Word) : State :=
  let s := s.setLreg 0x20000000 (maskWrite (s.lreg 0x20000000) 0x1F00 v)
  if !bitAt v 0 || bitAt (s.lreg 0x20000000) 63 then s
  else
    match ceOp (fieldNat v 8 4) with
    | some i => s.enqueue i
    | none => s.setLreg 0x20000000 (setField (s.lreg 0x20000000) 48 8 6)

/-- A write of an eight-byte register of the local map. -/
def localRegWrite (s : State) (o : Nat) (v : Word) : State :=
  let keep := fun (m : Word) => s.setLreg o (maskWrite (s.lreg o) m v)
  let low : Word := 0xFFFFFFFF
  match o with
  | 0x20000000 => writeCectl s v
  | 0x20000008 | 0x20000018 | 0x20000020 => keep (BitVec.allOnes 64)
  | 0x20000010 => keep low
  | 0x20010200 =>
    let s := keep 0xF00
    if bitAt v 0 && !bitAt (s.lreg o) 63 then s.enqueue .mrExtend else s
  | 0x20010208 => keep (BitVec.allOnes 64)
  | 0x20010210 => s.enqueue (.mrlockWrite v)
  | 0x20020000 => if bitAt v 0 then s.enqueue .mbxRequestClear else s
  | 0x20020008 =>
    if bitAt v 0 then s.enqueue (.mbxResponsePost (BitVec.ofNat 16 (fieldNat v 16 16))) else keep 0xFFFF0000
  | 0x20020118 => s.enqueue (.hrheadAdvance v)
  | 0x20030000 =>
    let s := keep 0x100
    if bitAt v 0 && !bitAt (s.lreg o) 63 then s.enqueue .bpCopy else s
  | 0x20030008 | 0x20030010 => keep low
  | 0x20030018 => keep (BitVec.allOnes 64)
  | _ => s

/-- A write of the local map: none is an access fault. -/
def localWrite (s : State) (trusted : Bool) (o n v : Nat) : Option State :=
  if o < 0x10000 then none
  else if 0x10000000 ≤ o ∧ o < 0x10000000 + sramSize then some { s with sram := Mem.writeN s.sram (o - 0x10000000) n v }
  else if 0x20021000 ≤ o ∧ o < 0x20022000 then some { s with reqbuf := Mem.writeN s.reqbuf (o - 0x20021000) n v }
  else if 0x20022000 ≤ o ∧ o < 0x20023000 then some { s with rspbuf := Mem.writeN s.rspbuf (o - 0x20022000) n v }
  else if 0x20040000 ≤ o ∧ o < 0x20050000 then
    some (if n ≠ 8 then s
      else if trusted then s.enqueue (regEvent .mgmt (o - 0x20040000) (BitVec.ofNat 64 v))
      else violation s 0xFFFF 0 2 (BitVec.ofNat 64 (localBase + o)))
  else if 0x20000000 ≤ o ∧ o < 0x20050000 then some (if n = 8 then localRegWrite s o (BitVec.ofNat 64 v) else s)
  else none

/-! ### Accesses -/

/-- What a hart's access came to: a value, or the cause of an access fault; `stall` waits for the store queue. -/
inductive HGot where
  | ok (v : Nat) | fault | stall
  deriving DecidableEq, Repr

/-- The level at which a hart's loads and stores are made: MPRV lends them the level of MPP. -/
def State.effPriv (s : State) (h : Hid) : Priv :=
  let ms := s.csr h 0x300
  if (s.ht h).priv = .m ∧ bitAt ms 17 then privOf (fieldNat ms 11 2) else (s.ht h).priv

/-- A control thread's access that ends its task (16 R373); `rv` is the RISC-V cause. -/
def hartEnds (s : State) (c : Cid) (rv : Nat) (a : Nat) : State := endTask s c 31 (rv + 0x80) (BitVec.ofNat 64 a)

/-- The lease and rights of a control thread's access below M. -/
def State.hartMay (s : State) (c : Cid) (p : Priv) (a n : Nat) (r : Rights) : Bool := decide (p = .m) || s.leased c a n r

def ctlAsker (s : State) (c : Cid) (p : Priv) : Asker := { s.asker c with trusted := decide (p = .m) }

/-- The control thread does nothing more until an access of `lat` turns is over: one turn is a hit in the L1, of four cycles, or
eight in a fused one (10 R302; log 84). -/
def hartWait (s : State) (c : Cid) (lat : Nat) : State :=
  let d := if lat ≤ 1 then s.cycle + (if s.fusedL1 c then 8 else 4) else s.inTurns c.quad lat
  s.modHt (.ctl c) fun h => { h with due := max h.due d }

/-- A write by the current hart ends the reservations that others hold in its line (08 R273). -/
def breakResv (s : State) (a : Nat) : State :=
  { s with harts := s.harts.map fun e =>
    if e.1 ≠ s.hart ∧ (e.2.resv.any fun g => decide (g / 8 = a / 64)) = true then (e.1, { e.2 with resv := none }) else e }

/-- A control thread's load. -/
def ctlLoad (s : State) (c : Cid) (p : Priv) (pc : Word) (a n : Nat) : HGot × State :=
  if 2 ^ 56 ≤ a then (.fault, s)
  else if !s.hartMay c p a n rR then (.fault, hartEnds s c 5 a)
  else
    let r := s.req c 0
    match s.ioLeaf r a with
    | some l =>
      let x := pageLoad (translate s r.walker a false).2 (ctlAsker s c p) l.leaf a (l.pa + a % l.span) n
      (.ok x.1.toNat, hartWait x.2 c 16)
    | none =>
      let x := l1Read s c r pc a n
      let t := hartWait x.2 c x.1.lat
      match x.1.fail with
      | some f => (.fault, if f = 0x0A then t else hartEnds t c 5 a)
      | none => (.ok (dataNat x.1.data (a % 64) n), t)

/-- A control thread's store, posted in the core's store queue (06 R169). -/
def ctlStore (s : State) (c : Cid) (p : Priv) (a n v : Nat) : HGot × State :=
  if 2 ^ 56 ≤ a then (.fault, s)
  else if !s.hartMay c p a n rW then (.fault, hartEnds s c 7 a)
  else if 32 ≤ s.sqUsed c then (.stall, s)
  else
    let r := s.req c 1
    match s.ioLeaf r a with
    | some l =>
      (.ok 0, pageStore (translate s r.walker a false).2 (ctlAsker s c p) l.leaf a (l.pa + a % l.span) n (BitVec.ofNat 64 v))
    | none =>
      let x := writeGlobal s c a (natLE n v)
      match x.1.1 with
      | some _ => (.fault, hartEnds x.2 c 7 a)
      | none => (.ok 0, { breakResv x.2 a with
          sq := x.2.sq ++ [⟨x.2.fresh, c, 18, [a / 64], x.1.2, x.2.inTurns c.quad 4⟩], fresh := x.2.fresh + 1 })

/-- A control thread's read and write of `n` bytes, indivisibly at the home of their line. -/
def ctlAtomic (s : State) (c : Cid) (p : Priv) (a n : Nat) (f : Nat → Option Nat) : HGot × State :=
  if 2 ^ 56 ≤ a then (.fault, s)
  else if !s.hartMay c p a n rRW then (.fault, hartEnds s c 7 a)
  else
    let x := atomicAt s c a n f
    let t := hartWait x.2 c x.1.lat
    match x.1.fail with
    | some e => (.fault, if e = 0x0A then t else hartEnds t c 7 a)
    | none => (.ok x.1.val, if (f x.1.val).isSome then breakResv t a else t)

/-- The read of a load-reserve: at the home of its line, as an atomic's is (log 61). -/
def ctlReserve (s : State) (c : Cid) (p : Priv) (a n : Nat) : HGot × State :=
  if 2 ^ 56 ≤ a ∨ !s.hartMay c p a n rR ∨ (s.ioLeaf (s.req c 0) a).isSome then ctlLoad s c p 0 a n
  else
    let x := atomicAt s c a n fun _ => none
    let t := hartWait x.2 c x.1.lat
    match x.1.fail with
    | some e => (.fault, if e = 0x0A then t else hartEnds t c 5 a)
    | none => (.ok x.1.val, t)

/-- The halfword at an address of a line. -/
def halfAt (line : Vector Half 32) (a : Nat) : Nat := (line.toList.getD (a % 64 / 2) 0).toNat

/-- Two bytes of an instruction of a control thread, by its own instruction cache; a miss brings the line through the die's L2,
and the fetch is made again when it is there (02 R22; 10 R302; log 84). A register page gives zeros (16 R378). -/
def ctlFetch (s : State) (c : Cid) (a : Nat) : HGot × State :=
  if 2 ^ 56 ≤ a then (.fault, s)
  else if !s.hartMay c (s.ht (.ctl c)).priv a 2 rX then (.fault, hartEnds s c 1 a)
  else
    match (s.core c).ctlIcache.find? fun (l : ICLine) => decide (l.line = a / 64) with
    | some l =>
      let hit := fun (x : ICLine) => if x.line = l.line then { x with used := s.cycle } else x
      (.ok (halfAt l.data a), s.modCore c fun k => { k with ctlIcache := k.ctlIcache.map hit })
    | none =>
      let r := s.req c 3
      match s.ioLeaf r a with
      | some l =>
        let x := pageLoad (translate s r.walker a false).2 (ctlAsker s c (s.ht (.ctl c)).priv) l.leaf a (l.pa + a % l.span) 2
        (.ok x.1.toNat, hartWait x.2 c 16)
      | none =>
        let x := l2Read s r (a / 64) (BitVec.allOnes 64)
        match x.1.fail with
        | some f => (.fault, if f = 0x0A then x.2 else hartEnds x.2 c 1 a)
        | none =>
          (.stall, hartWait (x.2.modCore c fun k => ctlIcFill k s.cycle (a / 64) (dataHalves x.1.data) x.1.kdom) c x.1.lat)

/-- `fence.i`: what a control thread fetches from then on it reads anew (07 R226; 08 R273). -/
def hartFenceI (s : State) : State :=
  match s.hart with
  | .ctl c => s.modCore c fun k => { k with ctlIcache := [] }
  | .mgmt _ => s

def mgmtAsker (s : State) (h : Hid) : Asker := ⟨0xFFFF, 0, decide (s.effPriv h = .m)⟩
def mgmtWalker : Walker := ⟨none, none⟩

/-- A management core's read, outside the local map at the home MLC or the register page (20 R492). -/
def mgmtLoad (s : State) (h : Hid) (a n : Nat) : HGot × State :=
  if localBase ≤ a ∧ a < 2 ^ 56 then
    if 0x20040000 ≤ a - localBase ∧ a - localBase < 0x20050000 ∧ s.effPriv h ≠ .m then
      (.ok 0, violation s 0xFFFF 0 1 (BitVec.ofNat 64 a))
    else match localRead s (a - localBase) n with
      | some v => (.ok v, s)
      | none => (.fault, s)
  else if 2 ^ 56 ≤ a then (.fault, s)
  else
    match translate s mgmtWalker a false with
    | (.error _, s) => (.fault, s)
    | (.ok l, s) =>
      let pa := l.pa + a % l.span
      if leafIO l.leaf then
        let x := pageLoad s (mgmtAsker s h) l.leaf a pa n
        (.ok x.1.toNat, x.2)
      else
        let m := mlcRead s s.cycle (pa / 64) (leafKdom l.leaf) none 512
        if m.2.1 then (.fault, m.2.2) else (.ok (Mem.readN m.2.2.mem pa n), m.2.2)

def mgmtStore (s : State) (h : Hid) (a n v : Nat) : HGot × State :=
  if localBase ≤ a ∧ a < 2 ^ 56 then
    match localWrite s (decide (s.effPriv h = .m)) (a - localBase) n v with
    | some s => (.ok 0, breakResv s a)
    | none => (.fault, s)
  else if 2 ^ 56 ≤ a then (.fault, s)
  else
    match translate s mgmtWalker a true with
    | (.error _, s) => (.fault, s)
    | (.ok l, s) =>
      let pa := l.pa + a % l.span
      if leafIO l.leaf then (.ok 0, pageStore s (mgmtAsker s h) l.leaf a pa n (BitVec.ofNat 64 v))
      else
        (.ok 0, breakResv (mlcWrite s (pa / 64) (leafKdom l.leaf) none false fun m => Mem.writeN m pa n v) a)

def mgmtAtomic (s : State) (h : Hid) (a n : Nat) (f : Nat → Option Nat) : HGot × State :=
  match mgmtLoad s h a n with
  | (.ok v, s) => match f v with
    | some w => match mgmtStore s h a n w with
      | (.ok _, s) => (.ok v, s)
      | r => r
    | none => (.ok v, s)
  | r => r

def hartLoad (s : State) (a n : Nat) : HGot × State :=
  match s.hart with
  | .ctl c => ctlLoad s c (s.effPriv s.hart) s.hme.pc a n
  | .mgmt _ => mgmtLoad s s.hart a n
def hartStore (s : State) (a n v : Nat) : HGot × State :=
  match s.hart with
  | .ctl c => ctlStore s c (s.effPriv s.hart) a n v
  | .mgmt _ => mgmtStore s s.hart a n v
def hartReserve (s : State) (a n : Nat) : HGot × State :=
  match s.hart with
  | .ctl c => ctlReserve s c (s.effPriv s.hart) a n
  | .mgmt _ => mgmtLoad s s.hart a n
def hartAtomic (s : State) (a n : Nat) (f : Nat → Option Nat) : HGot × State :=
  match s.hart with
  | .ctl c => ctlAtomic s c (s.effPriv s.hart) a n f
  | .mgmt _ => mgmtAtomic s s.hart a n f

/-- Two bytes of an instruction. -/
def hartFetch2 (s : State) (h : Hid) (a : Nat) : HGot × State :=
  match h with
  | .ctl c => ctlFetch s c a
  | .mgmt _ =>
    let o := a - localBase
    if localBase ≤ a ∧ 0x20000000 ≤ o then (.fault, s) else mgmtLoad s h a 2

end Sys2Proof.Machine
end

