-- ==== Sys2Proof/Machine/Kz.lean ====
section
/-! DEFINITION. The control-thread extension (08 R266 to R272, R494; 02 R37 to R44). An instruction that stalls leaves the
control thread where it is, so that it executes again and an interrupt can be taken before it (15 R352). -/

namespace Sys2Proof.Machine

/-- An instruction of the extension on the current control thread; a management core has none (20 R458). -/
def kz (s : State) (k : Cid → Out) : Out :=
  match s.hart with
  | .ctl c => k c
  | .mgmt _ => .next (hartIllegal s)

/-- The thread that a unit number names for a core: a sequencer only for its owner (08 R494). -/
def State.reach (s : State) (c : Cid) (n : Nat) : Option Tid :=
  if n < 16 then some (slotTid c (Fin.ofNat 16 n))
  else if n < 18 then
    let t := seqTid c.quad (Fin.ofNat 2 n)
    if (s.th t).owner = some c.core then some t else none
  else none

/-- The units of a mask that the core reaches. -/
def State.named18 (s : State) (c : Cid) (mask : Nat) : List Tid :=
  (List.range 18).filterMap fun n => if mask.testBit n then s.reach c n else none

def State.allHalted (s : State) (ts : List Tid) : Bool := ts.all fun t => (s.th t).halted

/-- A thread with a line on its way, started afresh (08 R269). -/
def Thread.startAt (x : Thread) (f : Fetch) : Thread := { x.start with fetch := some f, run := .blocked }

/-! ### Broadcast (02 R37 to R39) -/

/-- The line is read once and sent to every masked slot. -/
def deliverLine (s : State) (c : Cid) (line : Word) (mask : Nat) : State :=
  let ts := (List.range 16).filterMap fun n => if mask.testBit n then some (slotTid c (Fin.ofNat 16 n)) else none
  match ts with
  | [] => s
  | _ =>
    let pc := line + 2
    if !s.leased c line.toNat 64 rX then
      foldS ts s fun s t => (noteStarted s c t).modTh t fun x => x.startAt ⟨pc, none, s.inTurns c.quad 1, .lease, none, true, none⟩
    else
      let r := lineRequest s c (line.toNat / 64)
      foldS ts r.2 fun s t => (noteStarted s c t).modTh t fun x => x.startAt ⟨pc, r.1.2.1, r.1.1, r.1.2.2, none, true, none⟩

/-- Units that something else than the last fork has started: `kz.join` waits for them no more (02 R43; log 113). -/
def unfork (s : State) (c : Cid) (mask : Nat) : State :=
  s.modCore c fun k => { k with forked := k.forked &&& ~~~(BitVec.ofNat 18 mask) }

def State.maskHalted (s : State) (c : Cid) (mask : Nat) : Bool := s.allHalted (s.named18 c (mask % 2 ^ 16))

def execKzBcast (rs1 rs2 : XReg) (s : State) : Out :=
  kz s fun c =>
    let line := s.hx rs1
    let mask := s.hx rs2
    if fieldNat line 0 6 ≠ 0 ∨ fieldNat line 56 8 ≠ 0 ∨ fieldNat mask 16 48 ≠ 0 then .next (hartIllegal s)
    else if !s.maskHalted c mask.toNat then .next s
    else .next (hretire (deliverLine (unfork (releaseAt s c .core) c mask.toNat) c line mask.toNat) 4)

/-- The delivery alone, once every masked slot has stopped. -/
def execBroadcastDelivery (c : Cid) (line : Word) (mask : BitVec 16) (s : State) : Out :=
  .next (if s.maskHalted c mask.toNat then deliverLine (unfork s c mask.toNat) c line mask.toNat else s)

def execKzWait (rs1 : XReg) (s : State) : Out :=
  kz s fun c =>
    let mask := s.hx rs1
    if fieldNat mask 18 46 ≠ 0 then .next (hartIllegal s)
    else if !s.allHalted (s.named18 c mask.toNat) then .next s
    else .next (hretire (acquireAt s c .core) 4)

/-! ### Fork and join (02 R41 to R43; 08 R267) -/

/-- What reading a fork table came to. -/
inductive ForkGot where
  | done | stall | illegal | fault
  deriving DecidableEq, Repr

/-- A word of a fork table: read with the right X (16 R370), through the lease below M. -/
def forkWord (s : State) (c : Cid) (p : Priv) (a : Nat) : Option Nat × State :=
  if 2 ^ 56 ≤ a then (none, s)
  else if !s.hartMay c p a 8 rX then (none, hartEnds s c 5 a)
  else
    match s.ioLeaf (s.req c 0) a with
    | some _ => match ctlLoad s c p 0 a 8 with
      | (.ok v, s) => (some v, s)
      | (_, s) => (none, s)
    | none =>
      let x := l1Read s c (s.req c 0) 0 a 8
      match x.1.fail with
      | some f => (none, if f = 0x0A then x.2 else hartEnds x.2 c 5 a)
      | none => (some (dataNat x.1.data (a % 64) 8), x.2)

/-- Words of a fork table by number; none when one cannot be read. -/
def forkWords (s : State) (c : Cid) (p : Priv) (table : Nat) : List Nat → Option (List (Nat × Nat)) × State
  | [] => (some [], s)
  | n :: ns =>
    match forkWord s c p (table + 8 * n) with
    | (none, s) => (none, s)
    | (some v, s) => match forkWords s c p table ns with
      | (none, s) => (none, s)
      | (some r, s) => (some ((n, v) :: r), s)

/-- A sequencer passes to the core that forks it (08 R494). -/
def takeSeq (s : State) (c : Cid) (t : Tid) : State :=
  let s := match (s.th t).owner with
    | some o => if o = c.core then s else s.modCore ⟨c.quad, o⟩ fun k => { k with kzfp := k.kzfp &&& ~~~((1 : BitVec 18) <<< t.unit.val) }
    | none => s
  s.modTh t fun x => { x with owner := some c.core }

/-- A fork as a whole: nothing, or every named slot and sequencer. -/
def forkFrom (s : State) (c : Cid) (p : Priv) (table : Nat) : ForkGot × State :=
  match forkWords s c p table [0, 19] with
  | (some [(_, w0), (_, w19)], s) =>
    if 2 ^ 18 ≤ w0 ∨ 2 ^ 8 ≤ w19 ∨ w19 % 2 = 1 then (.illegal, s)
    else
      let units := (List.finRange 18).filter fun u => w0.testBit u.val
      if !s.allHalted (units.map (unitTid c)) then (.stall, s)
      else
        let pre := ([1, 2, 3, 4, 5, 6, 7] : List Nat).filter w19.testBit
        match forkWords s c p table (units.map fun u => u.val + 1), s with
        | (none, s), _ => (.fault, s)
        | (some pcs, s), _ =>
          match forkWords s c p table (pre.map fun n => 19 + n) with
          | (none, s) => (.fault, s)
          | (some gs, s) =>
            let s := releaseAt s c .core
            let s := foldS (units.zip pcs) s fun s x =>
              let t := unitTid c x.1
              let s := if isSeq t then takeSeq s c t else s
              let s := s.modTh t fun y => foldS gs y.start fun y g => y.wrG (Fin.ofNat 32 (g.1 - 19)) (BitVec.ofNat 64 g.2)
              startFetch s t (BitVec.ofNat 64 x.2.2)
            (.done, s.modCore c fun k => { k with forked := BitVec.ofNat 18 w0 })
  | (_, s) => (.fault, s)

def execKzFork (rs1 : XReg) (s : State) : Out :=
  kz s fun c =>
    let a := s.hx rs1
    if fieldNat a 0 6 ≠ 0 then .next (hartIllegal s)
    else
      match forkFrom s c s.hme.priv a.toNat with
      | (.done, s) => .next (hretire s 4)
      | (.stall, s) => .next s
      | (.illegal, s) => .next (hartIllegal s)
      | (.fault, s) => .next (s.except 5 a)

def execKzJoin (s : State) : Out :=
  kz s fun c =>
    if !s.allHalted (s.named18 c (s.core c).forked.toNat) then .next s else .next (hretire (acquireAt s c .core) 4)

/-! ### The lease (02 R44) -/

def execKzLease (s : State) : Out :=
  kz s fun c =>
    let l := s.lease c.quad
    if l.holder = some c.core ∧ bitAt l.giving c.core.val = false then .next (hretire (postLease s c) 4) else .next (postLease s c)

def execKzUnlease (s : State) : Out :=
  kz s fun c => .next (hretire (withdrawLease s c) 4)

/-! ### Records, resume and kill (02 R38; 08 R268, R269) -/

/-- A unit's fault-pending bit cleared (02 R48). -/
def State.ackFault (s : State) (c : Cid) (n : Nat) : State :=
  s.modCore c fun k => { k with kzfp := k.kzfp &&& ~~~((1 : BitVec 18) <<< n) }

def execKzFault (rd rs1 rs2 : XReg) (s : State) : Out :=
  kz s fun c =>
    let n := (s.hx rs1).toNat
    let w := (s.hx rs2).toNat
    match (if w ≤ 3 then s.reach c n else none) with
    | none => .next (hretire (s.setX rd 0) 4)
    | some t =>
      if !(s.th t).halted then .next s
      else
        let i : Fin 4 := Fin.ofNat 4 w
        let v := (s.th t).frec[i]
        let s := if w = 3 then s.modTh t fun x => { x with frec := x.frec.set 3 (setField x.frec[3] 48 16 0) } else s
        let s := s.ackFault c n
        .next (hretire (s.setX rd v) 4)

def execKzResume (rs1 rs2 : XReg) (s : State) : Out :=
  kz s fun c =>
    match s.reach c (s.hx rs1).toNat with
    | none => .next (hretire s 4)
    | some t =>
      if !(s.th t).halted then .next s
      else
        let s := (releaseAt s c .core).ackFault c (s.hx rs1).toNat
        if rs2.val ≠ 0 then .next (hretire (startFetch ((unfork s c (2 ^ (s.hx rs1).toNat)).modTh t Thread.start) t (s.hx rs2)) 4)
        else
          match (s.th t).resumePc with
          | none => .next (hretire s 4)
          | some pc => .next (hretire (startFetch (s.modTh t fun x => { x with exempt := true, killReq := false }) t pc) 4)

/-- A thread ordered to stop; one that has stopped inside an open packet leaves it (08 R244). -/
def killOrder (s : State) (t : Tid) : State := if (s.th t).halted then abortPacket s t else killThread s t

def execKzKill (rs1 : XReg) (s : State) : Out :=
  kz s fun c =>
    let ts := s.named18 c (s.hx rs1).toNat
    if ts.any fun t => decide ((s.th t).run = .saved) then .next s
    else .next (hretire (foldS ts s fun s t => killOrder (s.ackFault c t.unit.val) t) 4)

/-! ### Registers of a stopped thread (08 R270) -/

/-- The parts of a selector: lane pair, unit, code; none when it names nothing. -/
def selector (w : Word) : Option (Nat × Nat × Nat) :=
  let u := fieldNat w 8 5
  let code := fieldNat w 0 6
  if fieldNat w 6 2 ≠ 0 ∨ fieldNat w 16 48 ≠ 0 ∨ 18 ≤ u ∨ 61 ≤ code ∨ (16 ≤ u ∧ 8 ≤ code) then none
  else some (fieldNat w 13 3, u, code)

/-- Lanes 2k and 2k + 1 as a word. -/
def lanePair (v : VWord) (k : Nat) : Word :=
  BitVec.ofNat 64 ((v[Fin.ofNat 16 (2 * k)]).toNat + 2 ^ 32 * (v[Fin.ofNat 16 (2 * k + 1)]).toNat)
def setLanePair (v : VWord) (k : Nat) (w : Word) : VWord :=
  (v.set (Fin.ofNat 16 (2 * k)) (w.setWidth 32)).set (Fin.ofNat 16 (2 * k + 1)) ((w >>> 32).setWidth 32)

/-- What a register code shows of a stopped thread; none while it is empty. -/
def State.shown (s : State) (t : Tid) (k code : Nat) : Option Word :=
  let x := s.th t
  let full := fun (v : Word) => if x.isFull code then some v else none
  if code = 0 then some 0
  else if code < 32 then full x.g[Fin.ofNat 32 code]
  else if code < 48 then full (lanePair x.v[Fin.ofNat 16 code] k)
  else if code = 48 then some 0xFFFF
  else if code < 56 then full (zx x.p[Fin.ofNat 8 code])
  else if code = 56 then (if s.liFull t then some (s.th (prevSlot t)).lo else none)
  else if code = 57 then full x.lo
  else if code = 58 then some (BitVec.ofNat 64 t.unit.val)
  else if code = 59 then some (zx (s.coreOf t).vcore)
  else some (BitVec.ofNat 64 (s.turn t.quad))

/-- A register of a stopped thread written, and marked full. -/
def putReg (s : State) (t : Tid) (k code : Nat) (v : Word) : State :=
  if code < 32 then s.modTh t fun x => x.wrG (Fin.ofNat 32 code) v
  else if code < 48 then s.modTh t fun x => x.wrV (Fin.ofNat 16 code) (setLanePair x.v[Fin.ofNat 16 code] k v)
  else if code < 56 then s.modTh t fun x => x.wrP (Fin.ofNat 8 code) (v.setWidth 16)
  else if code = 57 then s.modTh t fun x => x.wrLo (s.turn t.quad) v
  else s

def execKzRdsl (rd rs1 : XReg) (s : State) : Out :=
  kz s fun c =>
    match selector (s.hx rs1) with
    | none => .next (hretire (s.setX rd 0) 4)
    | some (k, u, code) =>
      match s.reach c u with
      | none => .next (hretire (s.setX rd 0) 4)
      | some t =>
        if !(s.th t).halted then .next s
        else
          match s.shown t k code with
          | none => .next s
          | some v => .next (hretire (s.setX rd v) 4)

def execKzWrsl (rs1 rs2 : XReg) (s : State) : Out :=
  kz s fun c =>
    match selector (s.hx rs1) with
    | none => .next (hretire s 4)
    | some (k, u, code) =>
      match s.reach c u with
      | none => .next (hretire s 4)
      | some t => if !(s.th t).halted then .next s else .next (hretire (putReg s t k code (s.hx rs2)) 4)

/-! ### Task records (08 R271) -/

def execKzTask (rd rs1 : XReg) (s : State) : Out :=
  kz s fun c =>
    let n := (s.hx rs1).toNat
    let k := s.core c
    if 3 < n then .next (hretire (s.setX rd 0) 4)
    else if n ≠ 0 then .next (hretire (s.setX rd k.task[Fin.ofNat 4 n]) 4)
    else
      match k.taskDue with
      | none => .next (s.modCore c fun k => { k with taskDue := some (s.cycle + 64) })
      | some d =>
        if s.cycle < d then .next s
        else
          let r := takeTask s c
          .next (hretire ((r.2.modCore c fun k => { k with task := r.1, taskDue := none }).setX rd r.1[(0 : Fin 4)]) 4)

end Sys2Proof.Machine
end

