-- ==== Sys2Proof/Machine/Launch.lean ====
section
/-! DEFINITION. Launches (15): queues and their heads (R344, R345, R349), the block's refusals (R355, R387; 10 R296), the start
(R350, with R347, R348 and 10 R289), the exit call and completion (R351), the hardware's messages (07 R493), the monitor's
registers (R352), and marks and operating points (R356 to R358). -/

namespace Sys2Proof.Machine

/-! ### Queues -/

def State.lqcfg (s : State) (q : Nat) : Word := s.mreg (0x400 + 0x20 * q)
def State.lqOn (s : State) (q : Nat) : Bool := bitAt (s.lqcfg q) 0
def State.lqPrio (s : State) (q : Nat) : Nat := fieldNat (s.lqcfg q) 1 2
def State.lq (s : State) (q : Nat) : LQ := s.lqs[Fin.ofNat 32 q]
def State.setLq (s : State) (q : Nat) (x : LQ) : State := { s with lqs := s.lqs.set (q % 32) x (Nat.mod_lt _ (by decide)) }

/-- A post (R344): a bad address sets REF and RCAUSE, a full queue sets OVF, and neither enters. -/
def execLqpost (queue : Nat) (addr : Word) (s : State) : Out :=
  let x := s.lq queue
  .next (if fieldNat addr 0 8 ≠ 0 ∨ fieldNat addr 56 8 ≠ 0 then s.setLq queue { x with ref := true, rcause := 8 }
    else if 16 ≤ x.blocks.length then s.setLq queue { x with ovf := true }
    else s.setLq queue { x with blocks := x.blocks ++ [addr] })

/-- `n` words at a virtual address as the dispatcher reads them, at their home; one that cannot be read is a free value (log 40). -/
def hwWords (s : State) (a : Nat) : Nat → List Word × State
  | 0 => ([], s)
  | n + 1 =>
    let x := translate s ⟨none, none⟩ a false
    let free := fun (s : State) => (Config.freeWord s.fresh, ({ s with fresh := s.fresh + 1 } : State))
    let w : Word × State := match x.1 with
      | .error _ => free x.2
      | .ok l =>
        let pa := l.pa + a % l.span
        if leafIO l.leaf then free x.2
        else
          let m := mlcRead x.2 s.cycle (pa / 64) (leafKdom l.leaf) none 512
          if m.2.1 then free m.2.2 else (m.2.2.word64 pa, m.2.2)
    let r := hwWords w.2 (a + 8) n
    (w.1 :: r.1, r.2)

/-! ### The block (R346) -/

/-- A launch as its block and range table give it, before it starts. -/
def mkLaunch (queue : Nat) (addr : Word) (blk : List Word) : Launch :=
  { queue := queue, addr := addr, blk := blk.take 32
    lease := (List.range ((blk.length - 32) / 2)).map fun i => ((blk.getD (32 + 2 * i) 0).toNat, (blk.getD (33 + 2 * i) 0).toNat)
    cores := [], started := false, status := 0, fused := false, gdie := 0, homes := [], handed := [], kept := [], forks := [], exits := 0, storesUntil := 0
    done := false }

def Launch.world (l : Launch) : BitVec 4 := BitVec.ofNat 4 (l.fld 0x50 0 4)
def Launch.kdom (l : Launch) : BitVec 6 := BitVec.ofNat 6 (l.fld 0x50 10 6)
def Launch.cmask (l : Launch) : Nat := l.fld 0x38 16 4
def Launch.qmask (l : Launch) : Nat := l.fld 0x38 0 14
def Launch.job (l : Launch) : Nat := l.fld 0x50 32 32
/-- JOB of a core's launch. -/
def State.jobOf (s : State) (c : Cid) : Option Nat :=
  match (s.core c).ids with
  | some x => some x.job.toNat
  | none => (s.launchOf c).map Launch.job
def Launch.forkt (l : Launch) : Nat := (l.word 0x08).toNat
def Launch.frozen (l : Launch) : Bool := decide (l.gmode = 2)
def Launch.wen (l : Launch) (k : Nat) : Bool := bitAt (l.word (0x68 + 8 * k)) 24
/-- Highest core index taken in a quad, plus one. -/
def Launch.topCore (l : Launch) : Nat := (List.range 4).foldl (fun n c => if l.cmask.testBit c then c + 1 else n) 0

/-- The cores taken, in the order of their numbers (R347). -/
def Launch.selected (l : Launch) (size : Nat) : List Cid :=
  (List.range 64).flatMap fun g => if bitAt (l.word 0x40) g then
      (List.range size).flatMap fun p => if l.qmask.testBit p then
          (List.range 4).filterMap fun c => if l.cmask.testBit c then
              some ⟨g / 8 * 120 + size * (g % 8) + p, Fin.ofNat 4 c⟩ else none
        else []
    else []

/-- Domains that the ranges touch (16 R371). -/
def Launch.doms (l : Launch) : List Nat :=
  (List.range 256).filter fun d => l.lease.any fun r => decide (r.1 / 2 ^ 48 ≤ d) && decide (d ≤ (r.2 - 1) / 2 ^ 48)

/-- Reserved bits of the block: offset, first bit, width. -/
def blockReserved : List (Nat × Nat × Nat) :=
  [(0x20, 20, 44), (0x28, 63, 1), (0x30, 32, 32), (0x30, 6, 10), (0x38, 21, 43), (0x38, 14, 2), (0x60, 30, 34), (0x60, 21, 3),
   (0x60, 3, 13), (0x68, 25, 7), (0x70, 25, 7), (0x78, 48, 16), (0x78, 26, 6), (0x78, 10, 6)]

/-- A designator of the block: SELF 0, well formed, of this package. -/
def State.blockDes (s : State) (ring : Bool) (w : Word) : Bool :=
  !bitAt w 23 && (match s.designator ring ⟨0, 0⟩ w with
    | some d => decide (d.pkg = s.pkg)
    | none => false)

/-- The conditions of R355 in the order of their causes. -/
def State.refusals (s : State) (l : Launch) : List (Byte × Bool) :=
  let w := l.word
  let order := l.fld 0x30 0 2
  let swz := l.fld 0x30 2 4
  [(0x01, blockReserved.any (fun r => decide (l.fld r.1 r.2.1 r.2.2 ≠ 0)) || decide (l.gmode = 3)),
   (0x02, decide (l.groups = 0) || decide (2 ^ 32 ≤ l.groups)),
   (0x03, decide (l.task = 0) || decide (6 < swz) || (decide (2 ≤ order) && decide (swz ≠ 0))),
   (0x04, decide (l.cmask = 0) || decide (l.qmask = 0) || decide (w 0x40 = 0) || decide (2 ^ s.groupSize ≤ l.qmask) ||
     decide (w 0x40 &&& s.badGroups ≠ 0)),
   (0x05, (List.range 16).any fun b => bfRefused (w (0x80 + 8 * b))),
   (0x06, decide (480 < l.fld 0x78 16 10) || decide (480 < l.fld 0x78 32 10 + 16 * l.topCore * l.fld 0x78 42 6)),
   (0x07, decide (l.gcount = 0) || decide (65536 < l.gcount) || decide (l.glive % 64 ≠ 0) || decide (l.gsnap % 64 ≠ 0)),
   (0x08, bitAt (w 0) 0 || decide (l.fld 0 56 8 ≠ 0) || decide (l.fld 8 0 6 ≠ 0) || decide (l.fld 8 56 8 ≠ 0) ||
     decide (l.fld 0x58 0 6 ≠ 0) || decide (l.fld 0x58 56 8 ≠ 0)),
   (0x09, decide (l.fld 0x60 24 6 = 0) || decide (32 < l.fld 0x60 24 6) || decide (64 < l.doms.length) ||
     l.lease.any fun r => decide (r.2 ≤ r.1) || decide (r.1 % 65536 ≠ 0) || decide (r.2 % 65536 ≠ 0) || decide (2 ^ 56 ≤ r.2)),
   (0x0A, !s.blockDes true (w 0x48) || ([0, 1] : List Nat).any fun k =>
     l.wen k && !s.blockDes false (BitVec.ofNat 64 (l.fld (0x68 + 8 * k) 0 24)))]

/-! ### Messages (R351; 07 R493) -/

def launchMsg (l : Launch) (status : Byte) (tag : Nat) : Word :=
  BitVec.ofNat 64 (l.job * 2 ^ 32 + l.queue % 32 * 2 ^ 16 + status.toNat * 256 + tag)

/-- A grain line of the launch: of its live copy or, in frozen mode, of its snapshot (05 R145). -/
def Launch.grainLine (l : Launch) (line : Nat) : Bool :=
  let within := fun (base : Nat) => decide (base / 64 ≤ line) && decide (line ≤ (base + 8 * l.gcount - 1) / 64)
  within l.glive || (l.frozen && within l.gsnap)

/-- The end of a launch: grain lines unpinned unless another launch shares them, its locks and barriers gone. -/
def closeLaunch (s : State) (lid : Nat) : State :=
  match tget? s.launches lid with
  | none => s
  | some l =>
    let rest := tdel s.launches lid
    let shared := fun (m : L2Line) => rest.any fun x => decide (x.2.gdie = m.die) && x.2.grainLine m.line
    { s with
        launches := rest
        bars := s.bars.filter fun b => decide (b.1.launch ≠ lid + 1)
        l2 := s.l2.map fun (m : L2Line) =>
          let m := if m.lock = some lid then { m with lock := none } else m
          if m.pin && decide (m.die = l.gdie) && l.grainLine m.line && !shared m then { m with pin := false } else m }

/-- The virtual core that a dropped message's violation record names; none for a message about a whole launch (log 41). -/
def supVcore (w0 : Word) : Half := if fieldNat w0 0 8 = 0x80 ∨ fieldNat w0 0 8 = 0x83 then BitVec.ofNat 16 (fieldNat w0 48 16) else 0xFFFF

/-- A message is admitted, waits while its ring is full, or is dropped with a violation record (07 R493). -/
def execSupervisorMessage (id : Nat) (s : State) : Out :=
  match s.sups.find? fun (m : SupMsg) => decide (m.id = id) with
  | none => .next s
  | some m =>
    let gone : State := { s with sups := s.sups.filter fun (x : SupMsg) => decide (x.id ≠ id) }
    let close := fun (s : State) => match m.launch with
      | some l => closeLaunch s l
      | none => s
    let drop := close (violation gone (supVcore m.w0) m.world 4 m.des)
    match s.designator true ⟨0, 0⟩ m.des with
    | none => .next drop
    | some d =>
      let n : Fin 32 := Fin.ofNat 32 d.idx
      let r := s.ring d.core.quad n
      if bitAt m.des 23 || decide (d.pkg ≠ s.pkg) || !r.en || decide (r.world ≠ m.world) then .next drop
      else if r.need 16 ≤ r.free (s.turn d.core.quad) ∧ s.ringAhead d.core.quad n m.id = false then
        .next (close ((ringAdmitNow gone d.core.quad n (msg16 m.w0 m.w1)).enqueue (.rgwaitClaim d.core.quad n)))
      else .next s

/-- The head is refused: it leaves its queue, and the message says why (R351, R355). -/
def refuseHead (s : State) (queue : Nat) (l : Launch) (cause : Byte) : State :=
  let x := s.lq queue
  (s.setLq queue { x with blocks := x.blocks.drop 1, head := none, held := 0, ref := true, rcause := cause }).sendSup
    (l.word 0x48) l.world (launchMsg l cause 0x82) l.addr none

/-! ### The head (R344, R349) -/

/-- A queue's first block is read and judged, and its waits are looked at. -/
def takeHead (s : State) (queue : Nat) (addr : Word) : State :=
  let b := hwWords s addr.toNat 32
  let n := fieldNat (b.1.getD 12 0) 24 6
  let table := b.1.getD 11 0
  let r := if n ≤ 32 ∧ fieldNat table 0 6 = 0 ∧ fieldNat table 56 8 = 0 then hwWords b.2 table.toNat (2 * n) else ([], b.2)
  let blk := b.1 ++ r.1
  let l := mkLaunch queue addr blk
  match (r.2.refusals l).find? Prod.snd with
  | some c => refuseHead r.2 queue l c.1
  | none => r.2.setLq queue { r.2.lq queue with head := some blk, held := r.2.heldNow blk none }

/-- The world that holds a quad (R348). -/
def State.quadWorld (s : State) (q : Nat) : Option (BitVec 4) :=
  ((coreCids q).find? fun c => (s.core c).launch.isSome).map fun c => (s.core c).world

/-- The cores a launch takes. -/
def State.coresOf (s : State) (l : Launch) : List Cid := l.selected s.groupSize

/-- A head is ready (R345): its cores are free, on dies that have left reset (21 R469). -/
def State.ready (s : State) (l : Launch) (held : BitVec 2) : Bool :=
  (([0, 1] : List Nat).all fun k => !l.wen k || bitAt held k) &&
  (s.coresOf l).all fun c => bitAt (s.mreg 0x40) (dieOf c.quad) && (s.core c).launch.isNone &&
    (match s.quadWorld c.quad with
     | some w => decide (w = l.world)
     | none => true)

/-- A queue at which the dispatcher has something to do. -/
def State.lqDue (s : State) (q : Nat) : Bool :=
  let x := s.lq q
  s.lqOn q && (match x.blocks, x.head with
    | [], _ => false
    | _ :: _, none => true
    | a :: _, some blk => s.ready (mkLaunch q a blk) x.held)

/-- The queue that the dispatcher serves next: the highest level, and within it round robin (R345). -/
def State.dispatchNext (s : State) : Option Nat :=
  ([3, 2, 1, 0] : List Nat).findSome? fun p =>
    ((List.range 32).map fun i => (s.rr[Fin.ofNat 4 p] + 1 + i) % 32).find? fun q => decide (s.lqPrio q = p) && s.lqDue q

/-! ### The start (R350) -/

/-- Local memory, canopy, bands and rings of a quad that passes to another world (10 R289). -/
def clearQuad (s : State) (q : Nat) (world : BitVec 4) : State :=
  let lo := q * lmSize
  let outside := fun (a b w : Nat) => decide (w * 8 < a) || decide (b ≤ w * 8)
  let s : State := { s with
    lm := s.lm.clear lo 0x1E0000
    lmPoison := s.lmPoison.filter (outside lo (lo + 0x1E0000))
    canopy := s.canopy.clear (q * canopySize) canopySize
    canPoison := s.canPoison.filter (outside (q * canopySize) ((q + 1) * canopySize)) }
  s.modQuad q fun x => { x with band := Vector.replicate 128 0x3F80, rings := Vector.replicate 32 { Ring.init with cfg := zx world <<< 48 } }

/-- A quad that no core of a launch holds, as a launch takes it: cleared for another world, its formats loaded (R348). -/
def takeQuad (s : State) (l : Launch) (q : Nat) : State :=
  if (s.quadWorld q).isSome then s
  else
    let s := if (s.quad q).lastWorld = some l.world then s else clearQuad s q l.world
    let s := ([seqTid q 0, seqTid q 1]).foldl (fun (s : State) t => s.setTh t Thread.init) s
    s.modQuad q fun x => { x with bfmt := Vector.ofFn fun b => l.word (0x80 + 8 * b.val), lastWorld := some l.world }

def windowWord (world : BitVec 4) (b limit : Nat) : Word := BitVec.ofNat 64 (2 ^ 63 + world.toNat * 2 ^ 48 + limit * 2 ^ 16 + b)

/-- The rows of a core's accumulator set become zero (08 R253). -/
def clearAcc (s : State) (c : Cid) : State :=
  let lo := accKey c 0 0
  { s with acc := s.acc.filter fun e => decide (e.1 < lo) || decide (lo + 0x4000 ≤ e.1) }

/-- A core assigned to a launch as its `i`-th: counters, accumulators, windows, PLB, and its slots (R347, R350; 02 R33). Its L1
is empty (log 78). -/
def assignCore (s : State) (lid : Nat) (l : Launch) (i : Nat) (c : Cid) : State :=
  let k := s.core c
  let plb := plbLoad s (some (dieOf c.quad)) l.world l.doms
  let s := plb.2
  let core : Core := { Core.init with
    launch := some lid, vcore := BitVec.ofNat 16 i, world := l.world, acct := l.acct, kdom := l.kdom
    qwin := windowWord l.world (l.fld 0x78 0 10) (l.fld 0x78 16 10), plb := plb.1
    icache := k.icache, matIssued := k.matIssued, matDone := k.matDone, matLastOp := k.matLastOp }
  let size := l.fld 0x78 42 6
  foldS (List.finRange 16) (clearAcc (s.setCore c core) c) fun s n =>
    let b := l.fld 0x78 32 10 + (16 * c.core.val + n.val) * size
    s.setTh (slotTid c n) { Thread.init with fp := BitVec.ofNat 64 (l.fld 0x60 16 5 * 2 ^ 16), pwin := windowWord l.world b (b + size) }

/-- Some core is still assigned to the launch (log 81). -/
def Launch.running (l : Launch) : Bool := decide (l.exits < l.cores.length)
/-- Two ranges of grain slots overlap. -/
def grainOverlap (a b : Launch) : Bool := decide (a.glive < b.glive + 8 * b.gcount) && decide (b.glive < a.glive + 8 * a.gcount)
/-- They may use one copy (16 R387). -/
def grainShared (a b : Launch) : Bool :=
  decide (a.glive = b.glive) && decide (a.gcount = b.gcount) && decide (a.world = b.world) && bitAt (a.word 0x20) 17 && bitAt (b.word 0x20) 17

/-- The pin of a line in another die goes, unless a launch that runs holds it there: one that has ended lets its copy go, and its
last updates follow the line (05 R146; log 42). -/
def unpinAway (s : State) (die line : Nat) : State :=
  match s.l2Find die line with
  | some m =>
    if s.launches.any fun e => e.2.running && decide (e.2.gdie = die) && e.2.grainLine line then s else s.l2Put { m with pin := false }
  | none => s

/-- A grain line pinned at its home slice, and in no other L2 (05 R145, R146; 10 R296); none when its set holds twelve already, or
has no way left. A line that does not translate, or whose slice is out, is held nowhere (log 42); of one that reads as poison no
byte is held (17 R400). -/
def pinLine (s : State) (r : Req) (line : Nat) : Option State :=
  let full := decide (12 ≤ heldWays (s.l2Set r.die line))
  let s := foldS ((List.range 8).filter (· ≠ r.die)) s fun s d => (l2Expel (unpinAway s d line) d line).2
  match s.l2Find r.die line with
  | some m =>
    if m.pin || m.lock.isSome then some (s.l2Put { m with pin := true })
    else if full then none else some (s.l2Put { m with pin := true })
  | none =>
    if s.sliceDown r.die line then some s
    else
      match translate s ⟨some r.die, none⟩ (64 * line) false with
      | (.error _, s) => some s
      | (.ok l, s) =>
        if leafIO l.leaf then some s
        else if full then none
        else
          let pl := (l.pa + 64 * line % l.span) / 64
          let m := dieRead s r.die (s.inTurns r.quad 0) pl (leafKdom l.leaf) r.acct
          match l2Alloc m.2.2 r line l (if m.2.1 then 0 else BitVec.allOnes 64) 0 0 0 (m.2.2.homeData pl) with
          | (false, _) => none
          | (true, s) => match s.l2Find r.die line with
            | some m => some (s.l2Put { m with pin := true })
            | none => some s

def pinLines (s : State) (r : Req) : List Nat → Option State
  | [] => some s
  | n :: ns => match pinLine s r n with
    | some s => pinLines s r ns
    | none => none

def linesAt (a n : Nat) : List Nat := rangeFrom (a / 64) ((a + n - 1) / 64 + 1 - a / 64)

/-- The snapshot copied from the live copy (05 R147): a slot that reads as poison there, or does not translate, is never
visited in it (DESIGN CHOICE, log 93). -/
def copySnapshot (s : State) (l : Launch) : State :=
  foldS (List.range l.gcount) s fun s i =>
    let x := grainWord s l (l.glive + 8 * i)
    grainPut x.2 l (l.gsnap + 8 * i) (x.1.getD 0).toNat

/-- Step 5: the control threads start (R350, R352). -/
def startHarts (s : State) (lid : Nat) : State :=
  match tget? s.launches lid with
  | none => s
  | some l =>
    let s := s.modLaunch lid fun x => { x with started := true }
    foldS (l.cores.zipIdx) s fun s c =>
      let h := Hid.ctl c.1
      let x : Vector Word 32 := ((Vector.replicate 32 0).set 10 l.addr).set 11 (BitVec.ofNat 64 c.2)
      let s := s.modHt h fun y => { y with x := x, pc := l.word 0, priv := .u, resv := none, active := true, wfi := false, due := 0 }
      let trap : List (Nat × Word) := [(0x305, s.mreg 0x240 &&& ~~~3), (0x302, 0), (0x303, 0), (0x105, 0), (0x304, 8)]
      foldS trap s fun s e => s.setCsr h e.1 e.2

/-- The L2 lines of a die whose clean bytes are no longer those of the home miss: a launch starts with the contents that memory
has then (11 R306; log 78). -/
def refreshDie (s : State) (die : Nat) : State :=
  let keep := s.l2.filter fun (l : L2Line) =>
    decide (l.die ≠ die) || decide (l.dirty ≠ 0) || l.lock.isSome || l.pin || decide (dataMerge l.valid l.data (s.homeData (l.pa / 64)) = s.homeData (l.pa / 64))
  { s with l2 := keep.map fun (l : L2Line) =>
      if l.die = die ∧ dataMerge (l.valid &&& ~~~l.dirty) l.data (s.homeData (l.pa / 64)) ≠ s.homeData (l.pa / 64)
      then { l with valid := l.dirty, coming := l.coming &&& l.dirty } else l }

/-- The loader's copy of a program's local data into every quad of the launch, raw (22 R484; 10 R289; log 94). -/
def loadLocal (s : State) (l : Launch) : State :=
  foldS ((l.cores.map Cid.quad).eraseDups) s fun s q =>
    foldS (tget [] s.images l.addr) s fun s (x : Nat × List Byte) => if x.1 + x.2.length ≤ 0x1E0000 then lmRaw s q x.1 x.2 else s

/-- A ready head starts, or is refused for its grain (R350, R387; 10 R296). A launch that shares a running launch's copy pins it
in that one's grain die, whatever its own lowest die (05 R146; log 95). -/
def startHead (s : State) (queue : Nat) (l : Launch) : State :=
  let cores := s.coresOf l
  let homes := cores.map fun c => dieOf c.quad
  let gdie := match s.launches.find? fun x => grainShared x.2 l with
    | some x => x.2.gdie
    | none => homes.foldl min 7
  let l : Launch := { l with
    cores := cores, gdie := gdie, homes := homes, fused := bitAt (l.word 0x38) 20 && decide (l.cmask = 15)
    forks := if l.forkt = 0 then [] else cores }
  if s.launches.any fun x => x.2.running && grainOverlap x.2 l && !grainShared x.2 l then refuseHead s queue l 0x0B
  else
    let r : Req := ⟨0xFFFF, l.world, l.acct, gdie, 0, 0⟩
    let lines := linesAt l.glive (8 * l.gcount) ++ (if l.frozen then linesAt l.gsnap (8 * l.gcount) else [])
    match pinLines s r lines with
    | none => refuseHead s queue l 0x0C
    | some s =>
      let lid := s.nextLid
      let x := s.lq queue
      let s := s.setLq queue { x with blocks := x.blocks.drop 1, head := none, held := 0 }
      let p := s.lqPrio queue % 4
      let s : State := { s with nextLid := lid + 1, rr := s.rr.set p queue (Nat.mod_lt _ (by decide)) }
      let s := foldS ((cores.map Cid.quad).eraseDups) s fun s q => takeQuad s l q
      let s : State := { s with launches := tset s.launches lid l }
      let s := foldS cores.zipIdx s fun s c => assignCore s lid l c.2 c.1
      let s := if l.wen 0 || l.wen 1 then foldS cores s fun s c => acquireAt s c .pkg else s
      let s := foldS (gdie :: l.dies) s refreshDie
      let s := if l.frozen then copySnapshot s l else s
      let s := loadLocal s l
      if l.forks.isEmpty then startHarts s lid
      else { s with agenda := s.agenda ++ l.forks.map fun c => .forkDelivery c (l.word 8) }

/-- The dispatcher serves a queue: it takes its head, or starts it once it is ready. -/
def execLaunchStart (queue : Nat) (s : State) : Out :=
  let x := s.lq queue
  .next (if !s.lqOn queue then s
    else match x.blocks, x.head with
      | [], _ => s
      | a :: _, none => takeHead s queue a
      | a :: _, some blk =>
        let l := mkLaunch queue a blk
        if s.ready l x.held then startHead s queue l else s)

/-- Step 4: a core's fork of the launch's table, until it is delivered or its table faults (R350; 02 R41). -/
def execForkDelivery (c : Cid) (table : Word) (s : State) : Out :=
  match (s.core c).launch, s.launchOf c with
  | some lid, some l =>
    if !l.forks.contains c then .next s
    else
      match forkFrom s c .u table.toNat with
      | (.stall, s) => .next s
      | (_, s) =>
        let left := l.forks.erase c
        let s := s.modLaunch lid fun x => { x with forks := left }
        .next (if left.isEmpty then startHarts s lid else s)
  | _, _ => .next s

/-! ### The end (R351) -/

/-- The last cycle in which a store that the core has posted is performed. -/
def State.storesDone (s : State) (c : Cid) : Nat :=
  (s.sq.filter fun (e : SQ) => decide (e.core = c)).foldl (fun n (e : SQ) => max n e.due) s.cycle

/-- A core ends its part: its windows are unlocked, it is free, its control thread stops. A lease
that it holds and a request that it has posted are withdrawn, as by `kz.unlease` (DESIGN CHOICE, log 114). -/
def freeCore (s : State) (c : Cid) : State :=
  let s := match (s.core c).launch, s.launchOf c with
    | some l, some x =>
      let k := s.core c
      let own : Owner := ⟨l, x, k.vcore, k.world, k.acct, k.kdom, k.plb⟩
      let mine := fun (m : Cmd) => decide (m.core = c) && m.freeAt.isNone && m.own.isNone
      ({ s with cmds := s.cmds.map fun (m : Cmd) => if mine m then { m with own := some own } else m } : State).modLaunch l
        fun x => { x with exits := x.exits + 1, storesUntil := max x.storesUntil (s.storesDone c) }
    | _, _ => s
  let s := s.modCore c fun k => { k with launch := none, left := k.launch.map fun l => (l, s.superOf c), taskDue := none, qwin := setField k.qwin 63 1 0 }
  let s := foldS (slotsOf c) s fun s t => s.modTh t fun x => { x with pwin := setField x.pwin 63 1 0 }
  (withdrawLease s c).modHt (.ctl c) fun h => { h with active := false, wfi := false }

/-- The exit call of the current control thread: it stalls until the core's slots and sequencers have stopped (R351). -/
def execExitCall (s : State) : Out :=
  match s.hart with
  | .ctl c => if s.allHalted (s.coreThreads c) then .next (freeCore (acquireAt s c .core) c) else .next s
  | .mgmt _ => .next s

/-- A launch's dirty lines driven to the MLC: a release at `pkg` scope (06 R168; log 13). -/
def releaseAcct (s : State) (l : Launch) : State :=
  driveOut s ((s.dirtyBy l.acct).filter fun (m : L2Line) => l.dies.contains m.die || l.cores.any fun c => decide (dieOf c.quad = m.die))

/-- Every core has ended its part, and grain updates and posted stores are done. -/
def State.launchOver (s : State) (lid : Nat) (l : Launch) : Bool :=
  l.started && !l.done && decide (l.cores.length ≤ l.exits) && decide (l.storesUntil ≤ s.cycle) &&
  s.grains.all fun (g : Grain) => decide (g.launch ≠ lid)

/-- The launch completes: a release, and the completion message (R351). -/
def execLaunchComplete (lid : Nat) (s : State) : Out :=
  match tget? s.launches lid with
  | none => .next s
  | some l =>
    if s.launchOver lid l then
      .next (((releaseAcct s l).modLaunch lid fun x => { x with done := true }).sendSup (l.word 0x48) l.world (launchMsg l l.status 0x81) l.addr (some lid))
    else .next s

/-! ### The monitor's registers and the stall timer (R352) -/

/-- `cxipi`: bits 3:0, one per core; each holds MSIP of its control thread. -/
def execCxipiWrite (q : Nat) (v : Word) (s : State) : Out := .next (s.setReg (quadBase q + 0x10) (v &&& 0xF))

def execKztcmpWrite (h : Hid) (v : Word) (s : State) : Out := .next (setKztcmp s h v)

/-- The stall-timer interrupt is taken when it is enabled and pending. -/
def execStallTimer (h : Hid) (s : State) : Out := .next (if s.takenInt h = some 17 then takeTrap s h true 17 0 else s)

/-! ### Marks and operating points (R356, R358; 19 R447) -/

def State.qpwr (s : State) (q : Nat) : Word := s.reg (dieBase (dieOf q) + 0x400 + 8 * vqOf q)

/-- The quad's sensor: hot at TLIM, until 2 °C below it. -/
def execQuadHot (q celsius : Nat) (s : State) : Out :=
  let t := fieldNat (s.qpwr q) 48 8
  .next (s.modQuad q fun x => { x with celsius := celsius, hot := decide (t ≤ celsius) || (x.hot && decide (t < celsius + 2)) })

/-- The package's own marks: while its estimate exceeds PLIM, one more group each time, the highest estimate first. -/
def packageLimit (s : State) : State :=
  let est := fun (g : Nat) => (s.quads.filter fun e => decide (s.groupBit e.1 = g)).foldl (fun n e => n + e.2.estimate) 0
  let total := s.quads.foldl (fun n e => n + e.2.estimate) 0
  if total ≤ fieldNat (s.mreg 0x80) 0 16 * 256 then { s with groupOver := [] }
  else
    match (List.range 64).filter fun g => !s.groupOver.contains g with
    | [] => s
    | g :: gs => { s with groupOver := s.groupOver ++ [gs.foldl (fun a b => if est a < est b then b else a) g] }

/-- A window's end: the estimate is charged in equal shares to the assigned cores, and the marks follow. -/
def execEnergyWindow (q estimate : Nat) (s : State) : Out :=
  let cs := (coreCids q).filter fun c => (s.core c).launch.isSome
  let s := foldS cs s fun s c => s.addEnergy (s.core c).acct (12 * estimate / cs.length)
  let b := fieldNat (s.qpwr q) 32 16
  .next (packageLimit (s.modQuad q fun x =>
    { x with estimate := estimate, overB := decide (b < estimate) || (x.overB && decide (7 * b ≤ 8 * estimate)) }))

/-- The highest request of the quad's cores, capped; a free core requests 0. -/
def State.pointWanted (s : State) (q : Nat) : Nat :=
  min (fieldNat (s.qpwr q) 0 3) (((coreCids q).map fun c => match s.launchOf c with
    | some l => l.fld 0x60 0 3
    | none => 0).foldl max 0)

/-- The quad moves to its point; turns and cycles do not pass meanwhile. -/
def execOperatingPointChange (q : Nat) (s : State) : Out :=
  .next (s.modQuad q fun x => { x with point := Fin.ofNat 8 (s.pointWanted q) })

end Sys2Proof.Machine
end

