-- ==== Sys2Proof/Machine/Rv.lean ====
section
/-! DEFINITION. The RV64 base of the harts (08 R273): RV64IMAC with Zicsr, Zifencei, Zba and Zbb, and the privileged
instructions. What the manual names and the RISC-V architecture defines is log 5. -/

namespace Sys2Proof.Machine

/-- The result of a word operation: bits 31:0, sign-extended. -/
def sw (x : BitVec 32) : Word := sx x
def lo32 (x : Word) : BitVec 32 := x.setWidth 32

def rvImm (op : IOp) (a : Word) (imm : BitVec 12) : Word :=
  let k : Word := sx imm
  let n := fieldNat imm 0 6
  let m := fieldNat imm 0 5
  match op with
  | .addi => a + k
  | .slti => b2w (a.slt k)
  | .sltiu => b2w (a.ult k)
  | .xori => a ^^^ k
  | .ori => a ||| k
  | .andi => a &&& k
  | .slli => a <<< n
  | .srli => a >>> n
  | .srai => a.sshiftRight n
  | .addiw => sw (lo32 (a + k))
  | .slliw => sw (lo32 a <<< m)
  | .srliw => sw (lo32 a >>> m)
  | .sraiw => sw ((lo32 a).sshiftRight m)
  | .slliuw => zx (lo32 a) <<< n
  | .rori => a.rotateRight n
  | .roriw => sw ((lo32 a).rotateRight m)

/-- Signed and unsigned division of words: by zero all ones, and the remainder is then the dividend. -/
def divN {w : Nat} (signed : Bool) (a b : BitVec w) : BitVec w := if b = 0 then BitVec.allOnes w else if signed then a.sdiv b else a.udiv b
def remN {w : Nat} (signed : Bool) (a b : BitVec w) : BitVec w := if b = 0 then a else if signed then a.srem b else a.umod b

def rvReg (op : ROp) (a b : Word) : Word :=
  let n := fieldNat b 0 6
  let m := fieldNat b 0 5
  let x := lo32 a
  let y := lo32 b
  match op with
  | .add => a + b
  | .sub => a - b
  | .sll => a <<< n
  | .slt => b2w (a.slt b)
  | .sltu => b2w (a.ult b)
  | .xor => a ^^^ b
  | .srl => a >>> n
  | .sra => a.sshiftRight n
  | .or => a ||| b
  | .and => a &&& b
  | .addw => sw (x + y)
  | .subw => sw (x - y)
  | .sllw => sw (x <<< m)
  | .srlw => sw (x >>> m)
  | .sraw => sw (x.sshiftRight m)
  | .mul => a * b
  | .mulh => mulHigh .ss a b
  | .mulhsu => mulHigh .sz a b
  | .mulhu => mulHigh .zz a b
  | .div => divN true a b
  | .divu => divN false a b
  | .rem => remN true a b
  | .remu => remN false a b
  | .mulw => sw (x * y)
  | .divw => sw (divN true x y)
  | .divuw => sw (divN false x y)
  | .remw => sw (remN true x y)
  | .remuw => sw (remN false x y)
  | .sh1add => (a <<< 1) + b
  | .sh2add => (a <<< 2) + b
  | .sh3add => (a <<< 3) + b
  | .adduw => zx x + b
  | .sh1adduw => (zx x <<< 1) + b
  | .sh2adduw => (zx x <<< 2) + b
  | .sh3adduw => (zx x <<< 3) + b
  | .andn => a &&& ~~~b
  | .orn => a ||| ~~~b
  | .xnor => ~~~(a ^^^ b)
  | .max => if a.slt b then b else a
  | .maxu => if a.ult b then b else a
  | .min => if a.slt b then a else b
  | .minu => if a.ult b then a else b
  | .rol => a.rotateLeft n
  | .ror => a.rotateRight n
  | .rolw => sw (x.rotateLeft m)
  | .rorw => sw (x.rotateRight m)

/-- The eight bytes of a word, each mapped; `rev` reverses their order. -/
def mapBytes (rev : Bool) (f : Byte → Byte) (a : Word) : Word :=
  let bs := (natLE 8 a.toNat).map f
  BitVec.ofNat 64 (leNat (if rev then bs.reverse else bs))

def rvUnary (op : UOp) (a : Word) : Word :=
  match op with
  | .clz => BitVec.ofNat 64 (clzTo a 64)
  | .ctz => BitVec.ofNat 64 (ctzFrom a 64 0)
  | .cpop => BitVec.ofNat 64 (popTo a 64)
  | .clzw => BitVec.ofNat 64 (clzTo a 32)
  | .ctzw => BitVec.ofNat 64 (ctzFrom a 32 0)
  | .cpopw => BitVec.ofNat 64 (popTo a 32)
  | .sextb => fieldW true a 0 8
  | .sexth => fieldW true a 0 16
  | .zexth => fieldW false a 0 16
  | .orcb => mapBytes false (fun b => if b = 0 then 0 else 0xFF) a
  | .rev8 => mapBytes true id a

def rvBranchTaken (op : BrOp) (a b : Word) : Bool :=
  match op with
  | .beq => a == b
  | .bne => a != b
  | .blt => a.slt b
  | .bge => !a.slt b
  | .bltu => a.ult b
  | .bgeu => !a.ult b

/-- Bytes of a load, and whether it sign-extends. -/
def rvLoadForm : LdOp → Nat × Bool
  | .lb => (1, true)
  | .lh => (2, true)
  | .lw => (4, true)
  | .ld => (8, true)
  | .lbu => (1, false)
  | .lhu => (2, false)
  | .lwu => (4, false)

def rvAmoVal (op : AOp) (n : Nat) (old b : Nat) : Nat :=
  match op with
  | .add => amoW .add n old b
  | .xor => amoW .xor n old b
  | .and => amoW .and n old b
  | .or => amoW .or n old b
  | .min => amoW .mins n old b
  | .max => amoW .maxs n old b
  | .minu => amoW .minz n old b
  | .maxu => amoW .maxz n old b
  | .lr | .sc | .swap => b

/-- A jump of the current hart. -/
def rvJump (s : State) (target : Word) : State := s.modHt s.hart fun h => { h with pc := target, instret := h.instret + 1 }

/-- The end of an access: a value to `rd`, an access fault of the given cause, or another try. -/
def rvGot (len : Nat) (cause : Nat) (a : Word) (r : HGot × State) (k : State → Nat → State) : State :=
  match r.1 with
  | .ok v => hretire (k r.2 v) len
  | .fault => r.2.except cause a
  | .stall => r.2

/-- `lr`, `sc` and the AMOs. -/
def rvAtomic (s : State) (op : AOp) (dbl : Bool) (rd rs1 rs2 : XReg) (len : Nat) : State :=
  let a := s.hx rs1
  let n := if dbl then 8 else 4
  let b := (s.hx rs2).toNat % 256 ^ n
  match op with
  | .lr =>
    if a.toNat % n ≠ 0 then s.except 4 a
    else rvGot len 5 a (hartReserve s a.toNat n) fun s v =>
      (s.setX rd (extN true n v)).modHt s.hart fun h => { h with resv := some (a.toNat / 8) }
  | .sc =>
    if a.toNat % n ≠ 0 then s.except 6 a
    else if s.hme.resv = some (a.toNat / 8) then
      rvGot len 7 a (hartAtomic (s.modHt s.hart fun h => { h with resv := none }) a.toNat n fun _ => some b) fun s _ => s.setX rd 0
    else hretire ((s.modHt s.hart fun h => { h with resv := none }).setX rd 1) len
  | _ =>
    if a.toNat % n ≠ 0 then s.except 6 a
    else rvGot len 7 a (hartAtomic s a.toNat n fun old => some (rvAmoVal op n old b)) fun s v => s.setX rd (extN true n v)

/-- A CSR instruction; `arg` is the operand and `write` whether it writes. -/
def rvCsrOp (s : State) (op : CsrOp) (rd : XReg) (arg : Word) (write : Bool) (n : Nat) (len : Nat) : State :=
  match s.csrRead s.hart n with
  | none => hartIllegal s
  | some old =>
    if !s.csrMay s.hart n write then hartIllegal s
    else
      let v := match op with
        | .rw => arg
        | .rs => old ||| arg
        | .rc => old &&& ~~~arg
      let s := hretire s len
      let s := if write then csrWrite s s.hart n v else s
      s.setX rd old

/-- `ecall`: the exit call in U mode with a7 = 0 on a control thread (15 R351), else the environment-call exception. -/
def rvEcall (s : State) : Out :=
  match s.hme.priv, s.hart with
  | .u, .ctl _ => if s.hx 17 = 0 then execExitCall s else .next (s.except 8 0)
  | .u, .mgmt _ => .next (s.except 8 0)
  | .s, _ => .next (s.except 9 0)
  | .m, _ => .next (s.except 11 0)

/-- `wfi` may wait: in M mode, and in S mode unless TW is set. -/
def State.wfiMay (s : State) : Bool :=
  match s.hme.priv with
  | .m => true
  | .s => !bitAt (s.csr s.hart 0x300) 21
  | .u => false

/-- One instruction of the base on the current hart; `compressed` gives its length. -/
def execRv64 (i : RvInstr) (compressed : Bool) (s : State) : Out :=
  let len := if compressed then 2 else 4
  let pc := s.hme.pc
  let link := pc + BitVec.ofNat 64 len
  let x := s.hx
  match i with
  | .lui rd imm => .next (hretire (s.setX rd (sx imm <<< 12)) len)
  | .auipc rd imm => .next (hretire (s.setX rd (pc + (sx imm <<< 12))) len)
  | .jal rd imm => .next ((rvJump s (pc + (sx imm <<< 1))).setX rd link)
  | .jalr rd rs1 imm => .next ((rvJump s ((x rs1 + sx imm) &&& ~~~1)).setX rd link)
  | .branch op rs1 rs2 imm =>
    .next (if rvBranchTaken op (x rs1) (x rs2) then rvJump s (pc + (sx imm <<< 1)) else hretire s len)
  | .load op rd rs1 imm =>
    let a := x rs1 + sx imm
    let f := rvLoadForm op
    .next (if a.toNat % f.1 ≠ 0 then s.except 4 a
      else rvGot len 5 a (hartLoad s a.toNat f.1) fun s v => s.setX rd (extN f.2 f.1 v))
  | .store sz rs1 rs2 imm =>
    let a := x rs1 + sx imm
    let n := sizeN sz
    .next (if a.toNat % n ≠ 0 then s.except 6 a
      else rvGot len 7 a (hartStore s a.toNat n ((x rs2).toNat % 256 ^ n)) fun s _ => s)
  | .opImm op rd rs1 imm => .next (hretire (s.setX rd (rvImm op (x rs1) imm)) len)
  | .op op rd rs1 rs2 => .next (hretire (s.setX rd (rvReg op (x rs1) (x rs2))) len)
  | .unary op rd rs1 => .next (hretire (s.setX rd (rvUnary op (x rs1))) len)
  | .amo op dbl _ _ rd rs1 rs2 => .next (rvAtomic s op dbl rd rs1 rs2 len)
  | .fence .. => .next (hretire s len)
  | .fenceI .. => .next (hretire (hartFenceI s) len)
  | .ecall => rvEcall s
  | .ebreak => .next (s.except 3 pc)
  | .mret => .next (if s.hme.priv = .m then trapReturn s s.hart true else hartIllegal s)
  | .sret =>
    .next (if s.hme.priv = .m ∨ (s.hme.priv = .s ∧ bitAt (s.csr s.hart 0x300) 22 = false) then trapReturn s s.hart false
      else hartIllegal s)
  | .wfi =>
    .next (if s.wfiMay then (hretire s len).modHt s.hart fun h => { h with wfi := !s.wfiOver s.hart } else hartIllegal s)
  | .sfenceVma _ _ =>
    .next (if s.hme.priv = .m ∨ (s.hme.priv = .s ∧ bitAt (s.csr s.hart 0x300) 20 = false) then hretire s len else hartIllegal s)
  | .csr op rd rs1 n => .next (rvCsrOp s op rd (x rs1) (decide (op = .rw) || decide (rs1.val ≠ 0)) n.toNat len)
  | .csri op rd zimm n => .next (rvCsrOp s op rd (zx zimm) (decide (op = .rw) || decide (zimm ≠ 0)) n.toNat len)
  | .illegal _ => .next (hartIllegal s)

end Sys2Proof.Machine
end

