-- ==== Sys2Proof/Machine/Context.lean ====
section
/-! DEFINITION. Domain rights reloaded (16 R371), unmaps (R375, R376), and contexts on and off a quad: pre-emption of a slot
and its save area (02 R50 to R53; 10 R290, R291), SAVE and RESTORE (16 R381 to R383), checkpoint rounds (R384). -/

namespace Sys2Proof.Machine

/-! ### plbflush (16 R371) -/

/-- Nothing on a halted device, whose links are stopped (17 R406; log 116). -/
def execPlbflush (mask : BitVec 16) (s : State) : Out :=
  .next (if s.halted then s else foldS (s.cores.map Prod.fst) s fun s c =>
    match s.launchOf c with
    | some l => if bitAt mask (s.core c).world.toNat then
        let p := plbLoad s (some (dieOf c.quad)) (s.core c).world l.doms
        p.2.modCore c fun k => { k with plb := p.1 }
      else s
    | none => s)

/-! ### Unmap (16 R375, R376) -/

/-- A virtual range out of every L1, instruction cache, L2 and translation cache; dirty bytes are written back first. -/
def invalidateVA (s : State) (lo hi : Nat) : State :=
  let hit := fun (line : Nat) => decide (lo ≤ 64 * line) && decide (64 * line < hi)
  let s : State := { s with
    cores := s.cores.map fun e => (e.1, { e.2 with
      l1 := e.2.l1.filter fun (b : L1Block) => !hit b.line, icache := e.2.icache.filter fun (l : ICLine) => !hit l.line
      ctlIcache := e.2.ctlIcache.filter fun (l : ICLine) => !hit l.line })
    fills := s.fills.filter fun (f : Fill) => !hit f.line }
  let s := foldS (s.l2.filter fun (l : L2Line) => hit l.line) s l2Drop
  { s with tcache := s.tcache.filter fun (e : TLeaf) => decide (e.va + e.span ≤ lo) || decide (hi ≤ e.va) }

def State.umRange (s : State) : Nat × Nat := (fieldNat (s.mreg 0x218) 16 40 * 65536, fieldNat (s.mreg 0x220) 16 40 * 65536)

/-- GO: ignored while an unmap runs, and on a halted device (17 R406; log 116). -/
def execUnmapGo (s : State) : Out :=
  match s.unmap, s.halted with
  | some _, _ | none, true => .next s
  | none, false =>
    let r := s.umRange
    .next { invalidateVA s r.1 r.2 with unmap := some r }

/-- No command in flight touches the range, and no posted store into it is on its way. -/
def State.unmapReady (s : State) : Bool :=
  match s.unmap with
  | none => false
  | some (lo, hi) =>
    (s.cmds.all fun (c : Cmd) => c.freeAt.isSome || !c.touches lo hi) && s.sq.all fun (e : SQ) =>
      e.lines.all fun l => decide (64 * l < lo) || decide (hi ≤ 64 * l)

/-- The unmap finishes, and DONE is set. -/
def execUnmapDone (s : State) : Out :=
  match s.unmap with
  | some (lo, hi) =>
    if s.unmapReady then
      let s : State := { invalidateVA s lo hi with unmap := none }
      .next (s.setMreg 0x228 (s.mreg 0x228 ||| 2))
    else .next s
  | none => .next s

/-! ### The save area of a slot (10 R290, R291) -/

def reasonCode : Reason → Nat
  | .normal => 0
  | .fault => 1
  | .parked => 2
  | .killed => 3
def reasonOf : Nat → Reason
  | 0 => .normal
  | 1 => .fault
  | 2 => .parked
  | _ => .killed
/-- STATE and REASON. -/
def runCode : Run → Nat
  | .running | .saved => 0
  | .blocked => 1
  | .waiting _ => 2
  | .stopped r => 3 + 4 * reasonCode r

/-- FE: codes that are always full read 1, `li` and the unused codes 0. -/
def feWord (full : BitVec 64) : Word := (full &&& 0x02FFFFFFFFFFFFFF) ||| 0x1C01000000000001

def tripWord (age : Nat) (t : Trip) : Nat := 2 ^ 63 + age * 2 ^ 48 + t.count.toNat * 2 ^ 32 + t.site.toNat
def bindWord : Option Bind → Nat
  | some b => 2 ^ 63 + b2n b.wr * 2 ^ 62 + b.left.toNat * 2 ^ 25 + b.bank.val * 2 ^ 21 + b.addr.toNat
  | none => 0

def vBytes (v : VWord) : List Byte := v.toList.flatMap fun x => natLE 4 x.toNat

/-- The 0x800 bytes of a slot's save area. -/
def saveBytes (x : Thread) (engpend : Word) (fpend : Bool) : List Byte :=
  let w := fun (n : Nat) => natLE 8 n
  x.g.toList.flatMap (fun g => w g.toNat) ++ x.v.toList.flatMap vBytes ++
  (natLE 2 0xFFFF ++ (x.p.toList.drop 1).flatMap fun p => natLE 2 p.toNat) ++
  w (feWord x.full).toNat ++ w x.lo.toNat ++ w x.pc.toNat ++ w x.fp.toNat ++ w engpend.toNat ++
  (match x.lastLoad with
   | some l => w (2 ^ 16 + l.1.toNat) ++ w l.2.toNat
   | none => w 0 ++ w 0) ++
  (List.range 4).flatMap (fun e => w (match x.trips[e]? with
    | some t => tripWord e t
    | none => 0)) ++
  x.binds.toList.flatMap (fun b => w (bindWord b)) ++
  w (x.arrived.toNat % 2 ^ 64) ++ w (x.arrived.toNat / 2 ^ 64) ++ w (x.phases.toNat % 2 ^ 64) ++ w (x.phases.toNat / 2 ^ 64) ++
  w (runCode x.run + b2n fpend * 16) ++ w 0 ++ w 0 ++ x.line.toList.flatMap (fun h => natLE 2 h.toNat) ++
  x.frec.toList.flatMap (fun r => w r.toNat) ++ natLE 0x1E0 0

/-- Registers whose engine result is outstanding. -/
def Thread.engPend (x : Thread) : Word :=
  x.pend.foldl (fun (m : Word) p => match p.kind with
    | .engine _ => m ||| ((1 : Word) <<< p.reg.toNat)
    | _ => m) 0

/-- A slot's state written into its save area. -/
def writeSave (s : State) (t : Tid) : State :=
  let x := s.th t
  lmRaw s t.quad (saveBase t) (saveBytes x x.engPend (bitAt (s.core ⟨t.quad, t.core⟩).kzfp t.unit.val))

/-- A barrier arrival of the slot is on its way: its arrived bit and phase are not yet what a save would record (07 R223, R230). -/
def State.arrives (s : State) (t : Tid) : Bool :=
  s.barEvs.any fun (e : BarEv) => match e.kind with
    | .arrive u _ => decide (u = t)
    | .release _ => false

/-- The slot stands at a boundary where it can be saved: no packet, no result pending but an engine's, no fault waiting, no
arrival on its way. -/
def State.canSave (s : State) (t : Tid) : Bool :=
  let x := s.th t
  (match x.run with
   | .running | .blocked | .waiting _ => true
   | _ => false) && x.saveReq && decide (x.saveAt < s.cycle) && !x.inside s.cycle && x.packet.isNone && x.fetch.isNone &&
  !x.killReq && decide (x.parkEv = 0) && !s.stopsFirst t && !s.arrives t &&
  x.pend.all fun p => match p.kind with
    | .engine _ => true
    | _ => false

/-- A slot is saved at a boundary (02 R51). -/
def execSlotPreempt (t : Tid) (s : State) : Out :=
  .next (if s.canSave t then
    let s := s.modTh t Thread.unwait
    (writeSave s t).modTh t fun x => { x with run := .saved, saveReq := false, hold := 0 } else s)

/-- A slot as its save area gives it (10 R291). -/
def loadSave (s : State) (t : Tid) (old : Thread) : Thread :=
  let b := saveBase t
  let w := fun (off : Nat) => BitVec.ofNat 64 (s.lmRead t.quad (b + off) 8)
  let st := w 0x5A8
  let trip := fun (e : Nat) =>
    let x := w (0x548 + 8 * e)
    if bitAt x 63 then some (fieldNat x 48 2, (⟨x.setWidth 16, BitVec.ofNat 16 (fieldNat x 32 16)⟩ : Trip)) else none
  let trips := (List.range 4).filterMap trip
  let bind := fun (k : Nat) =>
    let x := w (0x568 + 8 * k)
    if bitAt x 63 then some (⟨bitAt x 62, BitVec.ofNat 21 (fieldNat x 0 21), BitVec.ofNat 24 (fieldNat x 25 24), Fin.ofNat 16 (fieldNat x 21 4)⟩ : Bind)
    else none
  { Thread.init with
    g := Vector.ofFn fun (n : Fin 32) => if n.val = 0 then 0 else w (8 * n.val)
    v := Vector.ofFn fun (n : Fin 16) => Vector.ofFn fun (i : Fin 16) =>
      BitVec.ofNat 32 (s.lmRead t.quad (b + 0x100 + 64 * n.val + 4 * i.val) 4)
    p := Vector.ofFn fun (n : Fin 8) => if n.val = 0 then 0 else BitVec.ofNat 16 (s.lmRead t.quad (b + 0x500 + 2 * n.val) 2)
    lo := w 0x518, full := feWord (w 0x510), pc := w 0x520, fp := w 0x528 &&& fpctlMask
    lastLoad := if bitAt (w 0x538) 16 then some ((w 0x538).setWidth 16, w 0x540) else none
    trips := ([0, 1, 2, 3] : List Nat).flatMap fun a => (trips.filter fun x => decide (x.1 = a)).map Prod.snd
    binds := Vector.ofFn fun (k : Fin 4) => bind k.val
    arrived := BitVec.ofNat 80 ((w 0x588).toNat + (w 0x590).toNat % 2 ^ 16 * 2 ^ 64)
    phases := BitVec.ofNat 80 ((w 0x598).toNat + (w 0x5A0).toNat % 2 ^ 16 * 2 ^ 64)
    line := Vector.ofFn fun (i : Fin 32) => BitVec.ofNat 16 (s.lmRead t.quad (b + 0x5C0 + 2 * i.val) 2)
    frec := Vector.ofFn fun (i : Fin 4) => w (0x600 + 8 * i.val)
    run := if fieldNat st 0 2 = 3 then .stopped (reasonOf (fieldNat st 2 2)) else .running
    pend := old.pend, pwin := old.pwin, exempt := old.exempt }

/-- A slot restored: it goes on from its saved line, or stops on a damaged copy, or on a register that was found bad or a word of
its save area that is poisoned (18 R410, R413; log 100). -/
def restoreSlot (s : State) (t : Tid) : State :=
  let old := s.th t
  let x := loadSave s t old
  let c : Cid := ⟨t.quad, t.core⟩
  let fp := bitAt (BitVec.ofNat 64 (s.lmRead t.quad (saveBase t + 0x5A8) 8)) 4
  let s := (s.setTh t x).modCore c fun k => { k with kzfp := setField k.kzfp t.unit.val 1 (b2n fp) }
  let info := fun (cause : Nat) (addr : Word) =>
    ({ cause := cause, detail := 0, op := 0, pc := x.pc, addr := addr, elem := 0, dreg := none } : FaultInfo)
  match x.run with
  | .stopped _ => s
  | _ =>
    if !lineLegal x.line false then takeFault s t (info 0x01 (lineVA x.pc))
    else if old.badReg || s.lmBad t.quad (saveBase t) 0x620 then takeFault s t (info 0x0A 0)
    else s

/-! ### A quad brought to rest -/

/-- Every running, blocked or waiting slot of the quad is asked to be saved; it is at its next boundary of a later cycle,
when its own cycle comes (02 R50, R54). -/
def askSaves (s : State) (q : Nat) : State :=
  foldS (quadSlots q) s fun s t => match (s.th t).run with
    | .running | .blocked | .waiting _ => s.modTh t fun x => { x with saveReq := true, saveAt := s.cycle }
    | _ => s

/-- Every slot is saved or stopped with its results landed, the sequencers are stopped, the quad's commands complete. -/
def State.atRest (s : State) (q : Nat) : Bool :=
  ((quadSlots q).all fun t =>
    let x := s.th t
    (x.halted || decide (x.run = .saved)) && x.pend.isEmpty && !s.arrives t) &&
  s.allHalted [seqTid q 0, seqTid q 1] &&
  s.cmds.all fun (c : Cmd) => decide (c.core.quad ≠ q) || c.freeAt.isSome

/-! ### SAVE (16 R381, R382) -/

def cxctlAddr (q : Nat) : Nat := quadBase q
def mkctlAddr (q : Nat) : Nat := quadBase q + 8

/-- SAVE: the quad is withheld and its slots are pre-empted; ignored while a SAVE or a round is under way. -/
def execCxctlSave (q : Nat) (s : State) : Out :=
  .next (if (s.quad q).op ≠ .none then s else askSaves (s.modQuad q fun x => { x with op := .save }) q)

/-- A word of an image under construction. -/
def imgW (m : Mem) (off : Nat) (v : Word) : Mem := Mem.writeN m off 8 v.toNat
def imgWs (m : Mem) (off : Nat) (ws : List Word) : Mem := (ws.zipIdx).foldl (fun m x => imgW m (off + 8 * x.2) x.1) m

def seqOwned (s : State) (c : Cid) (m : Fin 2) : Bool := decide ((s.th (seqTid c.quad m)).owner = some c.core)

/-- A sequencer's block, in its owner's core block (log 43). -/
def seqImage (s : State) (c : Cid) (m : Mem) (n : Fin 2) : Mem :=
  if seqOwned s c n then
    let x := s.th (seqTid c.quad n)
    let b := 0x640800 + 0x1000 * c.core.val + 0x280 + 0x100 * n.val
    let reason := match x.run with
      | .stopped r => reasonCode r
      | _ => 0
    let m := imgWs m b ((x.g.toList.take 8).map fun g => g)
    let m := imgW m (b + 0x40) x.pc
    let m := imgW m (b + 0x48) (BitVec.ofNat 64 (reason * 256 + x.full.toNat % 256))
    imgWs m (b + 0x50) x.frec.toList
  else m

/-- A core's block. -/
def coreImage (s : State) (m : Mem) (c : Cid) : Mem :=
  let k := s.core c
  let b := 0x640800 + 0x1000 * c.core.val
  let m := (k.ctrs.toList.zipIdx).foldl (fun m x => Mem.writeN m (b + 4 * x.2) 4 x.1.toNat) m
  let m := imgWs (imgW m (b + 0x40) (BitVec.ofNat 64 k.deque.length)) (b + 0x48) k.deque
  let m := imgWs (imgW m (b + 0x148) k.qwin) (b + 0x150) ((slotsOf c).map fun t => (s.th t).pwin)
  let m := imgWs m (b + 0x1D0) ((List.finRange 16).map fun i => s.bexp (s.barId c .core i))
  let m := imgW m (b + 0x250) (zx k.kzfp ||| (s.kzstp c <<< 32))
  let l := s.launchOf c
  let job := (s.jobOf c).getD 0
  let m := imgW m (b + 0x258) (BitVec.ofNat 64 (job * 2 ^ 32 + k.vcore.toNat))
  let m := imgW m (b + 0x260) (s.slinfo c)
  let m := imgW m (b + 0x268) (match l with
    | some l => l.addr
    | none => 0)
  let lse := bitAt (s.lease c.quad).posted c.core.val || decide ((s.lease c.quad).holder = some c.core)
  let m := imgW m (b + 0x270) (b2w lse)
  seqImage s c (seqImage s c m 0) 1

/-- The image of a quad. -/
def imageOf (s : State) (q : Nat) : Mem :=
  let m := Mem.copy s.lm [] (q * lmSize) 0 lmSize
  let m := Mem.copy s.canopy m (q * canopySize) 0x200000 canopySize
  let lo := q * 4 * 0x4000
  let m := (s.acc.filter fun e => decide (lo ≤ e.1) && decide (e.1 < lo + 0x10000)).foldl
    (fun m e => Mem.writeN m (0x600000 + 4 * (e.1 - lo)) 4 e.2.toNat) m
  let x := s.quad q
  let m := (x.band.toList.zipIdx).foldl (fun m b => Mem.writeN m (0x640000 + 2 * b.2) 2 b.1.toNat) m
  let m := imgWs m 0x640100 x.bfmt.toList
  let m := imgWs m 0x640180 (x.rings.toList.flatMap fun (r : Ring) =>
    [r.cfg, zx r.wp, BitVec.ofNat 64 (r.cp.toNat * 2 ^ 32 + r.rp.toNat)])
  let first := ((coreCids q).find? fun c => (s.core c).launch.isSome).getD ⟨q, 0⟩
  let m := imgWs m 0x640480 ((List.finRange 16).map fun i => s.bexp (s.barId first .quad i))
  (coreCids q).foldl (coreImage s) m

/-- Lines of the image that come from poisoned words of local memory and the canopy and from poisoned accumulator rows
(18 R410, R414). -/
def State.imgBad (s : State) (q : Nat) : List Nat :=
  (s.lmPoison.filterMap fun w => if 8 * w / lmSize = q then some (8 * w % lmSize / 64) else none) ++
  (s.canPoison.filterMap fun w => if 8 * w / canopySize = q then some ((0x200000 + 8 * w % canopySize) / 64) else none) ++
  (coreCids q).flatMap fun c => ((List.range 128).filter (s.core c).accPoison.getLsbD).flatMap fun r =>
    rangeFrom ((0x600000 + 0x10000 * c.core.val + 512 * r) / 64) 8

/-- Physical base and domain of the image's `i`-th 64 KiB page; none unless it is memory with PIN set. -/
def State.imgPage (s : State) (va i : Nat) : Option (Nat × BitVec 6) :=
  match s.walk (va + 65536 * i) with
  | .ok l => if leafIO l.leaf || !leafPin l.leaf then none else some (l.pa + (va + 65536 * i) % l.span, leafKdom l.leaf)
  | .error _ => none

/-- A line that neither its MLC nor its stack lists, and that is not poisoned: it reads as the plaintext store has it. -/
def State.plainLine (s : State) (pl : Nat) : Bool :=
  (s.mlcFind pl).isNone && (tget? s.stack pl).isNone && !s.badLines.contains pl

/-- A line of an image written, raw: by the MLC, poisoned when it stands for poisoned state. One that already stands so in a stack
that has never held anything else is left. -/
def storeLine (s : State) (die pl : Nat) (k : BitVec 6) (bs : List Byte) (bad : Bool) : State :=
  let s := linkCarry s die pl bs []
  if !bad && s.plainLine pl && decide (s.lineBytes pl = bs) then s
  else
    let s := mlcWrite s pl k none true fun m => Mem.writeBytes m (64 * pl) bs
    if bad && !s.domainDead k && s.rootUp pl then poisonLine s pl else s

/-- An image written to memory, over the links of the quad's die. -/
def storeImage (s : State) (die va : Nat) (img : Mem) (bad : List Nat) : State :=
  foldS (List.range 0x65) s fun s i => match s.imgPage va i with
    | none => s
    | some (pa, k) => foldS (List.range 1024) s fun s j =>
        storeLine s die (pa / 64 + j) k (Mem.bytes img (65536 * i + 64 * j) 64) (bad.contains (1024 * i + j))

def State.imgVA (s : State) (q : Nat) : Nat := fieldNat (s.reg (cxctlAddr q)) 16 40 * 65536

/-- What a core's units take along besides the image goes to its launch (02 R43; 18 R413; 19 R443). -/
def keepMarks (s : State) (c : Cid) : State :=
  let k := s.core c
  let ks := (List.finRange 18).map fun u =>
    let x := s.th (unitTid c u)
    let here := decide (x.run = .saved)
    (⟨k.vcore, u.val, here && x.exempt, here && x.badReg, k.forked.getLsbD u.val⟩ : Kept)
  match k.launch with
  | some l => s.modLaunch l fun x => { x with kept := x.kept ++ ks.filter fun y => y.exempt || y.bad || y.forked }
  | none => s

/-- A core that leaves its launch for a SAVE: it ends no part of it. -/
def parkCore (s : State) (c : Cid) : State :=
  let s := s.modCore c fun k => { k with launch := none, taskDue := none, qwin := setField k.qwin 63 1 0 }
  let s := foldS (slotsOf c) s fun s t => s.modTh t fun x => { x with pwin := setField x.pwin 63 1 0 }
  s.modHt (.ctl c) fun h => { h with active := false }

/-- The SAVE finishes: stopped slots are saved too, the lease is given up, the image is written, the cores are free. What the
context has stored goes to the MLC, where a RESTORE on another die finds it (log 79). -/
def execSaveComplete (q : Nat) (s : State) : Out :=
  if (s.quad q).op = .save ∧ s.atRest q = true then
    let s := foldS (quadSlots q) s fun s t => if (s.th t).run = .saved then s else writeSave s t
    let s := storeImage s (dieOf q) (s.imgVA q) (imageOf s q) (s.imgBad q)
    let s := foldS (coreCids q) s fun s c => keepMarks (releaseAt s c .pkg) c
    let s := s.modQuad q fun x => { x with op := .none, lease := { x.lease with holder := none, posted := 0, giving := 0 } }
    let s := foldS (coreCids q) s parkCore
    .next (s.setReg (cxctlAddr q) (s.reg (cxctlAddr q) ||| 4))
  else .next s

/-! ### Checkpoint rounds (16 R384) -/

def State.markRound (s : State) (q : Nat) : Nat := fieldNat (s.reg (mkctlAddr q)) 32 32
/-- Marking starts: the quad is withheld and its slots are pre-empted. -/
def startMarking (s : State) (q : Nat) : State :=
  let s := s.modQuad q fun x => { x with op := .mark, markReq := false }
  askSaves (s.setReg (mkctlAddr q) (setField (s.reg (mkctlAddr q)) 2 1 1)) q

/-- The next round's marking has been asked for, or a first marker of it has come. -/
def State.markWanted (s : State) (q : Nat) : Bool :=
  let r := (s.markRound q + 1) % 2 ^ 32
  (s.quad q).markReq || (s.quad q).markers.any fun m => decide (m.2 = r)

/-- REQ: during a SAVE, marking follows on restore (R389). -/
def execMkctlReq (q : Nat) (s : State) : Out :=
  let x := s.quad q
  .next (if x.op = .save then s.modQuad q fun x => { x with markReq := true }
    else if x.op = .none ∧ x.held = false then startMarking s q else s)

/-- The jobs of a quad. -/
def State.jobsOf (s : State) (q : Nat) : List Nat := (coreCids q).filterMap s.jobOf
/-- The quads that are inputs of a quad's jobs: this package's, and those that are known of other packages (log 44). -/
def State.inputsOf (s : State) (q : Nat) : List Nat :=
  let jobs := s.jobsOf q
  ((s.cores.filter fun e => (s.jobOf e.1).any jobs.contains).map fun e => e.1.quad).eraseDups ++
    ((s.podInputs.filter fun x => jobs.contains x.1).map Prod.snd).eraseDups

/-- The round is entered once a marker of it is held from every input. -/
def tryEnter (s : State) (q : Nat) : State :=
  let r := (s.markRound q + 1) % 2 ^ 32
  let x := s.quad q
  let has := fun (src : Nat) => x.markers.contains (src, r)
  if x.op = .mark ∧ has q = true ∧ ((s.inputsOf q).all has) = true then
    let s := s.modQuad q fun x => { x with op := .none, held := true, markers := x.markers.filter fun m => decide (m.2 ≠ r) }
    s.setReg (mkctlAddr q) (setField (setField (s.reg (mkctlAddr q)) 32 32 r) 2 2 2)
  else s

/-- The quad's own marker can be sent: at rest, with its posted stores performed and its increments landed (R384, R385). -/
def State.markReady (s : State) (q : Nat) : Bool :=
  let r := (s.markRound q + 1) % 2 ^ 32
  decide ((s.quad q).op = .mark) && !(s.quad q).markers.contains (q, r) && s.atRest q &&
  (s.sq.all fun (e : SQ) => decide (e.core.quad ≠ q)) && s.incrs.all fun (m : Incr) => decide (m.quad ≠ q)

/-- A marker of a round arrives at a quad; its own marker follows a release at `pod` scope and goes to every input. -/
def execMarkerArrives (q : Nat) (src : Nat) (round : BitVec 32) (s : State) : Out :=
  if s.halted then .next s
  else if src = q then
    if s.markReady q then
      let r := (s.markRound q + 1) % 2 ^ 32
      let s := foldS (coreCids q) s fun s c => releaseAt s c .pod
      let s := s.modQuad q fun x => { x with markers := x.markers ++ [(q, r)] }
      let others := (s.inputsOf q).filter fun d => decide (d ≠ q)
      let s : State := { s with agenda := s.agenda ++ (others.filter (· < 1024)).map fun d => .markerArrives d q (BitVec.ofNat 32 r) }
      let s := foldS (others.filter (1024 ≤ ·)) s fun s d => podSend s (d / 1024 - 1) (natLE 8 (d % 1024)) (natLE 4 r)
      .next (tryEnter s q)
    else .next s
  else
    let s := s.modQuad q fun x => { x with markers := if x.markers.contains (src, round.toNat) then x.markers else x.markers ++ [(src, round.toNat)] }
    let x := s.quad q
    let s := if x.op = .none ∧ x.held = false ∧ round.toNat = (s.markRound q + 1) % 2 ^ 32 then startMarking s q else s
    .next (tryEnter s q)

/-- RESUME: the held slots are restored; a round whose marker has come meanwhile, or whose REQ has, begins. -/
def execMkctlResume (q : Nat) (s : State) : Out :=
  if (s.quad q).held && !s.halted then
    let s := s.modQuad q fun x => { x with held := false }
    let s := s.setReg (mkctlAddr q) (setField (s.reg (mkctlAddr q)) 3 1 0)
    let s := foldS (quadSlots q) s fun s t => if (s.th t).run = .saved then restoreSlot s t else s
    .next (if s.markWanted q then startMarking s q else s)
  else .next s

/-! ### RESTORE (16 R383) -/

/-- An image as it is read: its bytes, and its lines that read as poison, which are zero. -/
structure Image where
  mem : Mem
  bad : List Nat
  deriving DecidableEq, Repr

/-- A line of an image read, over the link of the quad's die: by the MLC when it holds it, else from its stack, and kept nowhere. -/
def imgLine (s : State) (die pl : Nat) (k : BitVec 6) : Bool × State :=
  let s := mlcOwn s pl k
  let x : Bool × State := if s.rootUp pl = false then (true, s) else match s.mlcFind pl with
    | some l => (l.poison || s.domainDead k, s)
    | none => if s.plainLine pl && !s.domainDead k then (false, s) else hbmRead s pl k none
  (x.1, linkCarry x.2 die pl [] (if x.1 then [] else x.2.lineBytes pl))

/-- An image read from memory; a page that is not memory with PIN set gives free values (log 51). -/
def loadImage (s : State) (die va : Nat) : Image × State :=
  foldS (List.range 0x65) (⟨[], []⟩, s) fun (x : Image × State) i => match x.2.imgPage va i with
    | none => (⟨foldS (List.range 8192) x.1.mem fun (m : Mem) j =>
        Mem.writeN m (65536 * i + 8 * j) 8 (Config.freeWord (x.2.fresh + 8192 * i + j)).toNat, x.1.bad⟩, x.2)
    | some (pa, k) =>
      let y := foldS (List.range 1024) (x.1.bad, x.2) fun (y : List Nat × State) j =>
        let r := imgLine y.2 die (pa / 64 + j) k
        (if r.1 then y.1 ++ [1024 * i + j] else y.1, r.2)
      let m := Mem.copy y.2.mem x.1.mem pa (65536 * i) 65536
      (⟨foldS (y.1.filter fun l => decide (l / 1024 = i)) m fun (m : Mem) l => Mem.writeBytes m (64 * l) (List.replicate 64 0), y.1⟩, y.2)

/-- Poisoned words of a range of the image, as words of a memory from `base`. -/
def Image.words (img : Image) (lo n base : Nat) : List Nat :=
  (img.bad.filter fun l => decide (lo ≤ 64 * l) && decide (64 * l < lo + n)).flatMap fun l => rangeFrom ((base + 64 * l - lo) / 8) 8

/-- The rows of a core's accumulator set that read as poison. -/
def Image.rows (img : Image) (c : Fin 4) : BitVec 128 :=
  img.bad.foldl (fun m l => if 0x600000 + 0x10000 * c.val ≤ 64 * l ∧ 64 * l < 0x610000 + 0x10000 * c.val
    then m ||| ((1 : BitVec 128) <<< (64 * l % 0x10000 / 512)) else m) 0

def imgRead (m : Mem) (off : Nat) : Word := BitVec.ofNat 64 (Mem.readN m off 8)

/-- The running launch of a block address and world that a core of an image belongs to. -/
def State.launchAt (s : State) (addr : Word) (world : Nat) : Option (Nat × Launch) :=
  if addr = 0 then none else s.launches.find? fun x => decide (x.2.addr = addr) && decide (x.2.world.toNat = world)

/-- A core assigned again from its block of the image, which has no field for the units that its last fork started: the model keeps
them beside it (DESIGN CHOICE, log 113). -/
def restoreCore (image : Image) (s : State) (c : Cid) : State :=
  let img := image.mem
  let b := 0x640800 + 0x1000 * c.core.val
  let w := fun (off : Nat) => imgRead img (b + off)
  let sl := w 0x260
  let v := fieldNat (w 0x258) 0 16
  match s.launchAt (w 0x268) (fieldNat sl 0 4) with
  | none => s
  | some (lid, l) =>
    let old := s.core c
    let vcore : Half := BitVec.ofNat 16 v
    let world := BitVec.ofNat 4 (fieldNat sl 0 4)
    let p := plbLoad s (some (dieOf c.quad)) world l.doms
    let s := p.2
    let core : Core := { Core.init with
      launch := some lid, vcore := vcore, world := world, acct := BitVec.ofNat 6 (fieldNat sl 4 6)
      kdom := BitVec.ofNat 6 (fieldNat sl 10 6), accPoison := image.rows c.core
      ids := some ⟨BitVec.ofNat 32 (fieldNat (w 0x258) 32 32), BitVec.ofNat 2 (fieldNat sl 16 2), BitVec.ofNat 16 (fieldNat sl 18 16)⟩
      ctrs := Vector.ofFn fun (i : Fin 16) => BitVec.ofNat 32 (Mem.readN img (b + 4 * i.val) 4)
      deque := (List.range (min 32 (w 0x40).toNat)).map fun i => w (0x48 + 8 * i)
      qwin := w 0x148, plb := p.1, icache := old.icache, matIssued := old.matIssued, matDone := old.matDone, matLastOp := old.matLastOp
      kzfp := BitVec.ofNat 18 (fieldNat (w 0x250) 0 18) }
    let kept := fun (f : Kept → Bool) (t : Tid) => l.kept.any fun (x : Kept) => decide (x.vcore = vcore) && decide (x.unit = t.unit.val) && f x
    let forked := (List.finRange 18).foldl (fun n u => n + b2n (kept Kept.forked (unitTid c u)) * 2 ^ u.val) 0
    let s := s.setCore c { core with forked := BitVec.ofNat 18 forked }
    let s := s.modLaunch lid fun x => { x with
      cores := x.cores.set v c, kept := x.kept.filter fun (y : Kept) => decide (y.vcore ≠ vcore) }
    let s := foldS (List.finRange 16) s fun s i => s.setBexp (s.barId c .core i) (w (0x1D0 + 8 * i.val))
    let s := foldS (slotsOf c) s fun s t =>
      restoreSlot (s.setTh t { Thread.init with pwin := w (0x150 + 8 * t.unit.val), badReg := kept Kept.bad t, exempt := kept Kept.exempt t }) t
    let s := ([0, 1] : List (Fin 2)).foldl (fun (s : State) n =>
      let q := 0x280 + 0x100 * n.val
      if bitAt (w (q + 0x48)) 0 then
        s.setTh (seqTid c.quad n) { Thread.init with
          g := Vector.ofFn fun (i : Fin 32) => if i.val = 0 ∨ 8 ≤ i.val then 0 else w (q + 8 * i.val)
          full := (Thread.init.full &&& ~~~(0xFF : BitVec 64)) ||| BitVec.ofNat 64 (fieldNat (w (q + 0x48)) 0 8)
          pc := w (q + 0x40), run := .stopped (reasonOf (fieldNat (w (q + 0x48)) 8 2))
          frec := Vector.ofFn fun (i : Fin 4) => w (q + 0x50 + 8 * i.val), owner := some c.core }
      else s) s
    let s := if bitAt (w 0x270) 0 then postLease s c else s
    let s := (s.setCsr (.ctl c) 0x305 (s.mreg 0x240 &&& ~~~3)).setCsr (.ctl c) 0x304 8
    s.modHt (.ctl c) fun h => { h with pc := s.mreg 0x240 &&& ~~~3, priv := .m, resv := none, active := true, wfi := true, due := 0 }

/-- RESTORE onto a free quad; ignored otherwise, and on a halted device (17 R406; log 116). It acquires what the SAVE has released (log 79). -/
def execCxctlRestore (q : Nat) (s : State) : Out :=
  if ((coreCids q).any fun c => (s.core c).launch.isSome) = true ∨ (s.quad q).op ≠ .none ∨ bitAt (s.mreg 0x40) (dieOf q) = false ∨ s.halted = true then .next s
  else
    let image := loadImage s (dieOf q) (s.imgVA q)
    let s := image.2
    let img := image.1.mem
    let ring := fun (n : Nat) =>
      let b := 0x640180 + 24 * n
      ({ cfg := imgRead img b, wp := (imgRead img (b + 8)).setWidth 32, cp := BitVec.ofNat 32 (fieldNat (imgRead img (b + 16)) 32 32)
         rp := (imgRead img (b + 16)).setWidth 32, rpWas := 0, rpFrom := 0 } : Ring)
    let lo := q * 4 * 0x4000
    let accs := foldS (List.range 0x10000) (s.acc.filter fun e => decide (e.1 < lo) || decide (lo + 0x10000 ≤ e.1)) fun (m : Cells 32) i =>
      cset 0 m (lo + i) (BitVec.ofNat 32 (Mem.readN img (0x600000 + 4 * i) 4))
    let s : State := { s with
      lmPoison := (s.lmPoison.filter fun w => decide (8 * w / lmSize ≠ q)) ++ image.1.words 0 lmSize (q * lmSize)
      canPoison := (s.canPoison.filter fun w => decide (8 * w / canopySize ≠ q)) ++ image.1.words 0x200000 canopySize (q * canopySize)
      lm := Mem.copy img s.lm 0 (q * lmSize) lmSize, canopy := Mem.copy img s.canopy 0x200000 (q * canopySize) canopySize, acc := accs
      fresh := s.fresh + 8192 * 0x65 }
    let s := s.modQuad q fun x => { x with
      band := Vector.ofFn fun (j : Fin 128) => BitVec.ofNat 16 (Mem.readN img (0x640000 + 2 * j.val) 2)
      bfmt := Vector.ofFn fun (b : Fin 16) => imgRead img (0x640100 + 8 * b.val)
      rings := Vector.ofFn fun (n : Fin 32) => ring n.val }
    let s := ([seqTid q 0, seqTid q 1]).foldl (fun (s : State) t => s.setTh t Thread.init) s
    let s := foldS (coreCids q) s (restoreCore image.1)
    let s := acquireAt s ⟨q, 0⟩ .pkg
    let first := ((coreCids q).find? fun c => (s.core c).launch.isSome).getD ⟨q, 0⟩
    let s := foldS (List.finRange 16) s fun s i => s.setBexp (s.barId first .quad i) (imgRead img (0x640480 + 8 * i.val))
    let s := s.modQuad q fun x => { x with lastWorld := s.quadWorld q }
    let s := s.setReg (cxctlAddr q) (s.reg (cxctlAddr q) ||| 4)
    .next (if s.markWanted q then startMarking s q else s)

end Sys2Proof.Machine
end

