-- ==== Sys2Proof/Machine/Crypto.lean ====
section
/-! DEFINITION. The functions that the manual names by their standards: SHA-256 (20 R461), ECDSA and ECDH on P-256 with the nonce
of RFC 6979 (R461). What a standard fixes is taken from it (log 45). -/

namespace Sys2Proof.Machine

/-! ### SHA-256 -/

def shaInit : Vector (BitVec 32) 8 := #v[0x6A09E667, 0xBB67AE85, 0x3C6EF372, 0xA54FF53A, 0x510E527F, 0x9B05688C, 0x1F83D9AB, 0x5BE0CD19]

def shaK : List (BitVec 32) :=
  [0x428A2F98, 0x71374491, 0xB5C0FBCF, 0xE9B5DBA5, 0x3956C25B, 0x59F111F1, 0x923F82A4, 0xAB1C5ED5,
   0xD807AA98, 0x12835B01, 0x243185BE, 0x550C7DC3, 0x72BE5D74, 0x80DEB1FE, 0x9BDC06A7, 0xC19BF174,
   0xE49B69C1, 0xEFBE4786, 0x0FC19DC6, 0x240CA1CC, 0x2DE92C6F, 0x4A7484AA, 0x5CB0A9DC, 0x76F988DA,
   0x983E5152, 0xA831C66D, 0xB00327C8, 0xBF597FC7, 0xC6E00BF3, 0xD5A79147, 0x06CA6351, 0x14292967,
   0x27B70A85, 0x2E1B2138, 0x4D2C6DFC, 0x53380D13, 0x650A7354, 0x766A0ABB, 0x81C2C92E, 0x92722C85,
   0xA2BFE8A1, 0xA81A664B, 0xC24B8B70, 0xC76C51A3, 0xD192E819, 0xD6990624, 0xF40E3585, 0x106AA070,
   0x19A4C116, 0x1E376C08, 0x2748774C, 0x34B0BCB5, 0x391C0CB3, 0x4ED8AA4A, 0x5B9CCA4F, 0x682E6FF3,
   0x748F82EE, 0x78A5636F, 0x84C87814, 0x8CC70208, 0x90BEFFFA, 0xA4506CEB, 0xBEF9A3F7, 0xC67178F2]

def shaS (a b c : Nat) (x : BitVec 32) : BitVec 32 := x.rotateRight a ^^^ x.rotateRight b ^^^ x.rotateRight c
def shaD (a b c : Nat) (x : BitVec 32) : BitVec 32 := x.rotateRight a ^^^ x.rotateRight b ^^^ (x >>> c)

/-- The next word of the schedule, from the last sixteen. -/
def shaNext (w : Vector (BitVec 32) 16) : BitVec 32 := shaD 17 19 10 w[14] + w[9] + shaD 7 18 3 w[1] + w[0]
def shaShift (w : Vector (BitVec 32) 16) : Vector (BitVec 32) 16 :=
  let n := shaNext w
  #v[w[1], w[2], w[3], w[4], w[5], w[6], w[7], w[8], w[9], w[10], w[11], w[12], w[13], w[14], w[15], n]

def shaRound (h : Vector (BitVec 32) 8) (k w : BitVec 32) : Vector (BitVec 32) 8 :=
  let t1 := h[7] + shaS 6 11 25 h[4] + ((h[4] &&& h[5]) ^^^ (~~~h[4] &&& h[6])) + k + w
  let t2 := shaS 2 13 22 h[0] + ((h[0] &&& h[1]) ^^^ (h[0] &&& h[2]) ^^^ (h[1] &&& h[2]))
  #v[t1 + t2, h[0], h[1], h[2], h[3] + t1, h[4], h[5], h[6]]

def shaRounds : List (BitVec 32) → Vector (BitVec 32) 16 → Vector (BitVec 32) 8 → Vector (BitVec 32) 8
  | [], _, h => h
  | k :: ks, w, h => shaRounds ks (shaShift w) (shaRound h k w[0])

/-- A block of 64 bytes absorbed. -/
def shaBlock (h : Vector (BitVec 32) 8) (b : List Byte) : Vector (BitVec 32) 8 :=
  let w : Vector (BitVec 32) 16 := Vector.ofFn fun i => BitVec.ofNat 32 (beNat ((b.drop (4 * i.val)).take 4))
  let r := shaRounds shaK w h
  Vector.ofFn fun i => h[i] + r[i]

/-- Whole blocks of a message absorbed, at most `n`; the rest is the tail. -/
def shaBlocks : Nat → Vector (BitVec 32) 8 → List Byte → Vector (BitVec 32) 8 × List Byte
  | 0, h, m => (h, m)
  | n + 1, h, m => if m.length < 64 then (h, m) else shaBlocks n (shaBlock h (m.take 64)) (m.drop 64)

def Hash.init : Hash := { h := shaInit, tail := [], len := 0 }
def Hash.update (x : Hash) (m : List Byte) : Hash :=
  let all := x.tail ++ m
  let r := shaBlocks (all.length / 64) x.h all
  { h := r.1, tail := r.2, len := x.len + m.length }
/-- The digest, after the padding. -/
def Hash.digest (x : Hash) : List Byte :=
  let pad := (0x80 : Byte) :: List.replicate ((119 - x.tail.length) % 64) 0 ++ natBE 8 (8 * x.len)
  ((x.update pad).h.toList).flatMap fun w => natBE 4 w.toNat
def sha256 (m : List Byte) : List Byte := (Hash.init.update m).digest

/-- HMAC with SHA-256. -/
def hmac (key m : List Byte) : List Byte :=
  let k := if key.length ≤ 64 then key else sha256 key
  let k := k ++ List.replicate (64 - k.length) 0
  sha256 (k.map (· ^^^ 0x5C) ++ sha256 (k.map (· ^^^ 0x36) ++ m))

/-! ### P-256 -/

def p256P : Nat := 0xFFFFFFFF00000001000000000000000000000000FFFFFFFFFFFFFFFFFFFFFFFF
def p256N : Nat := 0xFFFFFFFF00000000FFFFFFFFFFFFFFFFBCE6FAADA7179E84F3B9CAC2FC632551
def p256B : Nat := 0x5AC635D8AA3A93E7B3EBBD55769886BC651D06B0CC53B0F63BCE3C3E27D2604B
def p256G : Nat × Nat :=
  (0x6B17D1F2E12C4247F8BCE6E563A440F277037D812DEB33A0F4A13945D898C296,
   0x4FE342E2FE1A7F9B8EE7EB4A7C0F9E162BCE33576B315ECECBB6406837BF51F5)

/-- a to the power e modulo m, over the low `n` bits of e. -/
def powMod (m a : Nat) : Nat → Nat → Nat
  | 0, _ => 1 % m
  | n + 1, e =>
    let r := powMod m a n (e / 2)
    if e % 2 = 1 then r * r % m * a % m else r * r % m
/-- The inverse modulo a prime. -/
def invMod (m a : Nat) : Nat := powMod m a 256 (m - 2)

/-- A point in Jacobian coordinates; Z = 0 is the point at infinity. -/
structure JPoint where
  x : Nat
  y : Nat
  z : Nat
  deriving DecidableEq, Repr

def subP (a b : Nat) : Nat := (a + (p256P - b % p256P)) % p256P
def mulP (a b : Nat) : Nat := a * b % p256P

def dblJ (q : JPoint) : JPoint :=
  if q.z = 0 ∨ q.y = 0 then ⟨1, 1, 0⟩
  else
    let yy := mulP q.y q.y
    let s := mulP 4 (mulP q.x yy)
    let zz := mulP q.z q.z
    let m := mulP 3 (mulP (subP q.x zz) ((q.x + zz) % p256P))
    let x := subP (mulP m m) (2 * s)
    ⟨x, subP (mulP m (subP s x)) (8 * mulP yy yy), mulP 2 (mulP q.y q.z)⟩

def addJ (a b : JPoint) : JPoint :=
  if a.z = 0 then b
  else if b.z = 0 then a
  else
    let za := mulP a.z a.z
    let zb := mulP b.z b.z
    let u1 := mulP a.x zb
    let u2 := mulP b.x za
    let s1 := mulP a.y (mulP zb b.z)
    let s2 := mulP b.y (mulP za a.z)
    if u1 = u2 then (if s1 = s2 then dblJ a else ⟨1, 1, 0⟩)
    else
      let h := subP u2 u1
      let r := subP s2 s1
      let hh := mulP h h
      let hhh := mulP h hh
      let v := mulP u1 hh
      let x := subP (subP (mulP r r) hhh) (2 * v)
      ⟨x, subP (mulP r (subP v x)) (mulP s1 hhh), mulP h (mulP a.z b.z)⟩

/-- A multiple of a point, over the low `n` bits of the factor. -/
def mulJ (q : JPoint) : Nat → Nat → JPoint
  | 0, _ => ⟨1, 1, 0⟩
  | n + 1, k =>
    let r := dblJ (mulJ q n (k / 2))
    if k % 2 = 1 then addJ r q else r

def affine (q : JPoint) : Option (Nat × Nat) :=
  if q.z = 0 then none
  else
    let i := invMod p256P q.z
    let ii := mulP i i
    some (mulP q.x ii, mulP q.y (mulP ii i))

def onCurve (x y : Nat) : Bool :=
  decide (x < p256P) && decide (y < p256P) && decide (mulP y y = (mulP x (mulP x x) + p256B + (p256P - 3) * x) % p256P)

def basePoint : JPoint := ⟨p256G.1, p256G.2, 1⟩

/-- A public key X ∥ Y as bytes. -/
def keyPoint (key : List Byte) : Option JPoint :=
  let x := beNat (key.take 32)
  let y := beNat ((key.drop 32).take 32)
  if onCurve x y then some ⟨x, y, 1⟩ else none

/-- ECDSA verification of a digest. -/
def ecdsaVerify (digest key sig : List Byte) : Bool :=
  let r := beNat (sig.take 32)
  let t := beNat ((sig.drop 32).take 32)
  match keyPoint key with
  | none => false
  | some q =>
    if r = 0 ∨ t = 0 ∨ p256N ≤ r ∨ p256N ≤ t then false
    else
      let w := invMod p256N t
      match affine (addJ (mulJ basePoint 256 (beNat digest * w % p256N)) (mulJ q 256 (r * w % p256N))) with
      | none => false
      | some a => decide (a.1 % p256N = r)

/-- The device's private key as the PUF yields it. -/
def privKey : Nat := Config.deviceKey % (p256N - 1) + 1

/-- The nonces of RFC 6979 in turn, until one gives a signature. -/
def signWith (d e : Nat) : Nat → List Byte → List Byte → Nat × Nat
  | 0, _, _ => (0, 0)
  | n + 1, k, v =>
    let v := hmac k v
    let x := beNat v
    let again := fun (_ : Unit) =>
      let k := hmac k (v ++ [0])
      signWith d e n k (hmac k v)
    if x = 0 ∨ p256N ≤ x then again ()
    else
      match affine (mulJ basePoint 256 x) with
      | none => again ()
      | some a =>
        let r := a.1 % p256N
        let t := invMod p256N x * (e + r * d) % p256N
        if r = 0 ∨ t = 0 then again () else (r, t)

/-- r ∥ s under private key `d`. -/
def ecdsaSign (d : Nat) (digest : List Byte) : List Byte :=
  let e := beNat digest % p256N
  let seed := natBE 32 d ++ natBE 32 e
  let v := List.replicate 32 (1 : Byte)
  let k := hmac (List.replicate 32 0) (v ++ [0] ++ seed)
  let v := hmac k v
  let k := hmac k (v ++ [1] ++ seed)
  let x := signWith d e 64 k (hmac k v)
  natBE 32 x.1 ++ natBE 32 x.2

/-- X ∥ Y of the public key of `d`. -/
def publicKey (d : Nat) : List Byte :=
  match affine (mulJ basePoint 256 d) with
  | some a => natBE 32 a.1 ++ natBE 32 a.2
  | none => natBE 64 0

/-- The shared secret of ECDH: the x coordinate; none for a peer key that is no point. -/
def ecdh (d : Nat) (peer : List Byte) : Option (List Byte) :=
  match keyPoint peer with
  | none => none
  | some q => (affine (mulJ q 256 d)).map fun a => natBE 32 a.1

end Sys2Proof.Machine
end

