-- ==== Sys2Proof/Machine/Security.lean ====
section
/-! DEFINITION. Key domains (17 R392 to R394), the security alarm (R403 to R408), and the sealed links (R397, R398; 20 R457). -/

namespace Sys2Proof.Machine

/-- A draw of `n` bytes from the crypto engine's DRBG (20 R461). -/
def draw (s : State) (n : Nat) : List Byte × State :=
  ((List.range n).map (Config.drbgByte s.draws), { s with draws := s.draws + 1 })

/-- The cycle in which a management operation that starts now ends; within `limit` cycles, or at no fixed time (log 25). -/
def State.busyUntil (s : State) (limit : Option Nat) : Nat :=
  let n := Config.busyCycles s.fresh
  s.cycle + 1 + (match limit with
    | some l => n % l
    | none => n)

/-! ### Key domains -/

/-- A core without the lines of a domain that its L1 and instruction caches hold (10 R283, R285). -/
def Core.dropDomain (x : Core) (k : BitVec 6) : Core :=
  { x with
    l1 := x.l1.filter fun (b : L1Block) => decide (b.kdom ≠ k)
    icache := x.icache.filter fun (l : ICLine) => decide (l.kdom ≠ k)
    ctlIcache := x.ctlIcache.filter fun (l : ICLine) => decide (l.kdom ≠ k) }

/-- An L2 line without its bytes: gone, unless it is locked or pinned, when it stands empty. -/
def l2Emptied (l : L2Line) : Option L2Line :=
  if l.lock.isSome || l.pin then some { l with valid := 0, dirty := 0, writers := [], rel := false, coming := 0 } else none

/-- Every cached line of a domain goes, with no write-back, and those on their way with it; what was never written to its stack is
lost (log 28). -/
def dropDomain (s : State) (k : BitVec 6) : State :=
  let lost := (s.mlc.filter fun (l : MlcLine) => decide (l.kdom = k) && l.dirty && (tget? s.stack l.line).isNone).map fun (l : MlcLine) => l.line
  { s with
    cores := s.cores.map fun e => (e.1, e.2.dropDomain k)
    l2 := s.l2.filterMap fun (l : L2Line) => if l.kdom = k then l2Emptied l else some l
    mlc := s.mlc.filter fun (l : MlcLine) => decide (l.kdom ≠ k)
    fills := s.fills.filter fun (f : Fill) => decide (f.kdom ≠ k)
    bmHeld := if k = 0 then [] else s.bmHeld
    mem := lost.foldl (fun (m : Mem) pl => Mem.clear m (64 * pl) 64) s.mem }

/-- Fresh keys of a domain, and its VALID bit. -/
def genDomain (s : State) (k : Nat) : State :=
  let d := draw s 96
  let f := fun (i : Nat) => BitVec.ofNat 256 (beNat ((d.1.drop (32 * i)).take 32))
  let s : State := { d.2 with keys := tset d.2.keys k ⟨f 0, f 1, f 2, d.2.draws⟩ }
  s.setMreg 0x118 (setField (s.mreg 0x118) k 1 1)

def State.kdDom (s : State) : Nat := fieldNat (s.mreg 0x100) 8 6
def State.kdIsValid (s : State) (k : Nat) : Bool := bitAt (s.mreg 0x118) k
def State.kdFenced (s : State) (k : Nat) : Bool := bitAt (s.mreg 0x128) k

/-- An operation on a key domain: BUSY, its effect unless a condition refuses it, and its end with the status (R394). -/
def kdStart (s : State) (refused : List (Byte × Bool)) (limit : Option Nat) (eff : State → State) : Out :=
  match s.kdBusy with
  | some _ => .next s
  | none =>
    let status : Byte := ((refused.find? Prod.snd).map Prod.fst).getD 0
    let s : State := if status = 0 then eff s else s
    let s : State := { s with kdBusy := some ⟨s.busyUntil limit, status⟩, fresh := s.fresh + 1 }
    .next (s.setMreg 0x100 (setField (s.mreg 0x100) 63 1 1))

def execKdGenerate (s : State) : Out :=
  let k := s.kdDom
  kdStart s [(6, s.erased), (5, s.kdFenced k), (1, s.kdIsValid k)] (some 20000) fun s => genDomain s k

def execKdDestroy (s : State) : Out :=
  let k := s.kdDom
  kdStart s [(6, s.erased), (3, decide (k = 0)), (2, !s.kdIsValid k)] none fun s =>
    let s := dropDomain { s with keys := tdel s.keys k } (BitVec.ofNat 6 k)
    s.setMreg 0x118 (setField (s.mreg 0x118) k 1 0)

/-- A line written as an elided zero line of a domain, whatever an MLC holds of it (R394, R401). HBM bytes without an identifier (19
R445). -/
def clearLine (k : BitVec 6) (s : State) (pl : Nat) : State :=
  let s : State := { s with mem := Mem.clear s.mem (64 * pl) 64, mlc := s.mlc.filter fun (l : MlcLine) => decide (l.line ≠ pl) }
  let b := bmRead (s.chargeHbm none) (bmTag (pl / 64))
  let s := b.2
  s.putStack pl (sealElided (s.domKey k) k pl 0 (s.stackData pl)) (s.elided pl || b.1)

/-- Every line of the range becomes an elided zero line of the domain. -/
def execKdClearRange (s : State) : Out :=
  let k := s.kdDom
  let lo := fieldNat (s.mreg 0x108) 16 24 * 65536
  let hi := fieldNat (s.mreg 0x110) 16 24 * 65536
  kdStart s [(6, s.erased), (5, s.kdFenced k), (2, !s.kdIsValid k), (4, decide (hi ≤ lo))] none fun s =>
    let top := min hi memEnd
    foldS (rangeFrom (lo / 64) (top / 64 - lo / 64)) s (clearLine (BitVec.ofNat 6 k))

/-- The operation's end: BUSY clears, STATUS stands. -/
def execKdOperationDone (s : State) : Out :=
  match s.kdBusy with
  | none => .next s
  | some b =>
    if s.cycle < b.due then .next s
    else
      let s : State := { s with kdBusy := none }
      .next (s.setMreg 0x100 (setField (setField (s.mreg 0x100) 63 1 0) 48 8 b.status.toNat))

/-- FENCE bits clear where they are written 1 and the domain holds no valid key. -/
def execKdfenceClear (mask : Word) (s : State) : Out :=
  .next (s.setMreg 0x128 (s.mreg 0x128 &&& ~~~(mask &&& ~~~(s.mreg 0x118))))

/-! ### The alarm -/

/-- The task of every thread of a core ends, with no thread that met the condition (16 R373; log 47). -/
def endCoreTask (s : State) (c : Cid) : State :=
  match (s.core c).launch with
  | none => s
  | some l =>
    let s := foldS (s.coreThreads c) s killThread
    let s := s.modCore c fun k => { k with deque := [] }
    let s := s.modLaunch l fun x => if x.status = 2 then x else { x with status := 1 }
    let k := s.core c
    let free := Config.freeWord s.fresh
    let s : State := { s with fresh := s.fresh + 1 }
    s.sendSup (s.superOf c) k.world
      (BitVec.ofNat 64 (k.vcore.toNat * 2 ^ 48 + k.world.toNat * 2 ^ 36 + fieldNat free 8 5 * 2 ^ 16 + fieldNat free 0 8 * 256 + 0x83))
      (Config.freeWord (s.fresh - 1) >>> 13) none

/-- What a domain's lines wrote back in this cycle is dropped: their stacks hold what they held before it (R404, R409). -/
def unwriteBack (s : State) (k : Nat) : State :=
  foldS (s.wroteBack.filter fun e => decide (e.2.1.toNat = k)) s fun s e =>
    bmWrite (match e.2.2.1 with
      | some x => { s with stack := tset s.stack e.1 x }
      | none => { s with stack := tdel s.stack e.1, mem := Mem.clear s.mem (64 * e.1) 64 }) e.1 e.2.2.2

/-- A fence of a domain (R404): FENCE, its cached lines go, the tasks of its launches end with STATUS 0x02. It is taken once in a cycle
(R408). -/
def fenceDomain (s : State) (k : Nat) : State :=
  if s.fences.contains k then s
  else
  let s : State := { unwriteBack s k with fences := k :: s.fences }
  let s := dropDomain (s.setMreg 0x128 (setField (s.mreg 0x128) k 1 1)) (BitVec.ofNat 6 k)
  foldS (s.launches.filter fun e => decide (e.2.kdom.toNat = k)) s fun s e =>
    let s := s.modLaunch e.1 fun x => { x with status := 2 }
    foldS (e.2.cores.filter fun c => decide ((s.core c).launch = some e.1)) s endCoreTask

def trigNo : Trigger → Nat
  | .integ => 0
  | .bitmap => 1
  | .link => 2
  | .keyst => 3
  | .glitch => 4
  | .debug => 5

/-- The action that ACT assigns to a trigger: 0 record, 1 fence, 2 halt, 3 erase. -/
def State.actOf (s : State) (t : Trigger) : Nat := fieldNat (s.mreg 0x180) (2 * trigNo t) 2

/-- Halt (R406), and erase (R407). -/
def haltDevice (s : State) : State := { s with halted := true }
def eraseKeys (s : State) : State :=
  let s : State := { haltDevice s with
    keys := [], erased := true, puf := false
    links := s.links.map fun l => (l.1, { l.2 with keyed := false, key := Vector.replicate 2 0 }) }
  s.setMreg 0x118 0

/-- A more severe trigger of this cycle waits behind (R408). -/
def State.worseWaits (s : State) : Bool := s.agenda.any fun i => match i with
  | .alarmTrigger t _ _ _ => decide (2 ≤ s.actOf t)
  | _ => false

/-- The action that a trigger takes: a fence gives way to a halt or an erase of its cycle, or that stands (R408). -/
def State.actTaken (s : State) (t : Trigger) : Nat :=
  if s.actOf t = 1 && (s.halted || s.worseWaits) then 0 else s.actOf t

/-- A trigger: COUNT and PEND, the record, and its action (R404, R405, R408). A request on the test access port of a device that is
not provisioned is none (R403). -/
def execAlarmTrigger (t : Trigger) (dom : Option (BitVec 6)) (src : Byte) (addr : Word) (s : State) : Out :=
  if t = .debug ∧ s.puf = false then .next s
  else
    let st := s.mreg 0x188
    let s := s.setMreg 0x188 (setField (setField st 32 32 (min (fieldNat st 32 32 + 1) 0xFFFFFFFF)) (trigNo t) 1 1)
    let act := s.actTaken t
    let s := (recordTo s (s.mreg 0x190) (msg16 (alarmWord dom src act (trigNo t)) addr)).1
    let doms := match dom with
      | some k => [k.toNat]
      | none => (List.range 64).filter s.kdIsValid
    .next (match act with
      | 0 => s
      | 1 => foldS doms s fenceDomain
      | 2 => haltDevice s
      | _ => eraseKeys s)

/-- `alcfg`: ignored once locked. -/
def execAlcfgWrite (v : Word) (s : State) : Out :=
  .next (if bitAt (s.mreg 0x180) 63 then s else s.setMreg 0x180 (v &&& 0x8000000000000FFF))

/-! ### Links (R397, R398) -/

def linkSrc (n : Nat) : Byte := BitVec.ofNat 8 (0x80 + n)

/-- A packet arrives under the link's key: a failed tag asks for a resend, and a second one raises LINK and loses the packet, whose
next reads of its lines give poison and whose next writes of them are dropped (log 48). A link without keys, or down, or of a halted
device carries nothing. -/
def execLinkPacketReceived (link : Nat) (dir : Bool) (packet : Sealed) (lines : List Nat) (write : Bool) (s : State) : Out :=
  let l := s.link link
  let d := dirN dir
  if l.isDown link || s.halted then .next s
  else
    let s := s.modLink link (Link.bumpCount · d)
    let s := if (s.link link).count[d].toNat = 2 ^ 48 then s.enqueue (.linkRekey link dir) else s
    if (l.openPacket link dir packet.header packet.body packet.tag).isSome then .next (s.modLink link (Link.setRetry · d false))
    else if !l.retry[d] then .next (s.modLink link (Link.setRetry · d true))
    else
      let s : State := s.modLink link (Link.setRetry · d false)
      let s : State := { s with lost := s.lost ++ lines.map fun pl => (pl, write) }
      let addrs : List Word := if lines.isEmpty then [0] else lines.map fun pl => BitVec.ofNat 64 (64 * pl)
      .next { s with agenda := s.agenda ++ addrs.map fun a => .alarmTrigger .link none (linkSrc link) a }

/-- The bytes "dv-rekey". -/
def rekeyLabel : List Byte := [0x64, 0x76, 0x2D, 0x72, 0x65, 0x6B, 0x65, 0x79]

/-- After 2^48 packets both ends derive a new key, and the counter restarts (log 46 for the bytes hashed). -/
def execLinkRekey (link : Nat) (dir : Bool) (s : State) : Out :=
  let d := dirN dir
  .next (if (s.link link).count[d].toNat < 2 ^ 48 then s
    else s.modLink link fun l =>
      let k := asconXof (natLE 16 l.key[d].toNat ++ natLE 8 (l.epoch[d] + 1) ++ rekeyLabel) 16
      { l with key := l.key.set d (BitVec.ofNat 128 (leNat k)), epoch := l.epoch.set d (l.epoch[d] + 1), count := l.count.set d 0 })

end Sys2Proof.Machine
end

