-- ==== Sys2Proof/Machine/Repair.lean ====
section
/-! DEFINITION. Faults and repair (18): what an error does (R411 to R415, R419, R421), machine-check records (R416, R417), lane
retirement (R420), the SRAM margin (R425, R426), way gating (R427 to R429) and the MLC range registers (10 R298). -/

namespace Sys2Proof.Machine

/-! ### Records -/

def smctlAddr (d : Nat) : Nat := dieBase d + 0xC0
def smcntAddr (d : Nat) : Nat := dieBase d + 0xC8

/-- A corrected event, merged into the unit's record of the present millisecond; die SRAM counts for the margin too, while its
controller runs (R426). -/
def corrected (s : State) (die unit idx : Nat) (sram : Bool) : State :=
  let s := noteCorrected s die unit idx
  if sram && bitAt (s.reg (smctlAddr die)) 0 then { s with sramCnt := tset s.sramCnt die (tget 0 s.sramCnt die + 1) } else s

/-- One record per unit with corrected events; a unit with parity only has dropped and refilled. -/
def execMcMergeInterval (s : State) : Out :=
  let all := s.merge
  .next (foldS all { s with merge := [] } fun s e =>
    let unit := e.1.2.1
    machineCheck s (mcOf e.1.1 unit e.1.2.2 0 (if unit = 5 ∨ unit = 6 then 1 else 0) 0 0 (BitVec.ofNat 64 e.2)))

/-! ### SRAM margin (R425, R426) -/


/-- OFFS one step down. -/
def offsDown (w : Word) : Word := setField w 40 8 (fieldNat w 40 8 - 1)

/-- An uncorrectable SRAM error of the die: counted, and the rail is raised at once. -/
def execSramUncorrectable (die : Nat) (s : State) : Out :=
  let c := s.reg (smcntAddr die)
  let s := s.setReg (smcntAddr die) (setField c 32 32 (fieldNat c 32 32 + 1))
  let w := s.reg (smctlAddr die)
  .next (if bitAt w 0 then
      { s.setReg (smctlAddr die) (setField (offsDown w) 8 8 16) with smOver := tset s.smOver die 0 }
    else s)

/-- The end of an interval that saw `corrected` errors. -/
def execSramMarginInterval (die : Nat) (corrected : Nat) (s : State) : Out :=
  let w := s.reg (smctlAddr die)
  let s : State := { s with sramCnt := tset s.sramCnt die 0 }
  if bitAt w 0 = false then .next s
  else
    let s := s.setReg (smcntAddr die) (setField (s.reg (smcntAddr die)) 0 32 (corrected % 2 ^ 32))
    let sp := fieldNat w 16 16
    let hold := fieldNat w 8 8
    let offs := fieldNat w 40 8
    let run := if sp < corrected then tget 0 s.smOver die + 1 else 0
    let w := if run = 2 then offsDown w
      else if corrected < sp ∧ hold = 0 ∧ offs < fieldNat w 32 8 then setField w 40 8 (offs + 1)
      else w
    let w := setField w 8 8 (hold - 1)
    .next { s.setReg (smctlAddr die) w with smOver := tset s.smOver die (if run = 2 then 0 else run) }

/-- `smctl`: a FLOOR above 30 or an INTV above 10 leaves that field; EN 0 returns OFFS to 0. -/
def execSmctlWrite (die : Nat) (v : Word) (s : State) : Out :=
  let w := s.reg (smctlAddr die)
  let w := if fieldNat v 32 8 ≤ 30 then setField w 32 8 (fieldNat v 32 8) else w
  let w := setField w 16 16 (fieldNat v 16 16)
  let w := if fieldNat v 4 4 ≤ 10 then setField w 4 4 (fieldNat v 4 4) else w
  let w := setField w 0 1 (fieldNat v 0 1)
  let s : State := if bitAt v 0 then s else { s with sramCnt := tset s.sramCnt die 0, smOver := tset s.smOver die 0 }
  .next (s.setReg (smctlAddr die) (if bitAt v 0 then w else setField w 40 8 0))

/-! ### Links (R420) -/

/-- A lane retires: the spare takes over, then the link is halved, then it goes down. Which of the two dies of a die link
its record names is not given (log 49). -/
def execLaneRetire (link lane : Nat) (s : State) : Out :=
  let l := s.link link
  if l.down then .next s
  else
    let die := if 96 ≤ link then 0x20 else if bitAt (Config.freeWord s.fresh) 0 then link / 12 else 0x10 + link % 12
    let s : State := { s with fresh := s.fresh + 1 }
    let s := s.modLink link fun l =>
      { l with lost := l.lost + 1, retired := l.retired.or (some lane), down := decide (2 ≤ l.lost) }
    .next (machineCheck s (mcOf die 0x0C link (if l.lost < 2 then 0 else 1) (if l.lost = 0 then 4 else 0) 0 0 1))

/-- A stack record that the scrubber reads: a correctable error is rewritten and recorded, one that is not poisons the line where it
lies (R411, R412, R416); a marker and an elided line have no check bits, and a bitmap line's loss shows when it is read (17 R402). -/
def scrubRecord (s : State) (e : Nat × StackLine) : State :=
  let elided := decide (e.1 < bmBase) && s.elided e.1
  if elided || (decide (e.2.tail = BitVec.allOnes 64) && !e.2.near) then s
  else
    match e.2.corrected with
    | none => if bmBase ≤ e.1 then s else hbmCheck { s with badLines := (e.1 :: s.badLines).eraseDups } e.1
    | some d =>
      if d = e.2.data ∧ lineEcc d = e.2.tail then s
      else noteFixed { s with stack := tset s.stack e.1 (storedLine d e.2.mac) } e.1 true

/-- The patrol scrubber's pass over the stacks (R412). In the arrays that correct in place, an error that can be corrected leaves nothing
to rewrite (R410). -/
def execScrubPass (hbm : Bool) (s : State) : Out := .next (if hbm && !s.halted then foldS s.stack s scrubRecord else s)

/-! ### Way gating (R427 to R429) -/

def l2wgAddr (d : Nat) : Nat := dieBase d + 0x80
def mlcwgAddr (r : Nat) : Nat := rootBase r
def allWays : List Nat := List.range 16

/-- A line that is poisoned leaves a marker behind at its physical address. -/
def markIfPoisoned (s : State) (pl : Nat) (k : BitVec 6) (acct : Option (BitVec 6)) : State :=
  if s.linePoison pl then hbmWrite s pl k acct true else s

/-- One way of one slice: refused while it holds a locked or pinned line, else emptied. -/
def gateL2 (die slice : Nat) (s : State) (w : Nat) : State :=
  let here := s.l2.filter fun (l : L2Line) => decide (l.die = die) && decide (sliceOf l.line = slice) && decide (l.way.val = w)
  if here.any fun (l : L2Line) => l.lock.isSome || l.pin then s
  else
    let s := foldS here s fun s (l : L2Line) => markIfPoisoned (l2Drop s l) (l.pa / 64) l.kdom (some l.acct)
    let k := die * 96 + slice
    { s with l2gate := tset s.l2gate k (tget 0 s.l2gate k ||| ((1 : Half) <<< w)) }

/-- One way of a root die's MLC: refused while a range register reserves it, else emptied. -/
def gateMlc (root : Nat) (s : State) (w : Nat) : State :=
  if bitAt s.mlcReserved w then s
  else
    let here := s.mlc.filter fun (l : MlcLine) => decide (rootOf l.line = root) && decide (l.way.val = w)
    let s := foldS here s fun s (l : MlcLine) => markIfPoisoned (mlcEvict s l) l.line l.kdom l.acct
    { s with mlcgate := tset s.mlcgate root (tget 0 s.mlcgate root ||| ((1 : Half) <<< w)) }

/-- A write of `l2wg` or `mlcwg`: REF's bits clear where written 1; REQ starts a request unless one is in progress, or the
links have stopped (17 R406; log 116). -/
def gateRequest (s : State) (l2 : Bool) (i : Nat) (addr : Nat) (v : Word) (eff : Half → State → State) : Out :=
  let w := s.reg addr &&& ~~~(v &&& 0x0000FFFF00000000)
  if bitAt w 63 || s.halted then .next (s.setReg addr w)
  else
    let s := s.setReg addr (setField (setField w 0 16 (fieldNat v 0 16)) 63 1 1)
    let s := eff (v.setWidth 16) s
    .next { s with gateBusy := s.gateBusy ++ [(l2, i)] }

def execL2wgRequest (die : Nat) (v : Word) (s : State) : Out :=
  gateRequest s true die (l2wgAddr die) v fun req s =>
    foldS (List.range 96) s fun s slice =>
      let k := die * 96 + slice
      let old : Half := tget 0 s.l2gate k
      let s : State := { s with l2gate := tset s.l2gate k (old &&& req) }
      foldS (allWays.filter fun w => bitAt req w && !bitAt old w) s (gateL2 die slice)

def execMlcwgRequest (root : Nat) (v : Word) (s : State) : Out :=
  gateRequest s false root (mlcwgAddr root) v fun req s =>
    let old : Half := tget 0 s.mlcgate root
    let s : State := { s with mlcgate := tset s.mlcgate root (old &&& req) }
    foldS (allWays.filter fun w => bitAt req w && !bitAt old w) s (gateMlc root)

/-- The ways gated in every slice of a die. -/
def State.l2Gated (s : State) (die : Nat) : Half :=
  (List.range 96).foldl (fun (m : Half) i => m &&& tget 0 s.l2gate (die * 96 + i)) (BitVec.allOnes 16)

/-- A request finishes: ACT, REF for the ways requested and not gated everywhere, BUSY. -/
def execWayGatingDone (l2 : Bool) (i : Nat) (s : State) : Out :=
  if s.gateBusy.contains (l2, i) then
    let addr := if l2 then l2wgAddr i else mlcwgAddr i
    let w := s.reg addr
    let act : Half := if l2 then s.l2Gated i else tget 0 s.mlcgate i
    let ref : Half := BitVec.ofNat 16 (fieldNat w 32 16) ||| (w.setWidth 16 &&& ~~~act)
    let w := setField (setField (setField w 16 16 act.toNat) 32 16 ref.toNat) 63 1 0
    .next { s.setReg addr w with gateBusy := s.gateBusy.erase (l2, i) }
  else .next s

/-! ### MLC range registers (10 R298) -/

/-- `mlcc`n: refused as R298 lists; S and WAYS are ignored while EN is 1. As it is disabled its lines are the pool's, and stay until they
are replaced (R299). -/
def execMlccWrite (n : Fin 8) (v : Word) (s : State) : Out :=
  let off := 0x300 + 8 * n.val
  let w := s.mreg off
  let ways := fieldNat v 8 4
  let others := ((List.range 8).filter fun m => decide (m ≠ n.val) && mlccEn (s.mlcc m)).foldl (fun a m => a + mlccWays (s.mlcc m)) 0
  let base := fieldNat (s.mreg (0x280 + 8 * n.val)) 21 19
  let limit := fieldNat (s.mreg (0x2C0 + 8 * n.val)) 21 19
  let mask : Word := 0x00000000000F0F00
  let free := fun (l : MlcLine) => if l.retained = some n then { l with retained := none } else l
  .next (if mlccEn w then (if bitAt v 63 then s else { s.setMreg off (setField w 63 1 0) with mlc := s.mlc.map free })
    else if bitAt v 63 = false then s.setMreg off (v &&& mask)
    else if ways = 0 ∨ 12 < ways ∨ limit ≤ base ∨ v &&& ~~~(mask ||| 0x8000000000000000) ≠ 0 ∨ 12 < others + ways then s
    else { s.setMreg off v with mlcWays := cset 0 s.mlcWays n.val (s.mlcPick ways) })

/-! ### Errors (R411 to R415, R419, R421) -/

/-- The words of an array of 64-bit words that meet [a, a + n). -/
def wordsOf (a n : Nat) : List Nat := rangeFrom (a / 8) ((a + n + 7) / 8 - a / 8)
def poisonLm (s : State) (a n : Nat) : State := { s with lmPoison := (s.lmPoison ++ wordsOf a n).eraseDups }
def poisonCan (s : State) (a n : Nat) : State := { s with canPoison := (s.canPoison ++ wordsOf a n).eraseDups }

/-- A thread meets a bad register or a residue mismatch: cause 0x0A at its next instruction, which takes no effect (R413); after a
deferred fault that comes before it. -/
def stopPoisoned (s : State) (t : Tid) : State :=
  let x := s.th t
  match x.run with
  | .stopped _ | .saved => s
  | _ =>
    match x.deferred with
    | some _ => s.setTh t { x with badReg := true }
    | none =>
      let op := BitVec.ofNat 7 (hdOp (lineH x.line (headIdx x.pc)))
      (s.setTh t { x with deferred := some (⟨0x0A, 0, 0, 0, none⟩, noReg, op) }).enqueue (.deferredFault t)

/-- A record about a thread of a core. -/
def threadCheck (s : State) (c : Cid) (unit action : Nat) (addr prog0 prog1 : Word) : State :=
  let k := s.core c
  machineCheck s ⟨k.vcore, k.world, dieOf c.quad, unit, vqOf c.quad, 1, action, addr, prog0, prog1⟩

/-- A record about an engine command: its launch's core and world, also once its core has left that launch. -/
def cmdCheck (s : State) (m : Cmd) (unit action : Nat) (prog0 prog1 : Word) : State :=
  let who := match m.own with
    | some o => (o.vcore, o.world)
    | none => ((s.core m.core).vcore, (s.core m.core).world)
  machineCheck s ⟨who.1, who.2, dieOf m.core.quad, unit, vqOf m.core.quad, 1, action, 0, prog0, prog1⟩

/-- A quad fails: its tasks end and it is out of service until the next boot (R415, R419). -/
def quadOut (s : State) (q : Nat) : State :=
  let s := foldS (coreCids q) s endCoreTask
  let s : State := { s with failed := (s.failed ++ [dieOf q * 120 + s.stopOf q]).eraseDups }
  machineCheck (s.modQuad q fun x => { x with out := true }) (mcOf (dieOf q) 4 (vqOf q) 1 3 0 0 0)

/-- A slice fails: its lines leave it, dirty bytes written back while the links run (R419; 17 R406). -/
def sliceFails (s : State) (die slice : Nat) : State :=
  let mine := fun (l : L2Line) => decide (l.die = die) && decide (sliceOf l.line = slice)
  let s := if s.halted then { s with l2 := s.l2.filter fun (l : L2Line) => !mine l } else foldS (s.l2.filter mine) s l2Drop
  machineCheck { s with sliceOut := (s.sliceOut ++ [die * 96 + slice]).eraseDups } (mcOf die 9 slice 1 1 0 0 0)

/-- An MLC bank fails: its lines leave it, dirty ones written to their stacks, and it holds none until the next boot (R421). -/
def bankFails (s : State) (root bank : Nat) : State :=
  let s : State := { s with bankOut := (s.bankOut ++ [root * 96 + bank]).eraseDups }
  let here := s.mlc.filter fun (l : MlcLine) => decide (rootOf l.line = root) && decide (mlcBank l.line = bank)
  machineCheck (foldS here s mlcEvict) (mcOf (0x10 + root) 0x0A bank 1 1 0 0 0)

/-! ### Commands cut short (R414, R417) -/

/-- A command whose effect is over: its status is known, and its completion action follows. -/
def endCmd (s : State) (id : Nat) (w : Word) : State :=
  ({ s with cmds := s.cmds.map fun (x : Cmd) => if x.id = id then { x with status := some w, due := some s.cycle } else x }
    : State).enqueue (.commandCompletion id)

/-- The matrix command that a core's set is in use by. -/
def State.matNow (s : State) (c : Cid) : Option Cmd :=
  s.cmds.find? fun (x : Cmd) => decide (x.eng = .mat) && decide (x.core = c) && x.due.isSome && x.freeAt.isNone

/-- A residue mismatch in a row: the running command completes with CODE 0x04, and the row is poisoned (R414). -/
def accMismatch (s : State) (c : Cid) (row : Nat) : State :=
  match s.matNow c with
  | none => threadCheck (s.poisonRows c [row]) c 3 2 0 0 0
  | some m =>
    let x := asOwner s m (cmdPayload · m)
    cmdCheck ((endCmd x.2 m.id ((x.1 &&& 0xFF) ||| 0x400)).poisonRows c [row]) m 3 2 0 0

/-- The first `done` rows of a matrix command take effect; the next row is poisoned. -/
def cutMat (s : State) (c : Cmd) (done : Nat) : Flags × State :=
  let q := c.core.quad
  let p := fun i => (grp c.ps i).toNat
  let few := fun i =>
    let m := { c with ps := c.ps.set i (BitVec.ofNat 64 done) }
    { m with due := some (c.start + matCycles m) }
  let slice := fun (s : State) off n => poisonCan s (sliceAt q done off) n
  let row := fun len => (rowAddrs c.bf (grp c.ps 0) (grp c.ps 1) (done + 1) len).getLastD 0
  match c.ins with
  | .mzero _ => (0, (mzeroPayload s (few 1)).2.poisonRows c.core [p 0 + done])
  | .mbld _ =>
    let r := mbldPayload s (few 3)
    (r.1.flags, slice r.2 (p 4) (rowBytes (bfFmt c.bf) (p 2)))
  | .mma _ b z =>
    let r := mmaPayload s (few 3) b.toNat z false
    (r.1.flags, r.2.poisonRows c.core (accRows (b == 8) (p 4 + done)))
  | .mmas _ b z =>
    let r := mmaPayload s (few 3) b.toNat z true
    (r.1.flags, r.2.poisonRows c.core (accRows (b == 8) (p 4 + done)))
  | .mcmpr _ b =>
    let r := mcmprSlices s c b.toNat done
    (r.1.flags, slice (slice r.2 (p 2) (keptBytes b.toNat (p 1))) (p 3) (ceilDiv (p 1) 8))
  | .mst _ clr =>
    let r := mstPayload s (few 3) clr
    let len := rowBytes (bfFmt c.bf) (p 4)
    (r.1.flags, poisonLm r.2 (q * lmSize + row len) len)
  | _ => (0, s)

/-- The bytes of a cut ring send that were not committed are left unwritten, in the message they belong to. -/
def cutBytes (ps : State) (ids : List Nat) (id done : Nat) (bytes : List (Option Byte)) : List (Option Byte) :=
  let len := fun i => match ps.cmds.find? fun (c : Cmd) => decide (c.id = i) with
    | some c => (grp c.ps 2).toNat
    | none => 0
  let start := (ids.takeWhile fun i => decide (i ≠ id)).foldl (fun a i => a + len i) 0
  let n := len id - done
  bytes.take (start + done) ++ List.replicate n none ++ bytes.drop (start + done + n)

/-- The source of a ring send that waits to be read in its packet or its message is read now. -/
def readNow (s : State) (id : Nat) : State :=
  match s.thr.findSome? fun e => (e.2.packet.bind fun p => if p.unread.contains id then some (e.1, p) else none) with
  | some (t, p) =>
    let x := readSends s p.cmds [id] p.buf
    x.2.modTh t fun y => { y with packet := y.packet.map fun p => { p with buf := x.1, unread := p.unread.erase id } }
  | none =>
    match s.ringMsgs.find? fun (m : RingMsg) => m.unread.contains id with
    | some m =>
      let x := readSends s m.cmds [id] m.bytes
      x.2.putMsg { m with bytes := x.1, unread := m.unread.erase id }
    | none => s

/-- A ring send that is cut: how many bytes it has committed. Before its message is admitted none are, and the message will bring none of
them (log 118); once it is admitted, all have been. -/
def cutRing (s : State) (c : Cmd) : Nat × State :=
  let s := readNow s c.id
  let w := ((s.cmd? c.id).bind Cmd.status).getD 0
  let waits := (s.thr.any fun e => e.2.packet.any fun p => p.cmds.contains c.id) || s.ringMsgs.any fun (m : RingMsg) => m.cmds.contains c.id
  if waits = false then (fieldNat w 32 32, s)
  else
    let cut := fun (p : Packet) => if p.cmds.contains c.id then { p with buf := cutBytes s p.cmds c.id 0 p.buf } else p
    (0, { s with
      cmds := s.cmds.map fun (x : Cmd) => if x.id = c.id then { x with status := some (statusW 4 0) } else x
      ringMsgs := s.ringMsgs.map fun (m : RingMsg) =>
        if m.cmds.contains c.id then { m with bytes := cutBytes s m.cmds c.id 0 m.bytes } else m
      thr := s.thr.map fun e => (e.1, { e.2 with packet := e.2.packet.map cut }) })

/-- The bytes that a send's status says are committed: none of one refused or mismatched (08 R236). -/
def committed (w : Word) : Nat := if fieldNat w 8 8 = 1 ∨ fieldNat w 8 8 = 2 then 0 else fieldNat w 32 32

/-- A send cut after `n` bytes: how many it has committed. -/
def cutSend (s : State) (c : Cmd) (n : Nat) : Nat × State :=
  match c.ins with
  | .send _ _ .ring _ => cutRing s c
  | .send _ _ dk g =>
    let r := asOwner s c fun s => sendPayload s c dk g (some n)
    (committed r.1, endCmd r.2 c.id (if fieldNat r.1 8 8 = 0 then setField r.1 8 8 4 else r.1))
  | _ =>
    let r := asOwner s c fun s => csendServe s c (some n)
    (committed r.1, endCmd r.2 c.id r.1)

/-- An engine command is cut after `done` bytes, elements or rows, and leaves its progress record. -/
def cutCommand (s : State) (id done : Nat) : State :=
  match s.cmds.find? fun (c : Cmd) => decide (c.id = id) && c.freeAt.isNone with
  | none => s
  | some c =>
    match c.eng with
    | .send =>
      let x := cutSend s c (min done (grp c.ps 2).toNat)
      cmdCheck x.2 c 0x0D 5 (BitVec.ofNat 64 (x.1 * 2 ^ 32 + (grp c.ps 2).toNat)) (grp c.ps 0)
    | .skid =>
      let r := asOwner s c fun s => match c.ins with
        | .scat _ op iw => skidServe s c false op iw done
        | .gath _ iw => skidServe s c true .st iw done
        | _ => (0, s)
      cmdCheck (endCmd r.2 id r.1) c 0x0E 5 (grp c.ps 6) (BitVec.ofNat 64 (fieldNat (grp c.ps 1) 0 32))
    | .mat =>
      let r := asOwner s c fun s =>
        let r := cutMat s c done
        (BitVec.ofNat 64 (0x400 + r.1.toNat), r.2.charge (s.core c.core).acct 1 (matCycles c))
      let k := r.2.core c.core
      cmdCheck (endCmd r.2 id r.1) c 0x0F 5
        (BitVec.ofNat 64 (k.matLastOp.toNat * 2 ^ 24 + k.matDone % 2 ^ 24)) (BitVec.ofNat 64 (matOp c.ins * 2 ^ 8 + done % 256))

/-! ### One error -/

/-- An error is corrected, or it is detected and its action is taken (R411). -/
def execErrorDetected (e : ErrorKind) (s : State) : Out :=
  .next (match e with
  | .hbmLine pl ok =>
    if ok then corrected s (0x10 + rootOf pl) 0x0B (rootOf pl) false
    else hbmCheck { s with badLines := (pl :: s.badLines).eraseDups } pl
  | .sramLine die line ok =>
    if ok then corrected s die 9 (sliceOf line) true
    else match s.l2Find die line with
      | none => s
      | some l =>
        let s := poisonLine (s.l2Put { l with valid := 0, dirty := 0, writers := [], rel := false, coming := 0 }) (l.pa / 64)
        (machineCheck s (mcOf die 9 (sliceOf line) 1 2 (BitVec.ofNat 64 (64 * line)) 0 0)).enqueue (.sramUncorrectable die)
  | .mlcLine pl ok =>
    if ok then corrected s (0x10 + rootOf pl) 0x0A (mlcBank pl) false
    else match s.mlcFind pl with
      | none => s
      | some _ => machineCheck (poisonLine s pl) (mcOf (0x10 + rootOf pl) 0x0A (mlcBank pl) 1 2 (BitVec.ofNat 64 (64 * pl)) 0 0)
  | .localWord q a ok =>
    if ok then corrected s (dieOf q) 7 (vqOf q) true
    else (machineCheck (poisonLm s (q * lmSize + a) 1) (mcOf (dieOf q) 7 (vqOf q) 1 2 (BitVec.ofNat 64 a) 0 0)).enqueue
      (.sramUncorrectable (dieOf q))
  | .canopyWord q a ok =>
    if ok then corrected s (dieOf q) 8 (vqOf q) true
    else (machineCheck (poisonCan s (q * canopySize + a) 1) (mcOf (dieOf q) 8 (vqOf q) 1 2 (BitVec.ofNat 64 a) 0 0)).enqueue
      (.sramUncorrectable (dieOf q))
  | .l1Block c va => corrected (l1Drop s c (va / 64)) (dieOf c.quad) 5 (vqOf c.quad) false
  | .icacheLine c va =>
    corrected (s.modCore c fun k => { k with
        icache := k.icache.filter fun (l : ICLine) => decide (l.line ≠ va / 64)
        ctlIcache := k.ctlIcache.filter fun (l : ICLine) => decide (l.line ≠ va / 64) })
      (dieOf c.quad) 6 (vqOf c.quad) false
  | .register t ok =>
    if ok then corrected s (dieOf t.quad) 1 (vqOf t.quad) false
    else threadCheck (stopPoisoned s t) (s.coreId t) 1 3 0 0 0
  | .registerSaved t code =>
    if (s.th t).run = .saved then
      let a := saveBase t + 0x510
      let s := lmRaw s t.quad a (natLE 8 (setField (BitVec.ofNat 64 (s.lmRead t.quad a 8)) code.toNat 1 0).toNat)
      threadCheck (s.modTh t fun x => { x with badReg := true }) (s.coreId t) 1 3 0 0 0
    else s
  | .residue t => threadCheck (stopPoisoned s t) (s.coreId t) 2 3 0 0 0
  | .accumulator c row => accMismatch s c (row % 128)
  | .controlQuad q => quadOut s q
  | .controlShared die => machineCheck (haltDevice s) (mcOf die 4 0 2 6 0 0 0)
  | .quadFails q => quadOut s q
  | .sliceFails die slice => sliceFails s die slice
  | .hbmRow stack row => if s.rowRepairs.contains (stack, row) then s else machineCheck s (mcOf (0x10 + stack) 0x0B stack 1 0 0 0 0)
  | .engineCut cmd done => cutCommand s cmd done
  | .bankFails root bank => bankFails s root bank
  | .stackAltered line data mac tail => { s with stack := tset s.stack line ((tget ⟨[], 0, 0, []⟩ s.stack line).alter data mac tail) })

end Sys2Proof.Machine
end

