-- ==== Sys2Proof/Machine/Observe.lean ====
section
/-! DEFINITION. Observation: a die's dump of its link counters (19 R433 to R436), and snapshots of the accounting counters
(19 R448). -/

namespace Sys2Proof.Machine

def lcctlAddr (d : Nat) : Nat := dieBase d
/-- Where die `d` dumps. -/
def State.dumpBase (s : State) (d : Nat) : Nat := fieldNat (s.dreg d 8) 14 26 * 16384 + 0x4000 * d

/-- The neighbour that each port of a stop faces. -/
def portOpen (stop port : Nat) : Bool :=
  match port with
  | 0 => decide (stop % 12 < 11)
  | 1 => decide (stop / 12 < 9)
  | 2 => decide (0 < stop % 12)
  | _ => decide (0 < stop / 12)

def lcKey (d stop port ch : Nat) : Nat := ((d * 120 + stop) * 4 + port) * 4 + ch
/-- Flits and stalls each wrap in their own half. -/
def addHalves (a b : Word) : Word := (((a >>> 32) + (b >>> 32)) <<< 32) ||| ((a + b) &&& 0xFFFFFFFF)

/-- Every counter of the die is brought up to this cycle; what passed is not the model's to say (log 27). -/
def sampleLinks (s : State) (d : Nat) : State :=
  let keys := (List.range 120).flatMap fun stop => ((List.range 4).filter (portOpen stop)).flatMap fun port =>
    (List.range 4).map fun ch => lcKey d stop port ch
  let n := s.fresh
  foldS keys { s with fresh := s.fresh + 1 } fun s k =>
    { s with lcnt := cset 0 s.lcnt k (addHalves (cget 0 s.lcnt k) (Config.linkTraffic n k)) }

/-- The virtual quads by stop; 0xFF for a spare or failed quad. -/
def State.stopMap (s : State) (d : Nat) : List Byte :=
  (List.range 120).map fun stop => match s.quadAtStop d stop with
    | some q => if (s.quad q).out then 0xFF else BitVec.ofNat 8 (vqOf q)
    | none => 0xFF

/-- Bytes that a die's observation writes over its links through the MLCs, under domain 0 and for no identifier; where there is no
memory they are lost (16 R364; 17 R397; 19 R445). -/
def dumpWrite (s : State) (die a : Nat) (bs : List Byte) : State :=
  foldS (spansOf a bs.length) s fun s p =>
    if memEnd ≤ p.1 then s
    else
      let part := (bs.drop (p.1 - a)).take p.2
      dieWrite s die (p.1 / 64) 0 none (decide (p.2 = 64)) part fun m => Mem.writeBytes m p.1 part

/-- A dump falls due: skipped while the last one is being written, else sampled in this cycle and written but for word 0. -/
def execLinkCounterDump (die : Nat) (s : State) : Out :=
  let w := s.reg (lcctlAddr die)
  if bitAt w 63 = false then .next s
  else if s.lcBusy.any fun b => decide (b.1 = die) then
    .next (s.setReg (lcctlAddr die) (setField w 32 16 (min (fieldNat w 32 16 + 1) 0xFFFF)))
  else
    let s := sampleLinks s die
    let b := s.dumpBase die
    let counts := (List.range 1920).flatMap fun i => natLE 8 (cget 0 s.lcnt (die * 1920 + i)).toNat
    let s := dumpWrite s die (b + 8) (natLE 8 s.cycle ++ s.stopMap die ++ List.replicate 0x78 0 ++ counts)
    .next { s with lcBusy := s.lcBusy ++ [(die, s.busyUntil none)], fresh := s.fresh + 1 }

/-- The dump is written: SEQ counts it, and word 0 comes last. -/
def execLinkCounterDumpDone (die : Nat) (s : State) : Out :=
  match s.lcBusy.find? fun b => decide (b.1 = die) with
  | none => .next s
  | some b =>
    if s.cycle < b.2 then .next s
    else
      let w := s.reg (lcctlAddr die)
      let n := (fieldNat w 0 32 + 1) % 2 ^ 32
      let s := s.setReg (lcctlAddr die) (setField w 0 32 n)
      let s := dumpWrite s die (s.dumpBase die) (natLE 8 (n * 2 ^ 32 + 0x87))
      .next { s with lcBusy := s.lcBusy.filter fun b => decide (b.1 ≠ die) }

/-- GO of `acctl`: the six counters of identifier ID go to the shadows in one cycle, and with CLR are zeroed in it. -/
def execAcctSnapshot (s : State) : Out :=
  let w := s.mreg 0x380
  let id := fieldNat w 0 6
  .next (foldS (List.range 6) s fun s k =>
    let s := s.setMreg (0x388 + 8 * k) (cget 0 s.accts (id * 6 + k))
    if bitAt w 9 then { s with accts := cset 0 s.accts (id * 6 + k) 0 } else s)

end Sys2Proof.Machine
end

