-- ==== Sys2Proof/Machine/Mgmt.lean ====
section
/-! DEFINITION. The I/O die's units: the host submission ring (20 R454), the mailbox (R463), the boot-partition reader (R460),
the crypto engine (R461) and the measurement registers (R462). -/

namespace Sys2Proof.Machine

/-! ### The host submission ring (R454) -/

/-- Entries of the ring; 0 while `hrsize` disables it. -/
def State.ringSize (s : State) : Nat :=
  let n := fieldNat (s.lreg 0x20020108) 0 13
  if 16 ≤ n ∧ n ≤ 4096 ∧ n &&& (n - 1) = 0 then n else 0

/-- A write of `hrtail`: ignored, with ERR, when the ring would hold more than N entries or TAIL would move back. -/
def execHrtailDoorbell (v : Word) (s : State) : Out :=
  let tail : BitVec 32 := v.setWidth 32
  let old : BitVec 32 := (s.lreg 0x20020110).setWidth 32
  let head : BitVec 32 := (s.lreg 0x20020118).setWidth 32
  .next (if s.ringSize < (tail - head).toNat ∨ (tail - head).toNat < (old - head).toNat then
      s.setLreg 0x20020118 (setField (s.lreg 0x20020118) 32 1 1)
    else s.setLreg 0x20020110 (tail.setWidth 64))

/-- The host bus address of the ring's entry `k`, and its word 0: TAG, STATUS, CODE. -/
def State.hostEntry (s : State) (k : Nat) : Nat := fieldNat (s.lreg 0x20020100) 12 52 * 4096 + 64 * (k % s.ringSize)
def State.hostWord0 (s : State) (k : Nat) : Word := BitVec.ofNat 64 (Mem.readN s.hostMem (s.hostEntry k) 8)
def entryTag (w : Word) : Nat := fieldNat w 32 16
def entryStatus (w : Word) : Nat := fieldNat w 24 8
def entryCode (w : Word) : Nat := fieldNat w 0 16

/-- Entry `k` completed: word 0 written back with its tag and a nonzero STATUS, which is Tvedyth's (log 99). -/
def hostComplete (s : State) (k : Nat) : State :=
  let st := (Config.freeWord s.fresh).toNat % 255 + 1
  { s with hostMem := Mem.writeN s.hostMem (s.hostEntry k) 8 (setField (s.hostWord0 k) 24 8 st).toNat, fresh := s.fresh + 1 }

/-- HEAD advances over entries whose word 0 has been written back, and vector 0 is raised; a 1 in ERR clears it. -/
def execHrheadAdvance (v : Word) (s : State) : Out :=
  let s := if bitAt v 32 then s.setLreg 0x20020118 (setField (s.lreg 0x20020118) 32 1 0) else s
  let w := s.lreg 0x20020118
  let head := fieldNat w 0 32
  let n := (fieldNat v 0 32 + 2 ^ 32 - head) % 2 ^ 32
  if n = 0 then .next s
  else
    let s := foldS (rangeFrom head (min n s.ringSize)) s hostComplete
    .next { s.setLreg 0x20020118 (setField w 0 32 (fieldNat v 0 32)) with msix := 0 :: s.msix }

/-! ### The mailbox (R463) -/

def mbxReq : Nat := 0x20020000
def mbxRsp : Nat := 0x20020008

/-- A post while the bit is 1 changes nothing. -/
def execMbxRequestPost (len : Half) (s : State) : Out :=
  .next (if bitAt (s.lreg mbxReq) 0 then s else s.setLreg mbxReq (BitVec.ofNat 64 (len.toNat * 2 ^ 16 + 1)))

def execMbxRequestClear (s : State) : Out := .next (s.setLreg mbxReq (setField (s.lreg mbxReq) 0 1 0))

/-- RSP goes from 0 to 1: one message on vector 1. -/
def postResponse (s : State) (len : Half) : State :=
  if bitAt (s.lreg mbxRsp) 0 then s
  else { s.setLreg mbxRsp (BitVec.ofNat 64 (len.toNat * 2 ^ 16 + 1)) with msix := 1 :: s.msix }

def execMbxResponsePost (len : Half) (s : State) : Out := .next (postResponse s len)

def execMbxResponseClear (s : State) : Out := .next (s.setLreg mbxRsp (setField (s.lreg mbxRsp) 0 1 0))

/-! ### Operands in the local map -/

def sramBase : Nat := localBase + 0x10000000
/-- The offset in SRAM of `n` bytes at a local address. -/
def sramAt (a : Word) (n : Nat) : Option Nat :=
  if sramBase ≤ a.toNat ∧ a.toNat + n ≤ sramBase + sramSize then some (a.toNat - sramBase) else none
/-- The bytes of a source, in SRAM or in ROM. -/
def State.srcBytes (s : State) (a : Word) (n : Nat) : Option (List Byte) :=
  match sramAt a n with
  | some o => some (Mem.bytes s.sram o n)
  | none =>
    if localBase ≤ a.toNat ∧ a.toNat + n ≤ localBase + 0x10000 then some ((rangeFrom (a.toNat - localBase) n).map romAt) else none
def State.putSram (s : State) (o : Nat) (bs : List Byte) : State := { s with sram := Mem.writeBytes s.sram o bs }

/-- BUSY and STATUS of a control register. -/
def setBusy (w : Word) (busy : Bool) : Word := setField w 63 1 (b2n busy)
def setStatus (w : Word) (st : Byte) : Word := setField (setBusy w false) 48 8 st.toNat

/-! ### The boot-partition reader (R460) -/

def bpCtl : Nat := 0x20030000
def flashAt (part off : Nat) : Nat := part * 0x100000 + off

/-- The first address of a flash range whose read fails. -/
def State.flashFail (s : State) (a n : Nat) : Option Nat :=
  (s.flashErr.filter fun e => decide (a ≤ e) && decide (e < a + n)).min?

/-- A copy from a partition: its status, and what it has copied. -/
def flashCopy (s : State) (part off len : Nat) (dst : Word) : Byte × State :=
  if off % 64 ≠ 0 ∨ len % 64 ≠ 0 ∨ dst.toNat % 64 ≠ 0 ∨ len < 64 ∨ 0x80000 < len then (3, s)
  else match sramAt dst len with
    | none => (2, s)
    | some o =>
      if 0x100000 < off + len then (2, s)
      else
        let a := flashAt part off
        let n := match s.flashFail a len with
          | some e => e - a
          | none => len
        (if n < len then 1 else 0, { s with sram := Mem.copy s.flash s.sram a o n })

def execBpCopy (s : State) : Out :=
  match s.bpBusy with
  | some _ => .next s
  | none =>
    let r := flashCopy s (fieldNat (s.lreg bpCtl) 8 1) (fieldNat (s.lreg 0x20030008) 0 32) (fieldNat (s.lreg 0x20030010) 0 32)
      (s.lreg 0x20030018)
    let s := r.2.setLreg bpCtl (setBusy (s.lreg bpCtl) true)
    .next { s with bpBusy := some ⟨s.busyUntil none, r.1⟩, fresh := s.fresh + 1 }

def execBpCopyDone (s : State) : Out :=
  match s.bpBusy with
  | none => .next s
  | some b =>
    if s.cycle < b.due then .next s
    else .next { s.setLreg bpCtl (setStatus (s.lreg bpCtl) b.status) with bpBusy := none }

/-! ### The crypto engine (R461) -/

def ceCtl : Nat := 0x20000000
def State.ceSrc (s : State) : Word := s.lreg 0x20000008
def State.ceLen (s : State) : Nat := fieldNat (s.lreg 0x20000010) 0 32
def State.ceDst (s : State) : Word := s.lreg 0x20000018
def State.ceAux (s : State) : Word := s.lreg 0x20000020
def State.ceCtx (s : State) : Fin 2 := Fin.ofNat 2 (fieldNat (s.lreg ceCtl) 12 1)

/-- An operation starts unless one runs: its status and effect, and the cycles it may take. -/
def ceStart (s : State) (limit : Nat) (op : State → Byte × State) : Out :=
  match s.ceBusy with
  | some _ => .next s
  | none =>
    let r := op s
    let s := r.2.setLreg ceCtl (setBusy (r.2.lreg ceCtl) true)
    .next { s with ceBusy := some ⟨s.busyUntil (some limit), r.1⟩, fresh := s.fresh + 1 }

def execCeHinit (s : State) : Out :=
  ceStart s 16 fun s => (0, { s with hash := s.hash.set s.ceCtx (some Hash.init) })

def execCeHupd (s : State) : Out :=
  ceStart s (64 * max 1 (ceilDiv s.ceLen 64)) fun s =>
    match s.srcBytes s.ceSrc s.ceLen, s.hash[s.ceCtx] with
    | none, _ => (2, s)
    | some _, none => (4, s)
    | some m, some h => (0, { s with hash := s.hash.set s.ceCtx (some (h.update m)) })

def execCeHfin (s : State) : Out :=
  ceStart s 256 fun s =>
    match sramAt s.ceDst 32, s.hash[s.ceCtx] with
    | none, _ => (2, s)
    | some _, none => (4, s)
    | some o, some h => (0, { s.putSram o h.digest with hash := s.hash.set s.ceCtx none })

def execCeVerify (s : State) : Out :=
  ceStart s 250000 fun s =>
    match s.srcBytes s.ceSrc 32, s.srcBytes s.ceDst 64, s.srcBytes s.ceAux 64 with
    | some d, some k, some g => (if ecdsaVerify d k g then 0 else 1, s)
    | _, _, _ => (2, s)

def execCeSign (s : State) : Out :=
  ceStart s 200000 fun s =>
    match s.srcBytes s.ceSrc 32, sramAt s.ceDst 64 with
    | some d, some o => if s.devKey then (0, s.putSram o (ecdsaSign privKey d)) else (5, s)
    | _, _ => (2, s)

def execCeRand (s : State) : Out :=
  ceStart s (256 + 64 * ceilDiv s.ceLen 16) fun s =>
    if s.ceLen = 0 ∨ 256 < s.ceLen then (3, s)
    else match sramAt s.ceDst s.ceLen with
      | none => (2, s)
      | some o => let r := draw s s.ceLen; (0, r.2.putSram o r.1)

def execCeDevpub (s : State) : Out :=
  ceStart s 64 fun s =>
    match sramAt s.ceDst 64 with
    | none => (2, s)
    | some o => if s.devKey then (0, s.putSram o (publicKey privKey)) else (5, s)

/-- Both ends of a link take a key for each direction, and its counters start. -/
def keyLink (s : State) (n : Nat) (k : List Byte) : State :=
  s.modLink n fun l => { l with
    keyed := true, key := #v[BitVec.ofNat 128 (leNat (k.take 16)), BitVec.ofNat 128 (leNat (k.drop 16))]
    count := Vector.replicate 2 0, epoch := Vector.replicate 2 0 }

def execCeLinkkey (s : State) : Out :=
  ceStart s 20000 fun s =>
    if 96 ≤ s.ceAux.toNat then (6, s)
    else if s.erased then (7, s)
    else let r := draw s 32; (0, keyLink r.2 s.ceAux.toNat r.1)

/-- The bytes "dv-odir". -/
def odirLabel : List Byte := [0x64, 0x76, 0x2D, 0x6F, 0x64, 0x69, 0x72]
/-- This module's serial number, in its configuration record (18 R422). -/
def State.serial (s : State) : Nat := Mem.readN s.flash (flashAt 0 0x21008) 8

/-- The peer's serial number reaches the engine in a way that the manual does not give: a free value, as is the status for a
peer key that is no point (log 50). -/
def execCeEcdh (s : State) : Out :=
  ceStart s 200000 fun s =>
    let n := s.ceAux.toNat
    if n < 96 ∨ 113 < n then (6, s)
    else match s.srcBytes s.ceSrc 64 with
      | none => (2, s)
      | some peer =>
        if !s.devKey then (5, s)
        else if s.erased then (7, s)
        else
          let w := Config.freeWord s.fresh
          let s : State := { s with fresh := s.fresh + 1 }
          match ecdh privKey peer with
          | none => (w.setWidth 8, s)
          | some z => (0, keyLink s n (asconXof (z ++ natLE 8 (min s.serial w.toNat) ++ natLE 8 (max s.serial w.toNat) ++ odirLabel) 32))

def execCeOperationDone (s : State) : Out :=
  match s.ceBusy with
  | none => .next s
  | some b =>
    if s.cycle < b.due then .next s
    else .next { s.setLreg ceCtl (setStatus (s.lreg ceCtl) b.status) with ceBusy := none }

/-! ### Measurement registers (R462) -/

def mrCtl : Nat := 0x20010200
def mrBytes (m : BitVec 256) : List Byte := natBE 32 m.toNat
/-- M after an extension by a 32-byte digest. -/
def mrExtended (m : BitVec 256) (d : List Byte) : BitVec 256 := BitVec.ofNat 256 (beNat (sha256 (mrBytes m ++ d)))

/-- GO: refused for a locked register or a source outside SRAM. -/
def execMrExtend (s : State) : Out :=
  match s.mrBusy with
  | some _ => .next s
  | none =>
    let n := fieldNat (s.lreg mrCtl) 8 4
    let i : Fin 16 := Fin.ofNat 16 n
    let r : Byte × Option (Fin 16 × BitVec 256) :=
      if bitAt (s.lreg 0x20010210) n then (1, none)
      else match sramAt (s.lreg 0x20010208) 32 with
        | none => (2, none)
        | some o => (0, some (i, mrExtended s.mr[i] (Mem.bytes s.sram o 32)))
    let s := s.setLreg mrCtl (setBusy (s.lreg mrCtl) true)
    .next { s with mrBusy := some ⟨s.busyUntil (some 256), r.1⟩, mrNext := r.2, fresh := s.fresh + 1 }

/-- The register is replaced in one cycle. -/
def execMrExtendDone (s : State) : Out :=
  match s.mrBusy with
  | none => .next s
  | some b =>
    if s.cycle < b.due then .next s
    else
      let mr := match s.mrNext with
        | some x => s.mr.set x.1 x.2
        | none => s.mr
      .next { s.setLreg mrCtl (setStatus (s.lreg mrCtl) b.status) with mrBusy := none, mrNext := none, mr := mr }

/-- Lock bits are set where written 1. -/
def execMrlockWrite (v : Word) (s : State) : Out := .next (s.setLreg 0x20010210 (s.lreg 0x20010210 ||| (v &&& 0xFFFF)))

end Sys2Proof.Machine
end

