-- ==== Sys2Proof/Machine/Boot.lean ====
section
/-! DEFINITION. Power and boot (20 R452, R458, R465, R466; 18 R422, R423; 21 R469): what the mask ROM does, the configuration
record, which the model checks as it takes effect (log 102), and the release of dies and management cores. The ROM's steps are one
transition (log 2); steps 4 to 7 of R466, with the checks of 21 R471, are the program that 21 lists, which core 0 runs from the image
in flash. -/

namespace Sys2Proof.Machine

/-! ### Release (21 R469; 20 R458) -/

/-- Dies leave reset; a compute die's quads count their turns from here. It is the first stage's program that releases none when it
has refused the configuration record (18 R423; 21 R471). -/
def execRstrelWrite (v : Word) (s : State) : Out :=
  let old := s.mreg 0x40
  let fresh := (List.range 8).filter fun d => bitAt v d && !bitAt old d
  let s := s.setMreg 0x40 (old ||| (v &&& 0xFFFFF))
  .next (foldS (fresh.flatMap fun d => rangeFrom (d * 120) 120) s fun s q => s.modQuad q fun x => { x with base := s.cycle })

/-- A waiting management core starts at the PC written, in M mode. -/
def execMcstartWrite (n : Fin 4) (v : Word) (s : State) : Out :=
  let at_ := s.setMreg (8 * n.val) v
  .next (if n.val = 0 then s else if (at_.ht (.mgmt n)).active then at_
    else at_.modHt (.mgmt n) fun h => { h with pc := v, priv := .m, active := true, wfi := false })

/-! ### Reset (20 R452, R466) -/

/-- Every volatile state lost; flash, host memory, what the model counts for its free values, and what lies outside stay. -/
def afterReset (s : State) (powered : Bool) : State :=
  { State.reset with
    agenda := [], powered := powered, flash := s.flash, flashErr := s.flashErr, hostMem := s.hostMem, puf := s.puf
    failed := s.failed, podInputs := s.podInputs, images := s.images, draws := s.draws, fresh := s.fresh, msix := s.msix, pod := s.pod, podSize := s.podSize, pkg := s.pkg
    inputs := s.inputs }

/-- Outside 46 to 56 V the package is held in reset. -/
def execPowerOutOfRange (s : State) : Out := .next (afterReset s false)

/-! ### The configuration record (18 R418, R419, R422) -/

def State.recBytes (s : State) (o n : Nat) : List Byte := Mem.bytes s.flash (flashAt 0 (0x21000 + o)) n
def State.recNat (s : State) (o n : Nat) : Nat := leNat (s.recBytes o n)
def State.recByte (s : State) (o : Nat) : Nat := (Mem.read s.flash (flashAt 0 (0x21000 + o))).toNat
/-- Active quads per die of a grade (00 R1). -/
def gradeQuads (g : Nat) : Nat := if g = 2 then 104 else 112

/-- A map of physical parts holds every number below `n` exactly once, and a mask agrees with it: a part that has such a number is
active, and every other holds 0xFF. -/
def partsOk (n : Nat) (parts : List Nat) (mask : Nat) : Bool :=
  (List.range n).all (fun k => decide (parts.countP (· = k) = 1)) &&
  parts.zipIdx.all fun x => if mask / 2 ^ x.2 % 2 = 1 then decide (x.1 < n) else decide (x.1 = 0xFF)

/-- The vendor key that partition 0 holds, and whether it is the one of the mask ROM (20 R460, R466). -/
def State.vendorKey (s : State) : List Byte := Mem.bytes s.flash (flashAt 0 0x20000) 64
def State.vendorOk (s : State) : Bool :=
  (s.flashFail (flashAt 0 0x20000) 64).isNone && decide (beNat (sha256 s.vendorKey) = Config.vendorKeyHash.toNat)

/-- The record can be read and is valid: the signature, the security floor, and the maps of every die, which stand for the number of
quads that QPD gives (R422, R423; 21 R471, step 4). -/
def State.recordValid (s : State) : Bool :=
  (s.flashFail (flashAt 0 0x21000) 0xF80).isNone && s.vendorOk &&
  ecdsaVerify (sha256 (s.recBytes 0 0xF40)) s.vendorKey (s.recBytes 0xF40 64) && decide (Config.minSvn.toNat ≤ s.recNat 6 2) &&
  (List.range 8).all fun d =>
    partsOk (s.recByte 0x11) ((s.recBytes (0x50 + 0x100 * d) 120).map BitVec.toNat) (s.recNat (0x40 + 0x100 * d) 16) &&
    partsOk 96 ((s.recBytes (0xD8 + 0x100 * d) 100).map BitVec.toNat) (s.recNat (0xC8 + 0x100 * d) 16)

/-- The quad remap of a die (R418, R419). A physical quad that has failed and is still mapped, on a die with no spare left, stays out,
and its group is unavailable. -/
def takeQuads (s : State) (d : Nat) : State :=
  let vq := fun p => s.recByte (0x100 * d + 0x50 + p)
  let bad := fun p => s.failed.contains (d * 120 + p)
  let spare := (List.range 120).any fun p => decide (vq p = 0xFF) && !bad p
  foldS (List.range 120) s fun s p =>
    if s.activeQuads ≤ vq p then s
    else
      let q := d * 120 + vq p
      let s : State := if vq p = p then s else { s with vqmap := tset s.vqmap q p }
      if bad p && !spare then
        { s.modQuad q fun x => { x with out := true } with badGroups := s.badGroups ||| ((1 : Word) <<< s.groupBit q) }
      else s

/-- The slice remap of a die, and its trims. -/
def takeSlices (s : State) (d : Nat) : State :=
  let vs := fun p => s.recByte (0x100 * d + 0xD8 + p)
  let s := foldS (List.range 100) s fun s p =>
    if 96 ≤ vs p ∨ vs p = p then s else { s with vsmap := tset s.vsmap (d * 96 + vs p) p }
  { s with trims := tset s.trims d (BitVec.ofNat 16 (s.recNat (0x13C + 0x100 * d) 2), BitVec.ofNat 16 (s.recNat (0x13E + 0x100 * d) 2)) }

/-- The banks in service of a root die, in their order (log 101), and the rows that its stack takes over. -/
def takeRoot (s : State) (r : Nat) : State :=
  let mask := s.recNat (0x840 + 0x80 * r) 16
  let on := (List.range 100).filter fun b => decide (mask / 2 ^ b % 2 = 1)
  let s := foldS (on.take 96).zipIdx s fun s x => if x.1 = x.2 then s else { s with bankMap := tset s.bankMap (r * 96 + x.2) x.1 }
  let rows := (List.range (min (s.recNat (0x850 + 0x80 * r) 2) 13)).map fun i => (r, s.recNat (0x858 + 0x80 * r + 8 * i) 5)
  { s with rowRepairs := s.rowRepairs ++ rows }

/-- A record in force: the grade, the retired lanes and every remap table. One that is refused has no effect (R423). -/
def takeRecord (s : State) : State :=
  if s.recordValid = false then s
  else
    let s : State := { s with grade := if s.recByte 0x10 = 2 then 2 else 1 }
    let s := foldS (List.range 114) s fun s n =>
      if s.recByte (0xE40 + n) ≤ 8 then s.modLink n fun l => { l with retired := some (s.recByte (0xE40 + n)), lost := 1 } else s
    foldS (List.range 12) (foldS (List.range 8) (foldS (List.range 8) s takeQuads) takeSlices) takeRoot

/-! ### The mask ROM (20 R465, R466) -/

def headLen (h : List Byte) : Nat := leNat ((h.drop 8).take 4)
/-- The digest that an image's signature covers. -/
def imageDigest (h code : List Byte) : List Byte := sha256 (h.take 0x30 ++ code)

/-- MAGIC, KIND, the security floor and the signature of an image under a key. -/
def imageOk (kind : Nat) (key h code : List Byte) : Bool :=
  decide (leNat (h.take 4) = 0x4D495A4B) && decide (leNat ((h.drop 4).take 2) = kind) &&
  decide (Config.minSvn.toNat ≤ leNat ((h.drop 6).take 2)) && ecdsaVerify (imageDigest h code) key ((h.drop 0x30).take 64)

/-- The ROM answers SPDM itself on core 0, which runs no program: CL and the hash of the chain that its responder starts from (21, the
responder's start). -/
def startResponder (s : State) : State :=
  let ok := (s.flashFail (flashAt 0 0x23000) 0x2000).isNone
  let cl := if ok then min (Mem.readN s.flash (flashAt 0 0x23000) 2) 0x2000 else 0
  { s with spdm := { Spdm.init with cl := cl, hc := sha256 (Mem.bytes s.flash (flashAt 0 0x23000) cl) } }.modHt (.mgmt 0) fun x => { x with active := false }

/-- Steps 2 and 3: the first stage and the vendor key are loaded and checked; core 0 jumps to ENTRY, or the ROM answers SPDM. -/
def romBoot (s : State) : State :=
  let at_ := fun off n => Mem.bytes s.flash (flashAt 0 off) n
  let h := at_ 0 0x80
  let len := headLen h
  let fits := decide (len ≤ 0x1FF80) && decide (len % 64 = 0)
  let reads := (s.flashFail 0 (if fits then 0x80 + len else 0x80)).isNone && (s.flashFail 0x20000 64).isNone
  let key := at_ 0x20000 64
  let code := at_ 0x80 len
  let s : State := { s with sram := Mem.writeBytes (if fits then Mem.copy s.flash s.sram 0 0 (0x80 + len) else s.sram) 0x7F000 key }
  if fits && reads && decide (beNat (sha256 key) = Config.vendorKeyHash.toNat) && imageOk 1 key h code then
    let s : State := { s with mr := s.mr.set 0 (mrExtended 0 (imageDigest h code)) }
    let s := s.setLreg 0x20010210 1
    let entry := leNat ((h.drop 12).take 4)
    s.modHt (.mgmt 0) fun x => { x with pc := BitVec.ofNat 64 (sramBase + entry), active := true }
  else startResponder s

/-- Reset starts the boot chain; the device key is rebuilt when the helper data are valid. -/
def execPowerOnReset (s : State) : Out :=
  let s := takeRecord (afterReset s true)
  .next (romBoot { s with devKey := s.puf })

end Sys2Proof.Machine
end

