-- ==== Sys2Proof/Machine/Spdm.lean ====
section
/-! DEFINITION. The ROM's SPDM responder (20 R464, R466; 21 R472, R473), which answers through the mailbox when the first stage
was refused. The first stage's own responder is the program of 21, which core 0 runs. -/

namespace Sys2Proof.Machine

/-! ### A request and its reply -/

/-- LEN of the request, at most the buffer. -/
def State.rqLen (s : State) : Nat := min (fieldNat (s.lreg mbxReq) 16 16) 4096
/-- The request's bytes. -/
def State.rq (s : State) : List Byte := Mem.bytes s.reqbuf 0 s.rqLen
def State.rqByte (s : State) (o : Nat) : Nat := (Mem.read s.reqbuf o).toNat
def State.rqWord (s : State) (o n : Nat) : Nat := Mem.readN s.reqbuf o n

/-- The ROM answers: core 0 runs no program, a request stands and the last response has been taken (R463). -/
def State.responds (s : State) : Bool :=
  s.powered && !(s.ht (.mgmt 0)).active && bitAt (s.lreg mbxReq) 0 && !bitAt (s.lreg mbxRsp) 0

/-- A reply: its bytes into RSPBUF, REQ cleared, RSP posted. -/
def spdmSend (s : State) (bs : List Byte) : State :=
  let s : State := { s with rspbuf := Mem.writeBytes s.rspbuf 0 bs }
  postResponse (s.setLreg mbxReq (setField (s.lreg mbxReq) 0 1 0)) (BitVec.ofNat 16 bs.length)

/-- version, 0x7F, code, 0. -/
def spdmError (s : State) (version code : Nat) : State :=
  spdmSend s [BitVec.ofNat 8 version, 0x7F, BitVec.ofNat 8 code, 0]

def spdmRank : SpdmState → Nat
  | .initial => 0
  | .versioned => 1
  | .capable => 2
  | .negotiated => 3

/-- Tests 2 to 4 of R472 in order: the version byte, the state, LEN. -/
def spdmGate (s : State) (version : Nat) (st : Option SpdmState) (lo hi : Nat) : Option Nat :=
  if s.rqByte 0 ≠ version then some 0x41
  else if st.any fun x => decide (x ≠ s.spdm.state) then some 0x04
  else if s.rqLen < lo ∨ hi < s.rqLen then some 0x01
  else none

/-- A request of code `code` is served: the errors of the gate, then its own effect. -/
def spdmServe (s : State) (code version : Nat) (st : Option SpdmState) (lo hi : Nat) (k : State → State) : Out :=
  .next (if s.responds && decide (s.rqByte 1 = code) then
    match spdmGate s version st lo hi with
    | some e => spdmError s version e
    | none => k s
  else s)

def State.setSpdm (s : State) (f : Spdm → Spdm) : State := { s with spdm := f s.spdm }

/-! ### The three requests of the VCA -/

def versionReply : List Byte := [0x10, 0x04, 0, 0, 0, 1, 0x00, 0x13]
def capReply : List Byte := [0x13, 0x61, 0, 0, 0, 12, 0, 0, 0x16, 0, 0, 0, 0, 0x10, 0, 0, 0, 0x10, 0, 0]
def algReply : List Byte := [0x13, 0x63, 0, 0, 36, 0, 1, 0, 2, 0, 0, 0, 0x10, 0, 0, 0, 1, 0, 0, 0] ++ List.replicate 16 0

def execSpdmGetVersion (s : State) : Out :=
  spdmServe s 0x84 0x10 none 4 4 fun s =>
    spdmSend (s.setSpdm fun x => { x with state := .versioned, vca := s.rq ++ versionReply, m := [], l := [] }) versionReply

def execSpdmGetCapabilities (s : State) : Out :=
  spdmServe s 0xE1 0x13 (some .versioned) 20 20 fun s =>
    spdmSend (s.setSpdm fun x => { x with state := .capable, vca := x.vca ++ s.rq ++ capReply }) capReply

/-- The Length field, and an algorithm of each kind that the responder has. -/
def algOk (s : State) : Bool :=
  decide (s.rqWord 4 2 = s.rqLen) && decide (s.rqWord 8 4 / 16 % 2 = 1) && decide (s.rqWord 12 4 % 2 = 1) &&
  decide (s.rqByte 6 % 2 = 1)

def execSpdmNegotiateAlgorithms (s : State) : Out :=
  spdmServe s 0xE3 0x13 (some .capable) 32 128 fun s =>
    if algOk s then
      let vca := s.spdm.vca ++ s.rq ++ algReply
      spdmSend (s.setSpdm fun x => { x with state := .negotiated, vca := vca, m := vca, l := vca }) algReply
    else spdmError s 0x13 0x01

/-! ### Certificates -/

/-- M, at most 0x6000 bytes. -/
def mRoom (s : State) (reply : List Byte) : Bool := decide (s.spdm.m.length + s.rqLen + reply.length ≤ 0x6000)

def execSpdmGetCertificate (s : State) : Out :=
  spdmServe s 0x82 0x13 (some .negotiated) 8 8 fun s =>
    let off := s.rqWord 4 2
    let left := s.spdm.cl - off
    let n := min (min (s.rqWord 6 2) left) 4088
    let reply := [(0x13 : Byte), 0x02, 0, 0] ++ natLE 2 n ++ natLE 2 (left - n) ++ Mem.bytes s.flash (flashAt 0 (0x23000 + off)) n
    if s.rqByte 2 % 16 ≠ 0 ∨ s.spdm.cl ≤ off ∨ mRoom s reply = false then spdmError s 0x13 0x01
    else spdmSend (s.setSpdm fun x => { x with m := x.m ++ s.rq ++ reply }) reply

/-! ### Measurements and signatures (R473) -/

/-- Measurement block `k`, 1 to 16. -/
def mrBlock (s : State) (k : Nat) : List Byte :=
  [BitVec.ofNat 8 k, 1, 35, 0, 1, 32, 0] ++ mrBytes s.mr[Fin.ofNat 16 (k - 1)]
def mrBlocks (s : State) (first n : Nat) : List Byte := (rangeFrom first n).flatMap (mrBlock s)

/-- "dmtf-spdm-v1.3.*" -/
def spdmPrefix : List Byte := [0x64, 0x6D, 0x74, 0x66, 0x2D, 0x73, 0x70, 0x64, 0x6D, 0x2D, 0x76, 0x31, 0x2E, 0x33, 0x2E, 0x2A]
/-- Four zero bytes and "responder-challenge_auth signing". -/
def ctxChallenge : List Byte := [0, 0, 0, 0] ++
  [0x72, 0x65, 0x73, 0x70, 0x6F, 0x6E, 0x64, 0x65, 0x72, 0x2D, 0x63, 0x68, 0x61, 0x6C, 0x6C, 0x65, 0x6E, 0x67, 0x65, 0x5F,
   0x61, 0x75, 0x74, 0x68, 0x20, 0x73, 0x69, 0x67, 0x6E, 0x69, 0x6E, 0x67]
/-- Six zero bytes and "responder-measurements signing". -/
def ctxMeasurements : List Byte := [0, 0, 0, 0, 0, 0] ++
  [0x72, 0x65, 0x73, 0x70, 0x6F, 0x6E, 0x64, 0x65, 0x72, 0x2D, 0x6D, 0x65, 0x61, 0x73, 0x75, 0x72, 0x65, 0x6D, 0x65, 0x6E,
   0x74, 0x73, 0x20, 0x73, 0x69, 0x67, 0x6E, 0x69, 0x6E, 0x67]

/-- The signature over a transcript. -/
def spdmSign (ctx transcript : List Byte) : List Byte :=
  ecdsaSign privKey (sha256 (spdmPrefix ++ spdmPrefix ++ spdmPrefix ++ spdmPrefix ++ ctx ++ sha256 transcript))

def execSpdmChallenge (s : State) : Out :=
  spdmServe s 0x83 0x13 (some .negotiated) 44 44 fun s =>
    let sum := s.rqByte 3
    if s.rqByte 2 % 16 ≠ 0 ∨ (sum ≠ 0 ∧ sum ≠ 1 ∧ sum ≠ 0xFF) ∨ s.devKey = false then spdmError s 0x13 0x01
    else
      let d := draw s 32
      let summary := if sum = 0 then [] else sha256 (mrBlocks s 1 16)
      let reply := [(0x13 : Byte), 0x03, 0, 1] ++ s.spdm.hc ++ d.1 ++ summary ++ [0, 0] ++ Mem.bytes s.reqbuf 36 8
      let s := d.2
      if mRoom s reply then
        let sig := spdmSign ctxChallenge (s.spdm.m ++ s.rq ++ reply)
        spdmSend (s.setSpdm fun x => { x with m := x.vca }) (reply ++ sig)
      else spdmError s 0x13 0x01

def execSpdmGetMeasurements (s : State) : Out :=
  spdmServe s 0xE0 0x13 (some .negotiated) 12 45 fun s =>
    let signed := decide (s.rqByte 2 % 2 = 1)
    let op := s.rqByte 3
    let n := if op = 0xFF then 16 else if op = 0 then 0 else 1
    if s.rqLen ≠ (if signed then 45 else 12) ∨ (16 < op ∧ op ≠ 0xFF) ∨
        (signed = true ∧ (s.rqByte 36 ≠ 0 ∨ s.devKey = false)) then spdmError s 0x13 0x01
    else
      let d := draw s 32
      let head := [(0x13 : Byte), 0x60, if op = 0 then 16 else 0, 0, BitVec.ofNat 8 n] ++ natLE 2 (39 * n) ++ [0]
      let reply := head ++ mrBlocks s (if op = 0xFF then 1 else op) n ++ d.1 ++ [0, 0] ++ Mem.bytes s.reqbuf (s.rqLen - 8) 8
      let s := d.2
      let l := s.spdm.l ++ s.rq ++ reply
      if signed then spdmSend (s.setSpdm fun x => { x with l := x.vca }) (reply ++ spdmSign ctxMeasurements l)
      else spdmSend (s.setSpdm fun x => { x with l := l }) reply

/-- A code outside the six of R464. -/
def execSpdmUnsupportedRequest (s : State) : Out :=
  .next (if s.responds && !([0x84, 0xE1, 0xE3, 0x82, 0x83, 0xE0].contains (s.rqByte 1)) then spdmError s 0x13 0x07 else s)

/-- The row that serves the request in the mailbox. -/
def spdmRow (code : Nat) : Instr :=
  match code with
  | 0x84 => .spdmGetVersion
  | 0xE1 => .spdmGetCapabilities
  | 0xE3 => .spdmNegotiateAlgorithms
  | 0x82 => .spdmGetCertificate
  | 0x83 => .spdmChallenge
  | 0xE0 => .spdmGetMeasurements
  | _ => .spdmUnsupportedRequest

end Sys2Proof.Machine
end

