-- ==== Sys2Proof/Machine/Registers.lean ====
section
/-! DEFINITION. Writes of registers without a row of their own (20 R459): each sets the fields that its table makes writable,
clears those written 1 where it says so, and starts what its GO bit starts. An offset that no table names ignores writes. -/

namespace Sys2Proof.Machine

/-- The bits of `m` written. -/
def regPut (s : State) (a : Nat) (m v : Word) : State := s.setReg a (maskWrite (s.reg a) m v)
/-- The bits of `m` cleared where `v` is 1. -/
def regClear (s : State) (a : Nat) (m v : Word) : State := s.setReg a (s.reg a &&& ~~~(v &&& m))

/-- `kdctl`: DOM and OP; GO starts OP, and OP 11 ends at once with STATUS 0x07 (17 R394). -/
def writeKdctl (s : State) (v : Word) : State :=
  let s := regPut s (mgmtBase + 0x100) 0x3F06 v
  if !bitAt v 0 || s.kdBusy.isSome then s
  else
    match fieldNat v 1 2 with
    | 0 => s.enqueue .kdGenerate
    | 1 => s.enqueue .kdDestroy
    | 2 => s.enqueue .kdClearRange
    | _ => s.setMreg 0x100 (setField (s.mreg 0x100) 48 8 7)

/-- The management page. -/
def writeMgmt (s : State) (off : Nat) (v : Word) : State :=
  let a := mgmtBase + off
  let all : Word := BitVec.allOnes 64
  match off with
  | 0x080 => regPut s a 0xFFFF v
  | 0x100 => writeKdctl s v
  | 0x108 | 0x110 => regPut s a 0xFFFFFF0000 v
  | 0x120 | 0x190 | 0x1C0 | 0x230 => regPut s a all v
  | 0x188 => regClear s a 0x3F v
  | 0x1C8 | 0x238 => regPut s a 0xFFFFFFFF v
  | 0x200 | 0x208 => regPut s a 0xFFFFFFF000 v
  | 0x218 | 0x220 => regPut s a 0x00FFFFFFFFFF0000 v
  | 0x228 =>
    let s := regClear s a 2 v
    if bitAt v 0 then s.enqueue .unmapGo else s
  | 0x240 => regPut s a (~~~(3 : Word)) v
  | 0x380 =>
    let s := regPut s a 0x23F v
    if bitAt v 8 then s.enqueue .acctSnapshot else s
  | _ =>
    if 0x280 ≤ off ∧ off < 0x300 then
      -- BASE and LIMIT are ignored while the register is enabled (10 R298)
      if mlccEn (s.mlcc ((off - 0x280) % 0x40 / 8)) then s else regPut s a 0x000000FFFFE00000 v
    else if 0x400 ≤ off ∧ off < 0x800 then
      let q := (off - 0x400) / 0x20
      if off % 0x20 = 0 then regPut s a 7 v
      else if off % 0x20 = 0x10 then
        let x := s.lq q
        s.setLq q { x with ref := x.ref && !bitAt v 9, ovf := x.ovf && !bitAt v 8 }
      else s
    else if 0x800 ≤ off ∧ off < 0x880 then regPut s a 0x9F9F9F9F9F9F9F9F v
    else if 0x900 ≤ off ∧ off < 0x980 then
      regPut s a (if off % 16 = 0 then 0x80F0FFFF0003FFFF else all) v
    else s

/-- `lcctl`: EN is set only with N from 16 to 30, and setting it restarts SKIP and SEQ (19 R434). -/
def writeLcctl (s : State) (d : Nat) (v : Word) : State :=
  let old := s.reg (lcctlAddr d)
  let n := fieldNat v 48 5
  let en := bitAt v 63 && decide (16 ≤ n) && decide (n ≤ 30)
  let w := setField (setField old 48 5 n) 63 1 (b2n en)
  s.setReg (lcctlAddr d) (if en && !bitAt old 63 then setField w 0 48 0 else w)

/-- A compute die's page. -/
def writeDie (s : State) (d off : Nat) (v : Word) : State :=
  let a := dieBase d + off
  let all : Word := BitVec.allOnes 64
  match off with
  | 0x000 => writeLcctl s d v
  | 0x008 => regPut s a 0xFFFFFFC000 v
  | 0x040 => regPut s a 0xC0F000000000FFFF v
  | 0x048 | 0x050 => regPut s a 0x00FFFFFFFFFFFFC0 v
  | 0x058 => regPut s a 0xFFFFFFF000 v
  | 0x060 => regPut s a 0xFFFF v
  | 0x070 | 0x078 => regPut s a all v
  | _ => if 0x400 ≤ off ∧ off < 0x400 + 8 * s.activeQuads then regPut s a 0x00FFFFFF00000007 v else s

/-- The fields of a window register. -/
def windowMask : Word := 0x000F000003FF03FF

/-- A quad's page. -/
def writeQuad (s : State) (q off : Nat) (v : Word) : State :=
  let a := quadBase q + off
  if off = 0 then
    let s := regClear (regPut s a 0x00FFFFFFFFFF0000 v) a 4 v
    let s := if bitAt v 0 then s.enqueue (.cxctlSave q) else s
    if bitAt v 1 then s.enqueue (.cxctlRestore q) else s
  else if off = 8 then
    let s := if bitAt v 0 then s.enqueue (.mkctlReq q) else s
    if bitAt v 1 then s.enqueue (.mkctlResume q) else s
  else if 0x100 ≤ off ∧ off < 0x300 then
    let n := (off - 0x100) / 8
    let t : Tid := ⟨q, Fin.ofNat 4 (n / 16), Fin.ofNat 18 (n % 16)⟩
    if bitAt (s.th t).pwin 63 then s else s.modTh t fun x => { x with pwin := v &&& windowMask }
  else if 0x300 ≤ off ∧ off < 0x320 then
    let c : Cid := ⟨q, Fin.ofNat 4 ((off - 0x300) / 8)⟩
    if bitAt (s.core c).qwin 63 then s else s.modCore c fun k => { k with qwin := v &&& windowMask }
  else s

/-- BAR0, as the host writes it (20 R453, R454, R463). -/
def writeHost (s : State) (off : Nat) (v : Word) : State :=
  let a := pageBase .host + off
  if off = 0 then regPut s a 0xFFFF0000 v
  else if off = 0x100 then regPut s a 0xFFFFFFFFFFFFF000 v
  else if off = 0x108 then regPut s a 0x1FFF v
  else if off = 0x118 then regClear s a 0x100000000 v
  else if 0x1000 ≤ off ∧ off < 0x2000 then { s with reqbuf := Mem.writeN s.reqbuf (off - 0x1000) 8 v.toNat }
  else if 0x2000 ≤ off ∧ off < 0x3000 then { s with rspbuf := Mem.writeN s.rspbuf (off - 0x2000) 8 v.toNat }
  else s

def execRegisterWrite (p : Page) (off : Nat) (v : Word) (s : State) : Out :=
  .next (if off % 8 ≠ 0 then s
    else match p with
    | .mgmt => writeMgmt s off v
    | .die d => writeDie s d off v
    | .root _ => s
    | .quad q => writeQuad s q off v
    | .host => writeHost s off v)

end Sys2Proof.Machine
end

