-- ==== Sys2Proof/Machine/Vector.lean ====
section
/-! DEFINITION. The vector unit (06 R188 to R199; 04 R87 to R93, R116, R117), and the lane-group work left over from
earlier cycles (02 R45, R46). -/

namespace Sys2Proof.Machine

/-! ### Lanes -/

/-- A lane function on the active lanes; their flags ORed together. -/
def lanewise (act : Half) (f : Fin 16 → Lane × Flags) : VWord × Flags :=
  let xs : Vector (Lane × Flags) 16 := Vector.ofFn fun i => if bitAt act i.val then f i else (0, 0)
  (xs.map Prod.fst, (xs.map Prod.snd).foldl (· ||| ·) 0)

/-- A vector instruction of one or two v sources whose result goes to `d` by a lane function. -/
def vop1 (d : VReg) (a : VSrc) (f : RMode → Lane → Lane × Flags) (s : State) : Out :=
  vissue s [useV a] [vCode a.reg] [vCode d] [vCode d] false fun s act =>
    let x := s.vread a.reg act
    let r := lanewise act fun i => f s.me.rm x.1[i]
    let w := vwrite s d act r.1
    vdone w.1 [useV a] [vCode a.reg, vCode d] 1 (x.2 ||| r.2 ||| w.2)

def vop2 (d : VReg) (a b : VSrc) (f : RMode → Lane → Lane → Lane × Flags) (s : State) : Out :=
  vissue s [useV a, useV b] [vCode a.reg, vCode b.reg] [vCode d] [vCode d] false fun s act =>
    let x := s.vread a.reg act
    let y := s.vread b.reg act
    let r := lanewise act fun i => f s.me.rm x.1[i] y.1[i]
    let w := vwrite s d act r.1
    vdone w.1 [useV a, useV b] [vCode a.reg, vCode b.reg, vCode d] 1 (x.2 ||| y.2 ||| r.2 ||| w.2)

/-- As `vop2`, with D read too; a stream in D is named against its direction. -/
def vop3 (d : VReg) (a b : VSrc) (f : RMode → Lane → Lane → Lane → Lane × Flags) (s : State) : Out :=
  vissue s [useV a, useV b, useC (vCode d)] [vCode a.reg, vCode b.reg, vCode d] [vCode d] [vCode d] false fun s act =>
    let x := s.vread a.reg act
    let y := s.vread b.reg act
    let z := s.vread d act
    let r := lanewise act fun i => f s.me.rm z.1[i] x.1[i] y.1[i]
    let w := vwrite s d act r.1
    vdone w.1 [useV a, useV b] [vCode a.reg, vCode b.reg, vCode d] 1 (x.2 ||| y.2 ||| z.2 ||| r.2 ||| w.2)

/-- Elements of a packed lane (04 R88). -/
def lo16 (x : Lane) : Nat := fieldNat x 0 16
def hi16 (x : Lane) : Nat := fieldNat x 16 16
def pack2 (e0 e1 : Nat × Flags) : Lane × Flags := (BitVec.ofNat 32 (e1.1 % 65536 * 65536 + e0.1 % 65536), e0.2 ||| e1.2)
def lane1 (e : Nat × Flags) : Lane × Flags := (BitVec.ofNat 32 e.1, e.2)

/-- The format of a packed type. -/
def halfOf : VTy → Fmt
  | .f16x2 => fmt16
  | _ => fmtBf

/-- An arithmetic operation in each type (06 R189): `ff` on float elements, `fi` on i32 lanes. -/
def typed2 (ty : VTy) (ff : Fmt → Nat → Nat → Nat × Flags) (fi : Lane → Lane → Lane) (x y : Lane) : Lane × Flags :=
  match ty with
  | .f32 => lane1 (ff fmt32 x.toNat y.toNat)
  | .i32 => (fi x y, 0)
  | _ => pack2 (ff (halfOf ty) (lo16 x) (lo16 y)) (ff (halfOf ty) (hi16 x) (hi16 y))

def typed3 (ty : VTy) (ff : Fmt → Nat → Nat → Nat → Nat × Flags) (fi : Lane → Lane → Lane → Lane) (z x y : Lane) :
    Lane × Flags :=
  match ty with
  | .f32 => lane1 (ff fmt32 z.toNat x.toNat y.toNat)
  | .i32 => (fi z x y, 0)
  | _ => pack2 (ff (halfOf ty) (lo16 z) (lo16 x) (lo16 y)) (ff (halfOf ty) (hi16 z) (hi16 x) (hi16 y))

/-- The sign bits of a lane's float elements. -/
def signBits (ty : VTy) : Lane := match ty with
  | .f32 => 0x80000000
  | .i32 => 0
  | _ => 0x80008000

def sminL (x y : Lane) : Lane := if x.slt y then x else y
def smaxL (x y : Lane) : Lane := if x.slt y then y else x
def absL (x : Lane) : Lane := if x.slt 0 then 0 - x else x

/-! ### Arithmetic (06 R189) -/

def execVadd (ty : VTy) (d : VReg) (a b : VSrc) (s : State) : Out :=
  vop2 d a b (fun rm => typed2 ty (fun f => f.add rm) (· + ·)) s
def execVsub (ty : VTy) (d : VReg) (a b : VSrc) (s : State) : Out :=
  vop2 d a b (fun rm => typed2 ty (fun f => f.sub rm) (· - ·)) s
def execVmul (ty : VTy) (d : VReg) (a b : VSrc) (s : State) : Out :=
  vop2 d a b (fun rm => typed2 ty (fun f => f.mul rm) (· * ·)) s
def execVfma (ty : VTy) (d : VReg) (a b : VSrc) (s : State) : Out :=
  vop3 d a b (fun rm => typed3 ty (fun f => f.fma rm) (fun z x y => z + x * y)) s
def execVmin (ty : VTy) (d : VReg) (a b : VSrc) (s : State) : Out :=
  vop2 d a b (fun _ => typed2 ty (fun f => f.minMax false) sminL) s
def execVmax (ty : VTy) (d : VReg) (a b : VSrc) (s : State) : Out :=
  vop2 d a b (fun _ => typed2 ty (fun f => f.minMax true) smaxL) s
/-- On float types only the sign bit changes; no flag is raised. -/
def execVabs (ty : VTy) (d : VReg) (a : VSrc) (s : State) : Out :=
  vop1 d a (fun _ x => (if ty = .i32 then absL x else x &&& ~~~(signBits ty), 0)) s
def execVneg (ty : VTy) (d : VReg) (a : VSrc) (s : State) : Out :=
  vop1 d a (fun _ x => (if ty = .i32 then 0 - x else x ^^^ signBits ty, 0)) s

def execVscl (ty : VTy) (d : VReg) (a : VSrc) (b : SSrc) (s : State) : Out :=
  vissue s [useV a, useS b] [vCode a.reg] [vCode d] [vCode d] false fun s act =>
    let x := s.vread a.reg act
    let y : Lane := (s.valS b.reg).setWidth 32
    let r := lanewise act fun i => typed2 ty (fun f => f.mul s.me.rm) (· * ·) x.1[i] y
    let w := vwrite s d act r.1
    vdone w.1 [useV a, useS b] [vCode a.reg, vCode d] 1 (x.2 ||| r.2 ||| w.2)

/-! ### Bitwise and shift operations (06 R190) -/

def execVand (d : VReg) (a b : VSrc) (s : State) : Out := vop2 d a b (fun _ x y => (x &&& y, 0)) s
def execVor (d : VReg) (a b : VSrc) (s : State) : Out := vop2 d a b (fun _ x y => (x ||| y, 0)) s
def execVxor (d : VReg) (a b : VSrc) (s : State) : Out := vop2 d a b (fun _ x y => (x ^^^ y, 0)) s

def shrL (arith : Bool) (x : Lane) (n : Nat) : Lane := if arith then x.sshiftRight n else x >>> n

/-- In the register form bits 31:5 of each B lane are ignored. -/
def execVshl (d : VReg) (a : VSrc) (n : VShAmt) (s : State) : Out :=
  match n with
  | .reg b => vop2 d a b (fun _ x y => (x <<< fieldNat y 0 5, 0)) s
  | .imm k => vop1 d a (fun _ x => (x <<< k.toNat, 0)) s
def execVshr (arith : Bool) (d : VReg) (a : VSrc) (n : VShAmt) (s : State) : Out :=
  match n with
  | .reg b => vop2 d a b (fun _ x y => (shrL arith x (fieldNat y 0 5), 0)) s
  | .imm k => vop1 d a (fun _ x => (shrL arith x k.toNat, 0)) s

/-! ### Special functions (06 R191; 04 R119, R120) -/

/-- D is empty from issue to turn t + 2, and the flags land with it. -/
def vsfu (d : VReg) (a : VSrc) (f : Lane → Lane × Flags) (s : State) : Out :=
  vissue s [useV a] [vCode a.reg] [vCode d] [vCode d] false fun s act =>
    let x := s.vread a.reg act
    let r := lanewise act fun i => f x.1[i]
    let w := s.vlater d act r.1
    let p : Pend := ⟨BitVec.ofNat 6 (vCode d), w.1, r.2 ||| w.2, some (s.inTurns s.cur.quad 2), .calc, BitVec.ofNat 7 s.curOp, none⟩
    vdone (s.addPend p) [useV a] [vCode a.reg, vCode d] 1 x.2

def execVrcp (d : VReg) (a : VSrc) (s : State) : Out := vsfu d a sfuRcp s
def execVrsq (d : VReg) (a : VSrc) (s : State) : Out := vsfu d a sfuRsq s
def execVex2 (d : VReg) (a : VSrc) (s : State) : Out := vsfu d a sfuEx2 s
def execVlg2 (d : VReg) (a : VSrc) (s : State) : Out := vsfu d a sfuLg2 s

/-! ### Conversions (06 R192; 04 R93) -/

/-- One element converted to a float format. -/
def cvtToF (rm : RMode) (dst : Fmt) (src : VTy) (x : Nat) : Nat × Flags :=
  match src with
  | .f32 => dst.cvt fmt32 rm x
  | .i32 => dst.ofI32 rm (BitVec.ofNat 32 x)
  | _ => dst.cvt (halfOf src) rm x

def cvtLane (rm : RMode) (dst src : VTy) (x y : Lane) : Lane × Flags :=
  let packedSrc := src == .bf16x2 || src == .f16x2
  match dst with
  | .f32 => lane1 (cvtToF rm fmt32 src (if packedSrc then lo16 x else x.toNat))
  | .i32 => if packedSrc then Fmt.toI32 (halfOf src) rm (lo16 x) else fmt32.toI32 rm x.toNat
  | _ =>
    if packedSrc then pack2 (cvtToF rm (halfOf dst) src (lo16 x)) (cvtToF rm (halfOf dst) src (hi16 x))
    else pack2 (cvtToF rm (halfOf dst) src x.toNat) (cvtToF rm (halfOf dst) src y.toNat)

def execVcvt (dst src : VTy) (d : VReg) (a : VSrc) (b : Option VSrc) (s : State) : Out :=
  match b with
  | some b => vop2 d a b (fun rm x y => cvtLane rm dst src x y) s
  | none => vop1 d a (fun rm x => cvtLane rm dst src x 0) s

/-! ### Compares and selects (06 R193, R194) -/

/-- One float comparison: the predicate and its flags. -/
def cmpF (op : VCmpOp) (f : Fmt) (a b : Nat) : Bool × Flags :=
  let x := f.dec a
  let y := f.dec b
  let quiet : Flags := if x.isSnan || y.isSnan then flNV else 0
  if x.isNan || y.isNan then
    match op with
    | .ne => (true, quiet)
    | .eq | .ordered | .unordered => (false, quiet)
    | .lt | .le | .gt | .ge => (false, flNV)
  else
    match op with
    | .eq => (x.eqNum y, 0)
    | .ne => (!x.eqNum y, 0)
    | .lt => (x.ltNum y, 0)
    | .le => (x.ltNum y || x.eqNum y, 0)
    | .gt => (y.ltNum x, 0)
    | .ge => (y.ltNum x || x.eqNum y, 0)
    | .ordered => (true, 0)
    | .unordered => (false, 0)

def cmpI (op : VCmpOp) (x y : Lane) : Bool :=
  match op with
  | .eq => x == y
  | .ne => x != y
  | .lt => x.slt y
  | .le => !y.slt x
  | .gt => y.slt x
  | .ge => !x.slt y
  | .ordered | .unordered => false

/-- A lane's bit: packed types need the predicate of both elements. -/
def cmpLane (op : VCmpOp) (ty : VTy) (x y : Lane) : Bool × Flags :=
  match ty with
  | .f32 => cmpF op fmt32 x.toNat y.toNat
  | .i32 => (cmpI op x y, 0)
  | _ =>
    let e0 := cmpF op (halfOf ty) (lo16 x) (lo16 y)
    let e1 := cmpF op (halfOf ty) (hi16 x) (hi16 y)
    (e0.1 && e1.1, e0.2 ||| e1.2)

/-- p0 as D, and the codes ordered and unordered of i32, are illegal instructions. -/
def execVcmp (op : VCmpOp) (ty : VTy) (d : PReg) (a b : VSrc) (s : State) : Out :=
  if d = 0 ∨ (ty = .i32 ∧ (op = .ordered ∨ op = .unordered)) then .next (illegalMe s)
  else
    vissue s [useV a, useV b] [vCode a.reg, vCode b.reg] [] [pCode d] false fun s act =>
      let x := s.vread a.reg act
      let y := s.vread b.reg act
      let r := lanewise act fun i =>
        let c := cmpLane op ty x.1[i] y.1[i]
        (if c.1 then 1 else 0, c.2)
      let m : Half := BitVec.ofNat 16 (foldS (List.finRange 16) 0 fun (n : Nat) (i : Fin 16) => n + (r.1[i]).toNat * 2 ^ i.val)
      vdone (s.setP d m) [useV a, useV b] [vCode a.reg, vCode b.reg] 1 (x.2 ||| y.2 ||| r.2)

/-- The predicate register has no empty action: an empty one blocks. -/
def execVsel (d : VReg) (a b : VSrc) (p : PReg) (s : State) : Out :=
  vissue s [useV a, useV b, useC (pCode p)] [vCode a.reg, vCode b.reg] [vCode d] [vCode d] false fun s act =>
    let x := s.vread a.reg act
    let y := s.vread b.reg act
    let v : VWord := Vector.ofFn fun i => if bitAt (s.me.rdP p) i.val then x.1[i] else y.1[i]
    let w := vwrite s d act v
    vdone w.1 [useV a, useV b] [vCode a.reg, vCode b.reg, vCode d] 1 (x.2 ||| y.2 ||| w.2)

/-! ### Reductions (06 R195; 04 R116) -/

/-- Neighbours combined; a missing operand leaves the other. -/
def treeLevel {α : Type} (f : α → α → α × Flags) : List (Option α) → List (Option α) × Flags
  | a :: b :: r =>
    let t := treeLevel f r
    match a, b with
    | some x, some y => (some (f x y).1 :: t.1, (f x y).2 ||| t.2)
    | some x, none => (some x :: t.1, t.2)
    | none, y => (y :: t.1, t.2)
  | r => (r, 0)

/-- The fixed tree of four levels. -/
def tree16 {α : Type} (f : α → α → α × Flags) (xs : List (Option α)) : Option α × Flags :=
  let p := treeLevel f xs
  let q := treeLevel f p.1
  let u := treeLevel f q.1
  let r := treeLevel f u.1
  (r.1.head?.join, p.2 ||| q.2 ||| u.2 ||| r.2)

/-- A float reduction of one element position; the value when no lane is active. -/
def redF (op : RedOp) (f : Fmt) (rm : RMode) (xs : List (Option Nat)) : Nat × Flags :=
  let mag := fun x => x % f.signBit true
  let r := match op with
    | .sum => tree16 (f.add rm) xs
    | .max => tree16 (f.minMax true) xs
    | .min => tree16 (f.minMax false) xs
    | .amax => tree16 (f.minMax true) (xs.map (Option.map mag))
  match r.1 with
  | some x => (x, r.2)
  | none => (match op with
    | .sum | .amax => 0
    | .max => f.inf true
    | .min => f.inf false, 0)

def redI (op : RedOp) (xs : List (Option Lane)) : Word :=
  let t := fun (f : Lane → Lane → Lane) (xs : List (Option Lane)) => (tree16 (fun x y => (f x y, 0)) xs).1
  match op with
  | .sum => sx ((t (· + ·) xs).getD 0)
  | .max => sx ((t smaxL xs).getD 0x80000000)
  | .min => sx ((t sminL xs).getD 0x7FFFFFFF)
  | .amax => zx ((t (fun x y => if x.ult y then y else x) (xs.map (Option.map absL))).getD 0)

def redV (op : RedOp) (ty : VTy) (rm : RMode) (act : Half) (v : VWord) : Word × Flags :=
  let xs := (List.finRange 16).map fun i => if bitAt act i.val then some v[i] else none
  match ty with
  | .f32 =>
    let r := redF op fmt32 rm (xs.map (·.map BitVec.toNat))
    (BitVec.ofNat 64 r.1, r.2)
  | .i32 => (redI op xs, 0)
  | _ =>
    let e0 := redF op (halfOf ty) rm (xs.map (·.map lo16))
    let e1 := redF op (halfOf ty) rm (xs.map (·.map hi16))
    (zx (pack2 e0 e1).1, e0.2 ||| e1.2)

def execVred (op : RedOp) (ty : VTy) (d : WReg) (a : VSrc) (s : State) : Out :=
  vissue s [useV a] [vCode a.reg] [] [d.code] false fun s act =>
    let x := s.vread a.reg act
    let r := redV op ty s.me.rm act x.1
    vdone (s.setW d r.1) [useV a] [vCode a.reg] 1 (x.2 ||| r.2)

/-! ### Lane movers (06 R196) -/

def execVbc (d : VReg) (a : SSrc) (s : State) : Out :=
  vissue s [useS a] [] [vCode d] [vCode d] false fun s act =>
    let w := vwrite s d act (Vector.replicate 16 ((s.valS a.reg).setWidth 32))
    vdone w.1 [useS a] [vCode d] 1 w.2

def execVget (d : WReg) (a : VSrc) (lane : BitVec 4) (s : State) : Out :=
  vissue s [useV a] [vCode a.reg] [] [d.code] false fun s act =>
    let x := s.vread a.reg act
    vdone (s.setW d (zx (maskV act x.1)[lane.toFin])) [useV a] [vCode a.reg] 1 x.2

/-- D is read and written: a stream in it is named against its direction. -/
def execVput (d : VReg) (a : SSrc) (lane : BitVec 4) (s : State) : Out :=
  vissue s [useS a, useC (vCode d)] [vCode d] [vCode d] [vCode d] false fun s act =>
    let x := s.vread d act
    let w := vwrite s d act (x.1.set lane.toFin.val ((s.valS a.reg).setWidth 32))
    vdone w.1 [useS a] [vCode d] 1 (x.2 ||| w.2)

def execVperm (d : VReg) (a b : VSrc) (s : State) : Out :=
  vissue s [useV a, useV b] [vCode a.reg, vCode b.reg] [vCode d] [vCode d] false fun s act =>
    let x := s.vread a.reg act
    let y := s.vread b.reg act
    let w := vwrite s d act (Vector.ofFn fun i => x.1[Fin.ofNat 16 (y.1[i]).toNat])
    vdone w.1 [useV a, useV b] [vCode a.reg, vCode b.reg, vCode d] 1 (x.2 ||| y.2 ||| w.2)

/-- Lane i holds start + i. -/
def iota (d : VReg) (start : Lane) (s : State) : Out :=
  vissue s [] [] [vCode d] [vCode d] false fun s act =>
    let w := vwrite s d act (Vector.ofFn fun i => start + BitVec.ofNat 32 i.val)
    vdone w.1 [] [vCode d] 1 w.2

def execViota (d : VReg) (s : State) : Out := iota d 0 s
def execViotaStart (d : VReg) (k : BitVec 16) (s : State) : Out := iota d (k.signExtend 32) s

/-! ### vdot (06 R197; 04 R117) -/

def dotLane (f : Fmt) (rm : RMode) (z x y : Lane) : Lane × Flags :=
  lane1 (fmt32.fused rm [(f.dec (lo16 x), f.dec (lo16 y)), (f.dec (hi16 x), f.dec (hi16 y))] [fmt32.dec z.toNat])

def execVdot (f16 : Bool) (d : VReg) (a b : VSrc) (s : State) : Out :=
  vop3 d a b (dotLane (if f16 then fmt16 else fmtBf)) s

/-! ### FP64 (06 R198; 04 R88) -/

/-- Element k of the lane-pair view. -/
def pairAt (v : VWord) (k : Fin 8) : Nat :=
  (v[(⟨2 * k.val, by omega⟩ : Fin 16)]).toNat + (v[(⟨2 * k.val + 1, by omega⟩ : Fin 16)]).toNat * 2 ^ 32

/-- Both lanes of element k are active. -/
def pairActive (act : Half) (k : Nat) : Bool := bitAt act (2 * k) && bitAt act (2 * k + 1)

/-- A function on the active elements. -/
def pairwise (act : Half) (f : Fin 8 → Nat × Flags) : VWord × Flags :=
  let xs : Vector (Nat × Flags) 8 := Vector.ofFn fun k => if pairActive act k.val then f k else (0, 0)
  (Vector.ofFn fun i => BitVec.ofNat 32 ((xs[(⟨i.val / 2, by omega⟩ : Fin 8)]).1 / 2 ^ (32 * (i.val % 2))),
    (xs.map Prod.snd).foldl (· ||| ·) 0)

/-- Lane k of a narrowing conversion; lanes 8 to 15 are zero. -/
def narrow (act : Half) (f : Fin 8 → Nat × Flags) : VWord × Flags :=
  let xs : Vector (Nat × Flags) 8 := Vector.ofFn fun k => if pairActive act k.val then f k else (0, 0)
  (Vector.ofFn fun i => if h : i.val < 8 then BitVec.ofNat 32 xs[i.val].1 else 0, (xs.map Prod.snd).foldl (· ||| ·) 0)

def vfdV (op : VfdOp) (rm : RMode) (act : Half) (z x y : VWord) : VWord × Flags :=
  match op with
  | .add => pairwise act fun k => fmt64.add rm (pairAt x k) (pairAt y k)
  | .sub => pairwise act fun k => fmt64.sub rm (pairAt x k) (pairAt y k)
  | .mul => pairwise act fun k => fmt64.mul rm (pairAt x k) (pairAt y k)
  | .fma => pairwise act fun k => fmt64.fma rm (pairAt z k) (pairAt x k) (pairAt y k)
  | .min => pairwise act fun k => fmt64.minMax false (pairAt x k) (pairAt y k)
  | .max => pairwise act fun k => fmt64.minMax true (pairAt x k) (pairAt y k)
  | .cvtds => pairwise act fun k => fmt64.cvt fmt32 rm (x[(⟨k.val, by omega⟩ : Fin 16)]).toNat
  | .cvtsd => narrow act fun k => fmt32.cvt fmt64 rm (pairAt x k)

/-- The sources that a `vfd` reads; only `vdfma` reads D. -/
def vfdUses (op : VfdOp) (d : VReg) (a : VSrc) (b : Option VSrc) : List Use :=
  useV a :: ((match b with
    | some b => [useV b]
    | none => []) ++ if op = .fma then [useC (vCode d)] else [])

def execVfd (op : VfdOp) (d : VReg) (a : VSrc) (b : Option VSrc) (s : State) : Out :=
  let us := vfdUses op d a b
  let rd := us.map Use.code
  vissue s us rd [vCode d] [vCode d] false fun s act =>
    let x := s.vread a.reg act
    let y := match b with
      | some b => s.vread b.reg act
      | none => (Vector.replicate 16 0, 0)
    let z := if op = .fma then s.vread d act else (Vector.replicate 16 0, 0)
    let r := vfdV op s.me.rm act z.1 x.1 y.1
    let w := vwrite s d act r.1
    vdone w.1 us (rd ++ [vCode d]) 1 (x.2 ||| y.2 ||| z.2 ||| r.2 ||| w.2)

/-! ### Lane-group work left over (02 R45, R46) -/

/-- The group that work of core `c` takes in this cycle: its own when the core issued no vector instruction, else that of
the first idle sibling. -/
def State.freeGroup (s : State) (q : Nat) (c : Fin 4) : Option Nat :=
  let x := s.quad q
  if !bitAt x.vecUsed c.val then some c.val
  else [1, 2, 3].findSome? fun i =>
    let k := (c.val + i) % 4
    if bitAt x.vecUsed k || bitAt x.issued k then none else some k

/-- The remaining work of earlier cycles, oldest first, each piece on the first free group. DESIGN CHOICE (log 103): of two pieces
issued in one cycle the one of the lower core goes first, and one instruction's work takes at most one group in a cycle (02 R45). -/
def execLaneGroupWork (q : Nat) (s : State) : Out :=
  let ts := (quadSlots q).filter fun t => decide (0 < (s.th t).lanes) && decide ((s.th t).lanesAt < s.cycle)
  let sorted := ts.mergeSort fun (a b : Tid) => decide ((s.th a).lanesAt ≤ (s.th b).lanesAt)
  .next (foldS sorted s fun s t =>
    match s.freeGroup q t.core with
    | some g => (s.useGroup q g).modTh t fun x => { x with lanes := x.lanes - 1 }
    | none => s)

end Sys2Proof.Machine
end

