-- ==== Sys2Proof/Machine/Dispatch.lean ====
section
/-! DEFINITION. One arm per instruction: a direct call of its meaning. -/

namespace Sys2Proof.Machine

def exec (i : Instr) (s : State) : Host.Outcome State Fault Refusal :=
  match i with
  | .add d a b => Sys2Proof.Machine.execAdd d a b s
  | .sub d a b => Sys2Proof.Machine.execSub d a b s
  | .addk d a k => Sys2Proof.Machine.execAddk d a k s
  | .mul d a b => Sys2Proof.Machine.execMul d a b s
  | .mulh op d a b => Sys2Proof.Machine.execMulh op d a b s
  | .div signed d a b => Sys2Proof.Machine.execDiv signed d a b s
  | .rem signed d a b => Sys2Proof.Machine.execRem signed d a b s
  | .and d a b => Sys2Proof.Machine.execAnd d a b s
  | .or d a b => Sys2Proof.Machine.execOr d a b s
  | .xor d a b => Sys2Proof.Machine.execXor d a b s
  | .logk op d a k => Sys2Proof.Machine.execLogk op d a k s
  | .shl d a n => Sys2Proof.Machine.execShl d a n s
  | .shr arith d a n => Sys2Proof.Machine.execShr arith d a n s
  | .mnx op d a b => Sys2Proof.Machine.execMnx op d a b s
  | .bcnt op d a => Sys2Proof.Machine.execBcnt op d a s
  | .movk d k => Sys2Proof.Machine.execMovk d k s
  | .mov f => Sys2Proof.Machine.execMov f s
  | .sel d a b p => Sys2Proof.Machine.execSel d a b p s
  | .cmp op d a b => Sys2Proof.Machine.execCmp op d a b s
  | .cmpz op d a b => Sys2Proof.Machine.execCmpz op d a b s
  | .lea d a b sh k => Sys2Proof.Machine.execLea d a b sh k s
  | .ext zero d a w1 => Sys2Proof.Machine.execExt zero d a w1 s
  | .bfx sign d a lsb w1 => Sys2Proof.Machine.execBfx sign d a lsb w1 s
  | .bfi d a lsb w1 => Sys2Proof.Machine.execBfi d a lsb w1 s
  | .br disp => Sys2Proof.Machine.execBr disp s
  | .bc cc a b disp site => Sys2Proof.Machine.execBc cc a b disp site s
  | .loop d disp site => Sys2Proof.Machine.execLoop d disp site s
  | .fetch => Sys2Proof.Machine.execFetch s
  | .fetchLines k => Sys2Proof.Machine.execFetchLines k s
  | .call d disp => Sys2Proof.Machine.execCall d disp s
  | .jmp a => Sys2Proof.Machine.execJmp a s
  | .stop => Sys2Proof.Machine.execStop s
  | .pfi f => Sys2Proof.Machine.execPfi f s
  | .xrd d site => Sys2Proof.Machine.execXrd d site s
  | .xbr thr disp site => Sys2Proof.Machine.execXbr thr disp site s
  | .xsel op d a b site => Sys2Proof.Machine.execXsel op d a b site s
  | .xpf a b site => Sys2Proof.Machine.execXpf a b site s
  | .xunr d cap site => Sys2Proof.Machine.execXunr d cap site s
  | .nop => Sys2Proof.Machine.execNop s
  | .yield => Sys2Proof.Machine.execYield s
  | .ld sz d a k site => Sys2Proof.Machine.execLd sz d a k site s
  | .ldz sz d a k site => Sys2Proof.Machine.execLdz sz d a k site s
  | .ldAcq sz d a k sc => Sys2Proof.Machine.execLdAcq sz d a k sc s
  | .st sz d a k => Sys2Proof.Machine.execSt sz d a k s
  | .stRel sz d a k sc => Sys2Proof.Machine.execStRel sz d a k sc s
  | .lld d a k => Sys2Proof.Machine.execLld d a k s
  | .lst d a k => Sys2Proof.Machine.execLst d a k s
  | .vld d a k site => Sys2Proof.Machine.execVld d a k site s
  | .vst d a k => Sys2Proof.Machine.execVst d a k s
  | .vldx d a b scale => Sys2Proof.Machine.execVldx d a b scale s
  | .vstx d a b scale => Sys2Proof.Machine.execVstx d a b scale s
  | .vldg d a b scale site => Sys2Proof.Machine.execVldg d a b scale site s
  | .vstg d a b scale => Sys2Proof.Machine.execVstg d a b scale s
  | .sbind d f => Sys2Proof.Machine.execSbind d f s
  | .sloop d disp site => Sys2Proof.Machine.execSloop d disp site s
  | .pfd lvl a k => Sys2Proof.Machine.execPfd lvl a k s
  | .vadd ty d a b => Sys2Proof.Machine.execVadd ty d a b s
  | .vsub ty d a b => Sys2Proof.Machine.execVsub ty d a b s
  | .vmul ty d a b => Sys2Proof.Machine.execVmul ty d a b s
  | .vfma ty d a b => Sys2Proof.Machine.execVfma ty d a b s
  | .vmin ty d a b => Sys2Proof.Machine.execVmin ty d a b s
  | .vmax ty d a b => Sys2Proof.Machine.execVmax ty d a b s
  | .vabs ty d a => Sys2Proof.Machine.execVabs ty d a s
  | .vneg ty d a => Sys2Proof.Machine.execVneg ty d a s
  | .vand d a b => Sys2Proof.Machine.execVand d a b s
  | .vor d a b => Sys2Proof.Machine.execVor d a b s
  | .vxor d a b => Sys2Proof.Machine.execVxor d a b s
  | .vshl d a n => Sys2Proof.Machine.execVshl d a n s
  | .vshr arith d a n => Sys2Proof.Machine.execVshr arith d a n s
  | .vrcp d a => Sys2Proof.Machine.execVrcp d a s
  | .vrsq d a => Sys2Proof.Machine.execVrsq d a s
  | .vex2 d a => Sys2Proof.Machine.execVex2 d a s
  | .vlg2 d a => Sys2Proof.Machine.execVlg2 d a s
  | .vcvt dst src d a b => Sys2Proof.Machine.execVcvt dst src d a b s
  | .vcmp op ty d a b => Sys2Proof.Machine.execVcmp op ty d a b s
  | .vsel d a b p => Sys2Proof.Machine.execVsel d a b p s
  | .vred op ty d a => Sys2Proof.Machine.execVred op ty d a s
  | .vbc d a => Sys2Proof.Machine.execVbc d a s
  | .vget d a lane => Sys2Proof.Machine.execVget d a lane s
  | .vput d a lane => Sys2Proof.Machine.execVput d a lane s
  | .vperm d a b => Sys2Proof.Machine.execVperm d a b s
  | .vdot f16 d a b => Sys2Proof.Machine.execVdot f16 d a b s
  | .vscl ty d a b => Sys2Proof.Machine.execVscl ty d a b s
  | .viota d => Sys2Proof.Machine.execViota d s
  | .viotaStart d k => Sys2Proof.Machine.execViotaStart d k s
  | .vfd op d a b => Sys2Proof.Machine.execVfd op d a b s
  | .amo op dbl ord d a b => Sys2Proof.Machine.execAmo op dbl ord d a b s
  | .cas dbl ord d a b => Sys2Proof.Machine.execCas dbl ord d a b s
  | .amof op dbl ord d a b => Sys2Proof.Machine.execAmof op dbl ord d a b s
  | .fence kind sc => Sys2Proof.Machine.execFence kind sc s
  | .wait cc ctr d a b => Sys2Proof.Machine.execWait cc ctr d a b s
  | .mbinc a b => Sys2Proof.Machine.execMbinc a b s
  | .mbrd d a => Sys2Proof.Machine.execMbrd d a s
  | .rgwait d ring => Sys2Proof.Machine.execRgwait d ring s
  | .rgrel ring b => Sys2Proof.Machine.execRgrel ring b s
  | .barArrive sc b => Sys2Proof.Machine.execBarArrive sc b s
  | .barWait sc b => Sys2Proof.Machine.execBarWait sc b s
  | .lck d a => Sys2Proof.Machine.execLck d a s
  | .ulck a => Sys2Proof.Machine.execUlck a s
  | .ifence => Sys2Proof.Machine.execIfence s
  | .trap code => Sys2Proof.Machine.execTrap code s
  | .rdsr d sr => Sys2Proof.Machine.execRdsr d sr s
  | .wrsr sr a => Sys2Proof.Machine.execWrsr sr a s
  | .send e last dk srcGlobal => Sys2Proof.Machine.execSend e last dk srcGlobal s
  | .csend e => Sys2Proof.Machine.execCsend e s
  | .gath e iw => Sys2Proof.Machine.execGath e iw s
  | .scat e op iw => Sys2Proof.Machine.execScat e op iw s
  | .mzero e => Sys2Proof.Machine.execMzero e s
  | .mbld e => Sys2Proof.Machine.execMbld e s
  | .mma e bfmt zero => Sys2Proof.Machine.execMma e bfmt zero s
  | .mmas e bfmt zero => Sys2Proof.Machine.execMmas e bfmt zero s
  | .mcmpr e bfmt => Sys2Proof.Machine.execMcmpr e bfmt s
  | .mst e clr => Sys2Proof.Machine.execMst e clr s
  | .dpush d a => Sys2Proof.Machine.execDpush d a s
  | .dpop d => Sys2Proof.Machine.execDpop d s
  | .dsplit d => Sys2Proof.Machine.execDsplit d s
  | .dlen d => Sys2Proof.Machine.execDlen d s
  | .kzBcast rs1 rs2 => Sys2Proof.Machine.execKzBcast rs1 rs2 s
  | .kzWait rs1 => Sys2Proof.Machine.execKzWait rs1 s
  | .kzFork rs1 => Sys2Proof.Machine.execKzFork rs1 s
  | .kzJoin => Sys2Proof.Machine.execKzJoin s
  | .kzLease => Sys2Proof.Machine.execKzLease s
  | .kzUnlease => Sys2Proof.Machine.execKzUnlease s
  | .kzFault rd rs1 rs2 => Sys2Proof.Machine.execKzFault rd rs1 rs2 s
  | .kzResume rs1 rs2 => Sys2Proof.Machine.execKzResume rs1 rs2 s
  | .kzKill rs1 => Sys2Proof.Machine.execKzKill rs1 s
  | .kzRdsl rd rs1 => Sys2Proof.Machine.execKzRdsl rd rs1 s
  | .kzWrsl rs1 rs2 => Sys2Proof.Machine.execKzWrsl rs1 rs2 s
  | .kzTask rd rs1 => Sys2Proof.Machine.execKzTask rd rs1 s
  | .broadcastDelivery c line mask => Sys2Proof.Machine.execBroadcastDelivery c line mask s
  | .forkDelivery c table => Sys2Proof.Machine.execForkDelivery c table s
  | .lineEntersBuffer t => Sys2Proof.Machine.execLineEntersBuffer t s
  | .resultArrives t reg => Sys2Proof.Machine.execResultArrives t reg s
  | .deferredFault t => Sys2Proof.Machine.execDeferredFault t s
  | .fpPark t => Sys2Proof.Machine.execFpPark t s
  | .storePerformed id => Sys2Proof.Machine.execStorePerformed id s
  | .grainUpdateApplied id => Sys2Proof.Machine.execGrainUpdateApplied id s
  | .laneGroupWork q => Sys2Proof.Machine.execLaneGroupWork q s
  | .incrementLands id => Sys2Proof.Machine.execIncrementLands id s
  | .waitCompletes t => Sys2Proof.Machine.execWaitCompletes t s
  | .rgwaitClaim q ring => Sys2Proof.Machine.execRgwaitClaim q ring s
  | .barrierPhaseCompletes id => Sys2Proof.Machine.execBarrierPhaseCompletes id s
  | .fenceCompletes t => Sys2Proof.Machine.execFenceCompletes t s
  | .ringAdmit id => Sys2Proof.Machine.execRingAdmit id s
  | .commandCompletion id => Sys2Proof.Machine.execCommandCompletion id s
  | .leaseGrant q => Sys2Proof.Machine.execLeaseGrant q s
  | .leaseExpiry q => Sys2Proof.Machine.execLeaseExpiry q s
  | .slotPreempt t => Sys2Proof.Machine.execSlotPreempt t s
  | .breakpointStop t => Sys2Proof.Machine.execBreakpointStop t s
  | .supervisorMessage id => Sys2Proof.Machine.execSupervisorMessage id s
  | .lqpost queue addr => Sys2Proof.Machine.execLqpost queue addr s
  | .launchStart queue => Sys2Proof.Machine.execLaunchStart queue s
  | .exitCall => Sys2Proof.Machine.execExitCall s
  | .launchComplete lid => Sys2Proof.Machine.execLaunchComplete lid s
  | .stallTimer h => Sys2Proof.Machine.execStallTimer h s
  | .cxipiWrite q v => Sys2Proof.Machine.execCxipiWrite q v s
  | .kztcmpWrite h v => Sys2Proof.Machine.execKztcmpWrite h v s
  | .quadHot q celsius => Sys2Proof.Machine.execQuadHot q celsius s
  | .energyWindow q estimate => Sys2Proof.Machine.execEnergyWindow q estimate s
  | .operatingPointChange q => Sys2Proof.Machine.execOperatingPointChange q s
  | .plbflush mask => Sys2Proof.Machine.execPlbflush mask s
  | .unmapGo => Sys2Proof.Machine.execUnmapGo s
  | .unmapDone => Sys2Proof.Machine.execUnmapDone s
  | .cxctlSave q => Sys2Proof.Machine.execCxctlSave q s
  | .saveComplete q => Sys2Proof.Machine.execSaveComplete q s
  | .cxctlRestore q => Sys2Proof.Machine.execCxctlRestore q s
  | .mkctlReq q => Sys2Proof.Machine.execMkctlReq q s
  | .markerArrives q src round => Sys2Proof.Machine.execMarkerArrives q src round s
  | .mkctlResume q => Sys2Proof.Machine.execMkctlResume q s
  | .kdGenerate => Sys2Proof.Machine.execKdGenerate s
  | .kdDestroy => Sys2Proof.Machine.execKdDestroy s
  | .kdClearRange => Sys2Proof.Machine.execKdClearRange s
  | .kdOperationDone => Sys2Proof.Machine.execKdOperationDone s
  | .kdfenceClear mask => Sys2Proof.Machine.execKdfenceClear mask s
  | .alarmTrigger t dom src addr => Sys2Proof.Machine.execAlarmTrigger t dom src addr s
  | .alcfgWrite v => Sys2Proof.Machine.execAlcfgWrite v s
  | .linkPacketReceived link dir packet lines write => Sys2Proof.Machine.execLinkPacketReceived link dir packet lines write s
  | .linkRekey link dir => Sys2Proof.Machine.execLinkRekey link dir s
  | .laneRetire link lane => Sys2Proof.Machine.execLaneRetire link lane s
  | .scrubPass hbm => Sys2Proof.Machine.execScrubPass hbm s
  | .errorDetected e => Sys2Proof.Machine.execErrorDetected e s
  | .mcMergeInterval => Sys2Proof.Machine.execMcMergeInterval s
  | .sramMarginInterval die corrected => Sys2Proof.Machine.execSramMarginInterval die corrected s
  | .sramUncorrectable die => Sys2Proof.Machine.execSramUncorrectable die s
  | .smctlWrite die v => Sys2Proof.Machine.execSmctlWrite die v s
  | .l2wgRequest die v => Sys2Proof.Machine.execL2wgRequest die v s
  | .mlcwgRequest root v => Sys2Proof.Machine.execMlcwgRequest root v s
  | .wayGatingDone l2 n => Sys2Proof.Machine.execWayGatingDone l2 n s
  | .mlccWrite n v => Sys2Proof.Machine.execMlccWrite n v s
  | .linkCounterDump die => Sys2Proof.Machine.execLinkCounterDump die s
  | .acctSnapshot => Sys2Proof.Machine.execAcctSnapshot s
  | .hrtailDoorbell v => Sys2Proof.Machine.execHrtailDoorbell v s
  | .hrheadAdvance v => Sys2Proof.Machine.execHrheadAdvance v s
  | .mbxRequestPost len => Sys2Proof.Machine.execMbxRequestPost len s
  | .mbxRequestClear => Sys2Proof.Machine.execMbxRequestClear s
  | .mbxResponsePost len => Sys2Proof.Machine.execMbxResponsePost len s
  | .mbxResponseClear => Sys2Proof.Machine.execMbxResponseClear s
  | .bpCopy => Sys2Proof.Machine.execBpCopy s
  | .bpCopyDone => Sys2Proof.Machine.execBpCopyDone s
  | .ceHinit => Sys2Proof.Machine.execCeHinit s
  | .ceHupd => Sys2Proof.Machine.execCeHupd s
  | .ceHfin => Sys2Proof.Machine.execCeHfin s
  | .ceVerify => Sys2Proof.Machine.execCeVerify s
  | .ceSign => Sys2Proof.Machine.execCeSign s
  | .ceRand => Sys2Proof.Machine.execCeRand s
  | .ceDevpub => Sys2Proof.Machine.execCeDevpub s
  | .ceLinkkey => Sys2Proof.Machine.execCeLinkkey s
  | .ceEcdh => Sys2Proof.Machine.execCeEcdh s
  | .ceOperationDone => Sys2Proof.Machine.execCeOperationDone s
  | .mrExtend => Sys2Proof.Machine.execMrExtend s
  | .mrlockWrite v => Sys2Proof.Machine.execMrlockWrite v s
  | .rstrelWrite v => Sys2Proof.Machine.execRstrelWrite v s
  | .mcstartWrite n v => Sys2Proof.Machine.execMcstartWrite n v s
  | .powerOnReset => Sys2Proof.Machine.execPowerOnReset s
  | .powerOutOfRange => Sys2Proof.Machine.execPowerOutOfRange s
  | .spdmGetVersion => Sys2Proof.Machine.execSpdmGetVersion s
  | .spdmGetCapabilities => Sys2Proof.Machine.execSpdmGetCapabilities s
  | .spdmNegotiateAlgorithms => Sys2Proof.Machine.execSpdmNegotiateAlgorithms s
  | .spdmGetCertificate => Sys2Proof.Machine.execSpdmGetCertificate s
  | .spdmChallenge => Sys2Proof.Machine.execSpdmChallenge s
  | .spdmGetMeasurements => Sys2Proof.Machine.execSpdmGetMeasurements s
  | .spdmUnsupportedRequest => Sys2Proof.Machine.execSpdmUnsupportedRequest s
  | .registerWrite p off v => Sys2Proof.Machine.execRegisterWrite p off v s
  | .rv64 r compressed => Sys2Proof.Machine.execRv64 r compressed s
  | .illegalHead head => Sys2Proof.Machine.execIllegalHead head s
  | .prefetchFillArrives id => Sys2Proof.Machine.execPrefetchFillArrives id s
  | .mrExtendDone => Sys2Proof.Machine.execMrExtendDone s
  | .linkCounterDumpDone die => Sys2Proof.Machine.execLinkCounterDumpDone die s

end Sys2Proof.Machine
end

