-- ==== Sys2Proof/Machine/Schedule.lean ====
section
/-! DEFINITION. What happens next (02 R22 to R24, R47, R49): within a cycle, transitions that are due, then each agent's
opportunity in a fixed order, then what the cycle has made ready; then the next cycle. Also the fetch of a hart's instruction
and of a thread's head. -/

namespace Sys2Proof.Machine

/-- What a step does: an instruction or event to execute, the state it is executed in, and the thread or the hart that
issues it. -/
structure Picked where
  next : Option Instr
  st : State
  issuer : Option Tid
  hand : Option Hid

def picked (i : Instr) (s : State) : Picked := ⟨some i, s, none, none⟩
def moved (s : State) : Picked := ⟨none, s, none, none⟩
def pickedBy (h : Hid) (i : Instr) (s : State) : Picked := ⟨some i, s, none, some h⟩

/-! ### Harts (08 R272, R273) -/

/-- The instruction at a hart's pc, fetched two bytes at a time; a fetch that fails is an access fault, cause 1. -/
def hartFetch (s : State) (h : Hid) : Picked :=
  let pc := (s.ht h).pc
  match hartFetch2 s h pc.toNat with
  | (.ok lo, s) =>
    if lo % 4 = 3 then
      match hartFetch2 s h (pc + 2).toNat with
      | (.ok hi, s) => pickedBy h (decode32 (BitVec.ofNat 32 (hi * 65536 + lo))) s
      | (.stall, s) => moved s
      | (_, s) => moved (takeTrap s h false 1 (pc + 2))
    else pickedBy h (decode16 (BitVec.ofNat 16 lo)) s
  | (.stall, s) => moved s
  | (_, s) => moved (takeTrap s h false 1 pc)

/-- A hart's opportunity: a pending interrupt, else its next instruction; none while it waits or is not active. -/
def hartAct (s : State) (h : Hid) : Option Picked :=
  let x := s.ht h
  if !x.active || decide (s.cycle < x.due) then none
  else
    let s : State := { s with hart := h }
    match s.takenInt h with
    | some 17 => some (picked (.stallTimer h) s)
    | some i => some (moved (takeTrap s h true i 0))
    | none =>
      if x.wfi && !s.wfiOver h then none
      else some (hartFetch (s.modHt h fun x => { x with wfi := false }) h)

/-! ### Threads -/

/-- A thread's launch has been started (15 R350): until then its slots and sequencers wait. -/
def State.mayRun (s : State) (t : Tid) : Bool :=
  match (s.core (s.coreId t)).launch with
  | some l => match tget? s.launches l with
    | some x => x.started
    | none => true
  | none => true

/-- The next head is issued: past the last one the thread stops, and one that is no instruction is illegal (03 R65, R81). -/
def issueHead (s : State) (t : Tid) : Picked :=
  let x := s.th t
  let i := headIdx x.pc
  if i = 0 ∨ lineNH x.line < i then moved (s.setTh t (x.stop .normal))
  else
    match decodeHead x.line i with
    | some ins => if isSeq t && !seqLegal ins then ⟨some (.illegalHead (lineH x.line i)), s, some t, none⟩ else ⟨some ins, s, some t, none⟩
    | none => ⟨some (.illegalHead (lineH x.line i)), s, some t, none⟩

/-- At an instruction boundary: a failed first-element check, a breakpoint, a deferred fault, a bad register, a kill, a park and a save come
before the next head (02 R47, R49, R50; 08 R250; 19 R442). -/
def boundary (s : State) (t : Tid) : Option Picked :=
  let x := s.th t
  let failed := x.deferred.any fun d => (decide (d.2.2 = 0x72) || decide (d.2.2 = 0x73)) && decide (d.1.cause ≠ 0x0A)
  if !failed && !x.waits && !x.exempt && (s.breakAt t).isSome then some (picked (.breakpointStop t) s)
  else if x.deferred.isSome then some (picked (.deferredFault t) s)
  else if x.badReg then some (moved (stopPoisoned (s.setTh t { x with badReg := false }) t))
  else if x.killReq then some (moved (killThread (s.setTh t { x with killReq := false }) t))
  else if x.parkEv ≠ 0 then some (picked (.fpPark t) s)
  else if x.saveReq && s.canSave t then some (picked (.slotPreempt t) s)
  else if x.saveReq && decide (x.saveAt < s.cycle) && x.packet.isNone then none
  else if x.waits then none
  else some (issueHead s t)

/-- A thread's opportunity; none when it does nothing in this cycle. -/
def threadAct (s : State) (t : Tid) : Option Picked :=
  let x := s.th t
  let s : State := { s with cur := t }
  if !s.mayRun t then none
  else
    match x.run with
    | .saved => none
    | .stopped _ => if x.parkEv ≠ 0 then some (picked (.fpPark t) s) else none
    | _ =>
      if x.lanes ≠ 0 then
        some (moved ((s.useGroup t.quad t.core.val).setTh t { x with lanes := x.lanes - 1, run := .blocked }))
      else
        match x.xbr with
        | some b => if b.due ≤ s.cycle then some (moved (resolveXbr s b)) else none
        | none =>
          if x.fetch.isSome then
            (if x.killReq then some (moved (killThread (s.setTh t { x with killReq := false }) t)) else none)
          else if s.cycle < x.hold ∨ x.inside s.cycle = true then none
          else boundary s t

/-! ### Agents -/

def agentAct (s : State) : Agent → Option Picked
  | .thread t => threadAct s t
  | .hart h => hartAct s h
  | .lanes q => if (quadSlots q).any fun t => decide (0 < (s.th t).lanes) && decide ((s.th t).lanesAt < s.cycle)
      then some (picked (.laneGroupWork q) s) else none

/-- The first agent that has something to do; those before it have had their opportunity. -/
def firstAgent (s : State) : List Agent → Option Picked
  | [] => none
  | a :: rest =>
    match agentAct { s with todo := rest } a with
    | some p => some p
    | none => firstAgent s rest

/-! ### What the cycle has made ready -/

/-- A message to a supervisor ring can be admitted or dropped now. -/
def State.supReady (s : State) (m : SupMsg) : Bool :=
  match s.designator true ⟨0, 0⟩ m.des with
  | none => true
  | some d =>
    let r := s.ring d.core.quad (Fin.ofNat 32 d.idx)
    bitAt m.des 23 || decide (d.pkg ≠ s.pkg) || !r.en || decide (r.world ≠ m.world) || 
      (decide (r.need 16 ≤ r.free (s.turn d.core.quad)) && !s.ringAhead d.core.quad (Fin.ofNat 32 d.idx) m.id)

/-- What a cycle has made ready; nothing on the quads of a halted device (17 R406), nor once a fence has been taken in it (R408). -/
def cycleEnd (s : State) : Option Instr :=
  if s.halted || !s.fences.isEmpty then none else
  match s.thr.find? fun e => s.waitReady e.1 with
  | some e => some (.waitCompletes e.1)
  | none =>
    match s.ringMsgs.find? s.msgReady with
    | some m => some (.ringAdmit m.id)
    | none =>
      match s.launches.find? fun e => s.launchOver e.1 e.2 with
      | some e => some (.launchComplete e.1)
      | none => s.dispatchNext.map .launchStart

/-! ### The next cycle -/

def dueAt (s : State) (d : Option Nat) : Bool := match d with
  | some n => decide (n ≤ s.cycle)
  | none => false
def every (s : State) (n : Nat) : Bool := decide (s.cycle % n = 0)
def busyOver (s : State) (b : Option Busy) (i : Instr) : List Instr := if dueAt s (b.map Busy.due) then [i] else []

/-- What falls due on the I/O die. -/
def dueIo (s : State) : List Instr :=
  busyOver s s.kdBusy .kdOperationDone ++ busyOver s s.ceBusy .ceOperationDone ++ busyOver s s.bpBusy .bpCopyDone ++
  busyOver s s.mrBusy .mrExtendDone ++ (if every s 1000000 && !s.merge.isEmpty then [.mcMergeInterval] else []) ++
  (if s.responds then [spdmRow (s.rqByte 1)] else [])

/-- What falls due on the dies' own units; none of it on a halted device, whose stacks serve the management cores only (17 R406). -/
def dueDies (s : State) : List Instr :=
  s.gateBusy.map (fun g => .wayGatingDone g.1 g.2) ++
  (if every s 1000000000 then [.scrubPass false] else []) ++ (if every s 86400000000000 then [.scrubPass true] else []) ++
  (List.range 8).flatMap (fun d =>
    let w := s.reg (smctlAddr d)
    let l := s.reg (lcctlAddr d)
    (if bitAt w 0 && every s (1000000 * 2 ^ fieldNat w 4 4) then [.sramMarginInterval d (tget 0 s.sramCnt d)] else []) ++
    (if bitAt l 63 && every s (2 ^ fieldNat l 48 5) then [.linkCounterDump d] else [])) ++
  (s.lcBusy.filter fun b => decide (b.2 ≤ s.cycle)).map (fun b => .linkCounterDumpDone b.1)

/-- Results, stores, lines and messages that arrive. -/
def dueThings (s : State) : List Instr :=
  (s.sq.filter fun (e : SQ) => decide (e.due ≤ s.cycle)).map (fun (e : SQ) => .storePerformed e.id) ++
  (s.fills.filter fun (f : Fill) => decide (f.due ≤ s.cycle)).map (fun (f : Fill) => .prefetchFillArrives f.id) ++
  (s.incrs.filter fun (m : Incr) => decide (m.due ≤ s.cycle)).map (fun (m : Incr) => .incrementLands m.id) ++
  s.thr.flatMap (fun e => (e.2.pend.filter fun p => dueAt s p.due).map fun p => .resultArrives e.1 p.reg) ++
  (s.grains.filter fun (g : Grain) => decide (g.due ≤ s.cycle)).map (fun (g : Grain) => .grainUpdateApplied g.id) ++
  (s.barEvs.filter fun (b : BarEv) => decide (b.due ≤ s.cycle)).map (fun (b : BarEv) => .barrierPhaseCompletes b.id) ++
  -- what the array reads in a cycle stands as it stood before the sends of that cycle (10 R293)
  (s.cmds.filter fun (c : Cmd) => c.freeAt.isNone && dueAt s c.due && decide (c.eng = .mat)).map (fun (c : Cmd) => .commandCompletion c.id) ++
  (s.cmds.filter fun (c : Cmd) => c.freeAt.isNone && dueAt s c.due && decide (c.eng ≠ .mat)).map (fun (c : Cmd) => .commandCompletion c.id) ++
  s.thr.flatMap (fun e => if dueAt s (e.2.fetch.map Fetch.due) then [.lineEntersBuffer e.1] else []) ++
  s.thr.flatMap (fun e => match e.2.run with
    | .waiting (.fence _ _ n) => if n ≤ s.cycle then [.fenceCompletes e.1] else []
    | _ => []) ++
  (s.sups.filter s.supReady).map (fun (m : SupMsg) => .supervisorMessage m.id)

/-- What falls due on quads and launches. -/
def dueQuads (s : State) : List Instr :=
  s.quads.flatMap (fun e =>
    let q := e.1
    let l := e.2.lease
    let n := s.cycle - e.2.base
    (match l.holder with
     | some _ => if s.leaseOver q && !s.matRunning q then [.leaseExpiry q] else []
     | none => if l.posted ≠ 0 then [.leaseGrant q] else []) ++
    (if n % 1000 = 0 then [.energyWindow q (Config.windowEnergy q (n / 1000))] else []) ++
    (if s.pointWanted q ≠ e.2.point.val then [.operatingPointChange q] else []) ++
    (match e.2.op with
     | .save => if s.atRest q then [.saveComplete q] else []
     | .mark => if s.markReady q then [.markerArrives q q (BitVec.ofNat 32 (s.markRound q + 1))] else []
     | .none => [])) ++
  s.launches.flatMap (fun e =>
    e.2.forks.map (fun c => .forkDelivery c (e.2.word 8)) ++ (if s.launchOver e.1 e.2 then [.launchComplete e.1] else [])) ++
  (if s.unmapReady then [.unmapDone] else [])

/-- The quads whose cores are assigned. -/
def State.liveQuads (s : State) : List Nat := ((s.cores.filter fun e => e.2.launch.isSome).map fun e => e.1.quad).eraseDups

/-- A quad's agents in this cycle: its sequencers in cycle 0 of a turn, the slot of the cycle and the control thread of each
core, and the lane groups last (02 R22, R23, R45). -/
def quadAgents (s : State) (q : Nat) : List Agent :=
  let p : Fin 16 := ⟨s.phase q, Nat.mod_lt _ (by decide)⟩
  (if p.val = 0 then [.thread (seqTid q 0), .thread (seqTid q 1)] else []) ++
  (coreCids q).map (fun c => .thread (slotTid c p)) ++ (coreCids q).map (fun c => .hart (.ctl c)) ++ [.lanes q]

/-- Assigned cores are charged a turn as it begins (19 R445). -/
def chargeTurns (s : State) : State :=
  foldS (s.cores.filter fun e => e.2.launch.isSome && decide (s.phase e.1.quad = 0)) s fun s e => s.charge e.2.acct 0 1

/-- The clock advances: what falls due, and who acts. A halted device's quads do nothing (17 R406). -/
def tick (s : State) : State :=
  let s : State := { s with
    cycle := s.cycle + 1, lmWas := [], wroteBack := [], fences := []
    quads := s.quads.map fun e => (e.1, { e.2 with vecUsed := 0, issued := 0, bfmtWas := [] }) }
  let now := s.inputs.filter fun x => decide (x.1 ≤ s.cycle)
  let s : State := { s with inputs := s.inputs.filter fun x => !decide (x.1 ≤ s.cycle) }
  let mgmt := ([0, 1, 2, 3] : List (Fin 4)).map fun n => Agent.hart (.mgmt n)
  if s.halted then { s with agenda := now.map Prod.snd ++ dueIo s, todo := mgmt }
  else
    let s := chargeTurns s
    { s with agenda := now.map Prod.snd ++ dueIo s ++ dueDies s ++ dueThings s ++ dueQuads s
             todo := s.liveQuads.flatMap (quadAgents s) ++ mgmt }

/-! ### The choice -/

/-- An outside happening that ends a package's time without supply. -/
def isPowerOn : Nat × Instr → Bool
  | (_, .powerOnReset) => true
  | _ => false
def State.stuck (s : State) : Bool := !s.powered && !s.inputs.any isPowerOn

/-- A security trigger: it acts once everything else of its cycle has happened, beside the other triggers of that cycle (17 R408). -/
def isTrigger : Instr → Bool
  | .alarmTrigger .. => true
  | _ => false
/-- A write of the host ring's TAIL: it is judged once HEAD has advanced in its cycle (20 R467). -/
def isDoorbell : Instr → Bool
  | .hrtailDoorbell _ => true
  | _ => false

def pick (s : State) : Picked :=
  if !s.powered then picked .powerOnReset { s with inputs := (s.inputs.dropWhile fun x => !isPowerOn x).drop 1 }
  else
    match s.agenda.find? fun i => !isTrigger i && !isDoorbell i with
    | some i => picked i { s with agenda := s.agenda.erase i }
    | none =>
      match firstAgent s s.todo with
      | some p => p
      | none =>
        let s : State := { s with todo := [] }
        match s.agenda.find? isDoorbell with
        | some i => picked i { s with agenda := s.agenda.erase i }
        | none =>
          match cycleEnd s with
          | some i => picked i s
          | none =>
            match s.agenda with
            | i :: rest => picked i { s with agenda := rest }
            | [] => moved (tick s)

/-! ### After an instruction -/

/-- The slot of the cycle has issued, unless it only blocked (02 R46). -/
def noteIssue (who : Option Tid) (s t : State) : State :=
  match who with
  | none => t
  | some w =>
    if isSeq w || decide (t.th w = { s.th w with run := .blocked }) then t
    else t.modQuad w.quad fun x => { x with issued := x.issued ||| ((1 : BitVec 4) <<< w.core.val) }

/-- A word of global memory as each die sees it, or of the management cores' local map. -/
def State.wordViews (s : State) (g : Nat) : List (Option Nat) :=
  if localBase ≤ 8 * g then [localRead s (8 * g - localBase) 8]
  else (List.range 8).map fun die => (s.seen die (8 * g) 8).map Prod.snd

/-- The step has posted a write of a line: a store or an atomic that wrote. -/
def wroteLine (s t : State) (line : Nat) : Bool :=
  t.sq.any fun (e : SQ) => decide (s.fresh ≤ e.id) && e.lines.contains line

/-- A reservation ends when another hand than that of its hart writes its line, or a die comes to see other bytes there (log 61). -/
def dropReservations (hand : Option Hid) (s t : State) : State :=
  foldS (t.harts.filter fun e => e.2.resv.isSome && decide (some e.1 ≠ hand)) t fun t e =>
    match e.2.resv with
    | none => t
    | some g => if s.wordViews g = t.wordViews g ∧ wroteLine s t (g / 8) = false then t else t.modHt e.1 fun h => { h with resv := none }

/-- What follows a step from `s` to `t`: the slot that issued is noted, and reservations end. -/
def settle (p : Picked) (s t : State) : State := dropReservations p.hand s (noteIssue p.issuer p.st t)

/-! ### Placing one instruction where the next step fetches it -/

/-- A line whose head 1 is the given halfword and that has no other head. -/
def lineOf (h : Half) : Line := ((Vector.replicate 32 (0 : Half)).set 0 0x0800).set 1 h

/-- Slot 0 of core 0 of quad 0 stands running at that head. -/
def placeHead (s : State) (h : Half) : State :=
  let t : Tid := ⟨0, 0, 0⟩
  { s.setTh t { s.th t with line := lineOf h, pc := 2, run := .running, fetch := none, hold := 0, xbr := none, lanes := 0
                            deferred := none, parkEv := 0, killReq := false, saveReq := false, exempt := true }
    with agenda := [], todo := [.thread t], powered := true }

/-- The control thread of core 0 of quad 0 stands in M mode at virtual address 0, and its instruction cache holds line 0 with
the word at its start. -/
def placeWord (s : State) (w : Nat) : State :=
  let h : Hid := .ctl ⟨0, 0⟩
  let line := ((Vector.replicate 32 (0 : Half)).set 0 (BitVec.ofNat 16 w)).set 1 (BitVec.ofNat 16 (w / 65536))
  let s : State := s.setHt h { s.ht h with pc := 0, priv := .m, active := true, wfi := false, due := 0, csrs := cset 0 (s.ht h).csrs 0x304 0 }
  { s.modCore ⟨0, 0⟩ fun k => { k with ctlIcache := [⟨0, line, s.cycle, 0⟩] }
    with agenda := [], todo := [.hart h], powered := true }

end Sys2Proof.Machine
end

