-- ==== Sys2Proof/Machine/Step.lean ====
section
/-! DEFINITION. One step: what `pick` chooses, executed by `exec`, and what the cycle keeps of it (02 R22 to R24). -/

namespace Sys2Proof.Machine

/-- One step. Without supply, and with nothing to come that would bring it back, there is no further step (20 R452). -/
def step (s : State) : Host.Outcome State Fault Refusal :=
  if s.stuck then .fault .heldInReset
  else
    let p := pick s
    match p.next with
    | none => .next (settle p s p.st)
    | some i =>
      match exec i p.st with
      | .next t => .next (settle p s t)
      | .fault f => .fault f
      | .refused r => .refused r

/-- The instruction whose bits are `w`, stored where the next step fetches: a head in the line buffer of slot 0 of core 0 of
quad 0, or a word at the pc of that core's control thread (log 2). -/
def State.withFetchWord (s : State) (nbits w : Nat) : State :=
  if nbits = 16 then placeHead s (BitVec.ofNat 16 w) else placeWord s w

end Sys2Proof.Machine
end

