-- ==== Sys2Proof/Safety.lean ====
section
/-! DEFINITION. The terms in which claims speak of a step: when an instruction issues, what it may change of its thread and of
the package, the canonical form of every memory, and the invariants of a safe run. -/

namespace Sys2Proof.Machine

/-! ### Issue (02 R26 to R31) -/

/-- Every source is full and every destination can be written: the instruction issues. -/
def State.issues (s : State) (us : List Use) (ds : List Nat) : Prop :=
  (∀ u ∈ us, s.srcEmpty u.code = false) ∧ ∀ d ∈ ds, s.dstBusy d = false

/-- As `issues`, and no acquire of the thread holds it back (06 R168). -/
def State.issuesMem (s : State) (us : List Use) (ds : List Nat) : Prop := s.issues us ds ∧ s.me.acqHolds = false

/-! ### What changes -/

/-- Nothing but the threads differs. -/
def State.onlyThreads (s t : State) : Prop := t = { s with thr := t.thr }

/-- Of the threads, only the current one differs; and, where a source is `li`, the previous slot's `lo` becomes empty
(02 R31). -/
def State.onlyMe (s t : State) (us : List Use) : Prop :=
  ∀ u : Tid, u ≠ s.cur →
    t.th u = if (us.any fun x => decide (x.code = 56)) = true ∧ u = prevSlot s.cur
      then ({ s.th u with loFreeFrom := s.turn s.cur.quad + 1 } : Thread).setEmpty 57 else s.th u

/-- The thread stands at its next head; after the last head it has stopped (03 R65). -/
def Thread.passed (x y : Thread) : Prop :=
  y.pc = x.pc + 2 ∧ y.run = if headIdx x.pc < lineNH x.line then .running else .stopped .normal

/-- The register that a code names: what it holds, and whether it is full. -/
def Thread.holds (x : Thread) (c : Nat) : Nat × Bool :=
  (if h : c < 32 then (x.rdG ⟨c, h⟩).toNat
   else if h : c - 32 < 16 then (x.v[c - 32].foldl (fun acc l => acc * 2 ^ 32 + l.toNat) 0)
   else if h : c - 48 < 8 then (x.rdP ⟨c - 48, h⟩).toNat
   else if c = 57 then x.lo.toNat else 0, x.isFull c)

/-- Every register but the one of code `d` keeps its value and its full bit. -/
def Thread.keepsRegs (x y : Thread) (d : Nat) : Prop := ∀ c, c ≠ d → y.holds c = x.holds c

/-- Floating-point state, tables, bindings, barriers, packet, record and window stay as they are. -/
def Thread.keepsRest (x y : Thread) : Prop :=
  y.fp = x.fp ∧ y.parkEv = x.parkEv ∧ y.trips = x.trips ∧ y.lastLoad = x.lastLoad ∧ y.binds = x.binds ∧
  y.arrived = x.arrived ∧ y.phases = x.phases ∧ y.packet = x.packet ∧ y.frec = x.frec ∧
  y.deferred = x.deferred ∧ y.pwin = x.pwin ∧ y.owner = x.owner ∧ y.line = x.line

/-- What a register-only instruction does to the package: it passes to the next head and changes no register but `d`. -/
def State.passes (s t : State) (us : List Use) (d : Nat) : Prop :=
  s.onlyThreads t ∧ s.onlyMe t us ∧ s.me.passed t.me ∧ s.me.keepsRegs t.me d ∧ s.me.keepsRest t.me ∧
  t.me.pend = s.me.pend ∧ t.me.acq = s.me.acq

/-- As `passes`, for a result that is pending: it lands `n` turns from now, `d` is empty until then, and a second write of `d`
blocks (02 R28, R30); an acquire that once waited for `d` is over. -/
def State.defersMe (s t : State) (us : List Use) (d : Nat) (v : Word) (n : Nat) (kind : PKind) : Prop :=
  s.onlyMe t us ∧ s.me.passed t.me ∧ s.me.keepsRegs t.me d ∧ s.me.keepsRest t.me ∧
  (∃ p : Pend, t.me.pend = s.me.pend ++ [p] ∧ p.reg.toNat = d ∧ p.val = .s v ∧ p.due = some (s.inTurns s.cur.quad n) ∧
    p.kind = kind ∧ p.fail = none ∧ p.flags = 0) ∧
  (d ≠ 0 → t.me.isFull d = false ∧ t.dstBusy d = true) ∧ ∀ r, r.toNat ≠ d → (r ∈ t.me.acq ↔ r ∈ s.me.acq)

/-- As `defersMe`, where nothing but the threads differs. -/
def State.defers (s t : State) (us : List Use) (d : Nat) (v : Word) (n : Nat) (kind : PKind) : Prop :=
  s.onlyThreads t ∧ s.defersMe t us d v n kind

/-- The destination of class w holds a value: `g0` discards it (03 R68), and `lo` is full for the next slot from the next turn
(02 R31). -/
def State.wrote (s t : State) (d : WReg) (v : Word) : Prop :=
  match d with
  | .g n => t.me.rdG n = if n = 0 then 0 else v
  | .lo => t.me.lo = v ∧ t.me.isFull 57 = true ∧ t.me.loFullFrom = s.turn s.cur.quad + 1

/-- The condition of a `bc` holds of its two sources (05 R132). -/
def condTrue (cc : Cond) (a b : Word) : Prop :=
  match cc with
  | .eq => a = b
  | .ne => a ≠ b
  | .lt => a.toInt < b.toInt
  | .ge => b.toInt ≤ a.toInt
  | .ltu => a.toNat < b.toNat
  | .geu => b.toNat ≤ a.toNat

/-- The current thread posts one update for a site that its launch counts, and none without a site (05 R145, R148). -/
def State.posts (s t : State) (site : Site) (u : GrainUpd) : Prop :=
  let c := s.coreId s.cur
  (site = none → t.grains = s.grains) ∧
  ∀ i id l, site = some i → (s.core c).launch = some id → s.launchOf c = some l → s.gmodeOf c ≠ 0 → i.toNat < l.gcount →
    ∃ g, t.grains = s.grains ++ [g] ∧ g.upd = u ∧ g.idx = i ∧ g.tid = s.cur ∧ g.launch = id

/-- The byte at `x` lies in the ring to which the machine sends machine checks or violations (18 R416; 16 R380). -/
def State.inRecordRing (s : State) (x : Nat) : Prop :=
  ∃ off d, (off = 0x1C0 ∨ off = 0x230) ∧ s.designator true ⟨0, 0⟩ (s.mreg off) = some d ∧
    let r := s.ring d.core.quad (Fin.ofNat 32 d.idx)
    d.core.quad * 0x200000 + r.base ≤ x ∧ x < d.core.quad * 0x200000 + r.base + r.count * r.slot

/-- Local memory stays as it is, but for records that an access may send to those rings. -/
def State.lmKept (s t : State) : Prop :=
  s.lm.wf = true → ∀ x, ¬ s.inRecordRing x → Mem.read t.lm x = Mem.read s.lm x

/-- The byte at `x` lies in the STATE word of a saved thread of the core: a saved thread that is killed is restored stopped
(16 R373; 10 R291). -/
def State.inSavedState (s : State) (c : Cid) (x : Nat) : Prop :=
  ∃ u ∈ s.coreThreads c, (s.th u).run = .saved ∧
    let a := u.quad * 0x200000 + 0x1E05A8 + (16 * u.core.val + u.unit.val) * 0x800
    a ≤ x ∧ x < a + 8

/-- A send that releases before its effect (08 R237). -/
def Cmd.releases (c : Cmd) : Bool :=
  match c.ins with
  | .send e _ _ _ => e.rel
  | _ => false

/-- None of the v registers named is bound to a stream (06 R182). -/
def State.unbound (s : State) (rs : List VReg) : Prop := ∀ r ∈ rs, s.me.bindOf (vCode r) = none

/-- The lane group of the current thread's core has run a vector instruction in this cycle (02 R45). -/
def State.groupUsed (s t : State) : Prop :=
  ∀ q, t.quad q = if q = s.cur.quad
    then { s.quad q with vecUsed := (s.quad q).vecUsed ||| ((1 : BitVec 4) <<< s.cur.core.val) } else s.quad q

/-- `fpctl` with flags ORed in; an enabled one is remembered, and the park is queued (02 R49; 04 R91). -/
def State.flagged (s t : State) (fl : Flags) : Prop :=
  t.me.fp = s.me.fp ||| zx fl ∧ t.me.parkEv = s.me.parkEv ||| (fl &&& s.me.enables) ∧
  t.agenda = if fl = 0 ∨ t.me.parkEv = 0 then s.agenda else s.agenda ++ [.fpPark s.cur]

/-- Tables, bindings, barriers, packet, record, window and pending results stay as they are. -/
def Thread.keepsTables (x y : Thread) : Prop :=
  y.pend = x.pend ∧ y.trips = x.trips ∧ y.lastLoad = x.lastLoad ∧ y.binds = x.binds ∧ y.arrived = x.arrived ∧
  y.phases = x.phases ∧ y.packet = x.packet ∧ y.acq = x.acq ∧ y.frec = x.frec ∧ y.pwin = x.pwin ∧ y.line = x.line

/-- What a one-cycle vector instruction on registers does to the package. -/
def State.vpasses (s t : State) (us : List Use) (d : Nat) (fl : Flags) : Prop :=
  t = { s with thr := t.thr, quads := t.quads, agenda := t.agenda } ∧ s.onlyMe t us ∧ s.groupUsed t ∧ s.flagged t fl ∧
  s.me.passed t.me ∧ s.me.keepsRegs t.me d ∧ s.me.keepsTables t.me

/-- No cache holds a byte of a domain's lines: an L2 line that is locked or pinned stands empty (17 R394, R404; 10 R283, R285). -/
def State.cachedNowhere (s : State) (k : BitVec 6) : Prop :=
  (∀ l ∈ s.l2, l.kdom = k → l.valid = 0 ∧ l.dirty = 0 ∧ (l.lock.isSome || l.pin) = true) ∧ (∀ l ∈ s.mlc, l.kdom ≠ k) ∧
  ∀ e ∈ s.cores, (∀ b ∈ e.2.l1, b.kdom ≠ k) ∧ ∀ l ∈ e.2.icache ++ e.2.ctlIcache, l.kdom ≠ k

/-! ### Canonical memories -/

/-- Every memory and every bank of registers is in its canonical form. -/
def State.memWf (s : State) : Prop :=
  Mem.wf s.mem = true ∧ Mem.wf s.lm = true ∧ Mem.wf s.canopy = true ∧ Mem.wf s.sram = true ∧ Mem.wf s.reqbuf = true ∧
  Mem.wf s.rspbuf = true ∧ Mem.wf s.flash = true ∧ Mem.wf s.hostMem = true ∧ cwf 0 s.acc = true ∧ cwf 0 s.regs = true ∧
  cwf 0 s.lcnt = true ∧ cwf 0 s.accts = true ∧ cwf 0 s.energy = true ∧ cwf 0 s.l2tree = true ∧ cwf 0 s.mlcFill = true ∧
  cwf 0 s.mlcWays = true ∧ cwf 0 s.bitmap = true

/-! ### Keys (17 R393, R406, R407) -/

/-- A device whose keys have been erased holds none and cannot make new ones: its key source is off. -/
def State.keysGone (s : State) : Prop := s.erased = true → s.keys = [] ∧ s.puf = false

end Sys2Proof.Machine
end

