-- ==== Sys2Proof/Certificates/Slice0/Obligations.lean ====
section
/-! DEFINITION. The claims: each a proposition about `exec`, `step`, the decoder or the encoder. -/

open Sys2Proof Sys2Proof.Machine

/-! ### Integer and address instructions (05) -/

/-- 05 R124: the results of the arithmetic operations, and that nothing else changes. -/
def Obligations.ScalarArithmetic : Prop :=
  ∀ (s : State) (d : WReg) (a b : SSrc),
    (s.issues [useS a, useS b] [d.code] →
      let A := s.valS a.reg
      let B := s.valS b.reg
      let n := B.toNat % 64
      let gives := fun (i : Instr) (v : Word) =>
        ∃ t, exec i s = .next t ∧ s.passes t [useS a, useS b] d.code ∧ s.wrote t d v
      gives (.add d a b) (A + B) ∧ gives (.sub d a b) (A - B) ∧
      gives (.mul d a b) (BitVec.ofInt 64 (A.toInt * B.toInt)) ∧
      gives (.mulh .ss d a b) (BitVec.ofInt 64 (A.toInt * B.toInt / 2 ^ 64)) ∧
      gives (.mulh .zz d a b) (BitVec.ofNat 64 (A.toNat * B.toNat / 2 ^ 64)) ∧
      gives (.mulh .sz d a b) (BitVec.ofInt 64 (A.toInt * B.toNat / 2 ^ 64)) ∧
      gives (.and d a b) (A &&& B) ∧ gives (.or d a b) (A ||| B) ∧ gives (.xor d a b) (A ^^^ B) ∧
      gives (.shl d a (.reg b)) (BitVec.ofNat 64 (A.toNat * 2 ^ n)) ∧
      gives (.shr false d a (.reg b)) (BitVec.ofNat 64 (A.toNat / 2 ^ n)) ∧
      gives (.shr true d a (.reg b)) (BitVec.ofInt 64 (A.toInt / 2 ^ n)) ∧
      gives (.mnx .mins d a b) (if A.toInt ≤ B.toInt then A else B) ∧
      gives (.mnx .minz d a b) (if A.toNat ≤ B.toNat then A else B) ∧
      gives (.mnx .maxs d a b) (if A.toInt ≤ B.toInt then B else A) ∧
      gives (.mnx .maxz d a b) (if A.toNat ≤ B.toNat then B else A) ∧
      ∀ (sh : BitVec 2) (k : Imm), gives (.lea d a b sh k) (A + B * BitVec.ofNat 64 (2 ^ sh.toNat) + immS64 k)) ∧
    (s.issues [useS a] [d.code] →
      let A := s.valS a.reg
      let gives := fun (i : Instr) (v : Word) => ∃ t, exec i s = .next t ∧ s.passes t [useS a] d.code ∧ s.wrote t d v
      (∀ k : Imm, gives (.addk d a k) (A + immS64 k) ∧ gives (.logk .and d a k) (A &&& immZ64 k) ∧
        gives (.logk .or d a k) (A ||| immZ64 k) ∧ gives (.logk .xor d a k) (A ^^^ immZ64 k) ∧
        gives (.logk .andn d a k) (A &&& ~~~(immZ64 k))) ∧
      (∀ n : BitVec 6, gives (.shl d a (.imm n)) (BitVec.ofNat 64 (A.toNat * 2 ^ n.toNat)) ∧
        gives (.shr false d a (.imm n)) (BitVec.ofNat 64 (A.toNat / 2 ^ n.toNat)) ∧
        gives (.shr true d a (.imm n)) (BitVec.ofInt 64 (A.toInt / 2 ^ n.toNat))) ∧
      gives (.bcnt .clz d a) (BitVec.ofNat 64 ((List.range 64).reverse.takeWhile fun i => !bitAt A i).length) ∧
      gives (.bcnt .ctz d a) (BitVec.ofNat 64 ((List.range 64).takeWhile fun i => !bitAt A i).length) ∧
      gives (.bcnt .popc d a) (BitVec.ofNat 64 ((List.range 64).countP fun i => bitAt A i)))

/-- 05 R125: truncating division; the quotient or remainder is pending for three turns. -/
def Obligations.ScalarDivision : Prop :=
  ∀ (s : State) (d : WReg) (a b : SSrc), s.issues [useS a, useS b] [d.code] →
    let A := s.valS a.reg
    let B := s.valS b.reg
    let gives := fun (i : Instr) (v : Word) =>
      ∃ t, exec i s = .next t ∧ s.defers t [useS a, useS b] d.code v 3 .calc
    gives (.div true d a b) (if B = 0 then 0xFFFFFFFFFFFFFFFF else BitVec.ofInt 64 (A.toInt.tdiv B.toInt)) ∧
    gives (.div false d a b) (if B = 0 then 0xFFFFFFFFFFFFFFFF else BitVec.ofNat 64 (A.toNat / B.toNat)) ∧
    gives (.rem true d a b) (if B = 0 then A else BitVec.ofInt 64 (A.toInt - A.toInt.tdiv B.toInt * B.toInt)) ∧
    gives (.rem false d a b) (if B = 0 then A else BitVec.ofNat 64 (A.toNat - A.toNat / B.toNat * B.toNat))

/-- 05 R129: constants, selects and compares. `sel` blocks while its p register is empty; p0 reads 0xFFFF, so that it gives A. -/
def Obligations.SelectsAndCompares : Prop :=
  ∀ (s : State) (d : WReg),
    (s.issues [] [d.code] → ∀ k : MImm,
      ∃ t, exec (.movk d k) s = .next t ∧ s.passes t [] d.code ∧ s.wrote t d (mimmS64 k)) ∧
    ∀ a b : SSrc,
      let A := s.valS a.reg
      let B := s.valS b.reg
      let gives := fun (i : Instr) (v : Word) =>
        ∃ t, exec i s = .next t ∧ s.passes t [useS a, useS b] d.code ∧ s.wrote t d v
      (s.issues [useS a, useS b] [d.code] →
        gives (.cmp .eq d a b) (if A = B then 1 else 0) ∧ gives (.cmp .ne d a b) (if A ≠ B then 1 else 0) ∧
        gives (.cmp .lt d a b) (if A.toInt < B.toInt then 1 else 0) ∧
        gives (.cmp .ge d a b) (if B.toInt ≤ A.toInt then 1 else 0) ∧
        gives (.cmpz .ltu d a b) (if A.toNat < B.toNat then 1 else 0) ∧
        gives (.cmpz .geu d a b) (if B.toNat ≤ A.toNat then 1 else 0) ∧
        gives (.cmpz .leu d a b) (if A.toNat ≤ B.toNat then 1 else 0) ∧
        gives (.cmpz .gtu d a b) (if B.toNat < A.toNat then 1 else 0)) ∧
      ∀ p : PReg,
        (s.issues [useS a, useS b, useC (pCode p)] [d.code] → gives (.sel d a b p) (if p = 0 ∨ s.me.p[p] ≠ 0 then A else B)) ∧
        (s.issues [useS a, useS b] [] → s.srcEmpty (pCode p) = true → exec (.sel d a b p) s = .next s.blockMe)

/-- 05 R128: `mov` between scalar and p registers; p0 reads 0xFFFF and discards what is written. -/
def Obligations.Moves : Prop :=
  ∀ (s : State) (d : WReg) (p : PReg) (a : SSrc) (b : PSrc),
    let P : Half := if b.reg = 0 then 0xFFFF else s.me.p[b.reg]
    (s.issues [useS a] [d.code] →
      ∃ t, exec (.mov (.ss d a)) s = .next t ∧ s.passes t [useS a] d.code ∧ s.wrote t d (s.valS a.reg)) ∧
    (s.issues [useP b] [d.code] →
      ∃ t, exec (.mov (.sp d b)) s = .next t ∧ s.passes t [useP b] d.code ∧ s.wrote t d (zx P)) ∧
    (s.issues [useP b] [pCode p] →
      ∃ t, exec (.mov (.pp p b)) s = .next t ∧ s.passes t [useP b] (pCode p) ∧
        t.me.rdP p = if p = 0 then 0xFFFF else P) ∧
    (s.issues [useS a] [pCode p] →
      ∃ t, exec (.mov (.ps p a)) s = .next t ∧ s.passes t [useS a] (pCode p) ∧
        t.me.rdP p = if p = 0 then 0xFFFF else BitVec.ofNat 16 (s.valS a.reg).toNat)

/-- 05 R130: field operations; a field that runs past bit 63 is an illegal instruction. -/
def Obligations.FieldOperations : Prop :=
  ∀ (s : State) (d : WReg) (a : SSrc) (l w1 : BitVec 6),
    let A := s.valS a.reg
    let w := w1.toNat + 1
    (s.issues [useS a] [d.code] →
      let gives := fun (i : Instr) (v : Word) => ∃ t, exec i s = .next t ∧ s.passes t [useS a] d.code ∧ s.wrote t d v
      gives (.ext true d a w1) (BitVec.ofNat 64 (A.toNat % 2 ^ w)) ∧
      gives (.ext false d a w1) (BitVec.ofInt 64 (Int.bmod A.toNat (2 ^ w))) ∧
      (l.toNat + w ≤ 64 →
        gives (.bfx false d a l w1) (BitVec.ofNat 64 (A.toNat / 2 ^ l.toNat % 2 ^ w)) ∧
        gives (.bfx true d a l w1) (BitVec.ofInt 64 (Int.bmod (A.toNat / 2 ^ l.toNat) (2 ^ w))))) ∧
    (∀ n : Fin 32, s.issues [useS a, useC n.val] [n.val] → l.toNat + w ≤ 64 →
      ∃ t, exec (.bfi (.g n) a l w1) s = .next t ∧ s.passes t [useS a] n.val ∧
        s.wrote t (.g n) (BitVec.ofFnLE fun i : Fin 64 =>
          if l.toNat ≤ i.val ∧ i.val < l.toNat + w then bitAt A (i.val - l.toNat) else bitAt (s.me.rdG n) i.val)) ∧
    (64 < l.toNat + w → ∀ z : Bool,
      exec (.bfx z d a l w1) s = .next (illegalMe s) ∧ exec (.bfi d a l w1) s = .next (illegalMe s) ∧
      (illegalMe s).me.run = .stopped .fault ∧ fieldNat ((illegalMe s).me.frec[0]) 0 8 = 0x03)

/-! ### Control flow and grain (05) -/

/-- 03 R67, 05 R132, R133, R137: a transfer to a head of the line in the buffer issues there next. `loop` has counted down,
`call` has written PC + 2; nothing else of the thread's registers changes. A branch that is not taken and a loop that has
counted to zero pass to the next head, wherever their target lies. A branch with a site, and a loop that ends, post one update
(05 R135, R137). -/
def Obligations.TransferInLine : Prop :=
  (∀ (s : State) (k : BitVec 16) (site : Site),
    let passesOn := fun (i : Instr) (d : Nat) (t : State) => exec i s = .next t ∧ s.me.passed t.me ∧ s.me.keepsRegs t.me d ∧
      t = { s with thr := t.thr, grains := t.grains, fresh := t.fresh }
    (∀ (cc : Cond) (a b : SSrc), s.issues [useS a, useS b] [] → ¬ condTrue cc (s.valS a.reg) (s.valS b.reg) →
      ∃ t, passesOn (.bc cc a b k site) 0 t ∧ s.posts t site (.branch false)) ∧
    (∀ d : Fin 32, d ≠ 0 → s.issues [useC d.val] [d.val] → s.me.rdG d = 1 →
      ∃ t n, passesOn (.loop d k site) d.val t ∧ t.me.rdG d = 0 ∧ s.posts t site (.loop n) ∧
        ∀ i : Half, site = some i → (t.me.trips.all fun e => decide (e.site ≠ i)) = true ∧
          n.toNat = min (((s.me.trips.find? fun e => decide (e.site = i)).map fun e => e.count.toNat).getD 0 + 1) 0xFFFF)) ∧
  ∀ (s : State) (x : Word), x.toNat < 2 ^ 56 → lineVA x = lineVA s.me.pc → x.toNat % 2 = 0 → 1 ≤ x.toNat % 64 / 2 →
    x.toNat % 64 / 2 ≤ lineNH s.me.line →
    let lands := fun (i : Instr) (us : List Use) (d : Nat) (held : State → Prop) =>
      ∃ t, exec i s = .next t ∧ t = { s with thr := t.thr, grains := t.grains, fresh := t.fresh } ∧ s.onlyMe t us ∧
        t.me.pc = x ∧ t.me.run = .running ∧ s.me.keepsRegs t.me d ∧ t.me.line = s.me.line ∧ t.me.fp = s.me.fp ∧
        t.me.pend = s.me.pend ∧ held t
    (∀ k : Imm, x = s.me.pc + 2 * immS64 k → lands (.br k) [] 0 fun _ => True) ∧
    (∀ (cc : Cond) (a b : SSrc) (k : BitVec 16) (site : Site), s.issues [useS a, useS b] [] → x = s.me.pc + 2 * sx k →
      condTrue cc (s.valS a.reg) (s.valS b.reg) →
      lands (.bc cc a b k site) [useS a, useS b] 0 fun t => s.posts t site (.branch true)) ∧
    (∀ (d : Fin 32) (k : BitVec 16) (site : Site), d ≠ 0 → s.issues [useC d.val] [d.val] → x = s.me.pc + 2 * sx k →
      s.me.rdG d ≠ 1 → lands (.loop d k site) [] d.val fun t => t.me.rdG d = s.me.rdG d - 1 ∧ t.grains = s.grains) ∧
    (∀ (d : WReg) (k : Imm), s.issues [] [d.code] → x = s.me.pc + 2 * immS64 k →
      lands (.call d k) [] d.code fun t => s.wrote t d (s.me.pc + 2)) ∧
    (∀ a : SSrc, s.issues [useS a] [] → x = s.valS a.reg → lands (.jmp a) [useS a] 0 fun _ => True)

/-- 02 R35, 05 R132 to R134: a transfer to another line, and every `fetch`, asks for the line, which must lie in the lease; a
line that the instruction cache holds is here in the next turn. The thread keeps its PC until the line enters. -/
def Obligations.TransferToLine : Prop :=
  ∀ (s : State) (x : Word), x.toNat < 2 ^ 56 → s.leased (s.coreId s.cur) (lineVA x).toNat 64 rX = true →
    let asks := fun (i : Instr) (d : Nat) (held : State → Prop) =>
      ∃ t f, exec i s = .next t ∧ t.me.fetch = some f ∧ f.target = x ∧ f.from_ = some (BitVec.ofNat 7 s.curOp, s.me.pc) ∧
        t.me.run = .blocked ∧ t.me.pc = s.me.pc ∧ s.me.keepsRegs t.me d ∧ s.lmKept t ∧
        (∀ l : ICLine, s.icFind (s.coreId s.cur) (x.toNat / 64) = some l →
          f.data = some l.data ∧ f.fate = .ok ∧ f.due = s.inTurns s.cur.quad 1 ∧ t.mem = s.mem) ∧ held t
    (lineVA x ≠ lineVA s.me.pc →
      (∀ k : Imm, x = s.me.pc + 2 * immS64 k → asks (.br k) 0 fun _ => True) ∧
      (∀ (cc : Cond) (a b : SSrc) (k : BitVec 16) (site : Site), s.issues [useS a, useS b] [] → x = s.me.pc + 2 * sx k →
        condTrue cc (s.valS a.reg) (s.valS b.reg) → asks (.bc cc a b k site) 0 fun _ => True) ∧
      (∀ (d : Fin 32) (k : BitVec 16) (site : Site), d ≠ 0 → s.issues [useC d.val] [d.val] → x = s.me.pc + 2 * sx k →
        s.me.rdG d ≠ 1 → asks (.loop d k site) d.val fun t => t.me.rdG d = s.me.rdG d - 1) ∧
      (∀ (d : WReg) (k : Imm), s.issues [] [d.code] → x = s.me.pc + 2 * immS64 k →
        asks (.call d k) d.code fun t => s.wrote t d (s.me.pc + 2)) ∧
      (∀ a : SSrc, s.issues [useS a] [] → x = s.valS a.reg → asks (.jmp a) 0 fun _ => True)) ∧
    (x = (s.me.pc &&& ~~~63) + 64 + 2 → asks .fetch 0 fun _ => True) ∧
    (∀ k : BitVec 16, x = (s.me.pc &&& ~~~63) + 64 * sx k + 2 → asks (.fetchLines k) 0 fun _ => True)

/-- 02 R47, 03 R67, 16 R373: a target with a bit above 55, or a target in the line in the buffer that is no head of it, is an
illegal-target fault of the transferring thread, whose own effect does not happen; a target line outside the lease stops it with
the lease cause (that this ends the task: `Obligations.GlobalFaults`). -/
def Obligations.TransferRefused : Prop :=
  ∀ (s : State) (x : Word),
    let faults := fun (i : Instr) (cause : Nat) =>
      ∃ t, exec i s = .next t ∧ t.me.run = .stopped .fault ∧ fieldNat t.me.frec[0] 0 8 = cause ∧ t.me.frec[1] = s.me.pc ∧
        t.me.frec[2] = x ∧ s.me.keepsRegs t.me 0 ∧ bitAt (t.core (s.coreId s.cur)).kzfp s.cur.unit.val = true
    let transfers := fun (cause : Nat) =>
      (∀ k : Imm, x = s.me.pc + 2 * immS64 k → faults (.br k) cause) ∧
      (∀ (cc : Cond) (a b : SSrc) (k : BitVec 16) (site : Site), s.issues [useS a, useS b] [] → x = s.me.pc + 2 * sx k →
        condTrue cc (s.valS a.reg) (s.valS b.reg) → faults (.bc cc a b k site) cause) ∧
      (∀ (d : Fin 32) (k : BitVec 16) (site : Site), d ≠ 0 → s.issues [useC d.val] [d.val] → x = s.me.pc + 2 * sx k →
        s.me.rdG d ≠ 1 → faults (.loop d k site) cause) ∧
      (∀ (d : WReg) (k : Imm), s.issues [] [d.code] → x = s.me.pc + 2 * immS64 k → faults (.call d k) cause) ∧
      (∀ a : SSrc, s.issues [useS a] [] → x = s.valS a.reg → faults (.jmp a) cause)
    let fetches := fun (cause : Nat) => (x = (s.me.pc &&& ~~~63) + 64 + 2 → faults .fetch cause) ∧
      (∀ k : BitVec 16, x = (s.me.pc &&& ~~~63) + 64 * sx k + 2 → faults (.fetchLines k) cause)
    let unleased := s.leased (s.coreId s.cur) (lineVA x).toNat 64 rX = false
    (2 ^ 56 ≤ x.toNat ∨ (lineVA x = lineVA s.me.pc ∧ ¬ (x.toNat % 2 = 0 ∧ 1 ≤ x.toNat % 64 / 2 ∧
      x.toNat % 64 / 2 ≤ lineNH s.me.line)) → transfers 0x02) ∧
    (2 ^ 56 ≤ x.toNat → fetches 0x02) ∧
    (x.toNat < 2 ^ 56 → unleased → fetches 0x07 ∧ (lineVA x ≠ lineVA s.me.pc → transfers 0x07))

/-- 05 R138, R139: `stop`, `nop` and `yield`. -/
def Obligations.StopNopYield : Prop :=
  ∀ s : State,
    (∃ t, exec .stop s = .next t ∧ s.onlyThreads t ∧ s.onlyMe t [] ∧ t.me.run = .stopped .normal ∧ t.me.pc = s.me.pc + 2 ∧
      s.me.keepsRegs t.me 0 ∧ s.me.keepsRest t.me ∧ t.me.pend = s.me.pend) ∧
    (∃ t, exec .nop s = .next t ∧ s.passes t [] 0) ∧
    (∃ t, exec .yield s = .next t ∧ s.onlyThreads t ∧ s.onlyMe t [] ∧ t.me.run = .running ∧ t.me.pc = s.me.pc + 2 ∧
      t.me.hold = s.inTurns s.cur.quad 2 ∧ s.me.keepsRegs t.me 0 ∧ s.me.keepsRest t.me ∧ t.me.pend = s.me.pend)

/-- 05 R140, 06 R181, 05 R153: a prefetch changes no register and passes on; it is dropped silently where the address has a
bit above 55 or lies outside the lease. -/
def Obligations.Prefetch : Prop :=
  ∀ (s : State) (c : Cid), c = s.coreId s.cur →
    let quiet := fun (i : Instr) => ∃ t, exec i s = .next t ∧ s.me.passed t.me ∧ s.me.keepsRegs t.me 0 ∧ s.lmKept t ∧
      t.me.frec = s.me.frec
    let dropped := fun (i : Instr) (us : List Use) => ∃ t, exec i s = .next t ∧ s.passes t us 0
    (∀ k : BitVec 16, quiet (.pfi (.line k))) ∧
    (∀ (a b : SSrc) (k : BitVec 16) (site : Half), s.issues [useS a] [] →
      quiet (.pfi (.addr a k)) ∧ (∀ l : PfdLevel, quiet (.pfd l a k)) ∧
      (s.issues [useS a, useS b] [] → quiet (.xpf a b site)) ∧
      let x := s.valS a.reg + sx k
      (2 ^ 56 ≤ x.toNat ∨ s.inLease c (x.toNat / 64 * 64) 64 = false →
        dropped (.pfi (.addr a k)) [useS a] ∧ ∀ l : PfdLevel, dropped (.pfd l a k) [useS a]))

/-- 05 R146, R147, R153 to R155, 10 R296: the grain reads. `G` is the slot read under R147: never visited in off mode and beyond the
count, and where its line's domain is dead (log 93); else, where the grain die holds its bytes, those, and the read is a hit on its
way of the L2. `r` is the package after the read. -/
def Obligations.GrainReads : Prop :=
  ∀ (s : State) (site : Half), let c := s.coreId s.cur
    let G := s.grainRead c site
    let r := grainTouch s c site
    let kind := G.toNat / 2 ^ 62
    let hi := G.toNat / 2 ^ 46 % 2 ^ 16
    let lo := G.toNat / 2 ^ 30 % 2 ^ 16
    let after := fun (t : State) => t = { r with thr := t.thr }
    let holds := fun (i : Instr) (us : List Use) (d : WReg) (v : Word) =>
      ∃ t, exec i s = .next t ∧ after t ∧ r.onlyMe t us ∧ t.me.pc = r.me.pc + 2 ∧ t.me.run = .blocked ∧
        t.me.hold = r.inTurns r.cur.quad (s.grainTurns c) ∧ r.me.keepsRegs t.me d.code ∧
        (∀ n : Fin 32, d = .g n → t.me.rdG n = if n = 0 then 0 else v) ∧ (d = .lo → t.me.lo = v)
    (s.launchOf c = none → G = 0 ∧ r = s) ∧
    (∀ l, s.launchOf c = some l →
      let a := (if s.gmodeOf c = 2 then l.gsnap else l.glive) + 8 * site.toNat
      (s.gmodeOf c = 0 ∨ l.gcount ≤ site.toNat → G = 0 ∧ r = s) ∧
      ∀ m : L2Line, s.gmodeOf c ≠ 0 → site.toNat < l.gcount → s.l2Find l.gdie (a / 64) = some m →
        (s.domainDead m.kdom = true → G = 0 ∧ r = s) ∧
        (s.domainDead m.kdom = false → byteMask (a % 64) 8 &&& ~~~m.valid = 0 →
          G = BitVec.ofNat 64 (dataNat m.data (a % 64) 8) ∧ r = { s with l2tree := r.l2tree })) ∧
    (∀ d : WReg, s.issues [] [d.code] →
      (∃ t, exec (.xrd d site) s = .next t ∧ after t ∧ r.defersMe t [] d.code G (s.grainTurns c) .grain) ∧
      ∀ cap : Cap, holds (.xunr d cap site) [] d (BitVec.ofNat 64
        (let ok := fun f => f ≤ cap.val ∧ kind = 3 ∧ f * 16 ≤ hi
         if ok 8 then 8 else if ok 4 then 4 else if ok 2 then 2 else 1))) ∧
    (∀ (d : WReg) (a b : SSrc), s.issues [useS a, useS b] [d.code] →
      let pick := fun (p : Prop) [Decidable p] => if p then s.valS a.reg else s.valS b.reg
      holds (.xsel .bt d a b site) [useS a, useS b] d (pick (kind = 1 ∧ lo < hi)) ∧
      holds (.xsel .bh d a b site) [useS a, useS b] d (pick (kind = 1 ∧ G.toNat / 2 ^ 22 % 2 = 1)) ∧
      holds (.xsel .lm d a b site) [useS a, useS b] d (pick (kind = 2 ∧ hi < lo)) ∧
      holds (.xsel .lt d a b site) [useS a, useS b] d (pick (kind = 3 ∧ 0x100 ≤ hi))) ∧
    (∀ (thr : BitVec 6) (k : BitVec 16), ∃ t b, exec (.xbr thr k site) s = .next t ∧ after t ∧ r.onlyMe t [] ∧
      t.me.xbr = some b ∧ b.due = s.inTurns s.cur.quad (s.grainTurns c - 1) ∧ b.target = s.me.pc + 2 * sx k ∧
      (b.taken = true ↔ kind = 1 ∧ 0 < hi + lo ∧ thr.toNat * (hi + lo) ≤ hi * 16) ∧ t.me.run = .blocked ∧
      t.me.pc = r.me.pc ∧ r.me.keepsRegs t.me 0)

/-- 05 R145, R148 to R151: a posted update, of a branch, a load or a loop, is applied to the live copy once, at the home slice that
holds its line, as one read-modify-write, and no die sees another byte change. Where the slot cannot be read it changes nothing
(log 93). -/
def Obligations.GrainBranchUpdate : Prop :=
  ∀ (s : State) (g : Grain) (l : Launch),
    (s.grains.find? fun (e : Grain) => decide (e.id = g.id)) = some g → tget? s.launches g.launch = some l →
    l.glive % 8 = 0 →
    let a := l.glive + 8 * g.idx.toNat
    let taken : State := { s with grains := s.grains.filter fun (x : Grain) => decide (x.id ≠ g.id) }
    let applies := fun (t : State) => exec (.grainUpdateApplied g.id) s = .next t
    ((grainWord taken l a).1 = none → applies (grainWord taken l a).2) ∧
    ∀ m : L2Line, s.l2Find l.gdie (a / 64) = some m →
      (s.domainDead m.kdom = true → applies taken) ∧
      (s.domainDead m.kdom = false → byteMask (a % 64) 8 &&& ~~~m.valid = 0 →
      ∃ t w w', applies t ∧ t = { s with l2 := t.l2, l2tree := t.l2tree, grains := t.grains } ∧
      (∀ e ∈ t.grains, e.id ≠ g.id) ∧ (∀ e ∈ s.grains, e.id ≠ g.id → e ∈ t.grains) ∧
      (∀ die y, die ≠ l.gdie ∨ y < a ∨ a + 8 ≤ y → t.seen die y 1 = s.seen die y 1) ∧
      s.seen l.gdie a 8 = some (m.pa + a % 64, w) ∧ t.seen l.gdie a 8 = some (m.pa + a % 64, w') ∧
      let fresh := w / 2 ^ 62 ≠ kindCode g.upd
      let old := fun (lo n : Nat) => if fresh then 0 else w / 2 ^ lo % 2 ^ n
      let new := fun (lo n : Nat) => w' / 2 ^ lo % 2 ^ n
      -- one of two counts goes up, both halved first at the limit
      let counts := fun (up other : Nat) =>
        new up 16 = (if old up 16 = 0xFFFF then old up 16 / 2 else old up 16) + 1 ∧
        new other 16 = (if old up 16 = 0xFFFF then old other 16 / 2 else old other 16)
      w' / 2 ^ 62 = kindCode g.upd ∧
      match g.upd with
      | .branch taken => w' % 2 ^ 22 = 0 ∧ new 22 8 = (2 * old 22 8 + (if taken then 1 else 0)) % 256 ∧
          if taken then counts 46 30 else counts 30 46
      | .load hit stride => w' % 2 ^ 14 = 0 ∧ (if hit then counts 46 30 else counts 30 46) ∧
          new 14 16 = (match stride with
            | some x => x.toNat
            | none => old 14 16)
      | .loop trip => w' % 2 ^ 14 = 0 ∧ new 30 16 = max (old 30 16) trip.toNat ∧
          new 14 16 = (if old 14 16 = 0xFFFF then old 14 16 / 2 else old 14 16) + 1 ∧
          let x := min (trip.toNat * 16) 0xFFFF
          new 46 16 = if fresh then x else (7 * old 46 16 + x + 4) / 8)

/-! ### The vector unit (06 R188 to R199) -/

/-- 06 R190: bitwise and shift operations, lane by lane; a count's bits above 4 are ignored in the register form. -/
def Obligations.VectorBitwise : Prop :=
  ∀ (s : State) (d : VReg) (a b : VSrc),
    let A := s.me.v[a.reg]
    let B := s.me.v[b.reg]
    let gives := fun (i : Instr) (us : List Use) (f : Fin 16 → Lane) =>
      ∃ t, exec i s = .next t ∧ s.vpasses t us (vCode d) 0 ∧ t.me.v[d] = Vector.ofFn f ∧ t.me.isFull (vCode d) = true
    (s.issues [useV a, useV b] [vCode d] → s.unbound [d, a.reg, b.reg] →
      let us := [useV a, useV b]
      gives (.vand d a b) us (fun i => A[i] &&& B[i]) ∧ gives (.vor d a b) us (fun i => A[i] ||| B[i]) ∧
      gives (.vxor d a b) us (fun i => A[i] ^^^ B[i]) ∧
      gives (.vshl d a (.reg b)) us (fun i => BitVec.ofNat 32 ((A[i]).toNat * 2 ^ ((B[i]).toNat % 32))) ∧
      gives (.vshr false d a (.reg b)) us (fun i => BitVec.ofNat 32 ((A[i]).toNat / 2 ^ ((B[i]).toNat % 32))) ∧
      gives (.vshr true d a (.reg b)) us (fun i => BitVec.ofInt 32 ((A[i]).toInt / 2 ^ ((B[i]).toNat % 32)))) ∧
    (s.issues [useV a] [vCode d] → s.unbound [d, a.reg] → ∀ k : BitVec 5,
      gives (.vshl d a (.imm k)) [useV a] (fun i => BitVec.ofNat 32 ((A[i]).toNat * 2 ^ k.toNat)) ∧
      gives (.vshr false d a (.imm k)) [useV a] (fun i => BitVec.ofNat 32 ((A[i]).toNat / 2 ^ k.toNat)) ∧
      gives (.vshr true d a (.imm k)) [useV a] (fun i => BitVec.ofInt 32 ((A[i]).toInt / 2 ^ k.toNat)))

/-- 06 R189, 04 R88: i32 lanes wrap modulo 2^32 and compare as signed numbers; no flag is raised. -/
def Obligations.VectorInteger : Prop :=
  ∀ (s : State) (d : VReg) (a b : VSrc) (g : SSrc),
    let A := s.me.v[a.reg]
    let B := s.me.v[b.reg]
    let D := s.me.v[d]
    let gives := fun (i : Instr) (us : List Use) (f : Fin 16 → Lane) =>
      ∃ t, exec i s = .next t ∧ s.vpasses t us (vCode d) 0 ∧ t.me.v[d] = Vector.ofFn f ∧ t.me.isFull (vCode d) = true
    (s.issues [useV a, useV b] [vCode d] → s.unbound [d, a.reg, b.reg] →
      let us := [useV a, useV b]
      gives (.vadd .i32 d a b) us (fun i => BitVec.ofInt 32 ((A[i]).toInt + (B[i]).toInt)) ∧
      gives (.vsub .i32 d a b) us (fun i => BitVec.ofInt 32 ((A[i]).toInt - (B[i]).toInt)) ∧
      gives (.vmul .i32 d a b) us (fun i => BitVec.ofInt 32 ((A[i]).toInt * (B[i]).toInt)) ∧
      gives (.vmin .i32 d a b) us (fun i => if (A[i]).toInt ≤ (B[i]).toInt then A[i] else B[i]) ∧
      gives (.vmax .i32 d a b) us (fun i => if (A[i]).toInt ≤ (B[i]).toInt then B[i] else A[i])) ∧
    (s.issues [useV a, useV b, useC (vCode d)] [vCode d] → s.unbound [d, a.reg, b.reg] →
      gives (.vfma .i32 d a b) [useV a, useV b] (fun i => BitVec.ofInt 32 ((D[i]).toInt + (A[i]).toInt * (B[i]).toInt))) ∧
    (s.issues [useV a] [vCode d] → s.unbound [d, a.reg] →
      gives (.vabs .i32 d a) [useV a] (fun i => BitVec.ofInt 32 |(A[i]).toInt|) ∧
      gives (.vneg .i32 d a) [useV a] (fun i => BitVec.ofInt 32 (-(A[i]).toInt))) ∧
    (s.issues [useV a, useS g] [vCode d] → s.unbound [d, a.reg] →
      gives (.vscl .i32 d a g) [useV a, useS g]
        (fun i => BitVec.ofInt 32 ((A[i]).toInt * ((s.valS g.reg).setWidth 32).toInt)))

/-- 04 R87 to R92, 06 R189, R192, R197: a float operation acts lane by lane in the slot's rounding mode, on both elements of a
packed lane, and ORs the flags of every element into `fpctl`; a mode it does not use does not matter. A packed result of an f32 or
i32 source has element 0 from A and element 1 from B; an f32 or i32 result of a packed source takes element 0. With a NaN operand an
f32 sum, difference or product is the canonical NaN 0x7FC00000, and raises NV exactly where an operand is signalling. -/
def Obligations.VectorFloat : Prop :=
  (∀ (rm : RMode) (x y : Nat),
    let isNaN := fun (z : Nat) => z / 2 ^ 23 % 256 = 255 ∧ z % 2 ^ 23 ≠ 0
    let signals := fun (z : Nat) => isNaN z ∧ z / 2 ^ 22 % 2 = 0
    isNaN x ∨ isNaN y →
      ∀ r ∈ [fmt32.add rm x y, fmt32.sub rm x y, fmt32.mul rm x y],
        r.1 = 0x7FC00000 ∧ r.2 = if signals x ∨ signals y then 16 else 0) ∧
  ∀ (s : State) (d : VReg) (a b : VSrc) (g : SSrc),
    let A := s.me.v[a.reg]
    let B := s.me.v[b.reg]
    let D := s.me.v[d]
    let rm := RMode.ofField (s.me.fp.toNat / 256 % 4)
    let gives := fun (i : Instr) (us : List Use) (f : Fin 16 → Lane × Flags) =>
      ∃ t, exec i s = .next t ∧ s.vpasses t us (vCode d) ((List.finRange 16).foldl (fun acc i => acc ||| (f i).2) 0) ∧
        t.me.v[d] = Vector.ofFn (fun i => (f i).1) ∧ t.me.isFull (vCode d) = true
    let one := fun (f : Nat → Nat → Nat × Flags) (x y : Lane) =>
      ((BitVec.ofNat 32 (f x.toNat y.toNat).1, (f x.toNat y.toNat).2) : Lane × Flags)
    let two := fun (f : Nat → Nat → Nat × Flags) (x y : Lane) =>
      let l := f (x.toNat % 65536) (y.toNat % 65536)
      let h := f (x.toNat / 65536) (y.toNat / 65536)
      ((BitVec.ofNat 32 (h.1 % 65536 * 65536 + l.1 % 65536), l.2 ||| h.2) : Lane × Flags)
    let packed := [(VTy.bf16x2, fmtBf), (VTy.f16x2, fmt16)]
    (s.issues [useV a, useV b] [vCode d] → s.unbound [d, a.reg, b.reg] →
      let us := [useV a, useV b]
      let each := fun (i : VTy → Instr) (f : Fmt → Nat → Nat → Nat × Flags) =>
        gives (i .f32) us (fun j => one (f fmt32) A[j] B[j]) ∧ gives (i .bf16x2) us (fun j => two (f fmtBf) A[j] B[j]) ∧
        gives (i .f16x2) us (fun j => two (f fmt16) A[j] B[j])
      each (fun ty => .vadd ty d a b) (fun f => f.add rm) ∧ each (fun ty => .vsub ty d a b) (fun f => f.sub rm) ∧
      each (fun ty => .vmul ty d a b) (fun f => f.mul rm) ∧
      each (fun ty => .vmin ty d a b) (fun f => f.minMax false) ∧
      each (fun ty => .vmax ty d a b) (fun f => f.minMax true)) ∧
    (s.issues [useV a, useV b, useC (vCode d)] [vCode d] → s.unbound [d, a.reg, b.reg] →
      gives (.vfma .f32 d a b) [useV a, useV b] (fun j => one (fmt32.fma rm (D[j]).toNat) A[j] B[j]) ∧
      (∀ x ∈ packed, gives (.vfma x.1 d a b) [useV a, useV b] (fun j =>
        let l := x.2.fma rm ((D[j]).toNat % 65536) ((A[j]).toNat % 65536) ((B[j]).toNat % 65536)
        let h := x.2.fma rm ((D[j]).toNat / 65536) ((A[j]).toNat / 65536) ((B[j]).toNat / 65536)
        (BitVec.ofNat 32 (h.1 % 65536 * 65536 + l.1 % 65536), l.2 ||| h.2))) ∧
      ∀ f16 : Bool, gives (.vdot f16 d a b) [useV a, useV b] (fun j =>
        let f := if f16 then fmt16 else fmtBf
        let r := fmt32.fused rm [(f.dec ((A[j]).toNat % 65536), f.dec ((B[j]).toNat % 65536)),
          (f.dec ((A[j]).toNat / 65536), f.dec ((B[j]).toNat / 65536))] [fmt32.dec (D[j]).toNat]
        (BitVec.ofNat 32 r.1, r.2))) ∧
    (s.issues [useV a] [vCode d] → s.unbound [d, a.reg] →
      gives (.vabs .f32 d a) [useV a] (fun j => (BitVec.ofNat 32 ((A[j]).toNat % 2 ^ 31), 0)) ∧
      gives (.vneg .f32 d a) [useV a] (fun j => (A[j] ^^^ 0x80000000, 0)) ∧
      gives (.vcvt .f32 .i32 d a none) [useV a] (fun j =>
        let r := fmt32.ofI32 rm A[j]
        (BitVec.ofNat 32 r.1, r.2)) ∧
      gives (.vcvt .i32 .f32 d a none) [useV a] (fun j => fmt32.toI32 rm (A[j]).toNat) ∧
      (∀ x ∈ packed,
        gives (.vabs x.1 d a) [useV a] (fun j => (A[j] &&& 0x7FFF7FFF, 0)) ∧
        gives (.vneg x.1 d a) [useV a] (fun j => (A[j] ^^^ 0x80008000, 0)) ∧
        gives (.vcvt .f32 x.1 d a none) [useV a] (fun j =>
          let r := fmt32.cvt x.2 rm ((A[j]).toNat % 65536)
          (BitVec.ofNat 32 r.1, r.2)) ∧
        gives (.vcvt .i32 x.1 d a none) [useV a] (fun j => x.2.toI32 rm ((A[j]).toNat % 65536)) ∧
        ∀ y ∈ packed, x.1 ≠ y.1 →
          gives (.vcvt y.1 x.1 d a none) [useV a] (fun j => two (fun v _ => y.2.cvt x.2 rm v) A[j] A[j]))) ∧
    (s.issues [useV a, useV b] [vCode d] → s.unbound [d, a.reg, b.reg] → ∀ x ∈ packed,
      let both := fun (f : Nat → Nat × Flags) (j : Fin 16) =>
        let l := f (A[j]).toNat
        let h := f (B[j]).toNat
        ((BitVec.ofNat 32 (h.1 % 65536 * 65536 + l.1 % 65536), l.2 ||| h.2) : Lane × Flags)
      gives (.vcvt x.1 .f32 d a (some b)) [useV a, useV b] (both fun v => x.2.cvt fmt32 rm v) ∧
      gives (.vcvt x.1 .i32 d a (some b)) [useV a, useV b] (both fun v => x.2.ofI32 rm (BitVec.ofNat 32 v))) ∧
    (s.issues [useV a, useS g] [vCode d] → s.unbound [d, a.reg] →
      let G : Lane := BitVec.ofNat 32 (s.valS g.reg).toNat
      gives (.vscl .f32 d a g) [useV a, useS g] (fun j => one (fmt32.mul rm) A[j] G) ∧
      ∀ x ∈ packed, gives (.vscl x.1 d a g) [useV a, useS g] (fun j => two (x.2.mul rm) A[j] G))

/-- 06 R191: the special functions leave D empty until turn t + 2, when the lanes land with the flags of all of them. What the lanes
are within the bounds of 04 R119 is free (log 20, DESIGN CHOICE), and is not stated here. -/
def Obligations.SpecialFunctions : Prop :=
  ∀ (s : State) (d : VReg) (a : VSrc), s.issues [useV a] [vCode d] → s.unbound [d, a.reg] →
    let gives := fun (i : Instr) (f : Lane → Lane × Flags) =>
      ∃ t p, exec i s = .next t ∧ t = { s with thr := t.thr, quads := t.quads } ∧ s.onlyMe t [useV a] ∧
        s.groupUsed t ∧ s.me.passed t.me ∧ s.me.keepsRegs t.me (vCode d) ∧ t.me.isFull (vCode d) = false ∧
        t.me.pend = s.me.pend ++ [p] ∧ p.reg.toNat = vCode d ∧ p.due = some (s.inTurns s.cur.quad 2) ∧
        p.val = .v (Vector.ofFn fun i => (f s.me.v[a.reg][i]).1) ∧ p.fail = none ∧ p.kind = .calc ∧
        p.flags = ((List.finRange 16).foldl (fun acc i => acc ||| (f s.me.v[a.reg][i]).2) 0) ∧ t.me.fp = s.me.fp
    gives (.vrcp d a) sfuRcp ∧ gives (.vrsq d a) sfuRsq ∧ gives (.vex2 d a) sfuEx2 ∧ gives (.vlg2 d a) sfuLg2

/-- 06 R193, R195, 04 R116: a compare writes one bit a lane to a p register, of a packed lane whether both elements compare so; a
reduction adds or compares along the fixed tree, each element position of a packed type by itself. A float compare with a NaN is
false, but for `ne`, and raises NV for a signalling one, or for any where it orders. -/
def Obligations.VectorCompareReduce : Prop :=
  ∀ (s : State) (a b : VSrc),
    let A := s.me.v[a.reg]
    let B := s.me.v[b.reg]
    (∀ p : PReg, p ≠ 0 → s.issues [useV a, useV b] [pCode p] → s.unbound [a.reg, b.reg] →
      let gives := fun (i : Instr) (f : Fin 16 → Bool) =>
        ∃ t, exec i s = .next t ∧ s.vpasses t [useV a, useV b] (pCode p) 0 ∧ t.me.isFull (pCode p) = true ∧
          ∀ i : Fin 16, bitAt (t.me.rdP p) i.val = f i
      gives (.vcmp .eq .i32 p a b) (fun i => A[i] == B[i]) ∧ gives (.vcmp .ne .i32 p a b) (fun i => A[i] != B[i]) ∧
      gives (.vcmp .lt .i32 p a b) (fun i => decide ((A[i]).toInt < (B[i]).toInt)) ∧
      gives (.vcmp .le .i32 p a b) (fun i => decide ((A[i]).toInt ≤ (B[i]).toInt)) ∧
      gives (.vcmp .gt .i32 p a b) (fun i => decide ((B[i]).toInt < (A[i]).toInt)) ∧
      gives (.vcmp .ge .i32 p a b) (fun i => decide ((B[i]).toInt ≤ (A[i]).toInt)) ∧
      -- one comparison of numbers with `m` bits of fraction and `e` of exponent: whether it holds, whether it is invalid
      let sees := fun (F : Fmt) (m e : Nat) (op : VCmpOp) (v w : Nat) =>
        let isNaN := fun (z : Nat) => z / 2 ^ m % 2 ^ e == 2 ^ e - 1 && z % 2 ^ m != 0
        let signals := fun (z : Nat) => isNaN z && z / 2 ^ (m - 1) % 2 == 0
        let orders := op = .lt ∨ op = .le ∨ op = .gt ∨ op = .ge
        let x := F.dec v
        let y := F.dec w
        (if isNaN v || isNaN w then decide (op = .ne) else
          match op with
          | .eq => x.eqNum y
          | .ne => !x.eqNum y
          | .lt => x.ltNum y
          | .le => x.ltNum y || x.eqNum y
          | .gt => y.ltNum x
          | .ge => y.ltNum x || x.eqNum y
          | .ordered => true
          | .unordered => false, signals v || signals w || decide orders && (isNaN v || isNaN w))
      let compares := fun (op : VCmpOp) (ty : VTy) (f : Lane → Lane → Bool × Bool) =>
        let invalid := (List.finRange 16).any fun i => (f A[i] B[i]).2
        ∃ t, exec (.vcmp op ty p a b) s = .next t ∧ s.vpasses t [useV a, useV b] (pCode p) (if invalid then 16 else 0) ∧
          t.me.isFull (pCode p) = true ∧ ∀ i : Fin 16, bitAt (t.me.rdP p) i.val = (f A[i] B[i]).1
      let both := fun (f : Nat → Nat → Bool × Bool) (x y : Lane) =>
        let l := f (x.toNat % 65536) (y.toNat % 65536)
        let h := f (x.toNat / 65536) (y.toNat / 65536)
        (l.1 && h.1, l.2 || h.2)
      ∀ op : VCmpOp, compares op .f32 (fun x y => sees fmt32 23 8 op x.toNat y.toNat) ∧
        compares op .bf16x2 (both (sees fmtBf 7 8 op)) ∧ compares op .f16x2 (both (sees fmt16 10 5 op))) ∧
    (∀ d : WReg, s.issues [useV a] [d.code] → s.unbound [a.reg] →
      let gives := fun (i : Instr) (v : Word) => ∃ t, exec i s = .next t ∧ s.vpasses t [useV a] d.code 0 ∧ s.wrote t d v
      gives (.vred .sum .i32 d a) (sx (BitVec.ofInt 32 ((List.finRange 16).foldl (fun acc i => acc + (A[i]).toInt) 0))) ∧
      gives (.vred .max .i32 d a) (BitVec.ofInt 64 ((List.finRange 16).foldl (fun acc i => max acc (A[i]).toInt) (-2 ^ 31))) ∧
      gives (.vred .min .i32 d a) (BitVec.ofInt 64 ((List.finRange 16).foldl (fun acc i => min acc (A[i]).toInt) (2 ^ 31 - 1))) ∧
      gives (.vred .amax .i32 d a) (BitVec.ofNat 64 ((List.finRange 16).foldl (fun acc i => max acc (A[i]).toInt.natAbs) 0)) ∧
      let rm := RMode.ofField (s.me.fp.toNat / 256 % 4)
      let tree := fun (e : Lane → Nat) (f : Nat → Nat → Nat × Flags) =>
        let two := fun (x y : Nat × Flags) => ((f x.1 y.1).1, x.2 ||| y.2 ||| (f x.1 y.1).2)
        let l := fun (i : Nat) => ((e (A.toList.getD i 0), 0) : Nat × Flags)
        let p := fun i => two (l (2 * i)) (l (2 * i + 1))
        let q := fun i => two (p (2 * i)) (p (2 * i + 1))
        let u := fun i => two (q (2 * i)) (q (2 * i + 1))
        two (u 0) (u 1)
      -- the reduction of one element position; `half` is the sign's weight
      let reduced := fun (op : RedOp) (F : Fmt) (half : Nat) (e : Lane → Nat) =>
        match op with
        | .sum => tree e (F.add rm)
        | .max => tree e (F.minMax true)
        | .min => tree e (F.minMax false)
        | .amax => tree (fun z => e z % half) (F.minMax true)
      let reduces := fun (op : RedOp) (ty : VTy) (v : Nat) (fl : Flags) => ∃ t, exec (.vred op ty d a) s = .next t ∧
        s.vpasses t [useV a] d.code fl ∧ s.wrote t d (BitVec.ofNat 64 v)
      ∀ op : RedOp,
        (let r := reduced op fmt32 (2 ^ 31) BitVec.toNat
         reduces op .f32 r.1 r.2) ∧
        ∀ x ∈ [(VTy.bf16x2, fmtBf), (VTy.f16x2, fmt16)],
          let l := reduced op x.2 (2 ^ 15) fun z => z.toNat % 65536
          let h := reduced op x.2 (2 ^ 15) fun z => z.toNat / 65536
          reduces op x.1 (h.1 % 65536 * 65536 + l.1 % 65536) (l.2 ||| h.2)) ∧
    (∀ (op : VCmpOp) (ty : VTy), exec (.vcmp op ty 0 a b) s = .next (illegalMe s)) ∧
    ∀ (op : VCmpOp) (p : PReg), op = .ordered ∨ op = .unordered → exec (.vcmp op .i32 p a b) s = .next (illegalMe s)

/-- 06 R194, R196, 05 R128: selects, moves and lane movers. -/
def Obligations.VectorMovers : Prop :=
  ∀ (s : State) (d : VReg) (a b : VSrc) (g : SSrc),
    let A := s.me.v[a.reg]
    let B := s.me.v[b.reg]
    let gives := fun (i : Instr) (us : List Use) (f : Fin 16 → Lane) =>
      ∃ t, exec i s = .next t ∧ s.vpasses t us (vCode d) 0 ∧ t.me.v[d] = Vector.ofFn f ∧ t.me.isFull (vCode d) = true
    (s.issues [useV a] [vCode d] → s.unbound [d, a.reg] → gives (.mov (.vv d a)) [useV a] (fun i => A[i])) ∧
    (s.issues [useV a, useV b] [vCode d] → s.unbound [d, a.reg, b.reg] →
      gives (.vperm d a b) [useV a, useV b] (fun i => A[(B[i]).toNat % 16]'(Nat.mod_lt _ (by decide)))) ∧
    (∀ p : PReg, s.issues [useV a, useV b, useC (pCode p)] [vCode d] → s.unbound [d, a.reg, b.reg] →
      gives (.vsel d a b p) [useV a, useV b] (fun i => if p = 0 ∨ bitAt s.me.p[p] i.val then A[i] else B[i])) ∧
    (s.issues [useS g] [vCode d] → s.unbound [d] →
      gives (.vbc d g) [useS g] (fun _ => BitVec.ofNat 32 (s.valS g.reg).toNat)) ∧
    (∀ l : BitVec 4, s.issues [useS g, useC (vCode d)] [vCode d] → s.unbound [d] →
      gives (.vput d g l) [useS g] (fun i => if i.val = l.toNat then BitVec.ofNat 32 (s.valS g.reg).toNat else s.me.v[d][i])) ∧
    (s.issues [] [vCode d] → s.unbound [d] →
      gives (.viota d) [] (fun i => BitVec.ofNat 32 i.val) ∧
      ∀ k : BitVec 16, gives (.viotaStart d k) [] (fun i => k.signExtend 32 + BitVec.ofNat 32 i.val)) ∧
    (∀ (w : WReg) (l : BitVec 4), s.issues [useV a] [w.code] → s.unbound [a.reg] →
      ∃ t, exec (.vget w a l) s = .next t ∧ s.vpasses t [useV a] w.code 0 ∧ s.wrote t w (zx A[l.toFin]))

/-- 06 R198, 04 R88: an FP64 operation acts on the eight lane pairs. -/
def Obligations.VectorDouble : Prop :=
  ∀ (s : State) (d : VReg) (a b : VSrc),
    let pair := fun (r : VReg) (k : Fin 8) =>
      (s.me.v[r][(⟨2 * k.val, by omega⟩ : Fin 16)]).toNat + (s.me.v[r][(⟨2 * k.val + 1, by omega⟩ : Fin 16)]).toNat * 2 ^ 32
    let rm := RMode.ofField (s.me.fp.toNat / 256 % 4)
    let gives := fun (i : Instr) (us : List Use) (f : Fin 8 → Nat × Flags) =>
      ∃ t, exec i s = .next t ∧ s.vpasses t us (vCode d) ((List.finRange 8).foldl (fun acc k => acc ||| (f k).2) 0) ∧
        ∀ k : Fin 8, t.me.v[d][(⟨2 * k.val, by omega⟩ : Fin 16)] = BitVec.ofNat 32 (f k).1 ∧
          t.me.v[d][(⟨2 * k.val + 1, by omega⟩ : Fin 16)] = BitVec.ofNat 32 ((f k).1 / 2 ^ 32)
    (s.issues [useV a, useV b] [vCode d] → s.unbound [d, a.reg, b.reg] →
      gives (.vfd .add d a (some b)) [useV a, useV b] (fun k => fmt64.add rm (pair a.reg k) (pair b.reg k)) ∧
      gives (.vfd .sub d a (some b)) [useV a, useV b] (fun k => fmt64.sub rm (pair a.reg k) (pair b.reg k)) ∧
      gives (.vfd .mul d a (some b)) [useV a, useV b] (fun k => fmt64.mul rm (pair a.reg k) (pair b.reg k)) ∧
      gives (.vfd .min d a (some b)) [useV a, useV b] (fun k => fmt64.minMax false (pair a.reg k) (pair b.reg k)) ∧
      gives (.vfd .max d a (some b)) [useV a, useV b] (fun k => fmt64.minMax true (pair a.reg k) (pair b.reg k))) ∧
    (s.issues [useV a, useV b, useC (vCode d)] [vCode d] → s.unbound [d, a.reg, b.reg] →
      gives (.vfd .fma d a (some b)) [useV a, useV b, useC (vCode d)]
        (fun k => fmt64.fma rm (pair d k) (pair a.reg k) (pair b.reg k))) ∧
    (s.issues [useV a] [vCode d] → s.unbound [d, a.reg] →
      gives (.vfd .cvtds d a none) [useV a] (fun k => fmt64.cvt fmt32 rm (s.me.v[a.reg][(⟨k.val, by omega⟩ : Fin 16)]).toNat) ∧
      let f := fun (k : Fin 8) => fmt32.cvt fmt64 rm (pair a.reg k)
      ∃ t, exec (.vfd .cvtsd d a none) s = .next t ∧
        s.vpasses t [useV a] (vCode d) ((List.finRange 8).foldl (fun acc k => acc ||| (f k).2) 0) ∧
        ∀ k : Fin 8, t.me.v[d][(⟨k.val, by omega⟩ : Fin 16)] = BitVec.ofNat 32 (f k).1 ∧
          t.me.v[d][(⟨8 + k.val, by omega⟩ : Fin 16)] = 0)

/-! ### Local memory and streams (06 R171 to R187) -/

/-- 04 R95, 06 R171, R172: a scalar `lld` reads one element in its bank's format; nothing is stored. It waits for a strip of its own
slot that is still on its way there (the model's reading, log 119). -/
def Obligations.LocalLoad : Prop :=
  ∀ (s : State) (d : WReg) (a : SSrc) (k : BitVec 16), s.issuesMem [useS a] [d.code] →
    let la := (s.valS a.reg + sx k).toNat
    let q := s.cur.quad
    let fmt := (s.bfmt q (la / 0x20000 % 16)).toNat % 16
    let gives := fun (w : Nat) (v : Nat → Word) => la % w = 0 → s.inWin s.cur la w = true → s.lmBad q la w = false →
      (s.lmComing la w = false →
        ∃ t, exec (.lld (.s d) a k) s = .next t ∧ s.passes t [useS a] d.code ∧ s.wrote t d (v (s.lmSeeN q la w))) ∧
      (s.lmComing la w = true → exec (.lld (.s d) a k) s = .next s.blockMe)
    (fmt = 0 ∨ fmt = 1 → gives 4 fun x => BitVec.ofNat 64 x) ∧
    (fmt = 2 ∨ fmt = 3 → gives 2 fun x => BitVec.ofNat 64 (elemDec fmt x)) ∧
    (fmt = 4 ∨ fmt = 5 → gives 1 fun x => BitVec.ofNat 64 (elemDec fmt x)) ∧
    (fmt = 8 → gives 8 fun x => BitVec.ofNat 64 x) ∧
    (fmt = 9 → gives 4 fun x => BitVec.ofInt 64 (Int.bmod x (2 ^ 32)))

/-- 04 R95, R97, 06 R172, 18 R411: a scalar `lst` writes one element in its bank's format, also over a poisoned word, which is sound
again when the element covers it; every other byte of local memory stays. It waits for a strip of its own slot that is still on its
way there (the model's reading, log 119). -/
def Obligations.LocalStore : Prop :=
  ∀ (s : State) (d : SReg) (a : SSrc) (k : BitVec 16), s.issuesMem [useS a, useC d.code] [] → s.lm.wf = true →
    let la := (s.valS a.reg + sx k).toNat
    let q := s.cur.quad
    let r := s.bfmt q (la / 0x20000 % 16)
    let fmt := r.toNat % 16
    let D := (s.valS d).toNat
    let stores := fun (w v : Nat) (fl : Flags) => la % w = 0 → s.inWin s.cur la w = true →
      (s.lmComing la w = false → ∃ t, exec (.lst (.s d) a k) s = .next t ∧
        t = { s with thr := t.thr, lm := t.lm, lmWas := t.lmWas, lmPoison := t.lmPoison, agenda := t.agenda } ∧
        s.onlyMe t [useS a, useC d.code] ∧ s.flagged t fl ∧ s.me.passed t.me ∧ s.me.keepsRegs t.me 0 ∧
        s.me.keepsTables t.me ∧ Mem.readN t.lm (q * 0x200000 + la) w = v ∧
        (∀ x, x < q * 0x200000 + la ∨ q * 0x200000 + la + w ≤ x → Mem.read t.lm x = Mem.read s.lm x) ∧
        ∀ y, t.lmBad q y 1 = (s.lmBad q y 1 && !(decide (w = 8) && decide (la ≤ y) && decide (y < la + 8)))) ∧
      (s.lmComing la w = true → exec (.lst (.s d) a k) s = .next s.blockMe)
    let enc := elemEnc fmt (bitAt r 4) (bitAt r 5) (D % 2 ^ 32)
    (fmt = 0 ∨ fmt = 1 ∨ fmt = 9 → stores 4 (D % 2 ^ 32) 0) ∧ (fmt = 8 → stores 8 D 0) ∧
    (fmt = 2 ∨ fmt = 3 → stores 2 (enc.1 % 2 ^ 16) enc.2) ∧ (fmt = 4 ∨ fmt = 5 → stores 1 (enc.1 % 2 ^ 8) enc.2)

/-- 06 R162, R164, 07 R232: a scalar local access, a load or a store, faults on a misaligned element, then outside the windows, then
in a bank whose format has no scalar view; a load of a poisoned word faults last (log 35). Nothing is loaded or stored. -/
def Obligations.LocalFaults : Prop :=
  ∀ (s : State) (d : WReg) (e : SReg) (a : SSrc) (k : BitVec 16),
    let la := (s.valS a.reg + sx k).toNat
    let bank := la / 0x20000 % 16
    let fmt := (s.bfmt s.cur.quad bank).toNat % 16
    let faults := fun (i : Instr) (cause detail : Nat) =>
      ∃ t, exec i s = .next t ∧ t.me.run = .stopped .fault ∧ t.lm = s.lm ∧ t.mem = s.mem ∧ s.me.keepsRegs t.me 0 ∧
        fieldNat t.me.frec[0] 0 16 = detail * 256 + cause ∧ t.me.frec[1] = s.me.pc ∧ t.me.frec[2] = BitVec.ofNat 64 la ∧
        fieldNat t.me.frec[3] 0 32 = 0
    let loads := fun (cause detail : Nat) => s.issuesMem [useS a] [d.code] → faults (.lld (.s d) a k) cause detail
    let both := fun (cause detail : Nat) => loads cause detail ∧
      (s.issuesMem [useS a, useC e.code] [] → faults (.lst (.s e) a k) cause detail)
    let element := fun (w : Nat) => (la % w ≠ 0 → both 0x06 w) ∧
      (la % w = 0 → s.inWin s.cur la w = false → both 0x08 bank) ∧
      (la % w = 0 → s.inWin s.cur la w = true → s.lmBad s.cur.quad la w = true → loads 0x0A 0)
    (fmt = 8 → element 8) ∧ (fmt ≤ 1 ∨ fmt = 9 → element 4) ∧ (fmt = 2 ∨ fmt = 3 → element 2) ∧
    (fmt = 4 ∨ fmt = 5 → element 1) ∧
    (fmt = 6 ∨ fmt = 7 → (s.inWin s.cur la 1 = false → both 0x08 bank) ∧ (s.inWin s.cur la 1 = true → both 0x09 fmt))

/-- 06 R171, R172, 04 R95, R97, R105 to R110, 02 R45: a strip is sixteen elements of its bank, or eight of an FP64 one, two lanes each;
one that spans two rows leaves its lane group one cycle of work, which is done in the next. A strip of an FP4 bank is decoded with the
scales of its blocks, and a store re-encodes each block that it meets (log 121). An indexed access (R176 to R178) reaches one element
a lane, at base + index × scale, in ascending order; a store changes no other byte. Each waits for a strip of its own slot that is
still on its way there (the model's reading, log 119). -/
def Obligations.LocalStrip : Prop :=
  (∀ (s : State) (d : VReg) (a : SSrc) (k : BitVec 16), s.unbound [d] → s.lm.wf = true →
    let la := (s.valS a.reg + sx k).toNat
    let q := s.cur.quad
    let base := q * 0x200000 + la
    let r := s.bfmt q (la / 0x20000 % 16)
    let fmt := r.toNat % 16
    let w := if fmt = 2 ∨ fmt = 3 then 2 else if fmt = 4 ∨ fmt = 5 then 1 else 4
    let small := 2 ≤ fmt ∧ fmt ≤ 5
    let unit := if fmt = 8 then 8 else w
    let at_ := fun (i : Nat) => la + w * i / unit * unit
    fmt < 10 → fmt ≠ 6 → fmt ≠ 7 → la % unit = 0 → la % 0x20000 + 16 * w ≤ 0x20000 →
    (∀ i, i < 16 → s.inWin s.cur (at_ i) unit = true) →
    let goesOn := fun (t : State) (fl : Flags) => t.me.pc = s.me.pc + 2 ∧ s.groupUsed t ∧ s.me.keepsTables t.me ∧ s.flagged t fl ∧
      (la / 256 = (la + 16 * w - 1) / 256 → s.me.passed t.me) ∧ (la / 256 ≠ (la + 16 * w - 1) / 256 → t.me.lanes = 1)
    (s.issuesMem [useS a] [vCode d] → (∀ i, i < 16 → s.lmBad q (at_ i) unit = false) →
      (s.stripComing la 0xFFFF false = true → exec (.lld (.v d) a k) s = .next s.blockMe) ∧
      (s.stripComing la 0xFFFF false = false →
        ∃ t, exec (.lld (.v d) a k) s = .next t ∧ t = { s with thr := t.thr, quads := t.quads } ∧ goesOn t 0 ∧
          s.me.keepsRegs t.me (vCode d) ∧ ∀ i : Fin 16,
            let x := s.lmSeeN q (la + w * i.val) w
            t.me.v[d][i] = BitVec.ofNat 32 (if small then elemDec fmt x else x))) ∧
    (s.issuesMem [useS a, useC (vCode d)] [] →
      (s.stripComing la 0xFFFF true = true → exec (.lst (.v d) a k) s = .next s.blockMe) ∧
      (s.stripComing la 0xFFFF true = false →
        let enc := fun (i : Fin 16) => if small then elemEnc fmt (bitAt r 4) (bitAt r 5) (s.me.v[d][i]).toNat
          else ((s.me.v[d][i]).toNat, 0)
        ∃ t, exec (.lst (.v d) a k) s = .next t ∧
          t = { s with thr := t.thr, quads := t.quads, lm := t.lm, lmWas := t.lmWas, lmPoison := t.lmPoison, agenda := t.agenda } ∧
          goesOn t ((List.finRange 16).foldl (fun acc i => acc ||| (enc i).2) 0) ∧ s.me.keepsRegs t.me 0 ∧
          (∀ i : Fin 16, Mem.readN t.lm (base + w * i.val) w = (enc i).1 % 2 ^ (8 * w)) ∧
          ∀ x, x < base ∨ base + 16 * w ≤ x → Mem.read t.lm x = Mem.read s.lm x))) ∧
  (∀ (s : State) (d : VReg) (a : SSrc) (k : BitVec 16), s.unbound [d] → s.lm.wf = true →
    let la := (s.valS a.reg + sx k).toNat
    let q := s.cur.quad
    let r := s.bfmt q (la / 0x20000 % 16)
    let fine := r.toNat % 16 = 6
    let p := fp4Pos r la
    let n := if fine then 8 else 32
    let band := s.lmSeeN q (bandWord r la) 2
    let scaleAt := fun (b : Nat) => p.1 + bfRow r / 2 + b
    -- element `e` of the row as a lane, with its flags
    let value := fun (e : Nat) =>
      let x := s.lmSeeN q (p.1 + e / 2) 1
      let code := if e % 2 = 1 then x / 16 else x % 16
      let scale := s.lmSeeN q (scaleAt (e / n)) 1
      fp4Lane (if fine then fineVal code scale band else mxVal code scale)
    (r.toNat % 16 = 6 ∨ r.toNat % 16 = 7) → bfRefused r = false →
    (s.issuesMem [useS a] [vCode d] → s.stripCheck la 16 0xFFFF false = none → s.stripComing la 0xFFFF false = false →
      ∃ t, exec (.lld (.v d) a k) s = .next t ∧ t = { s with thr := t.thr, quads := t.quads, agenda := t.agenda } ∧ s.groupUsed t ∧
        s.flagged t ((List.finRange 16).foldl (fun acc i => acc ||| (value (2 * p.2 + i.val)).2) 0) ∧
        s.me.keepsRegs t.me (vCode d) ∧ ∀ i : Fin 16, t.me.v[d][i] = BitVec.ofNat 32 (value (2 * p.2 + i.val)).1) ∧
    (s.issuesMem [useS a, useC (vCode d)] [] → s.stripCheck la 16 0xFFFF true = none → s.stripComing la 0xFFFF true = false →
      let blocks := (List.range ((2 * p.2 + 15) / n + 1)).filter fun b => decide (2 * p.2 / n ≤ b)
      let stored := fun (b : Nat) =>
        let xs := (List.range n).map fun j =>
          let e := b * n + j
          fmt32.dec (if 2 * p.2 ≤ e ∧ e < 2 * p.2 + 16 then (s.me.v[d].toList.getD (e - 2 * p.2) 0).toNat else (value e).1)
        if fine then fineStore (bitAt r 5) band xs else mxStore (bitAt r 5) xs
      ∃ t, exec (.lst (.v d) a k) s = .next t ∧ s.groupUsed t ∧ s.me.keepsRegs t.me 0 ∧
        s.flagged t (blocks.foldl (fun acc b => acc ||| (stored b).2.2) 0) ∧
        (∀ b ∈ blocks, Mem.read t.lm (q * 0x200000 + scaleAt b) = BitVec.ofNat 8 (stored b).2.1 ∧
          ∀ j, j < n / 2 → Mem.read t.lm (q * 0x200000 + p.1 + b * n / 2 + j) =
            BitVec.ofNat 8 ((stored b).1.getD (2 * j) 0 + 16 * (stored b).1.getD (2 * j + 1) 0)) ∧
        ∀ x, (∀ b ∈ blocks, x ≠ q * 0x200000 + scaleAt b ∧
            (x < q * 0x200000 + p.1 + b * n / 2 ∨ q * 0x200000 + p.1 + (b + 1) * n / 2 ≤ x)) →
          Mem.read t.lm x = Mem.read s.lm x)) ∧
  (∀ (s : State) (d : VReg) (a : SSrc) (b : VSrc) (z : Size), s.unbound [d, b.reg] → s.lm.wf = true →
    let la := fun (i : Fin 16) => (s.valS a.reg + sx s.me.v[b.reg][i] * BitVec.ofNat 64 (2 ^ z.code)).toNat
    let base := fun (i : Fin 16) => s.cur.quad * 0x200000 + la i
    let w := fun (i : Fin 16) => fmtWidth ((s.bfmt s.cur.quad (la i / 0x20000 % 16)).toNat % 16)
    (∀ i, s.elemComing (la i) = false) →
    (s.issuesMem [useS a, useV b] [vCode d] → (∀ i, s.elemCheck (la i) i.val true false = none) →
      ∃ t, exec (.vldx d a b z) s = .next t ∧ t = { s with thr := t.thr, quads := t.quads } ∧ t.me.pc = s.me.pc + 2 ∧
        s.me.keepsRegs t.me (vCode d) ∧ t.me.isFull (vCode d) = true ∧
        ∀ i : Fin 16, t.me.v[d][i] = BitVec.ofNat 32 (s.elemLoad (la i)).toNat) ∧
    (s.issuesMem [useS a, useV b, useC (vCode d)] [] → (∀ i, s.elemCheck (la i) i.val true true = none) →
      ∃ t, exec (.vstx d a b z) s = .next t ∧ t.me.pc = s.me.pc + 2 ∧ s.me.keepsRegs t.me 0 ∧ t.mem = s.mem ∧
        t.canopy = s.canopy ∧
        s.flagged t ((List.finRange 16).foldl (fun acc i => acc ||| (s.elemBytes (la i) (zx s.me.v[d][i])).2) 0) ∧
        (∀ i : Fin 16, (∀ j : Fin 16, i < j → base j + w j ≤ base i ∨ base i + w i ≤ base j) →
          Mem.bytes t.lm (base i) (w i) = (s.elemBytes (la i) (zx s.me.v[d][i])).1) ∧
        ∀ x, (∀ i : Fin 16, x < base i ∨ base i + w i ≤ x) → Mem.read t.lm x = Mem.read s.lm x)) ∧
  (∀ (s : State) (q : Nat) (t : Tid),
    ((quadSlots q).filter fun u => decide (0 < (s.th u).lanes) && decide ((s.th u).lanesAt < s.cycle)) = [t] → t.quad = q →
    bitAt (s.quad q).vecUsed t.core.val = false →
    ∃ u, exec (.laneGroupWork q) s = .next u ∧ (u.th t).lanes = (s.th t).lanes - 1 ∧
      bitAt (u.quad q).vecUsed t.core.val = true ∧ (∀ w, w ≠ t → u.th w = s.th w) ∧
      u = { s with thr := u.thr, quads := u.quads })

/-- 06 R182, R183, R187: a binding records direction, address, count and bank, and a misaligned start leaves the register as it was;
`sloop` goes on while elements are left, and is a stream fault on a register that is not bound. -/
def Obligations.StreamBinding : Prop :=
  ∀ (s : State) (d : StReg) (a b : SSrc) (k : BitVec 16) (site : Site),
    let x := (s.valS a.reg).toNat
    let n := (s.valS b.reg).toNat
    let fmt := (s.bfmt s.cur.quad (x / 0x20000 % 16)).toNat % 16
    let bound := fun (i : Instr) (us : List Use) (v : Option Bind) => ∃ t, exec i s = .next t ∧ s.onlyThreads t ∧
      s.onlyMe t us ∧ s.me.passed t.me ∧ s.me.keepsRegs t.me 0 ∧ t.me.binds = s.me.binds.set d.val v
    bound (.sbind d .un) [] none ∧
    (s.issuesMem [useS a, useS b] [] → fmt < 10 → fmt ≠ 6 → fmt ≠ 7 → ∀ wr : Bool,
      let i := Instr.sbind d (if wr then .wr a b else .rd a b)
      let w := if fmt = 8 then 8 else if fmt = 2 ∨ fmt = 3 then 2 else if fmt = 4 ∨ fmt = 5 then 1 else 4
      (x < 0x200000 → x % w = 0 → n = 0 ∨ x % 0x20000 + n * w ≤ 0x20000 ∧ s.inWin s.cur x (n * w) = true →
        bound i [useS a, useS b] (some ⟨wr, BitVec.ofNat 21 x, BitVec.ofNat 24 n, Fin.ofNat 16 (x / 0x20000 % 16)⟩)) ∧
      (x % w ≠ 0 → ∃ t, exec i s = .next t ∧ t.me.run = .stopped .fault ∧ t.me.binds = s.me.binds ∧
        fieldNat t.me.frec[0] 0 16 = w * 256 + 0x06 ∧ s.me.keepsRegs t.me 0)) ∧
    (s.me.binds[d] = none → ∃ t, exec (.sloop d k site) s = .next t ∧ t.me.run = .stopped .fault ∧
      fieldNat t.me.frec[0] 0 16 = (44 + d.val) * 256 + 0x0B ∧ s.me.keepsRegs t.me 0) ∧
    (∀ v : Bind, s.me.binds[d] = some v → v.left = 0 → ∃ t, exec (.sloop d k site) s = .next t ∧ s.me.passed t.me ∧
      s.me.keepsRegs t.me 0 ∧ t.me.binds = s.me.binds) ∧
    (∀ v : Bind, s.me.binds[d] = some v → v.left ≠ 0 →
      let y := s.me.pc + 2 * sx k
      y.toNat < 2 ^ 56 → lineVA y = lineVA s.me.pc → y.toNat % 2 = 0 → 1 ≤ y.toNat % 64 / 2 →
      y.toNat % 64 / 2 ≤ lineNH s.me.line →
      ∃ t, exec (.sloop d k site) s = .next t ∧ t.me.pc = y ∧ t.me.run = .running ∧ s.me.keepsRegs t.me 0 ∧
        t.me.binds = s.me.binds)

/-- 06 R182, R184, R185, R199, 02 R28: an operand that is a bound read stream gives one strip, the lanes beyond LEFT zero, and a
destination that is a bound write stream takes its active lanes; the stream advances by the elements read or written, and one with none
left gives zero lanes and touches no memory. A special function's strip leaves D empty and stands in local memory when it lands
(log 119). A register named against its stream's direction is a stream fault. Here the bank's format is f32. -/
def Obligations.StreamRead : Prop :=
  ∀ (s : State) (d : VReg) (a b : VSrc), s.lm.wf = true →
    let q := s.cur.quad
    let la := fun (v : Bind) => v.addr.toNat
    let n := fun (v : Bind) => min v.left.toNat 16
    -- the stream's next strip can be reached
    let usable := fun (v : Bind) => (s.bfmt q v.bank.val).toNat % 16 = 0 ∧ v.bank.val = la v / 0x20000 % 16 ∧ la v % 4 = 0 ∧
      la v % 0x20000 + 64 ≤ 0x20000 ∧ ∀ i, i < n v → s.inWin s.cur (la v + 4 * i) 4 = true ∧ s.lmComing (la v + 4 * i) 4 = false
    let sound := fun (v : Bind) => ∀ i, i < n v → s.lmBad q (la v + 4 * i) 4 = false
    let lane := fun (v : Bind) (i : Fin 16) => if i.val < n v then BitVec.ofNat 32 (s.lmSeeN q (la v + 4 * i.val) 4) else 0
    let advanced := fun (t : State) (c : Nat) (v : Bind) => ∃ w, t.me.bindOf c = some w ∧ w.left.toNat = v.left.toNat - n v ∧
      w.addr = v.addr + 64 ∧ w.wr = v.wr ∧ w.bank = v.bank
    let stored := fun (t : State) (v : Bind) (f : Fin 16 → Lane) =>
      (∀ i : Fin 16, i.val < n v → Mem.readN t.lm (q * 0x200000 + la v + 4 * i.val) 4 = (f i).toNat) ∧
      ∀ x, x < q * 0x200000 + la v ∨ q * 0x200000 + la v + 4 * n v ≤ x → Mem.read t.lm x = Mem.read s.lm x
    (∀ v : Bind, s.me.bindOf (vCode a.reg) = some v → v.wr = false → s.unbound [d] →
      (v.left ≠ 0 → usable v → sound v →
        (s.issuesMem [useV a] [vCode d] → ∃ t, exec (.mov (.vv d a)) s = .next t ∧
          t = { s with thr := t.thr, quads := t.quads } ∧ (∀ i : Fin 16, t.me.v[d][i] = lane v i) ∧
          advanced t (vCode a.reg) v ∧ s.me.keepsRegs t.me (vCode d)) ∧
        (s.issuesMem [useV a, useV b] [vCode d] → s.unbound [b.reg] → ∃ t, exec (.vadd .i32 d a b) s = .next t ∧
          t = { s with thr := t.thr, quads := t.quads } ∧
          (∀ i : Fin 16, t.me.v[d][i] = if i.val < n v then lane v i + s.me.v[b.reg][i] else 0) ∧
          advanced t (vCode a.reg) v ∧ s.me.keepsRegs t.me (vCode d))) ∧
      (v.left = 0 → s.issuesMem [useV a] [vCode d] → ∃ t, exec (.mov (.vv d a)) s = .next t ∧
        t = { s with thr := t.thr, quads := t.quads } ∧ (∀ i : Fin 16, t.me.v[d][i] = 0) ∧ s.me.keepsRegs t.me (vCode d) ∧
        (t.me.bindOf (vCode a.reg)).map Bind.left = some 0)) ∧
    (∀ v : Bind, s.me.bindOf (vCode d) = some v → v.wr = true → s.unbound [a.reg] → v.left ≠ 0 → usable v →
      s.issuesMem [useV a] [vCode d] →
      (∃ t, exec (.mov (.vv d a)) s = .next t ∧ advanced t (vCode d) v ∧ s.me.keepsRegs t.me 0 ∧ t.me.pc = s.me.pc + 2 ∧
        stored t v (fun i => s.me.v[a.reg][i]) ∧
        t = { s with thr := t.thr, quads := t.quads, lm := t.lm, lmWas := t.lmWas, lmPoison := t.lmPoison }) ∧
      ∃ t p, exec (.vrcp d a) s = .next t ∧ advanced t (vCode d) v ∧ t = { s with thr := t.thr, quads := t.quads } ∧
        t.me.isFull (vCode d) = false ∧ t.me.pend = s.me.pend ++ [p] ∧ p.reg.toNat = vCode d ∧ p.fail = none ∧
        p.due = some (s.inTurns q 2) ∧ p.val = .strip (((List.finRange 16).filter fun i => decide (i.val < n v)).map fun i =>
          (la v + 4 * i.val, natLE 4 (sfuRcp s.me.v[a.reg][i]).1.toNat)) ∧
        ∀ (u : State) (rest : List Pend), (u.th s.cur).pend = p :: rest → s.inTurns q 2 ≤ u.cycle →
          (u.th s.cur).run ≠ .saved → u.lm = s.lm →
          ∃ o, exec (.resultArrives s.cur p.reg) u = .next o ∧ (o.th s.cur).isFull (vCode d) = true ∧ (o.th s.cur).pend = rest ∧
            stored o v fun i => (sfuRcp s.me.v[a.reg][i]).1) ∧
    (∀ v : Bind, s.issuesMem [useV a] [vCode d] →
      let faults := fun (c : Nat) => ∃ t, exec (.mov (.vv d a)) s = .next t ∧ t.me.run = .stopped .fault ∧
        fieldNat t.me.frec[0] 0 16 = c * 256 + 0x0B ∧ t.me.binds = s.me.binds ∧ s.me.keepsRegs t.me 0 ∧ t.lm = s.lm
      (s.me.bindOf (vCode a.reg) = some v → v.wr = true → faults (vCode a.reg)) ∧
      (s.me.bindOf (vCode d) = some v → v.wr = false → s.unbound [a.reg] → faults (vCode d)))

/-! ### Global memory (06 R161 to R170, R175, R179, R180) -/

/-- 06 R163, R167, R168: a scalar load leaves D empty until its latency has passed; its result is the bytes extended, or the
failure found on the way; `ld.acq` holds back later memory instructions until D is full. Bytes that
the L1 holds are here in the next turn, and bytes that only the die's L2 holds take four turns (10 R281, R295, R302; 01 R12). A
block that is still on its way is no hit, and bytes still on their way to the L2 are not here before they arrive (the model's
reading, log 76). An acquire into g0, which is always full, holds nothing back (log 83). -/
def Obligations.GlobalLoad : Prop :=
  (∀ (s : State) (z : Size) (d : WReg) (a : SSrc) (k : BitVec 16) (site : Site) (sc : Scope),
    s.issuesMem [useS a] [d.code] →
    let x := s.valS a.reg + sx k
    let n := 2 ^ z.code
    let c := s.coreId s.cur
    x.toNat < 2 ^ 56 → x.toNat % n = 0 → s.leased c x.toNat n rR = true →
    let g := (readGlobal s c x.toNat n).1
    let loads := fun (i : Instr) (ext : Nat → Word) (acq : Bool) =>
      ∃ t p, exec i s = .next t ∧ s.me.passed t.me ∧ s.me.keepsRegs t.me d.code ∧ t.me.fp = s.me.fp ∧
        (d ≠ .g 0 → t.me.isFull d.code = false ∧ t.dstBusy d.code = true) ∧
        t.me.pend = s.me.pend ++ [p] ∧ p.reg.toNat = d.code ∧ p.kind = .load ∧ p.due = some (s.inTurns s.cur.quad g.lat) ∧
        (g.fail = none → p.val = .s (ext g.val) ∧ p.fail = none) ∧
        (∀ f, g.fail = some f → ∃ e, p.fail = some e ∧ e.cause = BitVec.ofNat 8 f ∧ e.addr = x) ∧ t.me.acqHolds = acq ∧
        (s.ioLeaf (s.req c 0) x.toNat = none → s.lmKept t ∧ t.canopy = s.canopy)
    loads (.ld z d a k site) (fun v => BitVec.ofInt 64 (Int.bmod v (2 ^ (8 * n)))) false ∧
    loads (.ldz z d a k site) (fun v => BitVec.ofNat 64 (v % 2 ^ (8 * n))) false ∧
    loads (.ldAcq z d a k sc) (fun v => BitVec.ofInt 64 (Int.bmod v (2 ^ (8 * n)))) (decide (d ≠ .g 0))) ∧
  (∀ (s : State) (c : Cid) (x n : Nat), 1 ≤ n → x % 64 + n ≤ 64 → s.ioLeaf (s.req c 0) x = none →
    let now := s.inTurns c.quad 0
    let l1 := (s.core (s.l1Home c (x / 64))).l1.find? fun (b : L1Block) =>
      decide (b.word ≤ x / 8) && decide ((x + n - 1) / 8 < b.word + b.size) && decide (b.due ≤ now)
    let r := readGlobal s c x n
    (∀ b, l1 = some b → r.1.val = dataNat b.data (x % 64) n ∧ r.1.fail = none ∧ r.1.lat = 1 ∧ r.1.hit = true ∧
      r.2 = { s with cores := r.2.cores }) ∧
    (∀ l : L2Line, l1 = none → s.l2Find (dieOf c.quad) (x / 64) = some l → s.sliceDown (dieOf c.quad) (x / 64) = false →
      bitAt (s.dreg (dieOf c.quad) 0x40) 63 = false → byteMask (x % 64) n &&& ~~~l.valid = 0 →
      r.1.val = dataNat l.data (x % 64) n ∧ r.1.hit = false ∧ r.1.fail = none ∧ (l.valid = BitVec.allOnes 64 → r.2.mem = s.mem) ∧
      (byteMask (x % 64) n &&& l.coming = 0 ∨ l.due ≤ now → r.1.lat = 4) ∧
      (byteMask (x % 64) n &&& l.coming ≠ 0 → now < l.due → 4 ≤ r.1.lat ∧ l.due ≤ s.inTurns c.quad r.1.lat)))

/-- 06 R161, R162, R164, 16 R373: a global access faults on address bits above 55, then on misalignment, then outside the
lease, which ends the task: the launch's status becomes 0x01 and a message goes to its supervisor. No byte is stored, but for the
STATE of a saved thread that the end of the task kills. -/
def Obligations.GlobalFaults : Prop :=
  ∀ (s : State) (z : Size) (d : WReg) (e : SReg) (a : SSrc) (k : BitVec 16) (site : Site) (sc : Scope),
    let x := s.valS a.reg + sx k
    let n := 2 ^ z.code
    let c := s.coreId s.cur
    let faults := fun (i : Instr) (cause detail : Nat) =>
      ∃ t, exec i s = .next t ∧ t.me.run = .stopped .fault ∧ t.mem = s.mem ∧ s.me.keepsRegs t.me 0 ∧
        (cause ≠ 0x07 → t.lm = s.lm) ∧
        (s.lm.wf = true → ∀ y, ¬ s.inSavedState c y → Mem.read t.lm y = Mem.read s.lm y) ∧
        fieldNat t.me.frec[0] 0 16 = detail * 256 + cause ∧ t.me.frec[1] = s.me.pc ∧ t.me.frec[2] = x ∧
        bitAt (t.core c).kzfp s.cur.unit.val = true ∧
        (cause = 0x07 → ∀ l y, (s.core c).launch = some l → tget? s.launches l = some y → y.status ≠ 2 →
          ∃ y', tget? t.launches l = some y' ∧ y'.status = 1 ∧ t.sups.length = s.sups.length + 1)
    let each := fun (is : List Instr) (r : Rights) (dir : Nat) => ∀ i ∈ is,
      (2 ^ 56 ≤ x.toNat → faults i 0x05 n) ∧ (x.toNat < 2 ^ 56 → x.toNat % n ≠ 0 → faults i 0x06 n) ∧
      (x.toNat < 2 ^ 56 → x.toNat % n = 0 → s.leased c x.toNat n r = false → faults i 0x07 dir)
    (s.issuesMem [useS a] [d.code] → each [.ld z d a k site, .ldz z d a k site, .ldAcq z d a k sc] rR 0) ∧
    (s.issuesMem [useS a, useC e.code] [] → each [.st z e a k, .stRel z e a k sc] rW 1)

/-- 06 R167 to R169, 10 R282, R295: a posted store of a line that the die's L2 holds writes its bytes there and in the core's
L1, and no die sees another byte change; it takes one entry of the store queue, with what its slice will log (19 R438), and passes on; a release at `core`, `quad` or
`die` scope is performed after the thread's earlier accesses; with the queue full the store blocks. -/
def Obligations.GlobalStore : Prop :=
  ∀ (s : State) (z : Size) (d : SReg) (a : SSrc) (k : BitVec 16), s.issuesMem [useS a, useC d.code] [] →
    let x := (s.valS a.reg + sx k).toNat
    let n := 2 ^ z.code
    let c := s.coreId s.cur
    x < 2 ^ 56 → x % n = 0 → s.leased c x n rW = true →
    (s.sqUsed c < 32 → ∀ l : L2Line, s.l2Find (dieOf c.quad) (x / 64) = some l →
      s.sliceDown (dieOf c.quad) (x / 64) = false → s.domainDead l.kdom = false →
      let v := (s.valS d).toNat % 2 ^ (8 * n)
      let home := s.l1Home c (x / 64)
      let stores := fun (i : Instr) (due : Nat) =>
        ∃ t, exec i s = .next t ∧ s.onlyMe t [useS a, useC d.code] ∧ s.me.passed t.me ∧ s.me.keepsRegs t.me 0 ∧
          s.me.keepsRest t.me ∧ t.me.pend = s.me.pend ∧ t.lm = s.lm ∧ t.mem = s.mem ∧
          t.seen (dieOf c.quad) x n = some (l.pa + x % 64, v) ∧
          (∀ die y, die ≠ dieOf c.quad ∨ y < x ∨ x + n ≤ y → t.seen die y 1 = s.seen die y 1) ∧
          (∀ b ∈ (t.core home).l1, b.line = x / 64 → dataNat b.data (x % 64) n = v) ∧
          (∀ b ∈ (s.core home).l1, b.line ≠ x / 64 → b ∈ (t.core home).l1) ∧
          (∀ e, e ≠ home → t.core e = s.core e) ∧
          t.sq = s.sq ++ [⟨s.fresh, c, s.cur.unit.val, [x / 64],
            [⟨s.req c 1, x / 64, decide (byteMask (x % 64) n &&& ~~~l.valid = 0)⟩], due⟩] ∧ t.fresh = s.fresh + 1
      stores (.st z d a k) (s.inTurns s.cur.quad 4) ∧
      ∀ sc, sc = .core ∨ sc = .quad ∨ sc = .die →
        stores (.stRel z d a k sc) (max (s.inTurns s.cur.quad 4) (s.ownDone s.cur))) ∧
    (32 ≤ s.sqUsed c → ∀ sc, exec (.st z d a k) s = .next s.blockMe ∧ exec (.stRel z d a k sc) s = .next s.blockMe)

/-- 06 R175, R179, 10 R281, R302: a strip load and a gather read sixteen 32-bit lanes and leave D empty until the slowest line has come;
a `vldg` takes one turn more for each four distinct lines beyond the first. A failed one reports the failure of the lane that
`readLanes` gives. Lanes whose lines the L1 holds are here in the next turn; those that only the die's L2 holds take four turns, or
until their bytes have arrived there (the model's reading, log 76). -/
def Obligations.GlobalLanesLoad : Prop :=
  (∀ (s : State) (d : VReg) (a : SSrc) (b : VSrc) (k : BitVec 16) (z : Size),
    s.unbound [d, b.reg] →
    let c := s.coreId s.cur
    let lanes := fun (f : Fin 16 → Word) => (List.finRange 16).map fun i => (i, (f i).toNat)
    let loads := fun (i : Instr) (f : Fin 16 → Word) (more : Nat) =>
      (∀ j, (f j).toNat < 2 ^ 56 ∧ (f j).toNat % 4 = 0 ∧ s.leased c (f j).toNat 4 rR = true) →
      let g := (readLanes s c (lanes f)).1
      ∃ t p, exec i s = .next t ∧ s.me.passed t.me ∧ s.me.keepsRegs t.me (vCode d) ∧ t.me.isFull (vCode d) = false ∧
        t.me.pend = s.me.pend ++ [p] ∧ p.reg.toNat = vCode d ∧ p.kind = .load ∧
        (g.fail = none → p.val = .v g.val ∧ p.fail = none ∧ p.due = some (s.inTurns s.cur.quad (g.lat + more))) ∧
        ∀ lane cause lat, g.fail = some (lane, cause, lat) → p.due = some (s.inTurns s.cur.quad (lat + more)) ∧
          ∃ e, p.fail = some e ∧ e.cause = BitVec.ofNat 8 cause ∧ e.addr = f lane ∧ e.elem = BitVec.ofNat 32 lane.val
    (s.issuesMem [useS a] [vCode d] →
      loads (.vld d a k none) (fun i => s.valS a.reg + sx k + BitVec.ofNat 64 (4 * i.val)) 0) ∧
    (s.issuesMem [useS a, useV b] [vCode d] →
      let f := fun (i : Fin 16) => s.valS a.reg + sx s.me.v[b.reg][i] * BitVec.ofNat 64 (2 ^ z.code)
      loads (.vldg d a b z none) f ((((lanes f).map fun p => p.2 / 64).eraseDups.length - 1) / 4))) ∧
  ∀ (s : State) (c : Cid) (f : Fin 16 → Nat), (∀ i, f i % 4 = 0) →
    let now := s.inTurns c.quad 0
    let die := dieOf c.quad
    let g := (readLanes s c ((List.finRange 16).map fun i => (i, f i))).1
    let blocks := fun (i : Fin 16) => (s.core (s.l1Home c (f i / 64))).l1
    let meets := fun (b : L1Block) (i : Fin 16) => b.line = f i / 64 ∨ b.word < f i / 64 * 8 + 8 ∧ f i / 64 * 8 < b.word + b.size
    (∀ data : Fin 16 → LineData, (∀ i, s.ioLeaf (s.req c 0) (64 * (f i / 64)) = none ∧ ∃ b ∈ blocks i,
        b.word = f i / 64 * 8 ∧ b.size = 8 ∧ b.due ≤ now ∧ b.data = data i ∧ ∀ x ∈ blocks i, meets x i → x = b) →
      g.fail = none ∧ g.lat = 1 ∧ g.hit = true ∧ ∀ i, (g.val[i]).toNat = dataNat (data i) (f i % 64) 4) ∧
    (bitAt (s.dreg die 0x40) 63 = false → ∀ line : Fin 16 → L2Line,
      (∀ i, s.l2Find die (f i / 64) = some (line i) ∧ (line i).valid = BitVec.allOnes 64 ∧ s.sliceDown die (f i / 64) = false ∧
        ∀ x ∈ blocks i, ¬ meets x i) →
      g.fail = none ∧ g.hit = false ∧ (∀ i, (g.val[i]).toNat = dataNat (line i).data (f i % 64) 4) ∧
      ((∀ i, byteMask (f i % 64) 4 &&& (line i).coming = 0 ∨ (line i).due ≤ now) → g.lat = 4) ∧
      ∀ i, byteMask (f i % 64) 4 &&& (line i).coming ≠ 0 → now < (line i).due → 4 ≤ g.lat ∧ (line i).due ≤ s.inTurns c.quad g.lat)

/-- 06 R175, R180: after a strip store or a scatter to lines that the die's L2 holds, no die sees any byte change but those of
the sixteen lanes; a strip takes one store-queue entry, a scatter one for each distinct line. -/
def Obligations.GlobalLanesStore : Prop :=
  ∀ (s : State) (d : VReg) (a : SSrc) (b : VSrc) (k : BitVec 16) (z : Size), s.unbound [d, b.reg] →
    let c := s.coreId s.cur
    let die := dieOf c.quad
    let stores := fun (i : Instr) (f : Fin 16 → Word) (entries : Nat) =>
      (∀ j, (f j).toNat < 2 ^ 56 ∧ (f j).toNat % 4 = 0 ∧ s.leased c (f j).toNat 4 rW = true ∧
        s.sliceDown die ((f j).toNat / 64) = false ∧
        ∃ l, s.l2Find die ((f j).toNat / 64) = some l ∧ s.domainDead l.kdom = false) →
      s.sqUsed c + entries ≤ 32 →
      ∃ t, exec i s = .next t ∧ s.me.passed t.me ∧ s.me.keepsRegs t.me 0 ∧ t.me.pend = s.me.pend ∧ t.lm = s.lm ∧
        t.mem = s.mem ∧ t.sq.length = s.sq.length + entries ∧
        (∀ e y, e ≠ die ∨ (∀ j, y < (f j).toNat ∨ (f j).toNat + 4 ≤ y) → t.seen e y 1 = s.seen e y 1) ∧
        (t.seen die (f 15).toNat 4).map Prod.snd = some (s.me.v[d][(15 : Fin 16)]).toNat
    (s.issuesMem [useS a, useC (vCode d)] [] →
      stores (.vst d a k) (fun i => s.valS a.reg + sx k + BitVec.ofNat 64 (4 * i.val)) 1) ∧
    (s.issuesMem [useS a, useV b, useC (vCode d)] [] →
      let f := fun (i : Fin 16) => s.valS a.reg + sx s.me.v[b.reg][i] * BitVec.ofNat 64 (2 ^ z.code)
      stores (.vstg d a b z) f (((List.finRange 16).map fun i => (f i).toNat / 64).eraseDups.length))

/-- 02 R27 to R30, 04 R91, 06 R163: reading an empty register blocks the slot, or is an empty-read fault where the source's empty
action says so, the first empty source deciding, whatever the later ones and the destination (the model's reading, logs 11 and 83); a
write of a register whose result is pending blocks. A pending result that is due lands: the register holds
it and is full, its flags join `fpctl`; a failed one is reported and leaves the register empty. -/
def Obligations.EmptyAndFull : Prop :=
  (∀ (s : State) (d : WReg) (a b : SSrc),
    (s.srcEmpty a.reg.code = true →
      (a.trap = false → exec (.add d a b) s = .next s.blockMe) ∧
      (a.trap = true → ∃ t, exec (.add d a b) s = .next t ∧ t.me.run = .stopped .fault ∧ t.me.frec[1] = s.me.pc ∧
        fieldNat t.me.frec[0] 0 16 = a.reg.code * 256 + 0x04 ∧ s.me.keepsRegs t.me 0 ∧ t.mem = s.mem ∧ t.lm = s.lm)) ∧
    (s.issues [useS a, useS b] [] → s.dstBusy d.code = true → exec (.add d a b) s = .next s.blockMe)) ∧
  ∀ (s : State) (t : Tid) (p : Pend) (rest : List Pend) (n : Fin 32), (s.th t).pend = p :: rest → n ≠ 0 → p.reg.toNat = n.val →
    (∃ d, p.due = some d ∧ d ≤ s.cycle) → (s.th t).run ≠ .saved →
    (∀ v : Word, p.fail = none → p.val = .s v →
      ∃ u, exec (.resultArrives t p.reg) s = .next u ∧ (u.th t).rdG n = v ∧ (u.th t).isFull n.val = true ∧
        (u.th t).pend = rest ∧ (u.th t).fp = (s.th t).fp ||| zx p.flags ∧ (u.th t).pc = (s.th t).pc ∧
        (s.th t).keepsRegs (u.th t) n.val ∧ (∀ w, w ≠ t → u.th w = s.th w) ∧ u.mem = s.mem) ∧
    (∀ (r : VReg) (v : VWord) (q : Pend) (others : List Pend), (s.th t).pend = q :: others → q.reg.toNat = vCode r →
      (∃ d, q.due = some d ∧ d ≤ s.cycle) → q.fail = none → q.val = .v v →
      ∃ u, exec (.resultArrives t q.reg) s = .next u ∧ (u.th t).v[r] = v ∧ (u.th t).isFull (vCode r) = true ∧
        (u.th t).pend = others ∧ (u.th t).fp = (s.th t).fp ||| zx q.flags ∧ (s.th t).keepsRegs (u.th t) (vCode r) ∧ u.lm = s.lm) ∧
    (∀ f : Failure, p.fail = some f → (s.th t).run ≠ .stopped .fault → (s.th t).deferred = none →
      ∃ u, exec (.resultArrives t p.reg) s = .next u ∧ (u.th t).deferred = some (f, p.reg, p.op) ∧ (u.th t).pend = rest ∧
        (s.th t).keepsRegs (u.th t) 0 ∧ u.agenda = s.agenda ++ [.deferredFault t])

/-! ### Atomics, waits, rings, barriers and system registers (07) -/

/-- 07 R202 to R206, 06 R168: an atomic on a line that the die's L2 holds clean and the home MLC holds too: the old value comes
back in sixteen turns, extended; the new one stands at the home, and no other byte of memory changes; the L2 no longer
holds the line, and one store-queue entry is taken. A `cas` that does not find its expected value writes nothing. -/
def Obligations.Atomics : Prop :=
  ∀ (s : State) (dbl : Bool) (ord : Ord) (d : WReg) (a b : SSrc) (l : L2Line) (m : MlcLine), s.mem.wf = true →
    let x := (s.valS a.reg).toNat
    let n := if dbl then 8 else 4
    let c := s.coreId s.cur
    let die := dieOf c.quad
    x < 2 ^ 56 → x % n = 0 → s.leased c x n rRW = true → s.sqUsed c < 32 →
    s.l2Find die (x / 64) = some l → s.sliceDown die (x / 64) = false → l.dirty = 0 → l.lock = none → l.pin = false →
    s.mlcFind (l.pa / 64) = some m → m.kdom = l.kdom → s.rootUp (l.pa / 64) = true →
    m.due ≤ s.inTurns c.quad 0 → m.poison = false → (∀ w, (l.pa / 64, w) ∉ s.lost) → s.domainDead l.kdom = false →
    bitAt (s.dreg die 0x40) 63 = false →
    (∀ sc, ord = .rel sc ∨ ord = .ar sc → sc = .core ∨ sc = .quad ∨ sc = .die) →
    let pa := l.pa + x % 64
    let old := Mem.readN s.mem pa n
    let B := (s.valS b.reg).toNat % 256 ^ n
    let signed := fun (v : Nat) => Int.bmod v (256 ^ n)
    let does := fun (i : Instr) (new : Nat) (back : Word) (fl : Flags) =>
      ∃ t p, exec i s = .next t ∧ s.me.passed t.me ∧ s.me.keepsRegs t.me d.code ∧ t.me.pend = s.me.pend ++ [p] ∧
        p.reg.toNat = d.code ∧ p.val = .s back ∧ p.flags = fl ∧ p.fail = none ∧ p.kind = .atomic ∧
        p.due = some (s.inTurns s.cur.quad 16) ∧ t.lm = s.lm ∧ Mem.readN t.mem pa n = new ∧
        (∀ y, y < pa ∨ pa + n ≤ y → Mem.read t.mem y = Mem.read s.mem y) ∧ t.l2Find die (x / 64) = none ∧
        t.sqUsed c = s.sqUsed c + 1
    let back : Word := BitVec.ofInt 64 (signed old)
    (s.issuesMem [useS a, useS b] [d.code] →
      does (.amo .add dbl ord d a b) ((old + B) % 256 ^ n) back 0 ∧
      does (.amo .and dbl ord d a b) (old &&& B) back 0 ∧ does (.amo .or dbl ord d a b) (old ||| B) back 0 ∧
      does (.amo .xor dbl ord d a b) (old ^^^ B) back 0 ∧ does (.amo .swap dbl ord d a b) B back 0 ∧
      does (.amo .mins dbl ord d a b) (if signed old < signed B then old else B) back 0 ∧
      does (.amo .maxs dbl ord d a b) (if signed old < signed B then B else old) back 0 ∧
      does (.amo .minz dbl ord d a b) (min old B) back 0 ∧ does (.amo .maxz dbl ord d a b) (max old B) back 0 ∧
      let f := if dbl then fmt64 else fmt32
      let sum := f.add .rne old B
      does (.amof .add dbl ord d a b) (sum.1 % 256 ^ n) (BitVec.ofNat 64 old) sum.2) ∧
    (∀ e : Fin 32, d = .g e → s.issuesMem [useS a, useS b, useC e.val] [d.code] →
      does (.cas dbl ord d a b) (if old = (s.me.rdG e).toNat % 256 ^ n then B else old) back 0)

/-- 07 R207 to R209: a fence with nothing outstanding passes at once at `core`, `quad` and `die` scope, and waits sixteen turns
at `pkg` and `pod`; a waiting fence passes once its cycle has come. An acquire at `die` scope empties the core's L1. -/
def Obligations.Fences : Prop :=
  ∀ (s : State) (k : FenceKind) (sc : Scope),
    (s.me.acqHolds = false → s.ownDone s.cur = s.cycle → (∀ p ∈ s.me.pend, p.kind ≠ .load ∧ p.kind ≠ .atomic) →
      (sc = .core ∨ sc = .quad ∨ sc = .die → ∃ t, exec (.fence k sc) s = .next t ∧ s.me.passed t.me ∧ s.me.keepsRegs t.me 0 ∧
        s.me.keepsRest t.me ∧ t.mem = s.mem ∧ t.lm = s.lm ∧ (∀ die y, t.seen die y 1 = s.seen die y 1) ∧
        (k ≠ .rel → sc = .die → s.fusedL1 (s.coreId s.cur) = false → (t.core (s.coreId s.cur)).l1 = []) ∧
        (k = .rel → t = { s with thr := t.thr, incrs := t.incrs, l2 := t.l2 })) ∧
      (sc = .pkg ∨ sc = .pod → ∃ t, exec (.fence k sc) s = .next t ∧ t.me.pc = s.me.pc ∧ s.me.keepsRegs t.me 0 ∧
        t.me.run = .waiting (.fence k sc (s.inTurns s.cur.quad 16)))) ∧
    (∀ (u : Tid) (n : Nat), (s.th u).run = .waiting (.fence k sc n) →
      (n ≤ s.cycle → ∃ t, exec (.fenceCompletes u) s = .next t ∧ (s.th u).passed (t.th u) ∧ (s.th u).keepsRegs (t.th u) 0 ∧
        (∀ w, w ≠ u → t.th w = s.th w) ∧ t.mem = s.mem) ∧
      (s.cycle < n → exec (.fenceCompletes u) s = .next s))

/-- 07 R210 to R212: a `wait` whose condition holds writes the value seen and passes on; else the slot waits with D empty, and
goes on when the condition comes to hold; a read of the link takes its value only then, and D that was full is full again if the wait
is broken off (the model's reading, log 86). The word must be aligned and lie in the windows, and may not be poisoned (log 35); the
counter must be one of the slot's own core (R210). A wait on a counter issues once the increments that happen before it have landed
(log 82), and one on a word once a strip of its own slot has (log 119). -/
def Obligations.Waits : Prop :=
  ∀ (s : State) (d : WReg) (a b : SSrc), s.issuesMem [useS a, useS b] [d.code] →
    let la := (s.valS a.reg).toNat
    let target := (s.valS b.reg).toNat % 2 ^ 32
    let v := s.lmSeeN s.cur.quad la 4
    let looks := fun (ctr : Bool) (v : Nat) (w : WaitCond → Bool → Bool → Wait) =>
      let one := fun (cc : WaitCond) (holds : Prop) =>
        (holds → ∃ t, exec (.wait cc ctr d a b) s = .next t ∧ s.me.passed t.me ∧ s.me.keepsRegs t.me d.code ∧
          s.wrote t d (BitVec.ofNat 64 v) ∧ t.lm = s.lm ∧ t.mem = s.mem) ∧
        (¬ holds → ∃ t li was, exec (.wait cc ctr d a b) s = .next t ∧ t.me.pc = s.me.pc ∧ s.me.keepsRegs t.me d.code ∧
          t.me.run = .waiting (w cc li was) ∧
          (li = true ↔ a.reg = .li ∨ b.reg = .li) ∧ (was = true ↔ d ≠ .g 0 ∧ s.me.isFull d.code = true) ∧
          (∀ u, u ≠ s.cur → t.th u = s.th u) ∧ (d ≠ .g 0 → t.me.isFull d.code = false))
      one .eq (v = target) ∧ one .ne (v ≠ target) ∧ one .gem ((v + 2 ^ 32 - target) % 2 ^ 32 < 2 ^ 31) ∧
      one .ltm (2 ^ 31 ≤ (v + 2 ^ 32 - target) % 2 ^ 32)
    let faults := fun (ctr : Bool) (cause : Nat) => ∀ cc, ∃ t, exec (.wait cc ctr d a b) s = .next t ∧
      t.me.run = .stopped .fault ∧ fieldNat t.me.frec[0] 0 8 = cause ∧ t.me.frec[2] = s.valS a.reg ∧ s.me.keepsRegs t.me 0
    (la % 4 = 0 → s.inWin s.cur la 4 = true → s.lmBad s.cur.quad la 4 = false →
      (s.lmComing la 4 = false → v < 2 ^ 32 →
        looks false v fun cc => .word cc la (BitVec.ofNat 32 target) (BitVec.ofNat 6 d.code)) ∧
      (s.lmComing la 4 = true → ∀ cc, exec (.wait cc false d a b) s = .next s.blockMe)) ∧
    (la % 4 ≠ 0 → faults false 0x06) ∧ (la % 4 = 0 → s.inWin s.cur la 4 = false → faults false 0x08) ∧
    (la % 4 = 0 → s.inWin s.cur la 4 = true → s.lmBad s.cur.quad la 4 = true → faults false 0x0A) ∧
    (let c := s.coreId s.cur
     let own := fun (x : Des) => x.pkg = s.pkg ∧ x.core = c
     (∀ x : Des, s.designator false c (s.valS a.reg) = some x → own x →
       (s.ownIncrs s.cur (c, Fin.ofNat 16 x.idx) = [] →
         looks true ((s.core c).ctrs[Fin.ofNat 16 x.idx]).toNat fun cc =>
           .ctr cc (Fin.ofNat 16 x.idx) (BitVec.ofNat 32 target) (BitVec.ofNat 6 d.code)) ∧
       (s.ownIncrs s.cur (c, Fin.ofNat 16 x.idx) ≠ [] → ∀ cc, exec (.wait cc true d a b) s = .next s.blockMe)) ∧
     ((∀ x : Des, s.designator false c (s.valS a.reg) = some x → ¬ own x) → faults true 0x0D)) ∧
    (∀ (u : Tid) (i : Fin 16) (y : BitVec 32) (n : Fin 32) (li was : Bool), n ≠ 0 →
      (s.th u).run = .waiting (.ctr .eq i y (BitVec.ofNat 6 n.val) li was) →
      ((s.core (s.coreId u)).ctrs[i] = y → ∃ t, exec (.waitCompletes u) s = .next t ∧ (s.th u).passed (t.th u) ∧
        (t.th u).rdG n = zx y ∧ (t.th u).isFull n.val = true ∧ (s.th u).keepsRegs (t.th u) n.val ∧
        (li = true → (t.th (prevSlot u)).isFull 57 = false)) ∧
      ((s.core (s.coreId u)).ctrs[i] ≠ y → exec (.waitCompletes u) s = .next s))

/-- 07 R213 to R216, 11 R307, R313: `mbinc` posts an increment, after the thread's earlier accesses, which adds modulo 2^32 when it
lands. `mbrd` reads a counter of the own quad at once, and another one with the value of this turn in four or sixteen turns, once the
increments that happen before it have landed (log 82); another world's reads zero with a record. A designator that names nothing
is a designator fault. -/
def Obligations.MailboxCounters : Prop :=
  ∀ (s : State) (d : WReg) (a b : SSrc),
    let c := s.coreId s.cur
    let w := s.valS a.reg
    (∀ x : Des, s.designator false c w = some x → x.pkg = s.pkg →
      let i : Fin 16 := Fin.ofNat 16 x.idx
      let turns := if x.core.quad = c.quad then 1 else if dieOf x.core.quad = dieOf c.quad then 4 else 16
      (s.issuesMem [useS a, useS b] [] → s.sqUsed c < 32 → dieOf x.core.quad = dieOf c.quad →
        ∃ t m, exec (.mbinc a b) s = .next t ∧ s.me.passed t.me ∧ s.me.keepsRegs t.me 0 ∧ s.me.keepsRest t.me ∧
          (∃ old, t.incrs = old ++ [m] ∧ old.length = s.incrs.length ∧ ∀ (j : Nat) (x : Incr),
            s.incrs[j]? = some x → ∃ rel, old[j]? = some ({ x with rel := rel } : Incr)) ∧ m.dst = some (x.core, i) ∧
          m.val.toNat = (s.valS b.reg).toNat % 2 ^ 32 ∧ m.world = (s.core c).world ∧ m.src = some s.cur ∧
          m.due = max (s.inTurns s.cur.quad turns) (s.ownDone s.cur) ∧ t.cores = s.cores ∧ t.mem = s.mem) ∧
      (s.issues [useS a] [d.code] →
        (s.ownIncrs s.cur (x.core, i) ≠ [] → exec (.mbrd d a) s = .next s.blockMe) ∧
        (s.ownIncrs s.cur (x.core, i) = [] → (s.core x.core).launch = none ∨ (s.core x.core).world = (s.core c).world →
          ∃ t, exec (.mbrd d a) s = .next t ∧
            (turns = 1 → s.passes t [useS a] d.code ∧ s.wrote t d (zx (s.core x.core).ctrs[i])) ∧
            (turns ≠ 1 → s.defers t [useS a] d.code (zx (s.core x.core).ctrs[i]) turns .remote)) ∧
        (s.ownIncrs s.cur (x.core, i) = [] → (s.core x.core).launch ≠ none → (s.core x.core).world ≠ (s.core c).world → turns = 1 →
          ∃ t, exec (.mbrd d a) s = .next t ∧ s.me.passed t.me ∧ s.me.keepsRegs t.me d.code ∧ s.wrote t d 0 ∧
            t.lm = (violation s (s.core c).vcore (s.core c).world 5 w).lm))) ∧
    (s.designator false c w = none →
      let faults := fun (i : Instr) => ∃ t, exec i s = .next t ∧ t.me.run = .stopped .fault ∧
        fieldNat t.me.frec[0] 0 16 = 0x0D ∧ t.me.frec[2] = w ∧ t.incrs = s.incrs
      (s.issuesMem [useS a, useS b] [] → faults (.mbinc a b)) ∧ (s.issues [useS a] [d.code] → faults (.mbrd d a))) ∧
    (∀ (m : Incr) (e : Cid) (i : Fin 16), (s.incrs.find? fun (x : Incr) => decide (x.id = m.id)) = some m →
      m.dst = some (e, i) → (s.core e).launch = none ∨ (s.core e).world = m.world →
      ∃ t, exec (.incrementLands m.id) s = .next t ∧
        (t.core e).ctrs[i].toNat = ((s.core e).ctrs[i].toNat + m.val.toNat) % 2 ^ 32 ∧
        (∀ j, j ≠ i → (t.core e).ctrs[j] = (s.core e).ctrs[j]) ∧ (∀ f, f ≠ e → t.core f = s.core f) ∧
        (∀ x ∈ t.incrs, x.id ≠ m.id) ∧ t = { s with cores := t.cores, incrs := t.incrs, lqs := t.lqs })

/-- 07 R217 to R221: `rgwait` claims the next filled ring slot or waits; `rgrel` frees slots in order, which senders
see from the next turn, and more than are claimed is a ring fault; a slot that waits claims when the ring fills. -/
def Obligations.Rings : Prop :=
  ∀ (s : State) (d : WReg) (n : Fin 32) (b : SSrc),
    let q := s.cur.quad
    let r := s.ring q n
    r.world = (s.coreOf s.cur).world →
    (s.issues [] [d.code] →
      (r.en = true → r.wp ≠ r.cp → ∃ t, exec (.rgwait d n) s = .next t ∧ s.me.passed t.me ∧ s.me.keepsRegs t.me d.code ∧
        s.wrote t d (BitVec.ofNat 64 (r.base + r.cp.toNat % r.count * r.slot)) ∧ t.ring q n = { r with cp := r.cp + 1 } ∧
        (∀ m, m ≠ n → t.ring q m = s.ring q m) ∧ t.lm = s.lm ∧ t.mem = s.mem) ∧
      (r.en = false ∨ r.wp = r.cp → ∃ t, exec (.rgwait d n) s = .next t ∧ s.onlyThreads t ∧ t.me.pc = s.me.pc ∧
        t.me.run = .waiting (.ring n (BitVec.ofNat 6 d.code) (decide (d ≠ .g 0 ∧ s.me.isFull d.code = true))) ∧ s.me.keepsRegs t.me d.code)) ∧
    (s.issues [useS b] [] →
      let k := (s.valS b.reg).toNat % 2 ^ 32
      (k ≤ (r.cp - r.rp).toNat → ∃ t, exec (.rgrel n b) s = .next t ∧ s.me.passed t.me ∧ s.me.keepsRegs t.me 0 ∧
        (∃ y, t.ring q n = y ∧ y.rp = r.rp + BitVec.ofNat 32 k ∧ y.wp = r.wp ∧ y.cp = r.cp ∧ y.cfg = r.cfg ∧
          y.free (s.turn q) = r.free (s.turn q) ∧ ∀ n, s.turn q < n → y.free n = r.count - (r.wp - y.rp).toNat) ∧
        ∀ m, m ≠ n → t.ring q m = s.ring q m) ∧
      ((r.cp - r.rp).toNat < k → ∃ t, exec (.rgrel n b) s = .next t ∧ t.me.run = .stopped .fault ∧
        fieldNat t.me.frec[0] 0 16 = n.val * 256 + 0x0C ∧ t.ring q n = r)) ∧
    (∀ (u : Tid) (e : Fin 32), e ≠ 0 → s.ringWaiters q n = [(u, BitVec.ofNat 6 e.val)] → r.en = true → r.wp ≠ r.cp →
      ∃ t, exec (.rgwaitClaim q n) s = .next t ∧ (s.th u).passed (t.th u) ∧
        (t.th u).rdG e = BitVec.ofNat 64 (r.base + r.cp.toNat % r.count * r.slot) ∧ (t.th u).isFull e.val = true ∧
        t.ring q n = { r with cp := r.cp + 1 })

/-- 07 R222 to R224: an arrival is posted, and when it lands it counts and is recorded in its slot, unless the slot has been started
anew or has left the launch (the model's reading, log 111); the last one expected completes the phase, which flips PHASE, clears
ARRIVED and releases the phase's waiters later; a disabled barrier counts nothing. `bar.wait` without an arrival passes at once; with
one still on its way, or recorded in the open phase, it waits; with one recorded in a phase that has been released it passes,
and its arrival is used up. -/
def Obligations.Barriers : Prop :=
  ∀ (s : State) (sc : Scope) (b : Fin 16),
    let id := s.barId (s.coreId s.cur) sc b
    let bit := barBit sc b
    (s.me.acqHolds = false →
      let waits := fun (t : State) => exec (.barWait sc b) s = .next t ∧ s.onlyThreads t ∧ t.me.run = .waiting (.bar sc b) ∧
        t.me.pc = s.me.pc ∧ s.me.keepsRegs t.me 0
      let passed := fun (x y : Thread) => x.passed y ∧ x.keepsRegs y 0 ∧ bitAt y.arrived bit = false ∧
        ∀ i, i ≠ bit → bitAt y.arrived i = bitAt x.arrived i
      (∃ t e, exec (.barArrive sc b) s = .next t ∧ s.me.passed t.me ∧
        s.me.keepsRegs t.me 0 ∧ t.me.arrived = s.me.arrived ∧ t.barEvs = s.barEvs ++ [e] ∧ e.bar = id ∧
        e.kind = .arrive s.cur s.me.life ∧ e.due = max (s.inTurns s.cur.quad (barTurns sc)) (s.ownDone s.cur) ∧ t.bars = s.bars) ∧
      (bitAt s.me.arrived bit = false → s.barFlight s.cur id = false → ∃ t, exec (.barWait sc b) s = .next t ∧ s.passes t [] 0) ∧
      (bexpExpect (s.bexp id) = 0 → ∃ t, exec (.barWait sc b) s = .next t ∧ s.passes t [] 0) ∧
      (bexpExpect (s.bexp id) ≠ 0 →
        let recorded := bitAt s.me.arrived bit = true ∧ s.barFlight s.cur id = false
        let open_ := bexpPhase (s.bexp id) = bitAt s.me.phases bit ∨ s.barClosing id (bitAt s.me.phases bit) = true
        (s.barFlight s.cur id = true → ∃ t, waits t) ∧ (recorded → open_ → ∃ t, waits t) ∧
        (recorded → ¬ open_ → ∃ t, exec (.barWait sc b) s = .next t ∧ passed s.me t.me ∧ (∀ u, u ≠ s.cur → t.th u = s.th u) ∧
          t.mem = s.mem ∧ t.lm = s.lm))) ∧
    (∀ (e : BarEv) (u : Tid) (life : Nat), (s.barEvs.find? fun (x : BarEv) => decide (x.id = e.id)) = some e →
      e.kind = .arrive u life →
      let w := (s.bexp e.bar).toNat
      let phase := w / 2 ^ 56 % 2
      let arrived := w / 2 ^ 32 % 2 ^ 24
      let expect := w % 2 ^ 24
      let at_ := barBit e.bar.sc e.bar.b
      (expect = 0 → ∃ t, exec (.barrierPhaseCompletes e.id) s = .next t ∧ t.bars = s.bars ∧ (t.th u).arrived = (s.th u).arrived ∧
        t.mem = s.mem ∧ t.lm = s.lm) ∧
      (expect ≠ 0 →
      ∃ t, exec (.barrierPhaseCompletes e.id) s = .next t ∧ t.mem = s.mem ∧ t.lm = s.lm ∧
        (s.sameLife e.bar u life = true → bitAt (t.th u).arrived at_ = true ∧ bitAt (t.th u).phases at_ = decide (phase = 1)) ∧
        (s.sameLife e.bar u life = false → t.thr = s.thr) ∧
        (t.bexp e.bar).toNat = (if arrived + 1 = expect then (1 - phase) * 2 ^ 56 + expect
          else phase * 2 ^ 56 + (arrived + 1) % 2 ^ 24 * 2 ^ 32 + expect) ∧
        (arrived + 1 = expect → ∃ f ∈ t.barEvs, f.bar = e.bar ∧ f.kind = .release (decide (phase = 1)) ∧
          f.due = s.inTurns u.quad (barTurns e.bar.sc)))) ∧
    ∀ (e : BarEv) (phase : Bool), (s.barEvs.find? fun (x : BarEv) => decide (x.id = e.id)) = some e → e.kind = .release phase →
      (s.thr.map Prod.fst).Nodup →
      let at_ := barBit e.bar.sc e.bar.b
      let woken := fun (u : Tid) => u ∈ s.thr.map Prod.fst ∧ (s.th u).run = .waiting (.bar e.bar.sc e.bar.b) ∧
        s.barId (s.coreId u) e.bar.sc e.bar.b = e.bar ∧ bitAt (s.th u).arrived at_ = true ∧
        bitAt (s.th u).phases at_ = phase ∧ s.barFlight u e.bar = false
      ∃ t, exec (.barrierPhaseCompletes e.id) s = .next t ∧ t.bars = s.bars ∧ t.mem = s.mem ∧ t.lm = s.lm ∧
        (∀ x ∈ t.barEvs, x.id ≠ e.id) ∧
        ∀ u, (woken u → (s.th u).passed (t.th u) ∧ (s.th u).keepsRegs (t.th u) 0 ∧ bitAt (t.th u).arrived at_ = false) ∧
          (¬ woken u → t.th u = s.th u)

/-- 07 R225: a lock on a line that the L2 holds, within the quota, gives status 0, as does one that is held already, whoever holds it;
a launch at its quota in the slice gets 1, and a set with twelve ways held 2; the launch that holds a lock gives it up. -/
def Obligations.LineLocks : Prop :=
  ∀ (s : State) (d : WReg) (a : SSrc) (l : L2Line) (id : Nat) (y : Launch),
    let x := (s.valS a.reg).toNat
    let c := s.coreId s.cur
    let die := dieOf c.quad
    x < 2 ^ 56 → s.leased c x 1 rR = true → (s.core c).launch = some id → tget? s.launches id = some y →
    s.l2Find die (x / 64) = some l → s.sliceDown die (x / 64) = false → l.valid = BitVec.allOnes 64 →
    bitAt (s.dreg die 0x40) 63 = false →
    let mine := (s.l2.filter fun (m : L2Line) =>
      decide (m.die = die) && decide (m.line % 96 = x / 64 % 96) && decide (m.lock = some id)).length
    let answers := fun (status : Word) (lock : Option Nat) =>
      ∃ t p m, exec (.lck d a) s = .next t ∧ s.me.passed t.me ∧ s.me.keepsRegs t.me d.code ∧ t.me.pend = s.me.pend ++ [p] ∧
        p.reg.toNat = d.code ∧ p.val = .s status ∧ t.l2Find die (x / 64) = some m ∧ m.lock = lock ∧ m.pa = l.pa ∧ t.mem = s.mem
    (s.issuesMem [useS a] [d.code] →
      (l.lock = none → mine < s.lockqOf c → heldWays (s.l2Set die (x / 64)) < 12 → answers 0 (some id)) ∧
      (l.lock ≠ none → answers 0 l.lock) ∧ (l.lock = none → mine = s.lockqOf c → answers 1 none) ∧
      (l.lock = none → mine < s.lockqOf c → 12 ≤ heldWays (s.l2Set die (x / 64)) → answers 2 none)) ∧
    (s.issuesMem [useS a] [] → s.sqUsed c < 32 → l.lock = some id →
      ∃ t m, exec (.ulck a) s = .next t ∧ s.me.passed t.me ∧ s.me.keepsRegs t.me 0 ∧ t.l2Find die (x / 64) = some m ∧
        m.lock = none ∧ t.mem = s.mem ∧ t.sqUsed c = s.sqUsed c + 1)

/-- 07 R226 to R229, 04 R89, R96, R98: `ifence` empties the core's instruction cache once the slot's accesses are done, before which it
does not issue (the model's reading, log 83); `trap` faults with its code in ELEM; `fpctl` and the bank formats are read and written,
and a format of a bank that does not lie whole in the slot's windows is refused (log 105); a system register that does not exist reads
zero. -/
def Obligations.SystemInstructions : Prop :=
  ∀ s : State,
    (s.me.acqHolds = false →
      (s.ownDone s.cur ≤ s.cycle → ∃ t, exec .ifence s = .next t ∧ s.me.passed t.me ∧ s.me.keepsRegs t.me 0 ∧
        (t.core (s.coreId s.cur)).icache = [] ∧ (∀ c, c ≠ s.coreId s.cur → t.core c = s.core c) ∧
        t = { s with thr := t.thr, cores := t.cores, fills := t.fills }) ∧
      (s.cycle < s.ownDone s.cur → exec .ifence s = .next s.blockMe)) ∧
    (∀ k : BitVec 16, ∃ t, exec (.trap k) s = .next t ∧ t.me.run = .stopped .fault ∧ fieldNat t.me.frec[0] 0 16 = 0x0F ∧
      t.me.frec[1] = s.me.pc ∧ fieldNat t.me.frec[3] 0 32 = k.toNat ∧ s.me.keepsRegs t.me 0) ∧
    (∀ d : WReg, s.issues [] [d.code] →
      (s.me.fpPending = false → ∃ t, exec (.rdsr d 0) s = .next t ∧ s.passes t [] d.code ∧ s.wrote t d s.me.fp) ∧
      (∀ n : Fin 16, ∃ t, exec (.rdsr d (BitVec.ofNat 12 (0x10 + n.val))) s = .next t ∧ s.passes t [] d.code ∧
        s.wrote t d (s.bfmt s.cur.quad n.val)) ∧
      (∀ n : BitVec 12, 0x250 ≤ n.toNat → ∃ t, exec (.rdsr d n) s = .next t ∧ s.passes t [] d.code ∧ s.wrote t d 0)) ∧
    (∀ a : SSrc, s.issues [useS a] [] →
      let v := s.valS a.reg
      (s.me.fpPending = false → ∃ t, exec (.wrsr 0 a) s = .next t ∧ s.onlyThreads t ∧ s.me.passed t.me ∧
        s.me.keepsRegs t.me 0 ∧ ∀ i, bitAt t.me.fp i = (bitAt v i && (decide (i < 5) || i == 8 || i == 9 ||
          (decide (16 ≤ i) && decide (i < 21))))) ∧
      (∀ n : Fin 16, s.inWin s.cur (n.val * 0x20000) 0x20000 = true → bfRefused v = false →
        ∃ t, exec (.wrsr (BitVec.ofNat 12 (0x10 + n.val)) a) s = .next t ∧ s.me.passed t.me ∧ s.me.keepsRegs t.me 0 ∧
          (t.quad s.cur.quad).bfmt[n] = v ∧ t.bfmt s.cur.quad n.val = s.bfmt s.cur.quad n.val) ∧
      (∀ n : Fin 16, s.inWin s.cur (n.val * 0x20000) 0x20000 = false →
        ∃ t, exec (.wrsr (BitVec.ofNat 12 (0x10 + n.val)) a) s = .next t ∧ t.me.run = .stopped .fault ∧
          fieldNat t.me.frec[0] 0 16 = v.toNat % 16 * 256 + 0x09 ∧ t.quads = s.quads))

/-! ### Engine commands (08) -/

/-- 08 R234 to R237, R240 to R244, 07 R219: a `send` within its limits queues one command, with D empty until it completes; it
joins its slot's packet. The source of a ring send is read into the packet once its ACQ condition holds, and not before. A
packet's last send closes it, and its ring message, every payload byte and then the WP advance in one step, is admitted whole
where the ring has room and no earlier message waits there, after the sends that come before it, and else the slot waits; one
larger than an enabled ring raises a ring fault and is discarded with its packet. -/
def Obligations.SendIssue : Prop :=
  ∀ (s : State) (e : Eng) (dk : DKind) (srcG : Bool),
    let c := s.coreId s.cur
    let r := fun i => s.me.rdG (Fin.ofNat 32 (e.a.val + i))
    let len := (r 2).toNat
    let old := s.me.packet.getD ⟨0, 0, none, [], [], []⟩
    e.a.val ≠ 0 → e.a.val + 3 ≤ (if isSeq s.cur then 8 else 32) → s.issuesMem (engUses e 3) [e.d.code] → 1 ≤ len → len ≤ 4096 →
    s.inFlight c .send < 8 → firstFault (sendFaults dk srcG s [r 0, r 1, r 2] ++ [s.complCheck e.compl]) = none →
    old.sends < 16 → old.bytes + len ≤ 4096 →
    (dk = .ring → old.ring.isSome = true → old.ring.bind s.ringOf = s.ringOf (r 0)) →
    let ring := if dk = .ring then some (r 0) else old.ring
    let early := s.cycle < s.engReady e c .send
    -- the bytes of a local source, and the packet once they have been read
    let read := (sendSource s c false s.cur.quad (r 1).toNat len).1
    let more := fun (bs : List Byte) => old.buf ++ if dk = .ring then bs.map some ++ List.replicate (len - bs.length) none else []
    let open_ := fun (bs : List Byte) (unread : List Nat) =>
      (⟨old.sends + 1, old.bytes + len, ring, more bs, old.cmds ++ (if dk = .ring then [s.fresh] else []), unread⟩ : Packet)
    let size := old.buf.length + if dk = .ring then len else 0
    let runs := fun (last : Bool) (t : State) => exec (.send e last dk srcG) s = .next t ∧ s.me.keepsRegs t.me e.d.code ∧
      (e.d.code ≠ 0 → t.me.isFull e.d.code = false)
    let queued := fun (last : Bool) (answers : Option Word → Prop) (t : State) => runs last t ∧
      ∃ m ∈ t.cmds, m.id = s.fresh ∧ m.ins = .send e last dk srcG ∧ m.ps = [r 0, r 1, r 2] ∧ m.core = c ∧ m.eng = .send ∧
        m.tid = s.cur ∧ m.freeAt = none ∧ answers m.status
    let same := fun (t : State) => t.mem = s.mem ∧ t.lm = s.lm
    let here := dk = .ring → srcG = false ∧ ¬ early ∧ old.unread = []
    let known := fun (st : Option Word) => st = if dk = .ring then some (statusW read.code read.bytes.length) else none
    -- not the packet's last send
    (here → ∃ t, queued false known t ∧ s.me.passed t.me ∧ same t ∧
      t.me.packet = some (open_ read.bytes (if dk = .ring then [] else old.unread))) ∧
    (dk = .ring → early → old.unread = [] → ∃ t, queued false (· = none) t ∧ s.me.passed t.me ∧ same t ∧
      t.me.packet = some (open_ [] [s.fresh])) ∧
    (dk = .ring → srcG = true → ¬ early → old.unread = [] → ∃ t, runs false t ∧
      (s.lm.wf = true → ∀ y, ¬ s.inRecordRing y → ¬ s.inSavedState c y → Mem.read t.lm y = Mem.read s.lm y) ∧
      (t.me.packet = none ∧ t.me.run = .stopped .killed ∨
        ∃ bs, bs.length ≤ len ∧ t.me.packet = some (open_ bs []) ∧ queued false (fun _ => True) t)) ∧
    -- its last one, in a packet that targets no ring
    (ring = none → ∃ t, queued true (· = none) t ∧ s.me.passed t.me ∧ same t ∧ t.me.packet = none) ∧
    -- its last one, in a packet that targets a ring
    (s.tooBig ring size = false → ring.isSome = true → ∃ t, runs true t ∧
      (t.me.packet = none ∨ t.me.run = .waiting (.ringRoom (s.fresh + 1)))) ∧
    (∀ des : Word, s.tooBig ring size = true → ring = some des → ∃ t, exec (.send e true dk srcG) s = .next t ∧
      t.me.run = .stopped .fault ∧ fieldNat t.me.frec[0] 0 8 = 0x0C ∧ t.me.frec[1] = s.me.pc ∧ t.me.frec[2] = des ∧
      t.me.packet = none ∧ s.me.keepsRegs t.me 0 ∧ same t) ∧
    (∀ (des : Word) (q : Nat) (k : Fin 32), ring = some des → s.ringOf des = some (s.pkg, q, k) → here → old.unread = [] →
      let g := s.ring q k
      let quiet := e.rel = false ∧ ∀ x ∈ s.cmds, x.id ∈ s.fresh :: old.cmds → x.releases = false
      let waits := fun (t : State) => t.me.pc = s.me.pc ∧ t.me.run = .waiting (.ringRoom (s.fresh + 1)) ∧ same t ∧
        t.quads = s.quads ∧ ∃ m ∈ t.ringMsgs, m.id = s.fresh + 1 ∧ m.bytes = more read.bytes ∧ m.quad = q ∧ m.ring = k ∧
          m.src = s.cur ∧ m.unread = []
      g.en = true → g.world = (s.coreOf s.cur).world → s.ringAhead q k (s.fresh + 2) = false →
      (g.need size ≤ g.free (s.turn q) → ∃ t, queued true known t ∧
        (s.me.passed t.me ∧ t.me.packet = none ∧
          (quiet → t.ring q k = { g with wp := g.wp + BitVec.ofNat 32 (g.need size) } ∧ t.mem = s.mem ∧
            t.lm = (ringPut s q g (s.ringBytes q g (more read.bytes))).lm ∧ ∀ j, j ≠ k → t.ring q j = s.ring q j) ∨
         waits t ∧ ∃ x ∈ t.cmds, x.eng = .send ∧ x.freeAt = none ∧ x.due ≠ none)) ∧
      (g.free (s.turn q) < g.need size → g.need size ≤ g.count → ∃ t, queued true known t ∧ waits t))

/-- 08 R234 to R236, R246, R247, R250, R253 to R261, 02 R44: `csend`, `gath`, `scat` and the matrix commands, within the limits
of their groups and with no fault at issue, queue one command, which holds its group's values and leaves D empty; no byte of
memory changes. A `gath` or `scat` holds its slot three turns for the first element's check. A matrix command needs its core
to hold the lease and counts against it; with no lease the slot blocks and its core's request is posted. -/
def Obligations.EngineIssue : Prop :=
  ∀ (s : State) (e : Eng),
    let c := s.coreId s.cur
    let group := fun n => (rangeFrom e.a.val n).map fun i => s.me.rdG (Fin.ofNat 32 i)
    let ready := fun (n : Nat) (eng : Engine) (limits : List Word → Bool) (faults : List Word → List (Option AccFault)) =>
      e.a.val ≠ 0 ∧ e.a.val + n ≤ (if isSeq s.cur then 8 else 32) ∧ s.issuesMem (engUses e n) [e.d.code] ∧
      s.inFlight c eng < 8 ∧ limits (group n) = true ∧ firstFault (faults (group n) ++ [s.complCheck e.compl]) = none
    let queued := fun (i : Instr) (eng : Engine) (ps : List Word) (bf : Word) (t : State) => exec i s = .next t ∧
      s.me.keepsRegs t.me e.d.code ∧ (e.d.code ≠ 0 → t.me.isFull e.d.code = false) ∧ s.me.fp = t.me.fp ∧ t.mem = s.mem ∧
      t.lm = s.lm ∧ t.canopy = s.canopy ∧ t.acc = s.acc ∧ t.me.pc = s.me.pc + 2 ∧
      ∃ m ∈ t.cmds, m.id = s.fresh ∧ m.ins = i ∧ m.ps = ps ∧ m.bf = bf ∧ m.core = c ∧ m.eng = eng ∧ m.tid = s.cur ∧
        m.freeAt = none ∧ m.status = none
    (ready 5 .send csendLimits (csendFaults s) → ∃ t, queued (.csend e) .send (group 5) 0 t ∧ s.me.passed t.me) ∧
    (∀ (iw : IdxW) (op : ScatOp),
      let raws := (List.range (group 7)[1]!.toNat).map fun k =>
        BitVec.ofNat 64 (s.lmSeeN s.cur.quad ((group 7)[0]!.toNat + k * idxBytes iw) (idxBytes iw))
      let skids := fun (i : Instr) (add : Bool) =>
        ready 7 .skid (skidLimits iw add (!isSeq s.cur || decide (e.a.val = 1))) (skidFaults iw add s) →
        (∀ x ∈ raws, ∀ a, elemAddr iw (group 7) x = some a →
          elemRights s c s.curOp a (group 7)[4]!.toNat (skidRights i) = none ∧
            elemWalk s c s.curOp a (group 7)[4]!.toNat = none) →
        ∃ t, queued i .skid (group 7 ++ raws) 0 t ∧ t.me.run = .waiting .check ∧ t.me.hold = s.inTurns s.cur.quad 4
      skids (.gath e iw) false ∧ skids (.scat e op iw) (isAdd op)) ∧
    (∀ (b : BitVec 4) (f : Bool),
      let bank := fun n => s.bankFmt (grp (group n) 0)
      let rows := fun (k n : Nat) => let r := bank 5
        let len := rowBytes (bfFmt r) (grp (group 5) k).toNat
        s.rowFaults r (rowAddrs r (grp (group 5) 0) (grp (group 5) 1) (grp (group 5) 3).toNat len) len ++
          [guardAcc (decide (n = 0) && matClass (bfFmt r) == 0) ⟨0x09, bfFmt r, (grp (group 5) 0).toNat, 0⟩]
      let matrix := fun (i : Instr) (n : Nat) (limits : List Word → Bool) (faults : List Word → List (Option AccFault))
          (bf : Word) => ready n .mat limits faults →
        (s.leaseOpen c = true → ∃ t, queued i .mat (group n) bf t ∧ s.me.passed t.me ∧
          (t.lease c.quad).cmds = (s.lease c.quad).cmds + 1 ∧ (t.lease c.quad).holder = some c.core) ∧
        (s.leaseOpen c = false → bitAt (s.lease c.quad).giving c.core.val = false →
          ∃ t, exec i s = .next t ∧ t.me.run = .blocked ∧ t.me.pc = s.me.pc ∧ t.cmds = s.cmds ∧
            bitAt (t.lease c.quad).posted c.core.val = true)
      matrix (.mzero e) 2 (fun ps => decide ((grp ps 0).toNat ≤ 127 ∧ 1 ≤ (grp ps 1).toNat ∧
        (grp ps 0).toNat + (grp ps 1).toNat ≤ 128)) (fun _ => []) 0 ∧
      matrix (.mbld e) 5 (fun ps => decide (1 ≤ (grp ps 3).toNat ∧ (grp ps 3).toNat ≤ 128) &&
        depthOk (bfFmt (bank 5)) (grp ps 2).toNat && rowLenOk (bank 5) (grp ps 2).toNat &&
        sliceFits (grp ps 4).toNat (rowBytes (bfFmt (bank 5)) (grp ps 2).toNat)) (fun _ => rows 2 0) (bank 5) ∧
      matrix (.mma e b f) 6 (mmaLimits b.toNat false s) (mmaFaults b.toNat false s) (bank 6) ∧
      matrix (.mmas e b f) 7 (mmaLimits b.toNat true s) (mmaFaults b.toNat true s) (bank 7) ∧
      matrix (.mcmpr e b) 4 (mcmprLimits b.toNat) (fun _ => []) 0 ∧
      matrix (.mst e f) 5 (fun ps => decide (1 ≤ (grp ps 3).toNat ∧ 1 ≤ (grp ps 4).toNat ∧ (grp ps 4).toNat ≤ 128 ∧
        (grp ps 2).toNat + (grp ps 3).toNat ≤ if bfFmt (bank 5) = 8 then 64 else 128) &&
        rowLenOk (bank 5) (grp ps 4).toNat) (fun _ => rows 4 1) (bank 5))

/-- 08 R237, R242, R243, R246 to R253: at its completion a command performs its effect, then its completion action, and D is full
with its status in the next turn, when its place is free again (stated while its core still runs the launch that issued it; log
80 says what the model does after that). A `send` moves its bytes; a `csend` writes its tile and counts
the version up, or, where the version is not the one expected, or reads as poison, writes nothing and says so; a command of the array
does what `Obligations.MatrixArray` says of it, and `mzero` clears its rows. A `gath` of one element lands it with its status, zeros
where its index names none or it has failed at issue; a `scat` stores it, or adds its word, at its home. A message that waits for its
ring is admitted once there is room and those before it have gone in, and refused where the ring is disabled or another world's. -/
def Obligations.CommandCompletion : Prop :=
  (∀ (s : State) (m : Cmd) (e : Eng), (s.cmds.find? fun (x : Cmd) => decide (x.id = m.id) && x.freeAt.isNone) = some m →
    (∃ d, m.due = some d ∧ d ≤ s.cycle) → m.status = none → m.d ≠ 0 → e.rel = false → m.own = none → s.lm.wf = true →
    let q := m.core.quad
    let p := fun i => (grp m.ps i).toNat
    let w := (s.core m.core).world
    let ends := fun (status : Word) (t : State) => exec (.commandCompletion m.id) s = .next t ∧ t.mem = s.mem ∧
      (∀ x ∈ t.cmds, x.id = m.id → x.freeAt = some (s.inTurns q 1) ∧ x.status = some status) ∧
      (∀ y ∈ (s.th m.tid).pend, y.kind = .engine m.id → ∃ z ∈ (t.th m.tid).pend, z.reg = y.reg ∧ z.val = .s status ∧
        z.due = some (s.inTurns q 1)) ∧ (s.th m.tid).keepsRegs (t.th m.tid) 0 ∧ ∀ u, u ≠ m.tid → t.th u = s.th u
    (m.eng = .mat → e.compl = .none → engOf m.ins = some e →
      (∀ a b c d, m.ins ≠ .send a b c d) → m.ins ≠ .csend e → (∀ iw, m.ins ≠ .gath e iw) → (∀ o iw, m.ins ≠ .scat e o iw) →
      let r := matPayload s m
      ∃ t, exec (.commandCompletion m.id) s = .next t ∧ t.acc = r.2.acc ∧ t.lm = r.2.lm ∧ t.canopy = r.2.canopy ∧ t.mem = r.2.mem ∧
        (∀ x ∈ t.cmds, x.id = m.id → x.freeAt = some (s.inTurns q 1) ∧ x.status = some (matStatus r.1)) ∧
        ∀ u, u ≠ m.tid → t.th u = r.2.th u) ∧
    (m.ins = .mzero e → m.eng = .mat → e.compl = .none → cwf 0 s.acc = true → ∃ t, ends 0 t ∧ t.lm = s.lm ∧ t.canopy = s.canopy ∧
      ∀ row col, row < 128 → col < 128 → t.accAt m.core row col =
        if p 0 ≤ row ∧ row < p 0 + p 1 then 0 else s.accAt m.core row col) ∧
    (∀ last : Bool, m.ins = .send e last .loc false → m.eng = .send → ∀ dq off,
      s.quadAddr q (grp m.ps 0) = some (s.pkg, dq, off) → s.qwinTakes dq w off (p 2) = true → s.lmBad q (p 1) (p 2) = false →
      let lo := dq * 0x200000 + off
      (e.compl = .none → ∃ t, ends (BitVec.ofNat 64 (p 2 % 2 ^ 32 * 2 ^ 32)) t ∧
        (∀ i, i < p 2 → Mem.read t.lm (lo + i) = Mem.read s.lm (q * 0x200000 + p 1 + i)) ∧
        ∀ a, a < lo ∨ lo + p 2 ≤ a → Mem.read t.lm a = Mem.read s.lm a) ∧
      (∀ x y, e.compl = .st x y → ∃ t, ends (BitVec.ofNat 64 (p 2 % 2 ^ 32 * 2 ^ 32)) t ∧
        let word := q * 0x200000 + m.tgt.toNat
        Mem.readN t.lm word 4 = m.val.toNat % 2 ^ 32 ∧
        ∀ a, (a < lo ∨ lo + p 2 ≤ a) → (a < word ∨ word + 4 ≤ a) → Mem.read t.lm a = Mem.read s.lm a)) ∧
    (m.ins = .csend e → m.eng = .send → e.compl = .none → ∀ dq off,
      s.quadAddr q (grp m.ps 0) = some (s.pkg, dq, off) → s.qwinTakes dq w off (p 2) = true → s.qwinTakes dq w (p 4) 4 = true →
      s.lmBad q (p 1) (p 2) = false → (p 4 + 4 ≤ off ∨ off + p 2 ≤ p 4) →
      let lo := dq * 0x200000 + off
      let ver := dq * 0x200000 + p 4
      let now := Mem.readN s.lm ver 4
      (s.lmBad dq (p 4) 4 = true → ∃ t, ends 0x400 t ∧ t.lm = s.lm) ∧
      (s.lmBad dq (p 4) 4 = false → now = p 3 % 2 ^ 32 → ∃ t, ends (BitVec.ofNat 64 (p 2 % 2 ^ 32 * 2 ^ 32)) t ∧
        (∀ i, i < p 2 → Mem.read t.lm (lo + i) = Mem.read s.lm (q * 0x200000 + p 1 + i)) ∧
        Mem.readN t.lm ver 4 = (now + 1) % 2 ^ 32 ∧
        ∀ a, (a < lo ∨ lo + p 2 ≤ a) → (a < ver ∨ ver + 4 ≤ a) → Mem.read t.lm a = Mem.read s.lm a) ∧
      (s.lmBad dq (p 4) 4 = false → now ≠ p 3 % 2 ^ 32 →
        ∃ t, ends (BitVec.ofNat 64 (now % 2 ^ 32 * 2 ^ 32 + 0x100)) t ∧ t.lm = s.lm))) ∧
  (∀ (s : State) (m : Cmd) (e : Eng) (iw : IdxW) (raw : Word),
    (s.cmds.find? fun (x : Cmd) => decide (x.id = m.id) && x.freeAt.isNone) = some m → (∃ d, m.due = some d ∧ d ≤ s.cycle) →
    m.status = none → m.eng = .skid → e.rel = false → e.compl = .none → m.own = none → s.lm.wf = true → s.mem.wf = true →
    let q := m.core.quad
    let p := fun i => (grp m.ps i).toNat
    let size := p 4
    let land := q * 0x200000 + p 5
    let room := (size + 63) / 64 * 64
    let stat := q * 0x200000 + p 6
    m.ps.drop 7 = [raw] → p 1 = 1 → 1 ≤ size → size ≤ 64 → stat < land ∨ land + room ≤ stat →
    let ends := fun (status : Byte) (n : Word) (t : State) => exec (.commandCompletion m.id) s = .next t ∧
      Mem.read t.lm stat = status ∧ ∀ x ∈ t.cmds, x.id = m.id → x.freeAt = some (s.inTurns q 1) ∧ x.status = some n
    let landed := fun (bs : List Byte) (t : State) =>
      (∀ i, i < room → Mem.read t.lm (land + i) = bs.getD i 0) ∧
      ∀ a, (a < land ∨ land + room ≤ a) → a ≠ stat → Mem.read t.lm a = Mem.read s.lm a
    (m.ins = .gath e iw →
      (∀ st, m.pre.getD 0 none = some st → ∃ t, ends st (if st = 0 ∨ st = 5 then 1 else 0) t ∧ landed [] t ∧ t.mem = s.mem) ∧
      (m.pre.getD 0 none = none → elemAddr iw m.ps raw = none → ∃ t, ends 5 1 t ∧ landed [] t ∧ t.mem = s.mem)) ∧
    ∀ (a : Word) (x : TLeaf) (l : MlcLine),
      -- the element lies in one line, whose leaf is in the translation cache with D set, and which its home MLC holds
      m.pre.getD 0 none = none → elemAddr iw m.ps raw = some a → a.toNat % 64 + size ≤ 64 →
      let die := dieOf q
      (s.tcache.find? fun (y : TLeaf) => decide (y.die = die) && decide (y.va ≤ a.toNat) && decide (a.toNat < y.va + y.span)) = some x →
      s.groupOk ⟨some die, some q⟩ x.comp = true → leafIO x.leaf = false → Mem.readN s.mem x.at_ 8 / 8 % 2 = 1 →
      s.l2Find die (a.toNat / 64) = none →
      let line := (x.pa + 64 * (a.toNat / 64) % x.span) / 64
      let home := x.pa + 64 * (a.toNat / 64) % x.span + a.toNat % 64
      x.pa % 64 = 0 → x.span % 64 = 0 → s.mlcFind line = some l → l.kdom = leafKdom x.leaf → l.poison = false → l.due ≤ s.inTurns q 0 →
      s.rootUp line = true → s.domainDead (leafKdom x.leaf) = false → (∀ w, (line, w) ∉ s.lost) →
      let source := Mem.bytes s.lm land size
      let stores := fun (bs : List Byte) (t : State) => Mem.bytes t.mem home size = bs ∧
        ∀ y, y < home ∨ home + size ≤ y → Mem.read t.mem y = Mem.read s.mem y
      (m.ins = .gath e iw → ∃ t, ends 0 1 t ∧ landed (Mem.bytes s.mem home size) t ∧ t.mem = s.mem) ∧
      (m.ins = .scat e .st iw → s.lmBad q (p 5) size = false → ∃ t, ends 0 1 t ∧ stores source t) ∧
      (m.ins = .scat e .addi iw → s.lmBad q (p 5) size = false → size = 4 →
        ∃ t, ends 0 1 t ∧ stores (natLE 4 ((Mem.readN s.mem home 4 + leNat source) % 2 ^ 32)) t)) ∧
  (∀ (s : State) (m : RingMsg) (k : Nat),
    (s.ringMsgs.find? fun (y : RingMsg) => decide (y.id = m.id)) = some m → m.due ≤ s.cycle → m.pkg = s.pkg → m.unread = [] →
    m.arr = some k → (s.th m.src).run = .waiting (.ringRoom m.id) →
    let r := s.ring m.quad m.ring
    let need := r.need m.bytes.length
    (r.en = false → r.world = (s.coreOf m.src).world → ∃ t, exec (.ringAdmit m.id) s = .next t ∧
      (s.th m.src).passed (t.th m.src) ∧ (t.th m.src).packet = none ∧ t.lm = s.lm ∧ t.quads = s.quads ∧
      (∀ y ∈ t.ringMsgs, y.id ≠ m.id) ∧ ∀ y ∈ t.cmds, y.id ∈ m.cmds → y.status = some 0x200 ∧ y.due = some s.cycle) ∧
    (r.world ≠ (s.coreOf m.src).world → ∃ t, exec (.ringAdmit m.id) s = .next t ∧ (s.th m.src).passed (t.th m.src) ∧
      (∀ y ∈ t.cmds, y.id ∈ m.cmds → y.status = some 0x200) ∧
      t.lm = (violation s (s.coreOf m.src).vcore (s.coreOf m.src).world 4 m.des).lm) ∧
    (r.en = true → r.world = (s.coreOf m.src).world →
    (need ≤ r.free (s.turn m.quad) → s.ringAhead m.quad m.ring k = false → s.gateOpen (m.gate.getD (s.gateOf m)) = true →
      s.ringScopes m = [.quad] → ∃ t, exec (.ringAdmit m.id) s = .next t ∧ (s.th m.src).passed (t.th m.src) ∧
      (t.th m.src).packet = none ∧ t.ring m.quad m.ring = { r with wp := r.wp + BitVec.ofNat 32 need } ∧
      t.lm = (ringPut s m.quad r (s.ringBytes m.quad r m.bytes)).lm ∧ (∀ y ∈ t.ringMsgs, y.id ≠ m.id) ∧ t.mem = s.mem) ∧
    (r.free (s.turn m.quad) < need ∨ s.ringAhead m.quad m.ring k = true → exec (.ringAdmit m.id) s = .next s)))

/-- 08 R254 to R260, 04 R112 to R118, 10 R293, 18 R414, 02 R44: a one-row `mma` or `mmas`, in every class of formats, gives every one of
its 128 output elements the value of R112 over its incoming accumulator, or over zero, in FP64 that of R115, and leaves the core's
other rows. It reads each byte of B in the cycle that it takes it (log 117): a send of that cycle or a later one has not changed it
yet. A poisoned byte cuts it. `mbld` puts row j into slice j, `mcmpr` each slice's kept values and metadata, and a one-row `mst`
the encoded row, with the accumulators cleared where it says so. The lease goes, in the cyclic order after its last
holder, to the next core with a request, and a grant that is over passes between commands. -/
def Obligations.MatrixArray : Prop :=
  (∀ (s : State) (m : Cmd) (e : Eng) (b : Nat) (zero : Bool), 2 ≤ b → b ≤ 8 → cwf 0 s.acc = true →
    let q := m.core.quad
    let p := fun i => (grp m.ps i).toNat
    let k := p 2
    let f := bfFmt m.bf
    let a := p 0
    let r := matPayload s m
    let rowA := s.lmBytes q a (rowBytes f k)
    let A := rowVals f k (if f = 6 then s.bandAt q m.bf a else 0) rowA
    let keeps := r.2.mem = s.mem ∧ r.2.lm = s.lm ∧ r.2.canopy = s.canopy
    let incoming := fun (row col : Nat) => if zero then 0 else s.accAt m.core row col
    let sound := fun (sparse : Bool) => s.lmBad q a (rowBytes f k) = false ∧ s.bandBad q m.bf a = false ∧
      ∀ j, j < 128 → ((s.mmaSlice m b sparse 0 j).1 ++ (s.mmaSlice m b sparse 0 j).2).all Option.isSome = true
    let gives := fun (out : Nat → Nat → Nat) => r.1.cut = false ∧ keeps ∧ ∀ row col, row < 128 → col < 128 →
      r.2.accAt m.core row col = if row = p 4 then out row col % 2 ^ 32 else s.accAt m.core row col
    let B := fun (sparse : Bool) (col : Nat) => soundBytes (s.mmaSlice m b sparse 0 col).1
    p 3 = 1 →
    (m.ins = .mma e (BitVec.ofNat 4 b) zero → b ≠ 8 → p 4 < 128 → sound false → gives fun row col =>
      (dotDense b (incoming row col) A (rowVals b k (s.bandOf q col) (B false col))).1) ∧
    (m.ins = .mmas e (BitVec.ofNat 4 b) zero → b ≠ 8 → p 4 < 128 → sound true → gives fun row col =>
      (dotSparse b k (s.bandOf q col) (incoming row col) A (B true col) (soundBytes (s.mmaSlice m b true 0 col).2)).1) ∧
    (m.ins = .mma e 8 zero → b = 8 → p 4 < 64 → sound false → r.1.cut = false ∧ keeps ∧ ∀ row col, row < 64 → col < 128 →
      r.2.acc64 m.core row col = if row = p 4
        then (dot64 (if zero then 0 else s.acc64 m.core row col) ((List.range k).map fun i =>
          (leNat ((rowA.drop (8 * i)).take 8), leNat (((B false col).drop (8 * i)).take 8)))).1 % 2 ^ 64
        else s.acc64 m.core row col) ∧
    (m.ins = .mma e (BitVec.ofNat 4 b) zero → ¬ sound false → r.1.cut = true ∧ keeps ∧ r.2.acc = s.acc)) ∧
  (∀ (s : State) (m : Cmd) (j off n : Nat) (cyc : Nat → Nat), m.overs = [] → s.canBad m.core.quad j off n = false →
    s.runSlice m j off n cyc = (s.sliceBytes m.core.quad j off n).map some) ∧
  (∀ (s : State) (m : Cmd) (a now at_ : Nat) (old : Option Byte), m.overs = [(a, at_, old)] →
    s.canSee m now a = if now ≤ at_ then old else if s.canPoison.contains (a / 8) then none else some (Mem.read s.canopy a)) ∧
  (∀ (s : State) (m : Cmd) (e : Eng), s.canopy.wf = true → s.lm.wf = true → cwf 0 s.acc = true →
    let q := m.core.quad
    let p := fun i => (grp m.ps i).toNat
    let r := matPayload s m
    let fmt := bfFmt m.bf
    (m.ins = .mbld e →
      let len := rowBytes fmt (p 2)
      let row := fun (i : Nat) => (grp m.ps 0 + BitVec.ofNat 64 i * if isFp4 fmt then BitVec.ofNat 64 len else grp m.ps 1).toNat
      p 3 ≤ 128 → p 4 + len ≤ 0x8000 → (∀ i, i < p 3 → s.lmBad q (row i) len = false ∧ s.bandBad q m.bf (row i) = false) →
      r.1 = ⟨0, false⟩ ∧ r.2.lm = s.lm ∧ r.2.mem = s.mem ∧ r.2.acc = s.acc ∧
      (∀ i o, i < p 3 → o < len → Mem.read r.2.canopy (q * 0x400000 + i * 0x8000 + p 4 + o) = Mem.read s.lm (q * 0x200000 + row i + o)) ∧
      (∀ i, i < p 3 → fmt = 6 → r.2.bandOf q i = s.bandAt q m.bf (row i)) ∧
      ∀ y, (∀ i, i < p 3 → y < q * 0x400000 + i * 0x8000 + p 4 ∨ q * 0x400000 + i * 0x8000 + p 4 + len ≤ y) →
        Mem.read r.2.canopy y = Mem.read s.canopy y) ∧
    (∀ b : Nat, 2 ≤ b → b ≤ 7 → m.ins = .mcmpr e (BitVec.ofNat 4 b) → m.overs = [] → mcmprLimits b m.ps = true →
      (∀ j, j < 128 → s.canBad q j (p 0) (rowBytes b (p 1)) = false) →
      r.1 = ⟨0, false⟩ ∧ r.2.lm = s.lm ∧ r.2.mem = s.mem ∧ r.2.acc = s.acc ∧ ∀ j, j < 128 →
        let out := compressSlice b (p 1) (s.bandOf q j) (s.sliceBytes q j (p 0) (rowBytes b (p 1)))
        r.2.sliceBytes q j (p 2) out.1.length = out.1 ∧ r.2.sliceBytes q j (p 3) out.2.length = out.2 ∧
        r.2.sliceBytes q j (p 0) (rowBytes b (p 1)) = s.sliceBytes q j (p 0) (rowBytes b (p 1))) ∧
    (∀ clr : Bool, m.ins = .mst e clr → p 3 = 1 → fmt < 10 → isFp4 fmt = false →
      let wide := fmt = 8
      let first := p 2
      let rows := if wide then [2 * first, 2 * first + 1] else [first]
      let n := p 4
      let w := fmtWidth fmt
      let enc := fun (j : Nat) => let x := s.accAt m.core first j
        if wide then (s.acc64 m.core first j, 0) else if 2 ≤ fmt ∧ fmt ≤ 5 then elemEnc fmt (bitAt m.bf 4) (bitAt m.bf 5) x else (x, 0)
      let at_ := q * 0x200000 + p 0
      (∀ i ∈ rows, (s.core m.core).accPoison.getLsbD i = false) → (∀ i ∈ rows, i < 128) → n ≤ 128 →
      r.1 = ⟨(List.range n).foldl (fun acc j => acc ||| (enc j).2) 0, false⟩ ∧ r.2.mem = s.mem ∧ r.2.canopy = s.canopy ∧
      (∀ j, j < n → Mem.readN r.2.lm (at_ + w * j) w = (enc j).1 % 2 ^ (8 * w)) ∧
      (∀ y, y < at_ ∨ at_ + w * n ≤ y → Mem.read r.2.lm y = Mem.read s.lm y) ∧
      ∀ row col, row < 128 → col < 128 → r.2.accAt m.core row col = if clr ∧ row ∈ rows then 0 else s.accAt m.core row col)) ∧
  (∀ (s : State) (q : Nat) (i : Nat),
    let l := s.lease q
    let granted := fun (h : Fin 4) (j : Instr) => ∃ t, exec j s = .next t ∧ (t.lease q).holder = some (Fin.ofNat 4 (h.val + i)) ∧
      (t.lease q).last = Fin.ofNat 4 (h.val + i) ∧ (t.lease q).cmds = 0 ∧ (t.lease q).since = s.cycle ∧
      t.thr = s.thr ∧ t.mem = s.mem ∧ t.lm = s.lm ∧ ∀ r, r ≠ q → t.quad r = s.quad r
    let next := fun (h : Fin 4) => (∀ j, 1 ≤ j → j < i → bitAt l.posted ((h.val + j) % 4) = false) ∧
      bitAt l.posted ((h.val + i) % 4) = true
    (1 ≤ i → i ≤ 4 → l.holder = none → next l.last → granted l.last (.leaseGrant q)) ∧
    (∀ h, 1 ≤ i → i ≤ 3 → l.holder = some h → s.matRunning q = false → 64 ≤ l.cmds ∨ 32768 ≤ s.cycle - l.since → next h →
      granted h (.leaseExpiry q)) ∧
    (∀ h, l.holder = some h → s.matRunning q = true → exec (.leaseExpiry q) s = .next s))

/-- 08 R262 to R264: the range deque. `dpush` adds the newest range, refuses an empty one with status 2 and a full deque with
status 1; `dpop` takes the newest; `dsplit` halves the oldest; `dlen` counts. With nothing of its own a core takes the upper
half of the oldest range of the next sibling that has one, two turns later; siblings whose deque belongs to another launch are
passed over (log 68, DEDUCED). -/
def Obligations.RangeDeque : Prop :=
  ∀ s : State,
    let c := s.coreId s.cur
    let Q := (s.core c).deque
    let leaves := fun (i : Instr) (deque : List Word) (t : State) => exec i s = .next t ∧ s.me.passed t.me ∧
      s.me.keepsRest t.me ∧ (t.core c).deque = deque ∧ (∀ e, e ≠ c → t.core e = s.core e) ∧
      t = { s with thr := t.thr, cores := t.cores }
    (∀ (d : WReg) (a : SSrc), s.issues [useS a] [d.code] →
      let b := (s.valS a.reg).toNat % 2 ^ 32
      let e := (s.valS a.reg).toNat / 2 ^ 32
      ∃ t, leaves (.dpush d a) (if b < e ∧ Q.length < 32 then Q ++ [s.valS a.reg] else Q) t ∧ s.me.keepsRegs t.me d.code ∧
        s.wrote t d (if e ≤ b then 2 else if 32 ≤ Q.length then 1 else 0)) ∧
    (∀ d : WReg, s.issues [] [d.code] →
      (∃ t, leaves (.dlen d) Q t ∧ s.me.keepsRegs t.me d.code ∧ s.wrote t d (BitVec.ofNat 64 Q.length)) ∧
      (Q = [] → ∃ t, leaves (.dsplit d) Q t ∧ s.me.keepsRegs t.me d.code ∧ s.wrote t d 1) ∧
      ∀ w rest, Q = w :: rest →
        let b := w.toNat % 2 ^ 32
        let e := w.toNat / 2 ^ 32
        let m := b + (e - b) / 2
        ∃ t, leaves (.dsplit d) (if b + 2 ≤ e ∧ Q.length < 32
            then BitVec.ofNat 64 (m * 2 ^ 32 + b) :: BitVec.ofNat 64 (e * 2 ^ 32 + m) :: rest else Q) t ∧
          s.me.keepsRegs t.me d.code ∧ s.wrote t d (if e < b + 2 then 1 else if 32 ≤ Q.length then 2 else 0)) ∧
    (∀ (d d1 : Fin 32), d ≠ 0 → d1.val = d.val + 1 → s.issues [] [d.val, d1.val] →
      (∀ w older, Q = older ++ [w] → ∃ t, leaves (.dpop d) older t ∧ t.me.rdG d = w ∧ t.me.rdG d1 = 0 ∧
        ∀ k, k ≠ d.val → k ≠ d1.val → t.me.holds k = s.me.holds k) ∧
      (∀ (n i : Nat) (l : Launch) (w : Word) (rest : List Word), Q = [] → (s.core c).launch = some n →
        tget? s.launches n = some l → s.withheld c.quad = false → 1 ≤ i → i ≤ 3 →
        let sibling := fun (j : Nat) => ({ quad := c.quad, core := Fin.ofNat 4 (c.core.val + j) } : Cid)
        (∀ j, 1 ≤ j → j < i → s.hasWork n (sibling j) = false) → (s.core (sibling i)).launch = some n →
        (s.core (sibling i)).deque = w :: rest →
        let b := w.toNat % 2 ^ 32
        let e := w.toNat / 2 ^ 32
        let h := (e - b + 1) / 2
        ∃ t p q, exec (.dpop d) s = .next t ∧ s.me.passed t.me ∧ t.me.pend = s.me.pend ++ [p, q] ∧ p.reg.toNat = d.val ∧
          q.reg.toNat = d1.val ∧ p.val = .s (BitVec.ofNat 64 (e * 2 ^ 32 + (e - h))) ∧ q.val = .s 0 ∧
          p.due = some (s.inTurns s.cur.quad 2) ∧ q.due = p.due ∧
          (t.core (sibling i)).deque = (if h = e - b then rest else BitVec.ofNat 64 ((e - h) * 2 ^ 32 + b) :: rest) ∧
          ∀ k, k ≠ sibling i → t.core k = s.core k))

/-! ### What befalls a thread (02, 06, 07, 19) -/

/-- 02 R34, R37, R38, R47, R49, R54, 06 R163, R169, 07 R231, R493, 19 R442: the transitions that come to a thread and not from
its own heads: a line enters its buffer; a head that is no instruction, an armed breakpoint and a deferred failure stop it with
a record; an enabled floating-point event parks it with a message, and of a slot that has stopped only sends the message, with
the pc that it would resume at; a store is performed, and its slices log it; a prefetched line enters the instruction cache, the
L1 or the L2 that it was asked for; a broadcast sends one line to every masked slot; a supervisor's message is admitted, waits
while its ring is full, or is dropped with a violation record of KIND 4. -/
def Obligations.ThreadEvents : Prop :=
  ∀ (s : State) (t : Tid),
    let x := s.th t
    let k := s.core (s.coreId t)
    let others := fun (u : State) => ∀ w, w ≠ t → u.th w = s.th w
    let parkMsg : Word := BitVec.ofNat 64
      (k.vcore.toNat * 2 ^ 48 + k.world.toNat * 2 ^ 36 + t.unit.val * 2 ^ 16 + x.parkEv.toNat * 256 + 0x80)
    (∀ (f : Fetch) (data : Vector Half 32), x.fetch = some f → f.data = some data → f.fate = .ok → f.due ≤ s.cycle →
      lineLegal data (isSeq t) = true → f.target.toNat % 2 = 0 → 1 ≤ f.target.toNat % 64 / 2 →
      f.target.toNat % 64 / 2 ≤ lineNH data →
      ∃ u, exec (.lineEntersBuffer t) s = .next u ∧ u.th t = { x with line := data, pc := f.target, fetch := none, run := .running } ∧
        others u ∧ u = { s with thr := u.thr }) ∧
    (∀ h : Half, t = s.cur → ∃ u, exec (.illegalHead h) s = .next u ∧ (u.th t).run = .stopped .fault ∧
      fieldNat (u.th t).frec[0] 0 16 = 0x03 ∧ (u.th t).frec[1] = x.pc ∧ x.keepsRegs (u.th t) 0 ∧ others u ∧ u.mem = s.mem) ∧
    (∀ n, s.breakAt t = some n → ∃ u, exec (.breakpointStop t) s = .next u ∧ (u.th t).run = .stopped .fault ∧
      fieldNat (u.th t).frec[0] 0 16 = 0x0F ∧ (u.th t).frec[1] = x.pc ∧
      fieldNat (u.th t).frec[3] 0 32 = (0x80000000 + n) % 2 ^ 32 ∧ x.keepsRegs (u.th t) 0 ∧ others u ∧ u.mem = s.mem) ∧
    (∀ (f : Failure) (r : BitVec 6) (op : BitVec 7), x.deferred = some (f, r, op) → f.ends = none → x.run = .running →
      x.xbr = none → x.lanes = 0 → x.fetch = none → x.packet = none →
      ∃ u, exec (.deferredFault t) s = .next u ∧ (u.th t).run = .stopped .fault ∧ (u.th t).deferred = none ∧
        fieldNat (u.th t).frec[0] 0 8 = f.cause.toNat ∧ (u.th t).frec[1] = x.pc ∧ (u.th t).frec[2] = f.addr ∧
        x.keepsRegs (u.th t) 0 ∧ others u ∧ bitAt (u.core (s.coreId t)).kzfp t.unit.val = true ∧ u.mem = s.mem) ∧
    (x.parkEv ≠ 0 → x.run = .running → x.xbr = none → x.lanes = 0 → x.fetch = none → x.deferred = none →
      ∃ u m, exec (.fpPark t) s = .next u ∧ (u.th t).run = .stopped .parked ∧ (u.th t).pc = x.pc ∧ (u.th t).parkEv = 0 ∧
        x.keepsRegs (u.th t) 0 ∧ others u ∧ u.sups = s.sups ++ [m] ∧ m.des = s.superOf (s.coreId t) ∧ m.w1 = x.pc ∧
        m.w0 = parkMsg ∧ m.world = k.world ∧
        u = { s with thr := u.thr, sups := u.sups, fresh := u.fresh, agenda := u.agenda }) ∧
    (∀ (why : Reason) (pc : Word), x.parkEv ≠ 0 → x.run = .stopped why →
      pc = (match why with
        | .fault => x.frec[1]
        | _ => x.pc) → x.xbr = none → x.lanes = 0 → x.fetch = none → x.deferred = none →
      ∃ u m, exec (.fpPark t) s = .next u ∧ u.th t = { x with parkEv := 0 } ∧ others u ∧ u.sups = s.sups ++ [m] ∧
        m.des = s.superOf (s.coreId t) ∧ m.w0 = parkMsg ∧ m.w1 = pc ∧ m.world = k.world) ∧
    (∀ f : Fill, (s.fills.find? fun (y : Fill) => decide (y.id = f.id)) = some f →
      let here := s.l1Home f.core f.line
      let arrives := fun (u : State) => exec (.prefetchFillArrives f.id) s = .next u ∧ (∀ y, y ∈ u.fills ↔ y ∈ s.fills ∧ y.id ≠ f.id)
      (f.level = .icache → f.fate = .ok → ∃ u l, arrives u ∧ u.icFind f.core f.line = some l ∧ l.data = dataHalves f.data ∧
        u = { s with cores := u.cores, fills := u.fills }) ∧
      (f.level = .icache → f.fate ≠ .ok → ∃ u, arrives u ∧ u = { s with fills := u.fills }) ∧
      (∀ l : L2Line, f.level = .l1 → s.l2Find (dieOf f.core.quad) f.line = some l → l.valid = BitVec.allOnes 64 →
        s.sliceDown (dieOf f.core.quad) f.line = false → (∀ b ∈ (s.core here).l1, b.line = f.line → b.size ≠ 8) →
        ∃ u b, arrives u ∧ b ∈ (u.core here).l1 ∧ b.word = 8 * f.line ∧ b.size = 8 ∧ b.data = l.data ∧
          (∀ e, e ≠ here → u.core e = s.core e) ∧ u = { s with cores := u.cores, fills := u.fills, l2 := u.l2, l2tree := u.l2tree }) ∧
      (∀ b ∈ (s.core here).l1, f.level = .l1 → b.line = f.line → b.size = 8 → ∃ u, arrives u ∧ u = { s with fills := u.fills }) ∧
      (f.level = .l2 → ∃ u, arrives u ∧ u = { s with fills := u.fills, l2 := u.l2 } ∧ u.l2 = s.l2.map fun (l : L2Line) =>
        if l.die = dieOf f.core.quad ∧ l.line = f.line ∧ l.due ≤ s.cycle then { l with coming := 0 } else l) ∧
      (f.level = .mlc → ∃ u, arrives u ∧ u = { s with fills := u.fills })) ∧
    (∀ id : Nat, ∃ u, exec (.storePerformed id) s = .next u ∧ (∀ e : SQ, e ∈ u.sq ↔ e ∈ s.sq ∧ e.id ≠ id) ∧ u.thr = s.thr ∧
      ((∀ e ∈ s.sq, e.id = id → e.logs = [] ∨ ∀ r ∈ e.logs, bitAt (s.dreg r.req.die 0x40) 63 = false) →
        u = { s with sq := u.sq })) ∧
    (∀ (c : Cid) (line : Word) (mask : BitVec 16),
      (s.maskHalted c mask.toNat = true → mask ≠ 0 → s.leased c line.toNat 64 rX = true →
        ∃ u, exec (.broadcastDelivery c line mask) s = .next u ∧ ∀ n : Fin 16, let w := slotTid c n
          if bitAt mask n.val then
            ∃ f, (u.th w).fetch = some f ∧ f.target = line + 2 ∧ f.bcast = true ∧ (u.th w).run = .blocked ∧
              (u.th w).trips = [] ∧ (u.th w).lastLoad = none ∧ (u.th w).arrived = 0 ∧ (u.th w).binds = Vector.replicate 4 none ∧
              (s.th w).keepsRegs (u.th w) 0
          else u.th w = s.th w) ∧
      (s.maskHalted c mask.toNat = false → exec (.broadcastDelivery c line mask) s = .next s)) ∧
    (∀ (m : SupMsg) (d : Des), (s.sups.find? fun (y : SupMsg) => decide (y.id = m.id)) = some m → m.launch = none →
      s.designator true ⟨0, 0⟩ m.des = some d → d.pkg = s.pkg → bitAt m.des 23 = false →
      let n : Fin 32 := Fin.ofNat 32 d.idx
      let r := s.ring d.core.quad n
      r.en = true → r.world = m.world →
      (r.need 16 ≤ r.free (s.turn d.core.quad) → s.ringAhead d.core.quad n m.id = false →
        ∃ u, exec (.supervisorMessage m.id) s = .next u ∧ (∀ y ∈ u.sups, y.id ≠ m.id) ∧
        u.ring d.core.quad n = { r with wp := r.wp + BitVec.ofNat 32 (r.need 16) } ∧
        u.lm = (ringPut s d.core.quad r (msg16 m.w0 m.w1)).lm ∧ u.thr = s.thr ∧ u.mem = s.mem) ∧
      (r.free (s.turn d.core.quad) < r.need 16 ∨ s.ringAhead d.core.quad n m.id = true →
        exec (.supervisorMessage m.id) s = .next s)) ∧
    (∀ m : SupMsg, (s.sups.find? fun (y : SupMsg) => decide (y.id = m.id)) = some m → m.launch = none →
      (∀ d, s.designator true ⟨0, 0⟩ m.des = some d → bitAt m.des 23 = true ∨ d.pkg ≠ s.pkg ∨
        (s.ring d.core.quad (Fin.ofNat 32 d.idx)).en = false ∨ (s.ring d.core.quad (Fin.ofNat 32 d.idx)).world ≠ m.world) →
      let w0 : Word := BitVec.ofNat 64 ((supVcore m.w0).toNat * 2 ^ 48 + m.world.toNat * 2 ^ 36 + 4 * 256 + 0x84)
      ∃ u, exec (.supervisorMessage m.id) s = .next u ∧ (∀ y ∈ u.sups, y.id ≠ m.id) ∧ u.thr = s.thr ∧ u.mem = s.mem ∧
        (s.mreg 0x230 = 0 → cwf 0 s.regs = true → u.lm = s.lm ∧
          u.mreg 0x238 = setField (s.mreg 0x238) 0 32 (fieldNat (s.mreg 0x238) 0 32 + 1)) ∧
        ∀ e : Des, s.mreg 0x230 ≠ 0 → s.designator true ⟨0, 0⟩ (s.mreg 0x230) = some e → e.pkg = s.pkg →
          let n : Fin 32 := Fin.ofNat 32 e.idx
          let r := s.ring e.core.quad n
          r.en = true → r.need 16 ≤ r.free (s.turn e.core.quad) → s.ringAhead e.core.quad n s.fresh = false →
          u.lm = (ringPut s e.core.quad r (msg16 w0 m.des)).lm ∧
          u.ring e.core.quad n = { r with wp := r.wp + BitVec.ofNat 32 (r.need 16) })

/-! ### The control thread (08 R265 to R273, 02 R36 to R44) -/

/-- 02 R37 to R39, R41 to R43, 08 R267, R494: `kz.bcast`, `kz.wait`, `kz.fork` and `kz.join` pass on once every unit that they
name has stopped, and stall where they are until then; a broadcast or a fork starts each of its units with its lists empty at
the line, or at the table's PC with the preset registers, and `kz.join` waits for the set of the last fork, of which a broadcast
takes the slots that it starts (log 113, DESIGN CHOICE). A mask or an address with a bit that must be zero is an illegal instruction. -/
def Obligations.StartAndJoin : Prop :=
  ∀ (s : State) (c : Cid) (rs1 rs2 : XReg), s.hart = .ctl c →
    let h := s.ht (.ctl c)
    let a := h.rd rs1
    let b := h.rd rs2
    let done := fun (i : Instr) (t : State) => exec i s = .next t ∧
      t.ht (.ctl c) = { h with pc := h.pc + 4, instret := h.instret + 1 }
    let started := fun (u : State) (w : Tid) (pc : Word) => ∃ f, (u.th w).fetch = some f ∧ f.target = pc ∧
      (u.th w).run = .blocked ∧ (u.th w).trips = [] ∧ (u.th w).arrived = 0 ∧ (u.th w).binds = Vector.replicate 4 none
    (a.toNat % 64 = 0 → a.toNat < 2 ^ 56 → b.toNat < 2 ^ 16 →
      (s.maskHalted c b.toNat = true → ∃ t, done (.kzBcast rs1 rs2) t ∧ ∀ n : Fin 16,
        if b.toNat.testBit n.val then started t (slotTid c n) (a + 2) ∧ (s.th (slotTid c n)).keepsRegs (t.th (slotTid c n)) 0
        else t.th (slotTid c n) = s.th (slotTid c n)) ∧
      (s.maskHalted c b.toNat = true → ∃ t, done (.kzBcast rs1 rs2) t ∧
        ∀ n < 18, bitAt (t.core c).forked n = (bitAt (s.core c).forked n && !b.toNat.testBit n)) ∧
      (s.maskHalted c b.toNat = false → exec (.kzBcast rs1 rs2) s = .next s)) ∧
    (¬ (a.toNat % 64 = 0 ∧ a.toNat < 2 ^ 56 ∧ b.toNat < 2 ^ 16) →
      exec (.kzBcast rs1 rs2) s = .next (takeTrap s (.ctl c) false 2 0)) ∧
    (a.toNat < 2 ^ 18 →
      (s.allHalted (s.named18 c a.toNat) = true → ∃ t, done (.kzWait rs1) t ∧ t = { s with harts := t.harts }) ∧
      (s.allHalted (s.named18 c a.toNat) = false → exec (.kzWait rs1) s = .next s)) ∧
    (2 ^ 18 ≤ a.toNat → exec (.kzWait rs1) s = .next (takeTrap s (.ctl c) false 2 0)) ∧
    (s.allHalted (s.named18 c (s.core c).forked.toNat) = true → ∃ t, done .kzJoin t ∧ t = { s with harts := t.harts }) ∧
    (s.allHalted (s.named18 c (s.core c).forked.toNat) = false → exec .kzJoin s = .next s) ∧
    (a.toNat % 64 ≠ 0 → exec (.kzFork rs1) s = .next (takeTrap s (.ctl c) false 2 0)) ∧
    ∀ (w0 w19 : Nat) (pcs gs : List (Nat × Nat)) (s1 s2 s3 : State), a.toNat % 64 = 0 →
      forkWords s c h.priv a.toNat [0, 19] = (some [(0, w0), (19, w19)], s1) →
      let units := (List.finRange 18).filter fun u => w0.testBit u.val
      let preset := ([1, 2, 3, 4, 5, 6, 7] : List Nat).filter w19.testBit
      let good := w0 < 2 ^ 18 ∧ w19 < 2 ^ 8 ∧ w19 % 2 = 0
      (¬ good → exec (.kzFork rs1) s = .next (hartIllegal s1)) ∧
      (good → s1.allHalted (units.map (unitTid c)) = false → exec (.kzFork rs1) s = .next s1) ∧
      (good → s1.allHalted (units.map (unitTid c)) = true →
        forkWords s1 c h.priv a.toNat (units.map fun u => u.val + 1) = (some pcs, s2) →
        forkWords s2 c h.priv a.toNat (preset.map fun n => 19 + n) = (some gs, s3) →
        ∃ t, exec (.kzFork rs1) s = .next t ∧ (t.ht (.ctl c)).pc = (s3.ht (.ctl c)).pc + 4 ∧
          (t.core c).forked = BitVec.ofNat 18 w0 ∧ ∀ u ∈ units,
            (∃ v, (u.val + 1, v) ∈ pcs ∧ started t (unitTid c u) (BitVec.ofNat 64 v)) ∧
            ∀ n : Fin 32, ∀ v, (19 + n.val, v) ∈ gs → (t.th (unitTid c u)).rdG n = BitVec.ofNat 64 v)

/-- 02 R38, R44, 08 R268 to R271: the other instructions of the extension: the lease is asked for and given back; a stopped
thread's record and registers are read and written, it is resumed where its stop left it or elsewhere (its line is asked for
even when its buffer holds it: log 63, DEDUCED), and a running thread is killed, after a fault that waits at its boundary (log
74, DEDUCED); one that has stopped inside an open packet leaves the packet, whose ring sends end with CODE 5; all three clear its
fault-pending bit; a thread that runs makes all but the kill stall; a task record is read after its latency. -/
def Obligations.ControlOfThreads : Prop :=
  ∀ (s : State) (c : Cid) (rd rs1 rs2 : XReg), s.hart = .ctl c →
    let h := s.ht (.ctl c)
    let a := h.rd rs1
    let b := h.rd rs2
    let done := fun (i : Instr) (r : XReg) (v : Word) (t : State) => exec i s = .next t ∧
      t.ht (.ctl c) = { h with pc := h.pc + 4, instret := h.instret + 1, x := if r.val = 0 then h.x else h.x.set r.val v }
    let l := s.lease c.quad
    (l.holder = some c.core → bitAt l.giving c.core.val = false → ∃ t, done .kzLease 0 0 t ∧ t.thr = s.thr ∧
      bitAt (t.lease c.quad).posted c.core.val = true ∧ (t.lease c.quad).holder = l.holder) ∧
    (l.holder ≠ some c.core → bitAt l.giving c.core.val = false → ∃ t, exec .kzLease s = .next t ∧
      t.ht (.ctl c) = h ∧ bitAt (t.lease c.quad).posted c.core.val = true ∧ (t.lease c.quad).holder = l.holder) ∧
    ((∀ x ∈ s.cmds, x.eng = .mat → x.core = c → x.freeAt ≠ none) → ∃ t, done .kzUnlease 0 0 t ∧ t.thr = s.thr ∧
      (t.lease c.quad).holder ≠ some c.core ∧ bitAt (t.lease c.quad).posted c.core.val = false) ∧
    (∀ n : Fin 16, a.toNat = n.val → let u := slotTid c n
      let x := s.th u
      (x.halted = false →
        (b.toNat ≤ 3 → exec (.kzFault rd rs1 rs2) s = .next s) ∧ exec (.kzResume rs1 rs2) s = .next s) ∧
      (x.halted = true → ∀ k : Fin 4, b.toNat = k.val → ∃ t, done (.kzFault rd rs1 rs2) rd x.frec[k] t ∧
        bitAt (t.core c).kzfp n.val = false ∧ (k.val < 3 → (t.th u).frec = x.frec) ∧
        (k.val = 3 → fieldNat (t.th u).frec[3] 48 16 = 0 ∧ fieldNat (t.th u).frec[3] 0 48 = fieldNat x.frec[3] 0 48)) ∧
      (x.halted = true → rs2.val ≠ 0 → ∃ t f, done (.kzResume rs1 rs2) 0 0 t ∧ (t.th u).fetch = some f ∧ f.target = b ∧
        bitAt (t.core c).kzfp n.val = false ∧
        (t.th u).run = .blocked ∧ (t.th u).trips = [] ∧ x.keepsRegs (t.th u) 0) ∧
      (∀ pc, rs2.val = 0 → x.run = .stopped .fault ∧ pc = x.frec[1] ∨ (x.run = .stopped .parked ∨ x.run = .stopped .killed) ∧ pc = x.pc →
        ∃ t f, done (.kzResume rs1 rs2) 0 0 t ∧ (t.th u).fetch = some f ∧ f.target = pc ∧ (t.th u).run = .blocked ∧
          bitAt (t.core c).kzfp n.val = false ∧
          (t.th u).trips = x.trips ∧ (t.th u).exempt = true ∧ x.keepsRegs (t.th u) 0)) ∧
    (∀ n : Fin 16, a.toNat = 2 ^ n.val → let u := slotTid c n
      let x := s.th u
      let killed := fun (t : State) => done (.kzKill rs1) 0 0 t ∧ bitAt (t.core c).kzfp n.val = false ∧
        ∀ w, w ≠ u → t.th w = s.th w
      (x.run = .running → x.xbr = none → x.lanes = 0 → x.fetch = none → x.packet = none → s.stopsFirst u = false →
        ∃ t, killed t ∧ (t.th u).run = .stopped .killed ∧ (t.th u).pc = x.pc ∧ x.keepsRegs (t.th u) 0) ∧
      (x.run = .running → s.stopsFirst u = true → ∃ t, killed t ∧ t.th u = { x with killReq := true }) ∧
      (x.halted = true → x.packet = none → ∃ t, killed t ∧ t.thr = s.thr) ∧
      (∀ p, x.halted = true → x.packet = some p → ∃ t, killed t ∧ t.th u = { x with packet := none } ∧
        ∀ y ∈ t.cmds, y.id ∈ p.cmds → y.status = some 0x0500 ∧ y.due = some s.cycle)) ∧
    (∀ (n : Fin 16) (g : Fin 32), g ≠ 0 → a.toNat = n.val * 256 + g.val → let u := slotTid c n
      let x := s.th u
      (x.halted = false → exec (.kzRdsl rd rs1) s = .next s ∧ exec (.kzWrsl rs1 rs2) s = .next s) ∧
      (x.halted = true → x.isFull g.val = false → exec (.kzRdsl rd rs1) s = .next s) ∧
      (x.halted = true → x.isFull g.val = true → ∃ t, done (.kzRdsl rd rs1) rd (x.rdG g) t ∧ t.thr = s.thr) ∧
      (x.halted = true → ∃ t, done (.kzWrsl rs1 rs2) 0 0 t ∧ (t.th u).rdG g = b ∧ (t.th u).isFull g.val = true ∧
        x.keepsRegs (t.th u) g.val ∧ ∀ w, w ≠ u → t.th w = s.th w)) ∧
    (∀ n : Fin 4, n ≠ 0 → a.toNat = n.val → ∃ t, done (.kzTask rd rs1) rd (s.core c).task[n] t ∧ t.cores = s.cores) ∧
    (a = 0 → ∀ d,
      ((s.core c).taskDue = none → ∃ t, exec (.kzTask rd rs1) s = .next t ∧ (t.core c).taskDue = some (s.cycle + 64) ∧
        t = { s with cores := t.cores }) ∧
      ((s.core c).taskDue = some d → s.cycle < d → exec (.kzTask rd rs1) s = .next s) ∧
      ((s.core c).taskDue = some d → d ≤ s.cycle → ∃ t, done (.kzTask rd rs1) rd (takeTask s c).1[(0 : Fin 4)] t ∧
        (t.core c).task = (takeTask s c).1 ∧ (t.core c).taskDue = none ∧ t.thr = s.thr))

/-- 08 R272, R273, 15 R350 to R352 (the RV64 base itself is log 5, PRESUMED): the base's arithmetic with its word, Zba and Zbb
forms, its branches and jumps, its fences; loads, which wait for their line (log 84, DEDUCED), and stores, which the store queue
takes; `lr`, `sc` and the AMOs at the home of their line (log 61, DEDUCED); the CSR instructions; an
exception saves the pc, its cause and the level, clears the enable bit and goes to the vector; `mret` undoes it; the stall
timer's interrupt is taken when it is enabled and pending; the exit call frees its core once its slots and sequencers have
stopped; `kztcmp` and `cxipi` are written. -/
def Obligations.ControlThread : Prop :=
  (∀ (s : State) (rd rs1 rs2 : XReg) (z : Bool),
    let h := s.ht s.hart
    let n := if z then 2 else 4
    let on : Word := h.pc + BitVec.ofNat 64 n
    let writes := fun (i : RvInstr) (v pc : Word) => ∃ t, exec (.rv64 i z) s = .next t ∧
      t.ht s.hart = { h with pc := pc, instret := h.instret + 1, x := if rd.val = 0 then h.x else h.x.set rd.val v } ∧
      t = { s with harts := t.harts }
    let a := h.rd rs1
    let b := h.rd rs2
    let x : BitVec 32 := a.setWidth 32
    let y : BitVec 32 := b.setWidth 32
    let k := b.toNat % 64
    let m := b.toNat % 32
    let w := fun (v : BitVec 32) => (v.signExtend 64 : Word)
    let rot := fun (l r : Nat) => (BitVec.ofNat 64 (a.toNat * 2 ^ l) ||| BitVec.ofNat 64 (a.toNat / 2 ^ r) : Word)
    let rot32 := fun (l r : Nat) => w (BitVec.ofNat 32 (x.toNat * 2 ^ l) ||| BitVec.ofNat 32 (x.toNat / 2 ^ r))
    (∀ op : ROp, writes (.op op rd rs1 rs2) (match op with
      | .add => a + b
      | .sub => a - b
      | .sll => BitVec.ofNat 64 (a.toNat * 2 ^ k)
      | .srl => BitVec.ofNat 64 (a.toNat / 2 ^ k)
      | .sra => BitVec.ofInt 64 (a.toInt / 2 ^ k)
      | .slt => if a.toInt < b.toInt then 1 else 0
      | .sltu => if a.toNat < b.toNat then 1 else 0
      | .xor => a ^^^ b
      | .or => a ||| b
      | .and => a &&& b
      | .addw => w (x + y)
      | .subw => w (x - y)
      | .sllw => w (BitVec.ofNat 32 (x.toNat * 2 ^ m))
      | .srlw => w (BitVec.ofNat 32 (x.toNat / 2 ^ m))
      | .sraw => w (BitVec.ofInt 32 (x.toInt / 2 ^ m))
      | .mul => BitVec.ofInt 64 (a.toInt * b.toInt)
      | .mulh => BitVec.ofInt 64 (a.toInt * b.toInt / 2 ^ 64)
      | .mulhsu => BitVec.ofInt 64 (a.toInt * b.toNat / 2 ^ 64)
      | .mulhu => BitVec.ofNat 64 (a.toNat * b.toNat / 2 ^ 64)
      | .div => if b = 0 then BitVec.allOnes 64 else BitVec.ofInt 64 (a.toInt.tdiv b.toInt)
      | .divu => if b = 0 then BitVec.allOnes 64 else BitVec.ofNat 64 (a.toNat / b.toNat)
      | .rem => if b = 0 then a else BitVec.ofInt 64 (a.toInt.tmod b.toInt)
      | .remu => if b = 0 then a else BitVec.ofNat 64 (a.toNat % b.toNat)
      | .mulw => w (BitVec.ofInt 32 (x.toInt * y.toInt))
      | .divw => w (if y = 0 then BitVec.allOnes 32 else BitVec.ofInt 32 (x.toInt.tdiv y.toInt))
      | .divuw => w (if y = 0 then BitVec.allOnes 32 else BitVec.ofNat 32 (x.toNat / y.toNat))
      | .remw => w (if y = 0 then x else BitVec.ofInt 32 (x.toInt.tmod y.toInt))
      | .remuw => w (if y = 0 then x else BitVec.ofNat 32 (x.toNat % y.toNat))
      | .sh1add => BitVec.ofNat 64 (2 * a.toNat) + b
      | .sh2add => BitVec.ofNat 64 (4 * a.toNat) + b
      | .sh3add => BitVec.ofNat 64 (8 * a.toNat) + b
      | .adduw => BitVec.ofNat 64 x.toNat + b
      | .sh1adduw => BitVec.ofNat 64 (2 * x.toNat) + b
      | .sh2adduw => BitVec.ofNat 64 (4 * x.toNat) + b
      | .sh3adduw => BitVec.ofNat 64 (8 * x.toNat) + b
      | .andn => a &&& ~~~b
      | .orn => a ||| ~~~b
      | .xnor => ~~~(a ^^^ b)
      | .max => if a.toInt < b.toInt then b else a
      | .maxu => if a.toNat < b.toNat then b else a
      | .min => if a.toInt < b.toInt then a else b
      | .minu => if a.toNat < b.toNat then a else b
      | .rol => rot k (64 - k)
      | .ror => rot (64 - k) k
      | .rolw => rot32 m (32 - m)
      | .rorw => rot32 (32 - m) m) on) ∧
    (∀ op : UOp, writes (.unary op rd rs1) (match op with
      | .clz => BitVec.ofNat 64 ((List.range 64).reverse.takeWhile fun i => !bitAt a i).length
      | .ctz => BitVec.ofNat 64 ((List.range 64).takeWhile fun i => !bitAt a i).length
      | .cpop => BitVec.ofNat 64 ((List.range 64).countP fun i => bitAt a i)
      | .clzw => BitVec.ofNat 64 ((List.range 32).reverse.takeWhile fun i => !bitAt a i).length
      | .ctzw => BitVec.ofNat 64 ((List.range 32).takeWhile fun i => !bitAt a i).length
      | .cpopw => BitVec.ofNat 64 ((List.range 32).countP fun i => bitAt a i)
      | .sextb => BitVec.ofInt 64 (Int.bmod a.toNat (2 ^ 8))
      | .sexth => BitVec.ofInt 64 (Int.bmod a.toNat (2 ^ 16))
      | .zexth => BitVec.ofNat 64 (a.toNat % 2 ^ 16)
      | .orcb => BitVec.ofNat 64 (leNat ((natLE 8 a.toNat).map fun (e : Byte) => if e = 0 then 0 else 0xFF))
      | .rev8 => BitVec.ofNat 64 (leNat (natLE 8 a.toNat).reverse)) on) ∧
    (∀ (op : IOp) (i : BitVec 12), let sh := i.toNat % 64
      let sw := i.toNat % 32
      writes (.opImm op rd rs1 i) (match op with
      | .addi => a + sx i
      | .slti => if a.toInt < i.toInt then 1 else 0
      | .sltiu => if a.toNat < (sx i : Word).toNat then 1 else 0
      | .xori => a ^^^ sx i
      | .ori => a ||| sx i
      | .andi => a &&& sx i
      | .slli => BitVec.ofNat 64 (a.toNat * 2 ^ sh)
      | .srli => BitVec.ofNat 64 (a.toNat / 2 ^ sh)
      | .srai => BitVec.ofInt 64 (a.toInt / 2 ^ sh)
      | .addiw => w (x + i.signExtend 32)
      | .slliw => w (BitVec.ofNat 32 (x.toNat * 2 ^ sw))
      | .srliw => w (BitVec.ofNat 32 (x.toNat / 2 ^ sw))
      | .sraiw => w (BitVec.ofInt 32 (x.toInt / 2 ^ sw))
      | .slliuw => BitVec.ofNat 64 (x.toNat * 2 ^ sh)
      | .rori => rot (64 - sh) sh
      | .roriw => rot32 (32 - sw) sw) on) ∧
    (∀ i : BitVec 12, writes (.jalr rd rs1 i) on ((a + sx i) &&& ~~~1)) ∧
    (∀ i : BitVec 20, writes (.jal rd i) on (h.pc + 2 * sx i) ∧ writes (.lui rd i) (4096 * sx i) on ∧
      writes (.auipc rd i) (h.pc + 4096 * sx i) on) ∧
    (∀ (op : BrOp) (i : BitVec 12), ∃ t, exec (.rv64 (.branch op rs1 rs2 i) z) s = .next t ∧ t = { s with harts := t.harts } ∧
      t.ht s.hart = { h with instret := h.instret + 1, pc := if (match op with
        | .beq => decide (a = b)
        | .bne => decide (a ≠ b)
        | .blt => decide (a.toInt < b.toInt)
        | .bge => decide (b.toInt ≤ a.toInt)
        | .bltu => decide (a.toNat < b.toNat)
        | .bgeu => decide (b.toNat ≤ a.toNat)) then h.pc + 2 * sx i else on }) ∧
    (∀ (f g e : BitVec 4) (i : BitVec 12), ∃ t u, exec (.rv64 (.fence f g e rd rs1) z) s = .next t ∧ t = { s with harts := t.harts } ∧
      t.ht s.hart = { h with pc := on, instret := h.instret + 1 } ∧ exec (.rv64 (.fenceI rd rs1 i) z) s = .next u ∧
      u.ht s.hart = t.ht s.hart ∧ u = { s with harts := u.harts, cores := u.cores } ∧
      ∀ c, s.hart = .ctl c → (u.core c).ctlIcache = []) ∧
    (∀ (op : CsrOp) (r : BitVec 12) (i : BitVec 5) (old : Word), s.csrRead s.hart r.toNat = some old →
      let csrs := fun (j : RvInstr) (arg : Word) (wr : Bool) =>
        (s.csrMay s.hart r.toNat wr = true → ∃ t, exec (.rv64 j z) s = .next t ∧ (t.ht s.hart).pc = on ∧ t = { s with harts := t.harts } ∧
          (t.ht s.hart).x = (if rd.val = 0 then h.x else h.x.set rd.val old) ∧ (t.ht s.hart).priv = h.priv ∧
          (wr = false → (t.ht s.hart).csrs = h.csrs) ∧
          (wr = true → r = 0x340 → cwf 0 h.csrs = true → t.csr s.hart 0x340 = (match op with
            | .rw => arg
            | .rs => old ||| arg
            | .rc => old &&& ~~~arg) ∧ ∀ q, q ≠ 0x340 → t.csr s.hart q = s.csr s.hart q)) ∧
        (s.csrMay s.hart r.toNat wr = false → exec (.rv64 j z) s = .next (takeTrap s s.hart false 2 0))
      csrs (.csr op rd rs1 r) a (decide (op = .rw ∨ rs1.val ≠ 0)) ∧ csrs (.csri op rd i r) (i.setWidth 64) (decide (op = .rw ∨ i ≠ 0)))) ∧
  (∀ (s : State) (c : Cid) (rd rs1 rs2 : XReg) (i : BitVec 12) (z : Bool), s.hart = .ctl c →
    let hd : Hid := .ctl c
    let h := s.ht hd
    let x := h.rd rs1 + sx i
    let die := dieOf c.quad
    let now := s.inTurns c.quad 0
    let on : Word := h.pc + BitVec.ofNat 64 (if z then 2 else 4)
    let ends := fun (t : State) (v : Word) (due : Nat) => t.thr = s.thr ∧ (t.core c).deque = (s.core c).deque ∧
      t.ht hd = { h with pc := on, instret := h.instret + 1, x := if rd.val = 0 then h.x else h.x.set rd.val v, due := max h.due due }
    (∀ op : LdOp, let n := (match op with
        | .lb | .lbu => 1
        | .lh | .lhu => 2
        | .lw | .lwu => 4
        | .ld => 8)
      let ext := fun (v : Nat) => (match op with
        | .lb | .lh | .lw | .ld => BitVec.ofInt 64 (Int.bmod v (2 ^ (8 * n)))
        | .lbu | .lhu | .lwu => BitVec.ofNat 64 v : Word)
      (x.toNat % n ≠ 0 → exec (.rv64 (.load op rd rs1 i) z) s = .next (takeTrap s hd false 4 x)) ∧
      (x.toNat % n = 0 → x.toNat < 2 ^ 56 → s.hartMay c (s.effPriv hd) x.toNat n rR = true → s.ioLeaf (s.req c 0) x.toNat = none →
        let l1 := (s.core (s.l1Home c (x.toNat / 64))).l1.find? fun (b : L1Block) =>
          decide (b.word ≤ x.toNat / 8) && decide ((x.toNat + n - 1) / 8 < b.word + b.size) && decide (b.due ≤ now)
        (∀ b, l1 = some b → ∃ t, exec (.rv64 (.load op rd rs1 i) z) s = .next t ∧
          ends t (ext (dataNat b.data (x.toNat % 64) n)) (s.cycle + if s.fusedL1 c then 8 else 4)) ∧
        (∀ l : L2Line, l1 = none → s.l2Find die (x.toNat / 64) = some l → s.sliceDown die (x.toNat / 64) = false →
          byteMask (x.toNat % 64) n &&& ~~~l.valid = 0 → byteMask (x.toNat % 64) n &&& l.coming = 0 →
          ∃ t, exec (.rv64 (.load op rd rs1 i) z) s = .next t ∧
            ends t (ext (dataNat l.data (x.toNat % 64) n)) (s.inTurns c.quad 4)))) ∧
    (∀ sz : Size, let n := 2 ^ sz.code
      (x.toNat % n ≠ 0 → exec (.rv64 (.store sz rs1 rs2 i) z) s = .next (takeTrap s hd false 6 x)) ∧
      (x.toNat % n = 0 → x.toNat < 2 ^ 56 → s.hartMay c (s.effPriv hd) x.toNat n rW = true →
        (32 ≤ s.sqUsed c → exec (.rv64 (.store sz rs1 rs2 i) z) s = .next s) ∧
        ∀ l : L2Line, s.sqUsed c < 32 → s.l2Find die (x.toNat / 64) = some l → s.sliceDown die (x.toNat / 64) = false →
          s.domainDead l.kdom = false → ∃ t e, exec (.rv64 (.store sz rs1 rs2 i) z) s = .next t ∧
            t.ht hd = { h with pc := on, instret := h.instret + 1 } ∧ t.thr = s.thr ∧ t.mem = s.mem ∧
            t.seen die x.toNat n = some (l.pa + x.toNat % 64, (h.rd rs2).toNat % 2 ^ (8 * n)) ∧
            (∀ d y, d ≠ die ∨ y < x.toNat ∨ x.toNat + n ≤ y → t.seen d y 1 = s.seen d y 1) ∧
            t.sq = s.sq ++ [e] ∧ e.core = c ∧ e.lines = [x.toNat / 64] ∧ e.due = s.inTurns c.quad 4 ∧
            ∀ o g, o ≠ hd → (s.ht o).resv = some g → (t.ht o).resv = if g / 8 = x.toNat / 64 then none else some g)) ∧
    (∀ (dbl aq rl : Bool) (l : L2Line) (m : MlcLine), s.mem.wf = true →
      let a := (h.rd rs1).toNat
      let n := if dbl then 8 else 4
      let pa := l.pa + a % 64
      let old := Mem.readN s.mem pa n
      let B := (h.rd rs2).toNat % 256 ^ n
      let signed := fun (v : Nat) => Int.bmod v (256 ^ n)
      let back : Word := BitVec.ofInt 64 (signed old)
      let rmw := fun (op : AOp) => RvInstr.amo op dbl aq rl rd rs1 rs2
      (a % n ≠ 0 → ∀ op, exec (.rv64 (rmw op) z) s = .next (takeTrap s hd false (if op = .lr then 4 else 6) (h.rd rs1))) ∧
      (a % n = 0 → h.resv ≠ some (a / 8) → ∃ t, exec (.rv64 (rmw .sc) z) s = .next t ∧ t = { s with harts := t.harts } ∧
        t.ht hd = { h with pc := on, instret := h.instret + 1, resv := none, x := if rd.val = 0 then h.x else h.x.set rd.val 1 }) ∧
      (a % n = 0 → a < 2 ^ 56 → s.hartMay c (s.effPriv hd) a n rRW = true → s.ioLeaf (s.req c 0) a = none →
        s.ioLeaf (s.req c 2) a = none → s.l2Find die (a / 64) = some l → s.sliceDown die (a / 64) = false → l.dirty = 0 →
        l.lock = none → l.pin = false → s.mlcFind (l.pa / 64) = some m → m.kdom = l.kdom → s.rootUp (l.pa / 64) = true →
        m.due ≤ now → m.poison = false → (∀ w, (l.pa / 64, w) ∉ s.lost) → s.domainDead l.kdom = false →
        bitAt (s.dreg die 0x40) 63 = false →
        let does := fun (op : AOp) (new : Nat) (v : Word) (resv : Option Nat) => ∃ t, exec (.rv64 (rmw op) z) s = .next t ∧
          t.thr = s.thr ∧ (t.ht hd).pc = on ∧ (t.ht hd).x = (if rd.val = 0 then h.x else h.x.set rd.val v) ∧
          (t.ht hd).due = max h.due (s.inTurns c.quad 16) ∧ (t.ht hd).resv = resv ∧ Mem.readN t.mem pa n = new ∧
          ∀ y, y < pa ∨ pa + n ≤ y → Mem.read t.mem y = Mem.read s.mem y
        (s.hartMay c (s.effPriv hd) a n rR = true → does .lr old back (some (a / 8))) ∧
        (h.resv = some (a / 8) → does .sc B 0 none) ∧
        does .swap B back h.resv ∧ does .add ((old + B) % 256 ^ n) back h.resv ∧ does .xor (old ^^^ B) back h.resv ∧
        does .and (old &&& B) back h.resv ∧ does .or (old ||| B) back h.resv ∧
        does .min (if signed old < signed B then old else B) back h.resv ∧
        does .max (if signed old < signed B then B else old) back h.resv ∧
        does .minu (min old B) back h.resv ∧ does .maxu (max old B) back h.resv))) ∧
  (∀ (s : State), let hd := s.hart
    let h := s.ht hd
    let entered := fun (i : Instr) (cause tval : Word) => ∃ t, exec i s = .next t ∧ t.csr hd 0x341 = h.pc ∧
      t.csr hd 0x342 = cause ∧ t.csr hd 0x343 = tval ∧ (t.ht hd).priv = .m ∧ (t.ht hd).pc = s.csr hd 0x305 &&& ~~~3 ∧
      bitAt (t.csr hd 0x300) 3 = false ∧ bitAt (t.csr hd 0x300) 7 = bitAt (s.csr hd 0x300) 3 ∧
      fieldNat (t.csr hd 0x300) 11 2 = (match h.priv with
        | .u => 0
        | .s => 1
        | .m => 3) ∧ (t.ht hd).x = h.x ∧ t.thr = s.thr ∧ t.mem = s.mem
    cwf 0 h.csrs = true → s.csr hd 0x302 = 0 →
    (∀ z, entered (.rv64 .ebreak z) 3 h.pc) ∧ (∀ z w, entered (.rv64 (.illegal w) z) 2 0) ∧
    (∀ z, h.priv = .m → entered (.rv64 .ecall z) 11 0) ∧ (∀ z, h.priv = .u → h.rd 17 ≠ 0 → entered (.rv64 .ecall z) 8 0) ∧
    (∀ z, h.priv ≠ .m → entered (.rv64 .mret z) 2 0) ∧
    (∀ z, h.priv = .m → ∃ t, exec (.rv64 .mret z) s = .next t ∧ (t.ht hd).pc = s.csr hd 0x341 ∧ (t.ht hd).x = h.x ∧
      bitAt (t.csr hd 0x300) 3 = bitAt (s.csr hd 0x300) 7 ∧ bitAt (t.csr hd 0x300) 7 = true ∧
      (t.ht hd).priv = (match fieldNat (s.csr hd 0x300) 11 2 with
        | 0 => .u
        | 1 => .s
        | _ => .m) ∧ t = { s with harts := t.harts })) ∧
  (∀ (s : State) (hd : Hid), cwf 0 (s.ht hd).csrs = true →
    (s.takenInt hd ≠ some 17 → exec (.stallTimer hd) s = .next s) ∧
    (s.takenInt hd = some 17 → bitAt (s.csr hd 0x303) 17 = false → ∃ t, exec (.stallTimer hd) s = .next t ∧
      t.csr hd 0x342 = BitVec.ofNat 64 (2 ^ 63 + 17) ∧ t.csr hd 0x341 = (s.ht hd).pc ∧ (t.ht hd).priv = .m ∧
      (t.ht hd).pc = (s.csr hd 0x305 &&& ~~~3) + (if bitAt (s.csr hd 0x305) 0 then 68 else 0) ∧ (t.ht hd).x = (s.ht hd).x ∧
      t.thr = s.thr) ∧
    (∀ v, ∃ t, exec (.kztcmpWrite hd v) s = .next t ∧ t.csr hd 0x8C0 = v ∧ t = { s with harts := t.harts } ∧
      ∀ n, n ≠ 0x8C0 → t.csr hd n = s.csr hd n)) ∧
  (∀ (s : State) (q : Nat) (v : Word), cwf 0 s.regs = true → ∃ t, exec (.cxipiWrite q v) s = .next t ∧
    t.reg (quadBase q + 0x10) = v &&& 0xF ∧ t = { s with regs := t.regs } ∧
    ∀ a, a ≠ quadBase q + 0x10 → t.reg a = s.reg a) ∧
  (∀ (s : State) (c : Cid), s.hart = .ctl c →
    (s.allHalted (s.coreThreads c) = false → exec .exitCall s = .next s) ∧
    (s.allHalted (s.coreThreads c) = true → ∃ t, exec .exitCall s = .next t ∧ (t.core c).launch = none ∧
      (t.ht (.ctl c)).active = false ∧ bitAt (t.core c).qwin 63 = false ∧ t.mem = s.mem ∧ t.lm = s.lm ∧
      (∀ n : Fin 16, bitAt (t.th (slotTid c n)).pwin 63 = false) ∧ (∀ e, e ≠ c → t.core e = s.core e) ∧
      ∀ id l, (s.core c).launch = some id → tget? s.launches id = some l →
        ∃ y, tget? t.launches id = some y ∧ y.exits = l.exits + 1))

/-! ### Launches (15) -/

/-- 15 R344, R345, R347, R348, R350, R351, R356, R358, 02 R41: a post enters its queue, or sets REF or OVF; a ready head takes its cores, whose
slots are idle and whose control threads start in U mode at the block's entry with the block's address and their number (a launch
none of whose cores is still assigned to it is in no head's way: log 81, DEDUCED; one that shares a live copy pins it in that
copy's die: log 95, DESIGN CHOICE); a fork is delivered to each core, or its table faults; a launch whose cores have all ended sends
its completion message; and the quad's marks and operating point follow their rules. -/
def Obligations.Launches : Prop :=
  (∀ (s : State) (q : Nat) (addr : Word),
    let x := s.lq q
    let posted := fun (y : LQ) => ∃ t, exec (.lqpost q addr) s = .next t ∧ t = { s with lqs := t.lqs } ∧ t.lq q = y ∧
      ∀ r, r % 32 ≠ q % 32 → t.lq r = s.lq r
    (addr.toNat % 256 ≠ 0 ∨ 2 ^ 56 ≤ addr.toNat → posted { x with ref := true, rcause := 8 }) ∧
    (addr.toNat % 256 = 0 → addr.toNat < 2 ^ 56 →
      (16 ≤ x.blocks.length → posted { x with ovf := true }) ∧
      (x.blocks.length < 16 → posted { x with blocks := x.blocks ++ [addr] }))) ∧
  (∀ (s : State) (q : Nat) (a : Word) (rest blk : List Word), s.lqOn q = true → (s.lq q).blocks = a :: rest →
    (s.lq q).head = some blk →
    let l := mkLaunch q a blk
    let cores := s.coresOf l
    (s.ready l (s.lq q).held = false → exec (.launchStart q) s = .next s) ∧
    (s.ready l (s.lq q).held = true → l.forkt = 0 → l.gmode ≠ 2 → l.wen 0 = false → l.wen 1 = false →
      (∀ y ∈ s.launches, y.2.exits < y.2.cores.length → grainOverlap y.2 l = false ∨ grainShared y.2 l = true) →
      let lowest := (cores.map fun c => dieOf c.quad).foldl min 7
      let gdie := ((s.launches.find? fun x => grainShared x.2 l).map fun x => x.2.gdie).getD lowest
      ∀ s1, pinLines s ⟨0xFFFF, l.world, l.acct, gdie, 0, 0⟩
          (linesAt l.glive (8 * l.gcount)) = some s1 →
        ∃ t, exec (.launchStart q) s = .next t ∧ (t.lq q).blocks = (s1.lq q).blocks.drop 1 ∧ (t.lq q).head = none ∧
          ∀ (i : Nat) (c : Cid), cores[i]? = some c →
            (t.core c).launch = some s1.nextLid ∧ (t.core c).vcore = BitVec.ofNat 16 i ∧ (t.core c).world = l.world ∧
            (t.core c).ctrs = Vector.replicate 16 0 ∧ (t.core c).deque = [] ∧ (t.ht (.ctl c)).pc = l.word 0 ∧
            (t.ht (.ctl c)).rd 10 = a ∧ (t.ht (.ctl c)).rd 11 = BitVec.ofNat 64 i ∧ (t.ht (.ctl c)).priv = .u ∧
            (t.ht (.ctl c)).active = true ∧ ∀ n : Fin 16, (t.th (slotTid c n)).halted = true ∧ (t.th (slotTid c n)).pend = [])) ∧
  (∀ (s : State) (id : Nat) (l : Launch), tget? s.launches id = some l →
    (s.launchOver id l = false → exec (.launchComplete id) s = .next s) ∧
    (s.launchOver id l = true → ∃ t m, exec (.launchComplete id) s = .next t ∧ t.sups = s.sups ++ [m] ∧
      m.des = l.word 0x48 ∧ m.w1 = l.addr ∧ m.launch = some id ∧ fieldNat m.w0 0 16 = l.status.toNat * 256 + 0x81 ∧
      fieldNat m.w0 32 32 = l.job ∧ t.thr = s.thr ∧ tget? t.launches id = some { l with done := true }) ∧
    ∀ (c : Cid) (table : Word), (s.core c).launch = some id →
      (l.forks.contains c = false → exec (.forkDelivery c table) s = .next s) ∧
      (∀ s1, l.forks.contains c = true → forkFrom s c .u table.toNat = (.stall, s1) → exec (.forkDelivery c table) s = .next s1) ∧
      (∀ g s1 y, g ≠ .stall → l.forks.contains c = true → forkFrom s c .u table.toNat = (g, s1) → tget? s1.launches id = some y →
        ∃ t, exec (.forkDelivery c table) s = .next t ∧ t.thr = s1.thr ∧ t.mem = s1.mem ∧
          tget? t.launches id = some { y with forks := l.forks.erase c, started := y.started || (l.forks.erase c).isEmpty })) ∧
  (∀ (s : State) (q n : Nat),
    let x := s.quad q
    let w := s.reg (dieBase (dieOf q) + 0x400 + 8 * vqOf q)
    let others := fun (t : State) => ∀ r, r ≠ q → t.quad r = s.quad r
    (∃ t, exec (.quadHot q n) s = .next t ∧ t = { s with quads := t.quads } ∧ others t ∧ t.quad q = { x with
      celsius := n, hot := decide (fieldNat w 48 8 ≤ n) || (x.hot && decide (fieldNat w 48 8 < n + 2)) }) ∧
    (∃ t, exec (.energyWindow q n) s = .next t ∧ others t ∧ t.thr = s.thr ∧ t.mem = s.mem ∧ t.quad q = { x with
      estimate := n, overB := decide (fieldNat w 32 16 < n) || (x.overB && decide (7 * fieldNat w 32 16 ≤ 8 * n)) }) ∧
    (∃ t, exec (.operatingPointChange q) s = .next t ∧ t = { s with quads := t.quads } ∧ others t ∧
      (t.quad q).point.val ≤ fieldNat w 0 3 ∧
      (∀ c ∈ coreCids q, ∀ l, s.launchOf c = some l → fieldNat w 0 3 ≤ (t.quad q).point.val ∨ l.fld 0x60 0 3 ≤ (t.quad q).point.val) ∧
      ((t.quad q).point.val ≠ 0 → (t.quad q).point.val = fieldNat w 0 3 ∨
        ∃ c ∈ coreCids q, ∃ l, s.launchOf c = some l ∧ (t.quad q).point.val = l.fld 0x60 0 3)))

/-! ### Translation and contexts (16, 10 R290, R291) -/

/-- 02 R50, R51, 10 R290, R291, 16 R371, R375, R376, R381 to R384, R389: a flush reloads the rights that the cores of its worlds hold; an
unmap takes its range out of every cache and sets DONE once what was under way is over; a SAVE withholds its quad and has its
slots saved, each slot's registers to its save area, and frees the cores; a RESTORE takes a free quad; a checkpoint request has
the quad mark, the round is held once a marker has come from every input, and RESUME restores the slots. The model's choices in
it: a SAVE or a REQ during an operation is ignored (log 52), the inputs of a round are those of `State.inputsOf` (log 44), a
right beyond memory is 0 (log 92), a halted device ignores all requests (log 116). -/
def Obligations.Contexts : Prop :=
  (∀ (s : State) (mask : BitVec 16),
    let at_ := fun (c : Cid) (d : Nat) => fieldNat (s.mreg 0x208) 12 28 * 4096 + 256 * (s.core c).world.toNat + d
    let flushed := fun (c : Cid) (l : Launch) => s.launchOf c = some l ∧ bitAt mask (s.core c).world.toNat = true
    (s.halted = true → exec (.plbflush mask) s = .next s) ∧
    (s.halted = false → ∃ t, exec (.plbflush mask) s = .next t ∧ t.thr = s.thr ∧ (∀ c, (∀ l, ¬ flushed c l) → t.core c = s.core c) ∧
      (s.domainDead 0 = false →
        (∀ c l, flushed c l → ∀ d ∈ l.doms, at_ c d < 0x9000000000 →
          (at_ c d / 64, false) ∉ s.lost ∧ s.rootUp (at_ c d / 64) = true ∧
            ∃ m, s.mlcFind (at_ c d / 64) = some m ∧ m.poison = false ∧ m.kdom = 0) →
        ∀ c l, flushed c l → t.core c = { s.core c with
          plb := l.doms.map fun d => (d, if 0x9000000000 ≤ at_ c d then 0 else Mem.read s.mem (at_ c d)) }))) ∧
  (∀ s : State,
    (∀ u, s.unmap = some u → exec .unmapGo s = .next s) ∧
    (s.halted = true → exec .unmapGo s = .next s) ∧
    (s.unmap = none → s.halted = false → ∃ t, exec .unmapGo s = .next t ∧ t.unmap = some s.umRange ∧ t.thr = s.thr ∧ s.lmKept t ∧
      let inside := fun (line : Nat) => s.umRange.1 ≤ 64 * line ∧ 64 * line < s.umRange.2
      (∀ e ∈ t.cores, (∀ b ∈ e.2.l1, ¬ inside b.line) ∧
        ∀ l ∈ e.2.icache ++ e.2.ctlIcache, ¬ inside l.line) ∧ (∀ l ∈ t.l2, ¬ inside l.line) ∧
      ∀ e ∈ t.tcache, e.va + e.span ≤ s.umRange.1 ∨ s.umRange.2 ≤ e.va) ∧
    (∀ u, s.unmap = some u → (∃ m ∈ s.cmds, m.freeAt = none ∧ m.touches u.1 u.2 = true) ∨
      (∃ e ∈ s.sq, ∃ l ∈ e.lines, u.1 ≤ 64 * l ∧ 64 * l < u.2) → s.unmapReady = false) ∧
    (s.unmapReady = false → exec .unmapDone s = .next s) ∧
    (s.unmapReady = true → ∃ t, exec .unmapDone s = .next t ∧ t.unmap = none ∧ bitAt (t.mreg 0x228) 1 = true ∧ t.thr = s.thr)) ∧
  (∀ (s : State) (q : Nat),
    let x := s.quad q
    let busy := ((coreCids q).any fun c => (s.core c).launch.isSome) = true ∨ x.op ≠ .none
    let asked := fun (t : State) (op : QOp) => (t.quad q).op = op ∧ t.mem = s.mem ∧ t.lm = s.lm ∧
      ∀ u ∈ quadSlots q, t.th u = match (s.th u).run with
        | .running | .blocked | .waiting _ => { s.th u with saveReq := true, saveAt := s.cycle }
        | _ => s.th u
    (x.op = .none → ∃ t, exec (.cxctlSave q) s = .next t ∧ asked t .save) ∧
    (x.op ≠ .none → exec (.cxctlSave q) s = .next s) ∧
    (x.op = .none → x.held = false → ∃ t, exec (.mkctlReq q) s = .next t ∧ asked t .mark ∧ (t.quad q).markReq = false) ∧
    (x.op = .save → ∃ t, exec (.mkctlReq q) s = .next t ∧ t.quad q = { x with markReq := true } ∧ t = { s with quads := t.quads }) ∧
    (x.op = .mark ∨ x.op = .none ∧ x.held = true → exec (.mkctlReq q) s = .next s) ∧
    (x.op = .save → s.atRest q = true → ∃ t, exec (.saveComplete q) s = .next t ∧ (t.quad q).op = .none ∧
      (t.quad q).lease.holder = none ∧ bitAt (t.reg (quadBase q)) 2 = true ∧ ∀ c ∈ coreCids q, (t.core c).launch = none) ∧
    (x.op ≠ .save ∨ s.atRest q = false → exec (.saveComplete q) s = .next s) ∧
    (busy ∨ bitAt (s.mreg 0x40) (dieOf q) = false ∨ s.halted = true → exec (.cxctlRestore q) s = .next s) ∧
    (¬ busy → bitAt (s.mreg 0x40) (dieOf q) = true → s.halted = false → cwf 0 s.regs = true → ∃ t, exec (.cxctlRestore q) s = .next t ∧
      bitAt (t.reg (quadBase q)) 2 = true ∧
      ∀ b : Fin 16, (t.quad q).bfmt[b] = imgRead (loadImage s (dieOf q) (s.imgVA q)).1.mem (0x640100 + 8 * b.val)) ∧
    (∀ (src : Nat) (r : BitVec 32), s.halted = true → exec (.markerArrives q src r) s = .next s) ∧
    (∀ (src : Nat) (r : BitVec 32), s.halted = false → src ≠ q → x.op = .save → ∃ t, exec (.markerArrives q src r) s = .next t ∧
      t = { s with quads := t.quads } ∧ t.quad q = { x with
        markers := if x.markers.contains (src, r.toNat) then x.markers else x.markers ++ [(src, r.toNat)] }) ∧
    (∀ (src : Nat) (r : BitVec 32), s.halted = false → src ≠ q → x.op = .mark → r.toNat = (s.markRound q + 1) % 2 ^ 32 →
      (∀ d, d = q ∨ d ∈ s.inputsOf q → d = src ∨ (d, r.toNat) ∈ x.markers) → ∃ t, exec (.markerArrives q src r) s = .next t ∧
        (t.quad q).held = true ∧ (t.quad q).op = .none ∧ t.markRound q = r.toNat ∧ t.thr = s.thr ∧ t.mem = s.mem) ∧
    (x.held = false ∨ s.halted = true → exec (.mkctlResume q) s = .next s) ∧
    (x.held = true → s.halted = false → x.markReq = false → x.markers = [] → ∃ t, exec (.mkctlResume q) s = .next t ∧ (t.quad q).held = false ∧
      t.lm = s.lm ∧ t.mem = s.mem ∧ ∀ u ∈ quadSlots q, if (s.th u).run = .saved
        then (t.th u).run ≠ .saved ∧ ∀ n : Fin 32, n ≠ 0 → (t.th u).rdG n =
          BitVec.ofNat 64 (Mem.readN s.lm (q * 0x200000 + 0x1E0000 + (16 * u.core.val + u.unit.val) * 0x800 + 8 * n.val) 8)
        else t.th u = s.th u)) ∧
  (∀ (s : State) (t : Tid),
    (s.canSave t = false → exec (.slotPreempt t) s = .next s) ∧
    (s.canSave t = true → s.lm.wf = true → t.unit.val < 16 → ∃ u, exec (.slotPreempt t) s = .next u ∧
      u.th t = { (s.th t).unwait with run := .saved, saveReq := false, hold := 0 } ∧ (∀ w, w ≠ t → u.th w = s.th w) ∧ u.mem = s.mem ∧
      let base := t.quad * 0x200000 + 0x1E0000 + (16 * t.core.val + t.unit.val) * 0x800
      (∀ n : Fin 32, Mem.readN u.lm (base + 8 * n.val) 8 = ((s.th t).g[n]).toNat) ∧
      Mem.readN u.lm (base + 0x520) 8 = ((s.th t).pc).toNat ∧
      ∀ a, a < base ∨ base + 0x800 ≤ a → Mem.read u.lm a = Mem.read s.lm a))

/-! ### Confidentiality and repair (17, 18) -/

/-- 17 R392 to R394, R397, R398, R403 to R408: operations on key domains, refused with their status or performed; the end of
one; the fence bits; the alarm, which counts its trigger and records, fences, halts or erases as `alcfg` says; a link's packets
and its new keys. The model's readings in it: the order of refusals is log 53, a fence that gives way to a worse trigger of its
cycle log 65, a package link without keys, which carries nothing, log 97. -/
def Obligations.Confidentiality : Prop :=
  (∀ s : State, cwf 0 s.regs = true →
    let k := s.kdDom
    let operation := fun (i : Instr) (status : Byte) (holds : State → Prop) => ∃ t b, exec i s = .next t ∧
      t.kdBusy = some b ∧ b.status = status ∧ s.cycle < b.due ∧ bitAt (t.mreg 0x100) 63 = true ∧ t.thr = s.thr ∧ holds t
    let same := fun (t : State) => t.keys = s.keys ∧ t.mem = s.mem ∧ t.mreg 0x118 = s.mreg 0x118
    (∀ b, s.kdBusy = some b →
      exec .kdGenerate s = .next s ∧ exec .kdDestroy s = .next s ∧ exec .kdClearRange s = .next s ∧
      (s.cycle < b.due → exec .kdOperationDone s = .next s) ∧
      (b.due ≤ s.cycle → ∃ t, exec .kdOperationDone s = .next t ∧ t.kdBusy = none ∧ bitAt (t.mreg 0x100) 63 = false ∧
        fieldNat (t.mreg 0x100) 48 8 = b.status.toNat ∧ t.keys = s.keys ∧ t.mem = s.mem)) ∧
    (s.kdBusy = none →
      (s.erased = true → operation .kdGenerate 6 same ∧ operation .kdDestroy 6 same ∧ operation .kdClearRange 6 same) ∧
      (s.erased = false →
        (s.kdFenced k = true → operation .kdGenerate 5 same ∧ operation .kdClearRange 5 same) ∧
        (s.kdFenced k = false → s.kdIsValid k = true → operation .kdGenerate 1 same) ∧
        (s.kdFenced k = false → s.kdIsValid k = false → operation .kdGenerate 0 fun t => t.kdIsValid k = true ∧
          (tget? t.keys k).isSome = true ∧ t.mem = s.mem ∧ ∀ j, j ≠ k → tget? t.keys j = tget? s.keys j) ∧
        (k = 0 → operation .kdDestroy 3 same) ∧ (k ≠ 0 → s.kdIsValid k = false → operation .kdDestroy 2 same) ∧
        (k ≠ 0 → s.kdIsValid k = true → operation .kdDestroy 0 fun t => t.kdIsValid k = false ∧ tget? t.keys k = none ∧
          t.cachedNowhere (BitVec.ofNat 6 k)) ∧
        (s.kdFenced k = false → s.kdIsValid k = true →
          let lo := fieldNat (s.mreg 0x108) 16 24 * 65536
          let hi := fieldNat (s.mreg 0x110) 16 24 * 65536
          (hi ≤ lo → operation .kdClearRange 4 same) ∧
          (lo < hi → s.mem.wf = true → operation .kdClearRange 0 fun t =>
            ∀ a, Mem.read t.mem a = if lo ≤ a ∧ a < min hi 0x9000000000 then 0 else Mem.read s.mem a)))) ∧
    (∀ mask, ∃ t, exec (.kdfenceClear mask) s = .next t ∧ t = { s with regs := t.regs } ∧
      (∀ i, bitAt (t.mreg 0x128) i = (bitAt (s.mreg 0x128) i && !(bitAt mask i && !bitAt (s.mreg 0x118) i))) ∧
      t.mreg 0x118 = s.mreg 0x118) ∧
    (∀ v, (bitAt (s.mreg 0x180) 63 = true → exec (.alcfgWrite v) s = .next s) ∧
      (bitAt (s.mreg 0x180) 63 = false → ∃ t, exec (.alcfgWrite v) s = .next t ∧ t = { s with regs := t.regs } ∧
        t.mreg 0x180 = v &&& 0x8000000000000FFF)) ∧
    (∀ (g : Trigger) (dom : Option (BitVec 6)) (src : Byte) (addr : Word),
      let counted := fun (t : State) => exec (.alarmTrigger g dom src addr) s = .next t ∧ t.mem = s.mem ∧
        fieldNat (t.mreg 0x188) 32 32 = min (fieldNat (s.mreg 0x188) 32 32 + 1) 0xFFFFFFFF ∧
        bitAt (t.mreg 0x188) (trigNo g) = true
      let none_ := g = .debug ∧ s.puf = false
      (none_ → exec (.alarmTrigger g dom src addr) s = .next s) ∧
      (¬ none_ → s.actOf g = 0 → ∃ t, counted t ∧ t.halted = s.halted ∧ t.keys = s.keys ∧ t.thr = s.thr) ∧
      (¬ none_ → s.actOf g = 1 → s.halted = true ∨ s.worseWaits = true ∨ (∃ d, dom = some d ∧ d.toNat ∈ s.fences) →
        ∃ t, counted t ∧ t.halted = s.halted ∧ t.keys = s.keys ∧ t.thr = s.thr) ∧
      (¬ none_ → s.actOf g = 2 → ∃ t, counted t ∧ t.halted = true ∧ t.keys = s.keys ∧ t.erased = s.erased) ∧
      (¬ none_ → s.actOf g = 3 → ∃ t, counted t ∧ t.halted = true ∧ t.erased = true ∧ t.keys = [] ∧ t.puf = false ∧
        t.mreg 0x118 = 0 ∧ ∀ e ∈ t.links, e.2.keyed = false ∧ e.2.key = Vector.replicate 2 0)) ∧
    (∀ (g : Trigger) (d : BitVec 6) (src : Byte) (addr : Word), g ≠ .debug ∨ s.puf = true → s.actOf g = 1 → s.halted = false →
      s.worseWaits = false → d.toNat ∉ s.fences →
      ∃ t, exec (.alarmTrigger g (some d) src addr) s = .next t ∧ t.kdFenced d.toNat = true ∧ t.cachedNowhere d ∧ ∀ id l, tget? s.launches id = some l → l.kdom = d →
          ∃ y, tget? t.launches id = some y ∧ y.status = 2)) ∧
  (∀ (s : State) (n : Nat) (dir : Bool) (p : Sealed) (lines : List Nat) (write : Bool),
    let l := s.link n
    let d : Fin 2 := if dir then 1 else 0
    let packet := Instr.linkPacketReceived n dir p lines write
    let good := (l.openPacket n dir p.header p.body p.tag).isSome
    let got := fun (retry : Bool) (t : State) => exec packet s = .next t ∧
        t.link n = { l with count := l.count.set d (l.count[d] + 1), retry := l.retry.set d retry } ∧
        (∀ m, m ≠ n → t.link m = s.link m) ∧ t.thr = s.thr ∧ t.mem = s.mem
    (96 ≤ n ∧ l.keyed = false ∨ l.down = true ∨ s.halted = true → exec packet s = .next s) ∧
    (n < 96 ∨ l.keyed = true → l.down = false → s.halted = false → (l.count[d] + 1).toNat ≠ 2 ^ 48 →
      (good = true → ∃ t, got false t ∧ t.agenda = s.agenda ∧ t.lost = s.lost) ∧
      (good = false → l.retry[d] = false → ∃ t, got true t ∧ t.agenda = s.agenda ∧ t.lost = s.lost) ∧
      (good = false → l.retry[d] = true → ∃ t, got false t ∧ t.lost = s.lost ++ lines.map (fun pl => (pl, write)) ∧
        t.agenda = s.agenda ++ (if lines = [] then [0] else lines.map fun pl => BitVec.ofNat 64 (64 * pl)).map fun (a : Word) =>
          .alarmTrigger .link none (BitVec.ofNat 8 (0x80 + n)) a)) ∧
    ((l.count[d]).toNat < 2 ^ 48 → exec (.linkRekey n dir) s = .next s) ∧
    (2 ^ 48 ≤ (l.count[d]).toNat → ∃ t, exec (.linkRekey n dir) s = .next t ∧ t = { s with links := t.links } ∧
      (t.link n).count[d] = 0 ∧ (t.link n).epoch[d] = l.epoch[d] + 1 ∧ (t.link n).keyed = l.keyed ∧
      ∀ m, m ≠ n → t.link m = s.link m))

/-- 18 R411 to R413, R419 to R421, R425 to R429, 10 R298: an error is corrected and counted, or acts on what it meets; the SRAM
margin steps; a link loses its lanes; ways are gated unless they hold what must stay, which REF shows; a range register refuses
what R298 lists. A `smctl` with FLOOR above 30 or INTV above 10 leaves that field (log 55, DEDUCED), way gating on a halted device
moves nothing (log 116). -/
def Obligations.Repair : Prop :=
  (∀ (s : State), cwf 0 s.regs = true →
    (∃ t, exec .mcMergeInterval s = .next t ∧ t.merge = [] ∧ t.thr = s.thr ∧ t.mem = s.mem) ∧
    (∀ b, b = false ∨ s.halted = true → exec (.scrubPass b) s = .next s) ∧
    (∀ (pl : Nat) (x : StackLine), s.stack = [(pl, x)] → s.halted = false → pl < bmBase → s.elided pl = false →
      x.tail ≠ BitVec.allOnes 64 ∨ x.near = true →
      (∀ d, x.corrected = some d → ∃ t, exec (.scrubPass true) s = .next t ∧ t = { s with stack := t.stack, merge := t.merge } ∧
        (d = x.data ∧ lineEcc d = x.tail → t = s) ∧
        (¬ (d = x.data ∧ lineEcc d = x.tail) → t.stack = [(pl, storedLine d x.mac)] ∧
          let k := (0x10 + rootOf pl, 0x0B, rootOf pl)
          tget 0 t.merge k = tget 0 s.merge k + 1)) ∧
      (x.corrected = none → ∃ t, exec (.scrubPass true) s = .next t ∧ pl ∈ t.badLines ∧ t.stack = s.stack ∧ t.thr = s.thr)) ∧
    (∀ (pl : Nat), (∃ t, exec (.errorDetected (.hbmLine pl true)) s = .next t ∧ t = { s with merge := t.merge } ∧
        let k := (0x10 + rootOf pl, 0x0B, rootOf pl)
        tget 0 t.merge k = tget 0 s.merge k + 1 ∧ ∀ j, j ≠ k → tget 0 t.merge j = tget 0 s.merge j) ∧
      ∃ t, exec (.errorDetected (.hbmLine pl false)) s = .next t ∧ pl ∈ t.badLines ∧ (s.mlcFind pl = none → t.linePoison pl = true) ∧
        t.mem = s.mem ∧ t.thr = s.thr) ∧
    (∀ u : Tid, (s.th u).run = .running → (s.th u).deferred = none → ∃ t, exec (.errorDetected (.register u false)) s = .next t ∧
      (∃ f r op, (t.th u).deferred = some (f, r, op) ∧ f.cause = 0x0A) ∧ (s.th u).keepsRegs (t.th u) 0 ∧
      ∀ w, w ≠ u → t.th w = s.th w) ∧
    (∀ u : Tid, (s.th u).run = .running → (s.th u).deferred = none → ∃ t, exec (.errorDetected (.residue u)) s = .next t ∧
      (∃ f r op, (t.th u).deferred = some (f, r, op) ∧ f.cause = 0x0A) ∧ (s.th u).keepsRegs (t.th u) 0) ∧
    (∀ q, (∃ t, exec (.errorDetected (.quadFails q)) s = .next t ∧ (t.quad q).out = true ∧
      (dieOf q * 120 + s.stopOf q) ∈ t.failed ∧ t.mem = s.mem) ∧
      exec (.errorDetected (.controlQuad q)) s = exec (.errorDetected (.quadFails q)) s) ∧
    (s.mreg 0x1C0 = 0 →
      let noted := fun (e : ErrorKind) (t : State) => exec (.errorDetected e) s = .next t ∧ t.thr = s.thr ∧ t.lm = s.lm ∧
        fieldNat (t.mreg 0x1C8) 0 32 = (fieldNat (s.mreg 0x1C8) 0 32 + 1) % 2 ^ 32
      (∀ q a, ∃ t, noted (.localWord q a false) t ∧ (∀ w, w ∈ t.lmPoison ↔ w ∈ s.lmPoison ∨ w = (q * 0x200000 + a) / 8) ∧
        t.agenda = s.agenda ++ [.sramUncorrectable (dieOf q)]) ∧
      (∀ q a, ∃ t, noted (.canopyWord q a false) t ∧ (∀ w, w ∈ t.canPoison ↔ w ∈ s.canPoison ∨ w = (q * canopySize + a) / 8) ∧
        t.agenda = s.agenda ++ [.sramUncorrectable (dieOf q)]) ∧
      (∀ die line l, s.l2Find die line = some l → ∃ t, noted (.sramLine die line false) t ∧ t.linePoison (l.pa / 64) = true ∧
        (∀ m, t.l2Find die line = some m → m.valid = 0 ∧ m.dirty = 0) ∧ t.mem = s.mem) ∧
      (∀ pl l, s.mlcFind pl = some l → ∃ t, noted (.mlcLine pl false) t ∧ t.linePoison pl = true ∧ t.mem = s.mem) ∧
      (∀ die, ∃ t, noted (.controlShared die) t ∧ t.halted = true ∧ t.mem = s.mem) ∧
      (∀ die slice, ∃ t, exec (.errorDetected (.sliceFails die slice)) s = .next t ∧ t.thr = s.thr ∧ die * 96 + slice ∈ t.sliceOut ∧
        ∀ x ∈ t.l2, ¬ (x.die = die ∧ sliceOf x.line = slice)) ∧
      (∀ root bank, ∃ t, exec (.errorDetected (.bankFails root bank)) s = .next t ∧ t.thr = s.thr ∧ root * 96 + bank ∈ t.bankOut ∧
        ∀ x ∈ t.mlc, ¬ (rootOf x.line = root ∧ mlcBank x.line = bank))) ∧
    (∀ (c : Cid) (va : Nat), (∃ t, exec (.errorDetected (.l1Block c va)) s = .next t ∧ t = { s with cores := t.cores, merge := t.merge } ∧
        ∀ b ∈ (t.core (s.l1Home c (va / 64))).l1, b.line ≠ va / 64) ∧
      ∃ t, exec (.errorDetected (.icacheLine c va)) s = .next t ∧ t = { s with cores := t.cores, merge := t.merge } ∧
        ∀ l ∈ (t.core c).icache ++ (t.core c).ctlIcache, l.line ≠ va / 64) ∧
    (∀ (m : Cmd) (done : Nat) (r : Eng), (s.cmds.find? fun (y : Cmd) => decide (y.id = m.id) && y.freeAt.isNone) = some m →
      m.eng = .mat → m.ins = .mzero r → m.own = none → ∃ t, exec (.errorDetected (.engineCut m.id done)) s = .next t ∧
        (∀ y ∈ t.cmds, y.id = m.id → y.status = some 0x400 ∧ y.due = some s.cycle) ∧
        bitAt (t.core m.core).accPoison ((grp m.ps 0).toNat + done) = decide ((grp m.ps 0).toNat + done < 128)) ∧
    (∀ die : Nat,
      let w := s.reg (dieBase die + 0xC0)
      let offs := fieldNat w 40 8
      let stepped := fun (t : State) => t.thr = s.thr ∧ t.mem = s.mem
      (∃ t, exec (.sramUncorrectable die) s = .next t ∧ stepped t ∧
        fieldNat (t.reg (dieBase die + 0xC8)) 32 32 = (fieldNat (s.reg (dieBase die + 0xC8)) 32 32 + 1) % 2 ^ 32 ∧
        (bitAt w 0 = true → fieldNat (t.reg (dieBase die + 0xC0)) 40 8 = offs - 1 ∧
          fieldNat (t.reg (dieBase die + 0xC0)) 8 8 = 16) ∧
        (bitAt w 0 = false → t.reg (dieBase die + 0xC0) = w)) ∧
      (∀ n, ∃ t, exec (.sramMarginInterval die n) s = .next t ∧ stepped t ∧
        (bitAt w 0 = false → t.regs = s.regs) ∧
        (bitAt w 0 = true → fieldNat (t.reg (dieBase die + 0xC8)) 0 32 = n % 2 ^ 32 ∧
          fieldNat (t.reg (dieBase die + 0xC0)) 8 8 = fieldNat w 8 8 - 1 ∧
          (n < fieldNat w 16 16 → fieldNat (t.reg (dieBase die + 0xC0)) 40 8 =
            if fieldNat w 8 8 = 0 ∧ offs < fieldNat w 32 8 then offs + 1 else offs) ∧
          (fieldNat w 16 16 < n → fieldNat (t.reg (dieBase die + 0xC0)) 40 8 =
            if tget 0 s.smOver die = 1 then offs - 1 else offs) ∧
          (n = fieldNat w 16 16 → fieldNat (t.reg (dieBase die + 0xC0)) 40 8 = offs) ∧
          (n ≤ fieldNat w 16 16 → tget 0 t.smOver die = 0))) ∧
      (∀ v, ∃ t, exec (.smctlWrite die v) s = .next t ∧ t = { s with regs := t.regs, sramCnt := t.sramCnt, smOver := t.smOver } ∧
        (bitAt v 0 = false → tget 0 t.sramCnt die = 0 ∧ tget 0 t.smOver die = 0) ∧ (bitAt v 0 = true → t.sramCnt = s.sramCnt) ∧
        let w' := t.reg (dieBase die + 0xC0)
        bitAt w' 0 = bitAt v 0 ∧ fieldNat w' 16 16 = fieldNat v 16 16 ∧
        fieldNat w' 32 8 = (if fieldNat v 32 8 ≤ 30 then fieldNat v 32 8 else fieldNat w 32 8) ∧
        fieldNat w' 4 4 = (if fieldNat v 4 4 ≤ 10 then fieldNat v 4 4 else fieldNat w 4 4) ∧
        fieldNat w' 40 8 = (if bitAt v 0 then offs else 0))) ∧
    (∀ (n : Fin 8) (v : Word),
      let off := 0x300 + 8 * n.val
      let w := s.mreg off
      let lo := fieldNat (s.mreg (0x280 + 8 * n.val)) 21 19
      let hi := fieldNat (s.mreg (0x2C0 + 8 * n.val)) 21 19
      let ways := fieldNat v 8 4
      let others := ((List.range 8).filter fun m => decide (m ≠ n.val) && bitAt (s.mreg (0x300 + 8 * m)) 63).foldl
        (fun a m => a + fieldNat (s.mreg (0x300 + 8 * m)) 8 4) 0
      let becomes := fun (x : Word) => ∃ t, exec (.mlccWrite n v) s = .next t ∧
        t = { s with regs := t.regs, mlcWays := t.mlcWays, mlc := t.mlc } ∧ (bitAt w 63 = false → t.mlc = s.mlc) ∧ t.mreg off = x ∧ (∀ m, m ≠ n.val → cwf 0 s.mlcWays = true → t.mlcMask m = s.mlcMask m) ∧
        ∀ a, a ≠ mgmtBase + off → t.reg a = s.reg a
      (bitAt w 63 = true → bitAt v 63 = true → exec (.mlccWrite n v) s = .next s) ∧
      (bitAt w 63 = true → bitAt v 63 = false → becomes (w &&& 0x7FFFFFFFFFFFFFFF) ∧ ∀ t, exec (.mlccWrite n v) s = .next t →
        t.mlc = s.mlc.map fun (l : MlcLine) => if l.retained = some n then { l with retained := none } else l) ∧
      (bitAt w 63 = false → bitAt v 63 = false → becomes (v &&& 0x00000000000F0F00)) ∧
      (bitAt w 63 = false → bitAt v 63 = true → 1 ≤ ways → ways ≤ 12 → lo < hi → v &&& 0x7FFFFFFFFFF0F0FF = 0 →
        others + ways ≤ 12 → becomes v) ∧
      (bitAt w 63 = false → bitAt v 63 = true → ways = 0 ∨ 12 < ways ∨ hi ≤ lo ∨ 12 < others + ways ∨
          v &&& 0x7FFFFFFFFFF0F0FF ≠ 0 →
        exec (.mlccWrite n v) s = .next s))) ∧
  (∀ (s : State) (n lane : Nat), let l := s.link n
    (l.down = true → exec (.laneRetire n lane) s = .next s) ∧
    (l.down = false → ∃ t, exec (.laneRetire n lane) s = .next t ∧ (t.link n).lost = l.lost + 1 ∧
      (t.link n).down = decide (2 ≤ l.lost) ∧ (t.link n).keyed = l.keyed ∧ (∀ m, m ≠ n → t.link m = s.link m) ∧
      t.thr = s.thr ∧ t.mem = s.mem)) ∧
  (∀ (s : State) (i : Nat) (v : Word) (l2 : Bool), cwf 0 s.regs = true →
    let a := if l2 then dieBase i + 0x80 else rootBase i
    let request := if l2 then Instr.l2wgRequest i v else .mlcwgRequest i v
    let w := s.reg a &&& ~~~(v &&& 0x0000FFFF00000000)
    (bitAt w 63 = true ∨ s.halted = true → ∃ t, exec request s = .next t ∧ t.reg a = w ∧ t = { s with regs := t.regs }) ∧
    (bitAt w 63 = false → s.halted = false → ∃ t, exec request s = .next t ∧ t.gateBusy = s.gateBusy ++ [(l2, i)] ∧ t.thr = s.thr ∧ s.lmKept t ∧
      ∀ k, k < 16 → bitAt v k = true →
        (l2 = true → (∀ j, j < 96 → bitAt (tget (0 : Half) s.l2gate (i * 96 + j)) k = false) →
          (∀ x ∈ s.l2, x.die = i → x.way.val = k → x.lock = none ∧ x.pin = false) → ∀ x ∈ t.l2, x.die = i → x.way.val ≠ k) ∧
        (l2 = false → bitAt (tget (0 : Half) s.mlcgate i) k = false → bitAt s.mlcReserved k = false →
          bitAt (tget (0 : Half) t.mlcgate i) k = true) ∧
        (l2 = false → bitAt (tget (0 : Half) s.mlcgate i) k = false → bitAt s.mlcReserved k = true →
          bitAt (tget (0 : Half) t.mlcgate i) k = false) ∧
        (∀ x ∈ s.l2, l2 = true → x.die = i → x.way.val = k → x.lock.isSome = true ∨ x.pin = true →
          (∀ y ∈ s.l2, y.die = i → y.dirty = 0 ∧ (y.line = x.line → y = x)) →
          bitAt (tget (0 : Half) s.l2gate (i * 96 + sliceOf x.line)) k = false →
          bitAt (tget (0 : Half) t.l2gate (i * 96 + sliceOf x.line)) k = false)) ∧
    (s.gateBusy.contains (l2, i) = false → exec (.wayGatingDone l2 i) s = .next s) ∧
    (s.gateBusy.contains (l2, i) = true → ∃ t, exec (.wayGatingDone l2 i) s = .next t ∧ bitAt (t.reg a) 63 = false ∧
      (let act := if l2 then s.l2Gated i else tget 0 s.mlcgate i
       fieldNat (t.reg a) 16 16 = act.toNat ∧
       ∀ k, k < 16 → bitAt (t.reg a) (32 + k) = (bitAt (s.reg a) (32 + k) || (bitAt (s.reg a) k && !bitAt act k))) ∧
      t.gateBusy = s.gateBusy.erase (l2, i) ∧ t = { s with regs := t.regs, gateBusy := t.gateBusy }))

/-! ### Observation and the I/O die (19, 20) -/

/-- 19 R433 to R436, R448, 20 R454, R460 to R463: a dump of link counters is written with its first word last, or is skipped; a
snapshot copies six counters and may clear them; the host ring's doorbell and head; the mailbox's bits and vectors; the
boot-partition reader, the crypto engine and the measurement registers answer when their operation is done, with the status of
the first condition that refuses it (the order of the crypto engine's is log 53, DEDUCED); word 0 of a dump has the number after
the count (log 56, DEDUCED). -/
def Obligations.InputOutput : Prop :=
  ∀ s : State, cwf 0 s.regs = true →
    let held := fun (a n : Nat) => s.domainDead 0 = false ∧ a + n ≤ 0x9000000000 ∧ ∀ line, a / 64 ≤ line → 64 * line < a + n →
      (line, true) ∉ s.lost ∧ s.rootUp line = true ∧ ∃ m, s.mlcFind line = some m ∧ m.poison = false ∧ m.kdom = 0
    (∀ die : Nat,
      let a := dieBase die
      let w := s.reg a
      let base := s.dumpBase die
      (bitAt w 63 = false → exec (.linkCounterDump die) s = .next s) ∧
      (bitAt w 63 = true → (s.lcBusy.any fun b => decide (b.1 = die)) = true →
        ∃ t, exec (.linkCounterDump die) s = .next t ∧ t = { s with regs := t.regs } ∧
          fieldNat (t.reg a) 32 16 = min (fieldNat w 32 16 + 1) 0xFFFF ∧ fieldNat (t.reg a) 0 32 = fieldNat w 0 32) ∧
      (bitAt w 63 = true → (s.lcBusy.any fun b => decide (b.1 = die)) = false → s.mem.wf = true →
        ∃ t due, exec (.linkCounterDump die) s = .next t ∧ t.lcBusy = s.lcBusy ++ [(die, due)] ∧ s.cycle < due ∧
          (held (base + 8) 0x3CF8 → t.regs = s.regs ∧ t.thr = s.thr ∧ Mem.readN t.mem (base + 8) 8 = s.cycle % 2 ^ 64 ∧
            ∀ x, x < base + 8 ∨ base + 0x3D00 ≤ x → Mem.read t.mem x = Mem.read s.mem x)) ∧
      (∀ due, (s.lcBusy.find? fun b => decide (b.1 = die)) = some (die, due) →
        (s.cycle < due → exec (.linkCounterDumpDone die) s = .next s) ∧
        (due ≤ s.cycle → s.mem.wf = true → ∃ t, exec (.linkCounterDumpDone die) s = .next t ∧ (∀ b ∈ t.lcBusy, b.1 ≠ die) ∧
          let n := (fieldNat w 0 32 + 1) % 2 ^ 32
          (held base 8 → fieldNat (t.reg a) 0 32 = n ∧ t.thr = s.thr ∧ Mem.readN t.mem base 8 = n * 2 ^ 32 + 0x87 ∧
            ∀ x, x < base ∨ base + 8 ≤ x → Mem.read t.mem x = Mem.read s.mem x)))) ∧
    (cwf 0 s.accts = true → ∃ t, exec .acctSnapshot s = .next t ∧ t = { s with regs := t.regs, accts := t.accts } ∧
      let id := fieldNat (s.mreg 0x380) 0 6
      (∀ k, k < 6 → t.mreg (0x388 + 8 * k) = cget 0 s.accts (id * 6 + k)) ∧
      ∀ j, cget 0 t.accts j = if id * 6 ≤ j ∧ j < id * 6 + 6 ∧ bitAt (s.mreg 0x380) 9 = true then 0 else cget 0 s.accts j) ∧
    (∀ v : Word,
      let tail := v.toNat % 2 ^ 32
      let old := (s.lreg 0x20020110).toNat % 2 ^ 32
      let head := (s.lreg 0x20020118).toNat % 2 ^ 32
      let held := fun (x : Nat) => (x + 2 ^ 32 - head) % 2 ^ 32
      (held tail ≤ s.ringSize → held old ≤ held tail → ∃ t, exec (.hrtailDoorbell v) s = .next t ∧
        t = { s with regs := t.regs } ∧ (t.lreg 0x20020110).toNat = tail) ∧
      (s.ringSize < held tail ∨ held tail < held old → ∃ t, exec (.hrtailDoorbell v) s = .next t ∧
        t = { s with regs := t.regs } ∧ bitAt (t.lreg 0x20020118) 32 = true ∧ t.lreg 0x20020110 = s.lreg 0x20020110) ∧
      let err := bitAt (s.lreg 0x20020118) 32 && !bitAt v 32
      (tail = head → ∃ t, exec (.hrheadAdvance v) s = .next t ∧ t = { s with regs := t.regs } ∧
        (t.lreg 0x20020118).toNat % 2 ^ 32 = head ∧ bitAt (t.lreg 0x20020118) 32 = err) ∧
      (tail ≠ head → ∃ t, exec (.hrheadAdvance v) s = .next t ∧ (t.lreg 0x20020118).toNat % 2 ^ 32 = tail ∧
        bitAt (t.lreg 0x20020118) 32 = err ∧ t.msix = 0 :: s.msix ∧
        t = { s with regs := t.regs, msix := t.msix, hostMem := t.hostMem, fresh := t.fresh } ∧
        (s.hostMem.wf = true → tail = (head + 1) % 2 ^ 32 → 1 ≤ s.ringSize →
          let e := fieldNat (s.lreg 0x20020100) 12 52 * 4096 + 64 * (head % s.ringSize)
          Mem.readN t.hostMem (e + 4) 2 = Mem.readN s.hostMem (e + 4) 2 ∧ Mem.readN t.hostMem (e + 3) 1 ≠ 0 ∧
          ∀ x, x < e ∨ e + 8 ≤ x → Mem.read t.hostMem x = Mem.read s.hostMem x))) ∧
    (∀ len : Half,
      let req := s.lreg 0x20020000
      let rsp := s.lreg 0x20020008
      let put := fun (i : Instr) (o : Nat) (v : Word) (t : State) => exec i s = .next t ∧ t.lreg o = v ∧
        ∀ b, b ≠ localBase + o → t.reg b = s.reg b
      (bitAt req 0 = true → exec (.mbxRequestPost len) s = .next s) ∧
      (bitAt req 0 = false → ∃ t, put (.mbxRequestPost len) 0x20020000 (BitVec.ofNat 64 (len.toNat * 65536 + 1)) t ∧
        t.msix = s.msix) ∧
      (∃ t, put .mbxRequestClear 0x20020000 (req &&& ~~~1) t ∧ t.msix = s.msix) ∧
      (bitAt rsp 0 = true → exec (.mbxResponsePost len) s = .next s) ∧
      (bitAt rsp 0 = false → ∃ t, put (.mbxResponsePost len) 0x20020008 (BitVec.ofNat 64 (len.toNat * 65536 + 1)) t ∧
        t.msix = 1 :: s.msix) ∧
      ∃ t, put .mbxResponseClear 0x20020008 (rsp &&& ~~~1) t ∧ t.msix = s.msix) ∧
    (let runs := fun (i : Instr) (ctl : Nat) (busy : State → Option Busy) (status : Byte) (t : State) => exec i s = .next t ∧
        bitAt (t.lreg ctl) 63 = true ∧ t.mem = s.mem ∧ t.thr = s.thr ∧ ∃ b, busy t = some b ∧ b.status = status ∧ s.cycle < b.due
      let ends := fun (i : Instr) (ctl : Nat) (b : Busy) (t : State) => exec i s = .next t ∧ bitAt (t.lreg ctl) 63 = false ∧
        fieldNat (t.lreg ctl) 48 8 = b.status.toNat ∧ t.mem = s.mem ∧ t.sram = s.sram
      let part := fieldNat (s.lreg 0x20030000) 8 1
      let off := fieldNat (s.lreg 0x20030008) 0 32
      let len := fieldNat (s.lreg 0x20030010) 0 32
      let dst := (s.lreg 0x20030018).toNat
      let base := localBase + 0x10000000
      let n := fieldNat (s.lreg 0x20010200) 8 4
      let src := (s.lreg 0x20010208).toNat
      (s.bpBusy = none → off % 64 = 0 → len % 64 = 0 → dst % 64 = 0 → 64 ≤ len → off + len ≤ 0x100000 → base ≤ dst →
        dst + len ≤ base + 0x80000 → s.flashErr = [] → s.sram.wf = true → s.flash.wf = true →
        ∃ t, runs .bpCopy 0x20030000 State.bpBusy 0 t ∧ ∀ x, Mem.read t.sram x =
          if dst - base ≤ x ∧ x < dst - base + len then Mem.read s.flash (part * 0x100000 + off + (x - (dst - base)))
          else Mem.read s.sram x) ∧
      (s.bpBusy = none →
        let odd := off % 64 ≠ 0 ∨ len % 64 ≠ 0 ∨ dst % 64 ≠ 0 ∨ len < 64 ∨ 0x80000 < len
        let outside := dst < base ∨ base + 0x80000 < dst + len ∨ 0x100000 < off + len
        (odd → ∃ t, runs .bpCopy 0x20030000 State.bpBusy 3 t ∧ t.sram = s.sram) ∧
        (¬ odd → outside → ∃ t, runs .bpCopy 0x20030000 State.bpBusy 2 t ∧ t.sram = s.sram) ∧
        ∀ e, ¬ odd → ¬ outside → s.flashErr = [part * 0x100000 + off + e] → e < len → s.sram.wf = true → s.flash.wf = true →
          ∃ t, runs .bpCopy 0x20030000 State.bpBusy 1 t ∧ ∀ x, Mem.read t.sram x =
            if dst - base ≤ x ∧ x < dst - base + e then Mem.read s.flash (part * 0x100000 + off + (x - (dst - base)))
            else Mem.read s.sram x) ∧
      (∀ b, s.bpBusy = some b → exec .bpCopy s = .next s ∧ (s.cycle < b.due → exec .bpCopyDone s = .next s) ∧
        (b.due ≤ s.cycle → ∃ t, ends .bpCopyDone 0x20030000 b t ∧ t.bpBusy = none)) ∧
      (s.mrBusy = none → (bitAt (s.lreg 0x20010210) n = true → ∃ t, runs .mrExtend 0x20010200 State.mrBusy 1 t ∧ t.mrNext = none ∧
          t.mr = s.mr) ∧
        (bitAt (s.lreg 0x20010210) n = false → base ≤ src → src + 32 ≤ base + 0x80000 →
          ∃ t, runs .mrExtend 0x20010200 State.mrBusy 0 t ∧ t.mr = s.mr ∧ t.sram = s.sram ∧
            t.mrNext = some (Fin.ofNat 16 n, BitVec.ofNat 256 (beNat (sha256 (natBE 32 (s.mr[Fin.ofNat 16 n]).toNat ++
              Mem.bytes s.sram (src - base) 32))))) ∧
        (bitAt (s.lreg 0x20010210) n = false → src < base ∨ base + 0x80000 < src + 32 →
          ∃ t, runs .mrExtend 0x20010200 State.mrBusy 2 t ∧ t.mrNext = none ∧ t.mr = s.mr)) ∧
      (∀ b, s.mrBusy = some b → exec .mrExtend s = .next s ∧ (s.cycle < b.due → exec .mrExtendDone s = .next s) ∧
        (s.mrNext = none → b.due ≤ s.cycle → ∃ t, ends .mrExtendDone 0x20010200 b t ∧ t.mrBusy = none ∧ t.mr = s.mr)) ∧
      (∀ b i x, s.mrBusy = some b → s.mrNext = some (i, x) → b.due ≤ s.cycle → ∃ t, ends .mrExtendDone 0x20010200 b t ∧
        t.mrBusy = none ∧ t.mr[i] = x ∧ ∀ j, j ≠ i → t.mr[j] = s.mr[j]) ∧
      (∀ v, ∃ t, exec (.mrlockWrite v) s = .next t ∧ t = { s with regs := t.regs } ∧
        t.lreg 0x20010210 = s.lreg 0x20010210 ||| (v &&& 0xFFFF)) ∧
      (∀ b, s.ceBusy = some b → (s.cycle < b.due → exec .ceOperationDone s = .next s) ∧
        (b.due ≤ s.cycle → ∃ t, ends .ceOperationDone 0x20000000 b t ∧ t.ceBusy = none) ∧
        ∀ i ∈ [Instr.ceHinit, .ceHupd, .ceHfin, .ceVerify, .ceSign, .ceRand, .ceDevpub, .ceLinkkey, .ceEcdh],
          exec i s = .next s) ∧
      (s.ceBusy = none →
        let c := s.ceCtx
        let cl := s.ceLen
        let inSram := fun (a : Word) (k : Nat) => base ≤ a.toNat ∧ a.toNat + k ≤ base + 0x80000
        let bytes := fun (a : Word) (k : Nat) => Mem.bytes s.sram (a.toNat - base) k
        let ce := fun (i : Instr) (status : Byte) (t : State) => runs i 0x20000000 State.ceBusy status t
        let wrote := fun (t : State) (bs : List Byte) => t.sram = Mem.writeBytes s.sram (s.ceDst.toNat - base) bs
        (∃ t, ce .ceHinit 0 t ∧ t.hash[c] = some Hash.init ∧ ∀ e, e ≠ c → t.hash[e] = s.hash[e]) ∧
        (∀ h, s.hash[c] = some h →
          (inSram s.ceSrc cl → ∃ t, ce .ceHupd 0 t ∧ t.hash[c] = some (h.update (bytes s.ceSrc cl))) ∧
          (inSram s.ceDst 32 → ∃ t, ce .ceHfin 0 t ∧ t.hash[c] = none ∧ wrote t h.digest)) ∧
        (s.hash[c] = none → inSram s.ceSrc cl → inSram s.ceDst 32 →
          (∃ t, ce .ceHupd 4 t ∧ t.hash = s.hash) ∧ ∃ t, ce .ceHfin 4 t ∧ t.hash = s.hash ∧ t.sram = s.sram) ∧
        (inSram s.ceSrc 32 → inSram s.ceDst 64 →
          (inSram s.ceAux 64 → ∃ t, ce .ceVerify (if ecdsaVerify (bytes s.ceSrc 32) (bytes s.ceDst 64) (bytes s.ceAux 64)
            then 0 else 1) t ∧ t.sram = s.sram) ∧
          (s.devKey = true → (∃ t, ce .ceSign 0 t ∧ wrote t (ecdsaSign privKey (bytes s.ceSrc 32))) ∧
            ∃ t, ce .ceDevpub 0 t ∧ wrote t (publicKey privKey)) ∧
          (s.devKey = false → (∃ t, ce .ceSign 5 t ∧ t.sram = s.sram) ∧ ∃ t, ce .ceDevpub 5 t ∧ t.sram = s.sram)) ∧
        (1 ≤ cl → cl ≤ 256 → inSram s.ceDst cl → ∃ t, ce .ceRand 0 t ∧ t.draws = s.draws + 1 ∧
          wrote t ((List.range cl).map (Config.drbgByte s.draws))) ∧
        (∀ n, s.ceAux.toNat = n →
          (n < 96 → s.erased = false → ∃ t, ce .ceLinkkey 0 t ∧ (t.link n).keyed = true ∧
            (t.link n).count = Vector.replicate 2 0 ∧ ∀ m, m ≠ n → t.link m = s.link m) ∧
          (s.erased = true → n < 96 → ∃ t, ce .ceLinkkey 7 t ∧ t.links = s.links) ∧
          (96 ≤ n → n ≤ 113 → inSram s.ceSrc 64 → s.devKey = true → s.erased = false → ∀ z,
            ecdh privKey (bytes s.ceSrc 64) = some z → ∃ t, ce .ceEcdh 0 t ∧ (t.link n).keyed = true ∧
              ∀ m, m ≠ n → t.link m = s.link m) ∧
          (96 ≤ n → ∃ t, ce .ceLinkkey 6 t ∧ t.links = s.links) ∧
          (n < 96 ∨ 113 < n → ∃ t, ce .ceEcdh 6 t ∧ t.links = s.links) ∧
          (96 ≤ n → n ≤ 113 → inSram s.ceSrc 64 → (s.devKey = false → ∃ t, ce .ceEcdh 5 t ∧ t.links = s.links) ∧
            (s.devKey = true → s.erased = true → ∃ t, ce .ceEcdh 7 t ∧ t.links = s.links)))))

/-- 20 R452, R453, R458, R459, R464 to R466, 21 R469, R472, R473: a reset loses what is volatile and keeps what is not; the ROM runs an image
that passes its checks and else answers attestation requests itself (what a record refused by its checks does is log 102, a
request shorter than four bytes is judged by what stands in the buffer, log 60; both DEDUCED); dies and management cores are released; a write of a
register changes its writable bits alone, and a misaligned one, or one that no table names, changes nothing. -/
def Obligations.BootAndAttestation : Prop :=
  (∀ s : State,
    (∃ t, exec .powerOutOfRange s = .next t ∧ t.powered = false ∧ t.thr = [] ∧ t.mem = [] ∧ t.lm = [] ∧ t.keys = [] ∧
      t.flash = s.flash ∧ t.puf = s.puf ∧ t.erased = false) ∧
    (let h := Mem.bytes s.flash 0 0x80
     let len := leNat ((h.drop 8).take 4)
     let code := Mem.bytes s.flash 0x80 len
     let key := Mem.bytes s.flash 0x20000 64
     let good := len ≤ 0x1FF80 ∧ len % 64 = 0 ∧ (∀ e ∈ s.flashErr, 0x80 + len ≤ e ∧ (e < 0x20000 ∨ 0x20040 ≤ e)) ∧
       beNat (sha256 key) = Config.vendorKeyHash.toNat ∧ leNat (h.take 4) = 0x4D495A4B ∧ leNat ((h.drop 4).take 2) = 1 ∧
       Config.minSvn.toNat ≤ leNat ((h.drop 6).take 2) ∧
       ecdsaVerify (sha256 (h.take 0x30 ++ code)) key ((h.drop 0x30).take 64) = true
     ∃ t, exec .powerOnReset s = .next t ∧ t.powered = true ∧ t.mem = [] ∧ t.keys = [] ∧ t.flash = s.flash ∧ t.puf = s.puf ∧
       t.devKey = s.puf ∧
       (good → (t.ht (.mgmt 0)).active = true ∧ (t.ht (.mgmt 0)).priv = .m ∧
         (t.ht (.mgmt 0)).pc = BitVec.ofNat 64 (localBase + 0x10000000 + leNat ((h.drop 12).take 4)) ∧
         bitAt (t.lreg 0x20010210) 0 = true ∧
         t.mr[(0 : Fin 16)] = BitVec.ofNat 256 (beNat (sha256 (List.replicate 32 0 ++ sha256 (h.take 0x30 ++ code))))) ∧
       (¬ good → (t.ht (.mgmt 0)).active = false ∧ t.spdm.state = .initial ∧ t.mr = State.reset.mr))) ∧
  (∀ (s : State) (v : Word), cwf 0 s.regs = true →
    (∃ t, exec (.rstrelWrite v) s = .next t ∧ t.mreg 0x40 = s.mreg 0x40 ||| (v &&& 0xFFFFF) ∧
      t = { s with regs := t.regs, quads := t.quads } ∧ ∀ q, t.quad q =
        if q < 960 ∧ bitAt v (q / 120) = true ∧ bitAt (s.mreg 0x40) (q / 120) = false then { s.quad q with base := s.cycle }
        else s.quad q) ∧
    (∀ n : Fin 4, n ≠ 0 → ∃ t, exec (.mcstartWrite n v) s = .next t ∧ t.mreg (8 * n.val) = v ∧
      t = { s with regs := t.regs, harts := t.harts } ∧ t.ht (.mgmt n) =
        if (s.ht (.mgmt n)).active = true then s.ht (.mgmt n)
        else { s.ht (.mgmt n) with pc := v, priv := .m, active := true, wfi := false }) ∧
    (∀ p off, off % 8 ≠ 0 → exec (.registerWrite p off v) s = .next s) ∧
    (∀ r off, exec (.registerWrite (.root r) off v) s = .next s) ∧
    (∀ x ∈ [(0x80, (0xFFFF : Word)), (0x120, BitVec.allOnes 64), (0x190, BitVec.allOnes 64), (0x1C0, BitVec.allOnes 64),
        (0x230, BitVec.allOnes 64), (0x108, 0xFFFFFF0000), (0x110, 0xFFFFFF0000), (0x200, 0xFFFFFFF000), (0x208, 0xFFFFFFF000),
        (0x218, 0x00FFFFFFFFFF0000), (0x220, 0x00FFFFFFFFFF0000), (0x240, ~~~(3 : Word))],
      ∃ t, exec (.registerWrite .mgmt x.1 v) s = .next t ∧ t = { s with regs := t.regs } ∧
        t.mreg x.1 = (s.mreg x.1 &&& ~~~x.2) ||| (v &&& x.2) ∧ ∀ a, a ≠ mgmtBase + x.1 → t.reg a = s.reg a) ∧
    (∃ t, exec (.registerWrite .mgmt 0x228 v) s = .next t ∧ t.mreg 0x228 = s.mreg 0x228 &&& ~~~(v &&& 2) ∧
      t.agenda = s.agenda ++ if bitAt v 0 then [.unmapGo] else [])) ∧
  (∀ s : State, cwf 0 s.regs = true → s.rspbuf.wf = true →
    let n := min (fieldNat (s.lreg 0x20020000) 16 16) 4096
    let q := Mem.bytes s.reqbuf 0 n
    let byte := fun o => (Mem.read s.reqbuf o).toNat
    let word := fun o k => Mem.readN s.reqbuf o k
    let replies := fun (i : Instr) (reply : List Byte) (x : Spdm) => ∃ t, exec i s = .next t ∧ bitAt (t.lreg 0x20020000) 0 = false ∧
      t.lreg 0x20020008 = BitVec.ofNat 64 (reply.length % 65536 * 65536 + 1) ∧ Mem.bytes t.rspbuf 0 reply.length = reply ∧
      t.spdm = x ∧ t.mem = s.mem ∧ t.msix = 1 :: s.msix
    let error := fun (i : Instr) (version code : Byte) => replies i [version, 0x7F, code, 0] s.spdm
    let rows := [Instr.spdmGetVersion, .spdmGetCapabilities, .spdmNegotiateAlgorithms, .spdmGetCertificate, .spdmChallenge,
      .spdmGetMeasurements, .spdmUnsupportedRequest]
    (s.responds = false → ∀ i ∈ rows, exec i s = .next s) ∧
    (s.responds = true →
      (byte 1 = 0x84 → (byte 0 ≠ 0x10 → error .spdmGetVersion 0x10 0x41) ∧ (byte 0 = 0x10 → n ≠ 4 → error .spdmGetVersion 0x10 0x01) ∧
        (byte 0 = 0x10 → n = 4 → replies .spdmGetVersion versionReply
          { s.spdm with state := .versioned, vca := q ++ versionReply, m := [], l := [] })) ∧
      (byte 1 = 0xE1 → byte 0 = 0x13 → (s.spdm.state ≠ .versioned → error .spdmGetCapabilities 0x13 0x04) ∧
        (s.spdm.state = .versioned → n = 20 → replies .spdmGetCapabilities capReply
          { s.spdm with state := .capable, vca := s.spdm.vca ++ q ++ capReply })) ∧
      (byte 1 = 0xE3 → byte 0 = 0x13 → (s.spdm.state ≠ .capable → error .spdmNegotiateAlgorithms 0x13 0x04) ∧
        (s.spdm.state = .capable → 32 ≤ n → n ≤ 128 → word 4 2 = n → word 8 4 / 16 % 2 = 1 → word 12 4 % 2 = 1 → byte 6 % 2 = 1 →
          let vca := s.spdm.vca ++ q ++ algReply
          replies .spdmNegotiateAlgorithms algReply { s.spdm with state := .negotiated, vca := vca, m := vca, l := vca })) ∧
      (byte 0 = 0x13 → s.spdm.state = .negotiated →
        (byte 1 = 0x82 → n = 8 → byte 2 % 16 = 0 → word 4 2 < s.spdm.cl →
          let left := s.spdm.cl - word 4 2
          let k := min (min (word 6 2) left) 4088
          let reply := [(0x13 : Byte), 0x02, 0, 0] ++ natLE 2 k ++ natLE 2 (left - k) ++ Mem.bytes s.flash (0x23000 + word 4 2) k
          s.spdm.m.length + n + reply.length ≤ 0x6000 →
          replies .spdmGetCertificate reply { s.spdm with m := s.spdm.m ++ q ++ reply }) ∧
        (byte 1 = 0x83 → n = 44 → byte 2 % 16 = 0 → byte 3 = 0 → s.devKey = true →
          let reply := [(0x13 : Byte), 0x03, 0, 1] ++ s.spdm.hc ++ (List.range 32).map (Config.drbgByte s.draws) ++ [] ++ [0, 0] ++
            Mem.bytes s.reqbuf 36 8
          s.spdm.m.length + n + reply.length ≤ 0x6000 →
          replies .spdmChallenge (reply ++ spdmSign ctxChallenge (s.spdm.m ++ q ++ reply)) { s.spdm with m := s.spdm.vca }) ∧
        (byte 1 = 0xE0 → n = 12 → byte 2 % 2 = 0 → byte 3 = 0 →
          let reply := [(0x13 : Byte), 0x60, 16, 0, 0, 0, 0, 0] ++ (List.range 32).map (Config.drbgByte s.draws) ++ [0, 0] ++
            Mem.bytes s.reqbuf 4 8
          replies .spdmGetMeasurements reply { s.spdm with l := s.spdm.l ++ q ++ reply })) ∧
      ((∀ k ∈ [0x84, 0xE1, 0xE3, 0x82, 0x83, 0xE0], byte 1 ≠ k) → error .spdmUnsupportedRequest 0x13 0x07)))

/-! ### The whole machine -/

/-- 02 R22, R34, R47: when the next to act is a thread at a boundary with nothing before its head, a hart that takes no interrupt, or a
transition that follows at once (but for the security triggers and the host's doorbell, which wait for the rest of their
cycle), `step` is `exec` of the decoded instruction, or of the transition, at that state; around it the slot is noted as having
issued, and a reservation ends when its bytes have changed (`settle`). -/
def Obligations.StepRunsDecoded : Prop :=
  ∀ s : State, s.powered = true →
    let runs := fun (i : Instr) (who : Option Tid) (hand : Option Hid) (at_ : State) =>
      (∀ t, exec i at_ = .next t → step s = .next (settle ⟨some i, at_, who, hand⟩ s t)) ∧ (∀ f, exec i at_ = .fault f → step s = .fault f) ∧
      (∀ r, exec i at_ = .refused r → step s = .refused r)
    (∀ i rest, s.agenda = i :: rest → isTrigger i = false → isDoorbell i = false → runs i none none { s with agenda := rest }) ∧
    (∀ (t : Tid) (rest : List Agent) (i : Instr), s.agenda = [] → s.todo = .thread t :: rest →
      let x := s.th t
      s.mayRun t = true → x.run = .running ∨ x.run = .blocked → x.lanes = 0 → x.xbr = none → x.fetch = none → x.hold ≤ s.cycle →
      x.deferred = none → x.badReg = false → x.killReq = false → x.parkEv = 0 → x.saveReq = false → x.exempt = true ∨ s.breakAt t = none →
      1 ≤ headIdx x.pc → headIdx x.pc ≤ lineNH x.line → decodeHead x.line (headIdx x.pc) = some i →
      (isSeq t = true → seqLegal i = true) → runs i (some t) none { s with todo := rest, cur := t }) ∧
    (∀ (h : Hid) (rest : List Agent) (s1 s2 : State) (lo hi : Nat), s.agenda = [] → s.todo = .hart h :: rest →
      let at_ : State := { s with todo := rest, hart := h }
      let awake := at_.modHt h fun x => { x with wfi := false }
      (s.ht h).active = true → (s.ht h).due ≤ s.cycle → at_.takenInt h = none → (s.ht h).wfi = false ∨ at_.wfiOver h = true →
      hartFetch2 awake h (s.ht h).pc.toNat = (.ok lo, s1) →
      (lo % 4 ≠ 3 → runs (decode16 (BitVec.ofNat 16 lo)) none (some h) s1) ∧
      (lo % 4 = 3 → hartFetch2 s1 h ((s.ht h).pc + 2).toNat = (.ok hi, s2) →
        runs (decode32 (BitVec.ofNat 32 (hi * 65536 + lo))) none (some h) s2))

/-- 03 R59 to R62, R71 to R80, R83, R84: words of each family, written out field by field from the encoding tables, decode to the
instructions that they stand for: a head is OP, D, TL, X; a TR tail is A, EA, B, EB, M; a `kz` word is funct7, rs2, rs1,
funct3, rd, opcode. OP 0x00 is no instruction. -/
def Obligations.DecodeWords : Prop :=
  decodeMicro 0b0000001_000101_01_0 [0b000011_1_000100_0_00] = some (.add (.g 5) ⟨.g 3, true⟩ ⟨.g 4, false⟩) ∧
  decodeMicro 0b0010000_000110_11_0 [0x789A, 0x3456, 0x0012] = some (.movk (.g 6) (.k48 0x123456789A)) ∧
  decodeMicro 0b0100001_000010_11_1 [0b000101_0_000000_0_00, 2, 0] =
    some (.bc .lt ⟨.g 5, false⟩ ⟨.g 0, false⟩ 2 (some 0)) ∧
  decodeMicro 0b0110001_000101_11_1 [0b000100_0_000000_0_01, 2, 7] = some (.ldz .h (.g 5) ⟨.g 4, false⟩ 2 (some 7)) ∧
  decodeMicro 0b0111101_101101_01_0 [0b000100_0_000101_0_01] = some (.sbind 1 (.wr ⟨.g 4, false⟩ ⟨.g 5, false⟩)) ∧
  decodeMicro 0b1000011_100011_01_0 [0b100001_0_100010_0_10] = some (.vfma .bf16x2 3 ⟨1, false⟩ ⟨2, false⟩) ∧
  decodeMicro 0b1100000_000101_10_0 [0b000001_0_000010_0_11, 0b0000000_101_01_1000] =
    some (.amo .swap true (.acq .pod) (.g 5) ⟨.g 1, false⟩ ⟨.g 2, false⟩) ∧
  decodeMicro 0b1110010_001001_11_0 [0b000001_0_000000_0_00, 0b0_0_1_010_00000000_00, 0b01_001010_001011_00] =
    some (.gath ⟨.g 9, 1, false, false, true, 2, .st 10 11⟩ .i32) ∧
  decodeMicro 0b1111010_011110_01_0 [0b000000_0_000000_0_01] = some (.dpop 30) ∧
  decode32 0b0000110_01011_01010_000_01100_0001011 = .kzFault 12 10 11 ∧
  ∀ ts, decodeMicro 0 ts = none

/-- 03 R56 to R80, R84: decoding what the encoder gives for a well-formed instruction gives that instruction back, with every operand at
every value that its field admits; the head says how many tails follow. -/
def Obligations.EncodeDecode : Prop :=
  ∀ i : Instr, WellFormed i = true →
    (∀ h ts, encode i = h :: ts → decodeMicro h ts = some i ∧ hdTL h = ts.length) ∧
    (∀ w, encodeKz i = some w → decode32 w = i)

/-- 17 R406, R407: while a device counts as erased it holds no domain key and its key source is off, whatever it
executes: every step keeps this. -/
def Obligations.KeysStayErased : Prop :=
  ∀ s t : State, s.keysGone → step s = .next t → t.keysGone

/-- Every memory and every bank of registers of the state keeps its one canonical form (strictly rising addresses, no entry equal
to what an unlisted address reads as) whatever the machine does: every step keeps this, so that equal memories stay equal data. -/
def Obligations.MemoryStaysCanonical : Prop :=
  ∀ s t : State, s.memWf → step s = .next t → t.memWf

/-- 10 R289, 15 R352, 20 R459, 08 R263, R269: what reset leaves, as the spec gives it, and that the invariants hold there. A quad
register that no virtual quad has reads zero. -/
def Obligations.AtReset : Prop :=
  State.reset.keysGone ∧ State.reset.memWf ∧
  (∀ t : Tid, (State.reset.th t).run = .stopped .normal ∧ (State.reset.th t).pend = []) ∧
  (∀ q b, Mem.read State.reset.lm (q * 0x200000 + b) = 0 ∧ (State.reset.quad q).op = .none) ∧
  (∀ c : Cid, (State.reset.core c).launch = none ∧ (State.reset.core c).deque = [] ∧ State.reset.csr (.ctl c) 0x8C0 = BitVec.allOnes 64) ∧
  State.reset.mreg 0x80 = 7500 ∧ (∀ d q, d < 8 → q < 120 →
    State.reset.regRead (.die d) (0x400 + 8 * q) = if q < State.reset.activeQuads then 0x0069FFFF00000007 else 0) ∧
  (∀ q : Nat, (State.reset.lq q).blocks = []) ∧ State.reset.powered = true ∧
  ((State.reset.ht (.mgmt 0)).active = true ∧ (State.reset.ht (.mgmt 0)).pc = 0x00FF000000000000 ∧ (State.reset.ht (.mgmt 0)).priv = .m) ∧
  ∀ h : Hid, h ≠ .mgmt 0 → (State.reset.ht h).active = false
end

