-- ==== Sys2Proof/Laws/Maps.lean ====
section
/-! SUPPORT. Sparse memories and tables: read after write, and the canonical form that every memory operation keeps. -/

namespace Sys2Proof.Machine

/-! ### Tables -/

section Tables
variable {κ α : Type} [DecidableEq κ]

@[simp] theorem tget_tset_self (d : α) (m : Tbl κ α) (k : κ) (x : α) : tget d (tset m k x) k = x := by
  induction m with
  | nil => simp [tset, tget]
  | cons e r ih => obtain ⟨k', v⟩ := e; by_cases h : k = k' <;> simp [tset, tget, h, ih]

theorem tget_tset_ne (d : α) (m : Tbl κ α) {k j : κ} (x : α) (h : j ≠ k) : tget d (tset m k x) j = tget d m j := by
  induction m with
  | nil => simp [tset, tget, h]
  | cons e r ih =>
    obtain ⟨k', v⟩ := e
    by_cases hk : k = k'
    · subst hk; simp [tset, tget, h]
    · by_cases hj : j = k' <;> simp [tset, tget, hk, hj, ih]

theorem tget_tset (d : α) (m : Tbl κ α) (k j : κ) (x : α) : tget d (tset m k x) j = if j = k then x else tget d m j := by
  by_cases h : j = k
  · subst h; simp
  · simp [h, tget_tset_ne d m x h]

theorem tget?_tset (m : Tbl κ α) (k j : κ) (x : α) : tget? (tset m k x) j = if j = k then some x else tget? m j := by
  induction m with
  | nil => by_cases h : j = k <;> simp [tset, tget?, h]
  | cons e r ih =>
    obtain ⟨k', v⟩ := e
    by_cases hk : k = k'
    · subst hk; by_cases h : j = k <;> simp [tset, tget?, h]
    · by_cases hj : j = k'
      · subst hj; simp [tset, tget?, hk, Ne.symm hk]
      · simp [tset, tget?, hk, hj, ih]

end Tables

/-! ### Cells -/

section Cells
variable {w : Nat} (d : BitVec w)

/-- Every key of the list lies above `k`. -/
theorem cwf_cons {k : Nat} {v : BitVec w} {r : Cells w} :
    cwf d ((k, v) :: r) = true ↔ v ≠ d ∧ (∀ e ∈ r, k < e.1) ∧ cwf d r = true := by
  simp [cwf, and_assoc]

theorem cget_below {m : Cells w} {a : Nat} (h : ∀ e ∈ m, a < e.1) : cget d m a = d := by
  cases m with
  | nil => rfl
  | cons e r =>
    obtain ⟨k, v⟩ := e
    have hk : a < k := h _ (List.mem_cons_self ..)
    simp [cget, hk, Nat.ne_of_lt hk]

theorem mem_cset {m : Cells w} {a : Nat} {x : BitVec w} {e : Nat × BitVec w} (h : e ∈ cset d m a x) : e = (a, x) ∨ e ∈ m := by
  induction m with
  | nil =>
    simp only [cset] at h
    split at h <;> simp_all
  | cons f r ih =>
    obtain ⟨k, v⟩ := f
    simp only [cset] at h
    split at h
    · split at h <;> simp_all
    · split at h
      · split at h
        · exact .inr (List.mem_cons_of_mem _ ((List.dropWhile_suffix _).subset h))
        · rcases List.mem_cons.mp h with h | h <;> simp_all
      · rcases List.mem_cons.mp h with h | h
        · simp [h]
        · rcases ih h with h | h <;> simp [h]

theorem cwf_dropWhile {m : Cells w} (p : Nat × BitVec w → Bool) (h : cwf d m = true) : cwf d (m.dropWhile p) = true := by
  induction m with
  | nil => rfl
  | cons e r ih =>
    obtain ⟨k, v⟩ := e
    rw [List.dropWhile_cons]
    split
    · exact ih ((cwf_cons d).mp h).2.2
    · exact h

/-- A write keeps the canonical form. -/
theorem cwf_cset {m : Cells w} (a : Nat) (x : BitVec w) (h : cwf d m = true) : cwf d (cset d m a x) = true := by
  induction m with
  | nil => by_cases hx : x = d <;> simp [cset, hx, cwf]
  | cons e r ih =>
    obtain ⟨k, v⟩ := e
    obtain ⟨hv, hk, hr⟩ := (cwf_cons d).mp h
    simp only [cset]
    split
    · split
      · exact h
      · rename_i hak hx
        refine (cwf_cons d).mpr ⟨hx, fun e he => ?_, h⟩
        rcases List.mem_cons.mp he with rfl | he
        · exact hak
        · exact Nat.lt_trans hak (hk e he)
    · split
      · rename_i hak
        split
        · exact cwf_dropWhile d _ hr
        · rename_i hx
          exact (cwf_cons d).mpr ⟨hx, fun e he => hak ▸ hk e he, hr⟩
      · rename_i h1 h2
        refine (cwf_cons d).mpr ⟨hv, fun e he => ?_, ih hr⟩
        rcases mem_cset d he with rfl | he
        · exact Nat.lt_of_le_of_ne (Nat.le_of_not_lt h1) (Ne.symm h2)
        · exact hk e he

/-- Dropping entries keeps the canonical form. -/
theorem cwf_filter {m : Cells w} (p : Nat × BitVec w → Bool) (h : cwf d m = true) : cwf d (m.filter p) = true := by
  induction m with
  | nil => rfl
  | cons e r ih =>
    obtain ⟨k, v⟩ := e
    obtain ⟨hv, hk, hr⟩ := (cwf_cons d).mp h
    rw [List.filter_cons]
    split
    · exact (cwf_cons d).mpr ⟨hv, fun e he => hk e (List.mem_of_mem_filter he), ih hr⟩
    · exact ih hr

theorem cget_cset {m : Cells w} (a b : Nat) (x : BitVec w) (h : cwf d m = true) :
    cget d (cset d m a x) b = if b = a then x else cget d m b := by
  induction m with
  | nil => by_cases hx : x = d <;> by_cases hb : b = a <;> simp [cset, cget, hx, hb]
  | cons e r ih =>
    obtain ⟨k, v⟩ := e
    obtain ⟨hv, hk, hr⟩ := (cwf_cons d).mp h
    simp only [cset]
    by_cases h1 : a < k
    · by_cases hx : x = d
      · by_cases hb : b = a
        · subst hb; simp [h1, hx, cget, Nat.ne_of_lt h1]
        · simp [h1, hx, hb]
      · simp only [h1, hx, if_true, if_false]
        rw [cget]
        by_cases hb : b = a
        · simp [hb]
        · by_cases hba : b < a
          · have hbk := Nat.lt_trans hba h1
            simp [hb, hba, cget, hbk, Nat.ne_of_lt hbk]
          · simp [hb, hba]
    · by_cases h2 : a = k
      · subst h2
        have habove : ∀ e ∈ r, ¬ e.1 ≤ a := fun e he => Nat.not_le.mpr (hk e he)
        have hdrop : r.dropWhile (fun e => decide (e.1 ≤ a)) = r := by
          cases r with
          | nil => rfl
          | cons f r' => simp [habove f (List.mem_cons_self ..)]
        by_cases hx : x = d
        · simp only [h1, hx, if_true, if_false, hdrop, cget]
          by_cases hb : b = a
          · subst hb; simp [cget_below d hk]
          · by_cases hba : b < a
            · have : cget d r b = d := cget_below d fun e he => Nat.lt_trans hba (hk e he)
              simp [hb, hba, this]
            · simp [hb, hba]
        · simp only [h1, hx, if_true, if_false, cget]
          by_cases hb : b = a <;> simp [hb]
      · simp only [h1, h2, if_false, cget, ih hr]
        by_cases hb : b = a
        · subst hb; simp [h1, h2]
        · simp [hb]

end Cells

/-! ### Byte memories -/

theorem wf_write {m : Mem} (a : Nat) (x : Byte) (h : m.wf = true) : (m.write a x).wf = true := cwf_cset _ a x h

theorem read_write {m : Mem} (a b : Nat) (x : Byte) (h : m.wf = true) :
    Mem.read (m.write a x) b = if b = a then x else Mem.read m b := cget_cset _ a b x h

theorem wf_writeN {m : Mem} (a n x : Nat) (h : m.wf = true) : (Mem.writeN m a n x).wf = true := by
  induction n generalizing m a x with
  | zero => exact h
  | succ n ih => exact ih _ _ (wf_write _ _ h)

theorem wf_writeBytes {m : Mem} (a : Nat) (xs : List Byte) (h : m.wf = true) : (Mem.writeBytes m a xs).wf = true := by
  induction xs generalizing m a with
  | nil => exact h
  | cons x xs ih => exact ih _ (wf_write _ _ h)

theorem wf_clear {m : Mem} (a n : Nat) (h : m.wf = true) : (Mem.clear m a n).wf = true := cwf_filter _ _ h

theorem wf_copy {src dst : Mem} (a b n : Nat) (h : dst.wf = true) : (Mem.copy src dst a b n).wf = true := by
  unfold Mem.copy
  generalize src.filter _ = l
  have h0 := wf_clear b n h
  generalize Mem.clear dst b n = m at h0
  induction l generalizing m with
  | nil => exact h0
  | cons e l ih => exact ih _ (wf_write _ _ h0)

/-- A byte outside the bytes written reads as before. -/
theorem read_writeN_out {m : Mem} (a n x b : Nat) (h : m.wf = true) (hb : b < a ∨ a + n ≤ b) :
    Mem.read (Mem.writeN m a n x) b = Mem.read m b := by
  induction n generalizing m a x with
  | zero => rfl
  | succ n ih =>
    rw [Mem.writeN, ih _ _ (wf_write _ _ h) (by omega), read_write _ _ _ h, if_neg (by omega)]

theorem read_writeBytes_out {m : Mem} (a : Nat) (xs : List Byte) (b : Nat) (h : m.wf = true)
    (hb : b < a ∨ a + xs.length ≤ b) : Mem.read (Mem.writeBytes m a xs) b = Mem.read m b := by
  induction xs generalizing m a with
  | nil => rfl
  | cons x xs ih =>
    rw [List.length_cons] at hb
    rw [Mem.writeBytes, ih _ (wf_write _ _ h) (by omega), read_write _ _ _ h, if_neg (by omega)]

/-- What is written is read back, little-endian. -/
theorem readN_writeN {m : Mem} (a n x : Nat) (h : m.wf = true) : Mem.readN (Mem.writeN m a n x) a n = x % 256 ^ n := by
  induction n generalizing m a x with
  | zero => simp [Mem.readN, Nat.mod_one]
  | succ n ih =>
    rw [Mem.writeN, Mem.readN, ih _ _ (wf_write _ _ h), read_writeN_out _ _ _ _ (wf_write _ _ h) (by omega),
      read_write _ _ _ h, if_pos rfl, BitVec.toNat_ofNat, show 256 ^ (n + 1) = 256 * 256 ^ n by ring, Nat.mod_mul]

end Sys2Proof.Machine
end

