-- ==== Sys2Proof/Laws/State.lean ====
section
/-! SUPPORT. What each update of the state leaves alone: one lemma per field per update. -/

namespace Sys2Proof.Machine

variable (s : State)

/-! ### setTh -/

@[simp] theorem setTh_cycle (t : Tid) (x : Thread) : (s.setTh t x).cycle = s.cycle := rfl
@[simp] theorem setTh_cores (t : Tid) (x : Thread) : (s.setTh t x).cores = s.cores := rfl
@[simp] theorem setTh_harts (t : Tid) (x : Thread) : (s.setTh t x).harts = s.harts := rfl
@[simp] theorem setTh_quads (t : Tid) (x : Thread) : (s.setTh t x).quads = s.quads := rfl
@[simp] theorem setTh_lm (t : Tid) (x : Thread) : (s.setTh t x).lm = s.lm := rfl
@[simp] theorem setTh_lmWas (t : Tid) (x : Thread) : (s.setTh t x).lmWas = s.lmWas := rfl
@[simp] theorem setTh_lmPoison (t : Tid) (x : Thread) : (s.setTh t x).lmPoison = s.lmPoison := rfl
@[simp] theorem setTh_canPoison (t : Tid) (x : Thread) : (s.setTh t x).canPoison = s.canPoison := rfl
@[simp] theorem setTh_canopy (t : Tid) (x : Thread) : (s.setTh t x).canopy = s.canopy := rfl
@[simp] theorem setTh_acc (t : Tid) (x : Thread) : (s.setTh t x).acc = s.acc := rfl
@[simp] theorem setTh_mem (t : Tid) (x : Thread) : (s.setTh t x).mem = s.mem := rfl
@[simp] theorem setTh_stack (t : Tid) (x : Thread) : (s.setTh t x).stack = s.stack := rfl
@[simp] theorem setTh_bitmap (t : Tid) (x : Thread) : (s.setTh t x).bitmap = s.bitmap := rfl
@[simp] theorem setTh_bmHeld (t : Tid) (x : Thread) : (s.setTh t x).bmHeld = s.bmHeld := rfl
@[simp] theorem setTh_badLines (t : Tid) (x : Thread) : (s.setTh t x).badLines = s.badLines := rfl
@[simp] theorem setTh_lost (t : Tid) (x : Thread) : (s.setTh t x).lost = s.lost := rfl
@[simp] theorem setTh_l2 (t : Tid) (x : Thread) : (s.setTh t x).l2 = s.l2 := rfl
@[simp] theorem setTh_l2tree (t : Tid) (x : Thread) : (s.setTh t x).l2tree = s.l2tree := rfl
@[simp] theorem setTh_mlc (t : Tid) (x : Thread) : (s.setTh t x).mlc = s.mlc := rfl
@[simp] theorem setTh_mlcFill (t : Tid) (x : Thread) : (s.setTh t x).mlcFill = s.mlcFill := rfl
@[simp] theorem setTh_mlcWays (t : Tid) (x : Thread) : (s.setTh t x).mlcWays = s.mlcWays := rfl
@[simp] theorem setTh_tcache (t : Tid) (x : Thread) : (s.setTh t x).tcache = s.tcache := rfl
@[simp] theorem setTh_sliceOut (t : Tid) (x : Thread) : (s.setTh t x).sliceOut = s.sliceOut := rfl
@[simp] theorem setTh_cmds (t : Tid) (x : Thread) : (s.setTh t x).cmds = s.cmds := rfl
@[simp] theorem setTh_sq (t : Tid) (x : Thread) : (s.setTh t x).sq = s.sq := rfl
@[simp] theorem setTh_grains (t : Tid) (x : Thread) : (s.setTh t x).grains = s.grains := rfl
@[simp] theorem setTh_incrs (t : Tid) (x : Thread) : (s.setTh t x).incrs = s.incrs := rfl
@[simp] theorem setTh_barEvs (t : Tid) (x : Thread) : (s.setTh t x).barEvs = s.barEvs := rfl
@[simp] theorem setTh_fills (t : Tid) (x : Thread) : (s.setTh t x).fills = s.fills := rfl
@[simp] theorem setTh_ringMsgs (t : Tid) (x : Thread) : (s.setTh t x).ringMsgs = s.ringMsgs := rfl
@[simp] theorem setTh_sups (t : Tid) (x : Thread) : (s.setTh t x).sups = s.sups := rfl
@[simp] theorem setTh_bars (t : Tid) (x : Thread) : (s.setTh t x).bars = s.bars := rfl
@[simp] theorem setTh_fresh (t : Tid) (x : Thread) : (s.setTh t x).fresh = s.fresh := rfl
@[simp] theorem setTh_regs (t : Tid) (x : Thread) : (s.setTh t x).regs = s.regs := rfl
@[simp] theorem setTh_lqs (t : Tid) (x : Thread) : (s.setTh t x).lqs = s.lqs := rfl
@[simp] theorem setTh_rr (t : Tid) (x : Thread) : (s.setTh t x).rr = s.rr := rfl
@[simp] theorem setTh_launches (t : Tid) (x : Thread) : (s.setTh t x).launches = s.launches := rfl
@[simp] theorem setTh_nextLid (t : Tid) (x : Thread) : (s.setTh t x).nextLid = s.nextLid := rfl
@[simp] theorem setTh_images (t : Tid) (x : Thread) : (s.setTh t x).images = s.images := rfl
@[simp] theorem setTh_keys (t : Tid) (x : Thread) : (s.setTh t x).keys = s.keys := rfl
@[simp] theorem setTh_wroteBack (t : Tid) (x : Thread) : (s.setTh t x).wroteBack = s.wroteBack := rfl
@[simp] theorem setTh_fences (t : Tid) (x : Thread) : (s.setTh t x).fences = s.fences := rfl
@[simp] theorem setTh_erased (t : Tid) (x : Thread) : (s.setTh t x).erased = s.erased := rfl
@[simp] theorem setTh_halted (t : Tid) (x : Thread) : (s.setTh t x).halted = s.halted := rfl
@[simp] theorem setTh_puf (t : Tid) (x : Thread) : (s.setTh t x).puf = s.puf := rfl
@[simp] theorem setTh_links (t : Tid) (x : Thread) : (s.setTh t x).links = s.links := rfl
@[simp] theorem setTh_merge (t : Tid) (x : Thread) : (s.setTh t x).merge = s.merge := rfl
@[simp] theorem setTh_smOver (t : Tid) (x : Thread) : (s.setTh t x).smOver = s.smOver := rfl
@[simp] theorem setTh_sramCnt (t : Tid) (x : Thread) : (s.setTh t x).sramCnt = s.sramCnt := rfl
@[simp] theorem setTh_l2gate (t : Tid) (x : Thread) : (s.setTh t x).l2gate = s.l2gate := rfl
@[simp] theorem setTh_mlcgate (t : Tid) (x : Thread) : (s.setTh t x).mlcgate = s.mlcgate := rfl
@[simp] theorem setTh_gateBusy (t : Tid) (x : Thread) : (s.setTh t x).gateBusy = s.gateBusy := rfl
@[simp] theorem setTh_grade (t : Tid) (x : Thread) : (s.setTh t x).grade = s.grade := rfl
@[simp] theorem setTh_groupOver (t : Tid) (x : Thread) : (s.setTh t x).groupOver = s.groupOver := rfl
@[simp] theorem setTh_unmap (t : Tid) (x : Thread) : (s.setTh t x).unmap = s.unmap := rfl
@[simp] theorem setTh_vqmap (t : Tid) (x : Thread) : (s.setTh t x).vqmap = s.vqmap := rfl
@[simp] theorem setTh_badGroups (t : Tid) (x : Thread) : (s.setTh t x).badGroups = s.badGroups := rfl
@[simp] theorem setTh_vsmap (t : Tid) (x : Thread) : (s.setTh t x).vsmap = s.vsmap := rfl
@[simp] theorem setTh_bankMap (t : Tid) (x : Thread) : (s.setTh t x).bankMap = s.bankMap := rfl
@[simp] theorem setTh_rowRepairs (t : Tid) (x : Thread) : (s.setTh t x).rowRepairs = s.rowRepairs := rfl
@[simp] theorem setTh_trims (t : Tid) (x : Thread) : (s.setTh t x).trims = s.trims := rfl
@[simp] theorem setTh_bankOut (t : Tid) (x : Thread) : (s.setTh t x).bankOut = s.bankOut := rfl
@[simp] theorem setTh_failed (t : Tid) (x : Thread) : (s.setTh t x).failed = s.failed := rfl
@[simp] theorem setTh_lcnt (t : Tid) (x : Thread) : (s.setTh t x).lcnt = s.lcnt := rfl
@[simp] theorem setTh_lcBusy (t : Tid) (x : Thread) : (s.setTh t x).lcBusy = s.lcBusy := rfl
@[simp] theorem setTh_accts (t : Tid) (x : Thread) : (s.setTh t x).accts = s.accts := rfl
@[simp] theorem setTh_energy (t : Tid) (x : Thread) : (s.setTh t x).energy = s.energy := rfl
@[simp] theorem setTh_sram (t : Tid) (x : Thread) : (s.setTh t x).sram = s.sram := rfl
@[simp] theorem setTh_reqbuf (t : Tid) (x : Thread) : (s.setTh t x).reqbuf = s.reqbuf := rfl
@[simp] theorem setTh_rspbuf (t : Tid) (x : Thread) : (s.setTh t x).rspbuf = s.rspbuf := rfl
@[simp] theorem setTh_flash (t : Tid) (x : Thread) : (s.setTh t x).flash = s.flash := rfl
@[simp] theorem setTh_flashErr (t : Tid) (x : Thread) : (s.setTh t x).flashErr = s.flashErr := rfl
@[simp] theorem setTh_hostMem (t : Tid) (x : Thread) : (s.setTh t x).hostMem = s.hostMem := rfl
@[simp] theorem setTh_mr (t : Tid) (x : Thread) : (s.setTh t x).mr = s.mr := rfl
@[simp] theorem setTh_mrNext (t : Tid) (x : Thread) : (s.setTh t x).mrNext = s.mrNext := rfl
@[simp] theorem setTh_devKey (t : Tid) (x : Thread) : (s.setTh t x).devKey = s.devKey := rfl
@[simp] theorem setTh_hash (t : Tid) (x : Thread) : (s.setTh t x).hash = s.hash := rfl
@[simp] theorem setTh_ceBusy (t : Tid) (x : Thread) : (s.setTh t x).ceBusy = s.ceBusy := rfl
@[simp] theorem setTh_bpBusy (t : Tid) (x : Thread) : (s.setTh t x).bpBusy = s.bpBusy := rfl
@[simp] theorem setTh_mrBusy (t : Tid) (x : Thread) : (s.setTh t x).mrBusy = s.mrBusy := rfl
@[simp] theorem setTh_kdBusy (t : Tid) (x : Thread) : (s.setTh t x).kdBusy = s.kdBusy := rfl
@[simp] theorem setTh_draws (t : Tid) (x : Thread) : (s.setTh t x).draws = s.draws := rfl
@[simp] theorem setTh_spdm (t : Tid) (x : Thread) : (s.setTh t x).spdm = s.spdm := rfl
@[simp] theorem setTh_msix (t : Tid) (x : Thread) : (s.setTh t x).msix = s.msix := rfl
@[simp] theorem setTh_pod (t : Tid) (x : Thread) : (s.setTh t x).pod = s.pod := rfl
@[simp] theorem setTh_podSize (t : Tid) (x : Thread) : (s.setTh t x).podSize = s.podSize := rfl
@[simp] theorem setTh_pkg (t : Tid) (x : Thread) : (s.setTh t x).pkg = s.pkg := rfl
@[simp] theorem setTh_podInputs (t : Tid) (x : Thread) : (s.setTh t x).podInputs = s.podInputs := rfl
@[simp] theorem setTh_powered (t : Tid) (x : Thread) : (s.setTh t x).powered = s.powered := rfl
@[simp] theorem setTh_agenda (t : Tid) (x : Thread) : (s.setTh t x).agenda = s.agenda := rfl
@[simp] theorem setTh_todo (t : Tid) (x : Thread) : (s.setTh t x).todo = s.todo := rfl
@[simp] theorem setTh_inputs (t : Tid) (x : Thread) : (s.setTh t x).inputs = s.inputs := rfl
@[simp] theorem setTh_cur (t : Tid) (x : Thread) : (s.setTh t x).cur = s.cur := rfl
@[simp] theorem setTh_hart (t : Tid) (x : Thread) : (s.setTh t x).hart = s.hart := rfl

/-! ### modTh -/

@[simp] theorem modTh_cycle (t : Tid) (f : Thread → Thread) : (s.modTh t f).cycle = s.cycle := rfl
@[simp] theorem modTh_cores (t : Tid) (f : Thread → Thread) : (s.modTh t f).cores = s.cores := rfl
@[simp] theorem modTh_harts (t : Tid) (f : Thread → Thread) : (s.modTh t f).harts = s.harts := rfl
@[simp] theorem modTh_quads (t : Tid) (f : Thread → Thread) : (s.modTh t f).quads = s.quads := rfl
@[simp] theorem modTh_lm (t : Tid) (f : Thread → Thread) : (s.modTh t f).lm = s.lm := rfl
@[simp] theorem modTh_lmWas (t : Tid) (f : Thread → Thread) : (s.modTh t f).lmWas = s.lmWas := rfl
@[simp] theorem modTh_lmPoison (t : Tid) (f : Thread → Thread) : (s.modTh t f).lmPoison = s.lmPoison := rfl
@[simp] theorem modTh_canPoison (t : Tid) (f : Thread → Thread) : (s.modTh t f).canPoison = s.canPoison := rfl
@[simp] theorem modTh_canopy (t : Tid) (f : Thread → Thread) : (s.modTh t f).canopy = s.canopy := rfl
@[simp] theorem modTh_acc (t : Tid) (f : Thread → Thread) : (s.modTh t f).acc = s.acc := rfl
@[simp] theorem modTh_mem (t : Tid) (f : Thread → Thread) : (s.modTh t f).mem = s.mem := rfl
@[simp] theorem modTh_stack (t : Tid) (f : Thread → Thread) : (s.modTh t f).stack = s.stack := rfl
@[simp] theorem modTh_bitmap (t : Tid) (f : Thread → Thread) : (s.modTh t f).bitmap = s.bitmap := rfl
@[simp] theorem modTh_bmHeld (t : Tid) (f : Thread → Thread) : (s.modTh t f).bmHeld = s.bmHeld := rfl
@[simp] theorem modTh_badLines (t : Tid) (f : Thread → Thread) : (s.modTh t f).badLines = s.badLines := rfl
@[simp] theorem modTh_lost (t : Tid) (f : Thread → Thread) : (s.modTh t f).lost = s.lost := rfl
@[simp] theorem modTh_l2 (t : Tid) (f : Thread → Thread) : (s.modTh t f).l2 = s.l2 := rfl
@[simp] theorem modTh_l2tree (t : Tid) (f : Thread → Thread) : (s.modTh t f).l2tree = s.l2tree := rfl
@[simp] theorem modTh_mlc (t : Tid) (f : Thread → Thread) : (s.modTh t f).mlc = s.mlc := rfl
@[simp] theorem modTh_mlcFill (t : Tid) (f : Thread → Thread) : (s.modTh t f).mlcFill = s.mlcFill := rfl
@[simp] theorem modTh_mlcWays (t : Tid) (f : Thread → Thread) : (s.modTh t f).mlcWays = s.mlcWays := rfl
@[simp] theorem modTh_tcache (t : Tid) (f : Thread → Thread) : (s.modTh t f).tcache = s.tcache := rfl
@[simp] theorem modTh_sliceOut (t : Tid) (f : Thread → Thread) : (s.modTh t f).sliceOut = s.sliceOut := rfl
@[simp] theorem modTh_cmds (t : Tid) (f : Thread → Thread) : (s.modTh t f).cmds = s.cmds := rfl
@[simp] theorem modTh_sq (t : Tid) (f : Thread → Thread) : (s.modTh t f).sq = s.sq := rfl
@[simp] theorem modTh_grains (t : Tid) (f : Thread → Thread) : (s.modTh t f).grains = s.grains := rfl
@[simp] theorem modTh_incrs (t : Tid) (f : Thread → Thread) : (s.modTh t f).incrs = s.incrs := rfl
@[simp] theorem modTh_barEvs (t : Tid) (f : Thread → Thread) : (s.modTh t f).barEvs = s.barEvs := rfl
@[simp] theorem modTh_fills (t : Tid) (f : Thread → Thread) : (s.modTh t f).fills = s.fills := rfl
@[simp] theorem modTh_ringMsgs (t : Tid) (f : Thread → Thread) : (s.modTh t f).ringMsgs = s.ringMsgs := rfl
@[simp] theorem modTh_sups (t : Tid) (f : Thread → Thread) : (s.modTh t f).sups = s.sups := rfl
@[simp] theorem modTh_bars (t : Tid) (f : Thread → Thread) : (s.modTh t f).bars = s.bars := rfl
@[simp] theorem modTh_fresh (t : Tid) (f : Thread → Thread) : (s.modTh t f).fresh = s.fresh := rfl
@[simp] theorem modTh_regs (t : Tid) (f : Thread → Thread) : (s.modTh t f).regs = s.regs := rfl
@[simp] theorem modTh_lqs (t : Tid) (f : Thread → Thread) : (s.modTh t f).lqs = s.lqs := rfl
@[simp] theorem modTh_rr (t : Tid) (f : Thread → Thread) : (s.modTh t f).rr = s.rr := rfl
@[simp] theorem modTh_launches (t : Tid) (f : Thread → Thread) : (s.modTh t f).launches = s.launches := rfl
@[simp] theorem modTh_nextLid (t : Tid) (f : Thread → Thread) : (s.modTh t f).nextLid = s.nextLid := rfl
@[simp] theorem modTh_images (t : Tid) (f : Thread → Thread) : (s.modTh t f).images = s.images := rfl
@[simp] theorem modTh_keys (t : Tid) (f : Thread → Thread) : (s.modTh t f).keys = s.keys := rfl
@[simp] theorem modTh_wroteBack (t : Tid) (f : Thread → Thread) : (s.modTh t f).wroteBack = s.wroteBack := rfl
@[simp] theorem modTh_fences (t : Tid) (f : Thread → Thread) : (s.modTh t f).fences = s.fences := rfl
@[simp] theorem modTh_erased (t : Tid) (f : Thread → Thread) : (s.modTh t f).erased = s.erased := rfl
@[simp] theorem modTh_halted (t : Tid) (f : Thread → Thread) : (s.modTh t f).halted = s.halted := rfl
@[simp] theorem modTh_puf (t : Tid) (f : Thread → Thread) : (s.modTh t f).puf = s.puf := rfl
@[simp] theorem modTh_links (t : Tid) (f : Thread → Thread) : (s.modTh t f).links = s.links := rfl
@[simp] theorem modTh_merge (t : Tid) (f : Thread → Thread) : (s.modTh t f).merge = s.merge := rfl
@[simp] theorem modTh_smOver (t : Tid) (f : Thread → Thread) : (s.modTh t f).smOver = s.smOver := rfl
@[simp] theorem modTh_sramCnt (t : Tid) (f : Thread → Thread) : (s.modTh t f).sramCnt = s.sramCnt := rfl
@[simp] theorem modTh_l2gate (t : Tid) (f : Thread → Thread) : (s.modTh t f).l2gate = s.l2gate := rfl
@[simp] theorem modTh_mlcgate (t : Tid) (f : Thread → Thread) : (s.modTh t f).mlcgate = s.mlcgate := rfl
@[simp] theorem modTh_gateBusy (t : Tid) (f : Thread → Thread) : (s.modTh t f).gateBusy = s.gateBusy := rfl
@[simp] theorem modTh_grade (t : Tid) (f : Thread → Thread) : (s.modTh t f).grade = s.grade := rfl
@[simp] theorem modTh_groupOver (t : Tid) (f : Thread → Thread) : (s.modTh t f).groupOver = s.groupOver := rfl
@[simp] theorem modTh_unmap (t : Tid) (f : Thread → Thread) : (s.modTh t f).unmap = s.unmap := rfl
@[simp] theorem modTh_vqmap (t : Tid) (f : Thread → Thread) : (s.modTh t f).vqmap = s.vqmap := rfl
@[simp] theorem modTh_badGroups (t : Tid) (f : Thread → Thread) : (s.modTh t f).badGroups = s.badGroups := rfl
@[simp] theorem modTh_vsmap (t : Tid) (f : Thread → Thread) : (s.modTh t f).vsmap = s.vsmap := rfl
@[simp] theorem modTh_bankMap (t : Tid) (f : Thread → Thread) : (s.modTh t f).bankMap = s.bankMap := rfl
@[simp] theorem modTh_rowRepairs (t : Tid) (f : Thread → Thread) : (s.modTh t f).rowRepairs = s.rowRepairs := rfl
@[simp] theorem modTh_trims (t : Tid) (f : Thread → Thread) : (s.modTh t f).trims = s.trims := rfl
@[simp] theorem modTh_bankOut (t : Tid) (f : Thread → Thread) : (s.modTh t f).bankOut = s.bankOut := rfl
@[simp] theorem modTh_failed (t : Tid) (f : Thread → Thread) : (s.modTh t f).failed = s.failed := rfl
@[simp] theorem modTh_lcnt (t : Tid) (f : Thread → Thread) : (s.modTh t f).lcnt = s.lcnt := rfl
@[simp] theorem modTh_lcBusy (t : Tid) (f : Thread → Thread) : (s.modTh t f).lcBusy = s.lcBusy := rfl
@[simp] theorem modTh_accts (t : Tid) (f : Thread → Thread) : (s.modTh t f).accts = s.accts := rfl
@[simp] theorem modTh_energy (t : Tid) (f : Thread → Thread) : (s.modTh t f).energy = s.energy := rfl
@[simp] theorem modTh_sram (t : Tid) (f : Thread → Thread) : (s.modTh t f).sram = s.sram := rfl
@[simp] theorem modTh_reqbuf (t : Tid) (f : Thread → Thread) : (s.modTh t f).reqbuf = s.reqbuf := rfl
@[simp] theorem modTh_rspbuf (t : Tid) (f : Thread → Thread) : (s.modTh t f).rspbuf = s.rspbuf := rfl
@[simp] theorem modTh_flash (t : Tid) (f : Thread → Thread) : (s.modTh t f).flash = s.flash := rfl
@[simp] theorem modTh_flashErr (t : Tid) (f : Thread → Thread) : (s.modTh t f).flashErr = s.flashErr := rfl
@[simp] theorem modTh_hostMem (t : Tid) (f : Thread → Thread) : (s.modTh t f).hostMem = s.hostMem := rfl
@[simp] theorem modTh_mr (t : Tid) (f : Thread → Thread) : (s.modTh t f).mr = s.mr := rfl
@[simp] theorem modTh_mrNext (t : Tid) (f : Thread → Thread) : (s.modTh t f).mrNext = s.mrNext := rfl
@[simp] theorem modTh_devKey (t : Tid) (f : Thread → Thread) : (s.modTh t f).devKey = s.devKey := rfl
@[simp] theorem modTh_hash (t : Tid) (f : Thread → Thread) : (s.modTh t f).hash = s.hash := rfl
@[simp] theorem modTh_ceBusy (t : Tid) (f : Thread → Thread) : (s.modTh t f).ceBusy = s.ceBusy := rfl
@[simp] theorem modTh_bpBusy (t : Tid) (f : Thread → Thread) : (s.modTh t f).bpBusy = s.bpBusy := rfl
@[simp] theorem modTh_mrBusy (t : Tid) (f : Thread → Thread) : (s.modTh t f).mrBusy = s.mrBusy := rfl
@[simp] theorem modTh_kdBusy (t : Tid) (f : Thread → Thread) : (s.modTh t f).kdBusy = s.kdBusy := rfl
@[simp] theorem modTh_draws (t : Tid) (f : Thread → Thread) : (s.modTh t f).draws = s.draws := rfl
@[simp] theorem modTh_spdm (t : Tid) (f : Thread → Thread) : (s.modTh t f).spdm = s.spdm := rfl
@[simp] theorem modTh_msix (t : Tid) (f : Thread → Thread) : (s.modTh t f).msix = s.msix := rfl
@[simp] theorem modTh_pod (t : Tid) (f : Thread → Thread) : (s.modTh t f).pod = s.pod := rfl
@[simp] theorem modTh_podSize (t : Tid) (f : Thread → Thread) : (s.modTh t f).podSize = s.podSize := rfl
@[simp] theorem modTh_pkg (t : Tid) (f : Thread → Thread) : (s.modTh t f).pkg = s.pkg := rfl
@[simp] theorem modTh_podInputs (t : Tid) (f : Thread → Thread) : (s.modTh t f).podInputs = s.podInputs := rfl
@[simp] theorem modTh_powered (t : Tid) (f : Thread → Thread) : (s.modTh t f).powered = s.powered := rfl
@[simp] theorem modTh_agenda (t : Tid) (f : Thread → Thread) : (s.modTh t f).agenda = s.agenda := rfl
@[simp] theorem modTh_todo (t : Tid) (f : Thread → Thread) : (s.modTh t f).todo = s.todo := rfl
@[simp] theorem modTh_inputs (t : Tid) (f : Thread → Thread) : (s.modTh t f).inputs = s.inputs := rfl
@[simp] theorem modTh_cur (t : Tid) (f : Thread → Thread) : (s.modTh t f).cur = s.cur := rfl
@[simp] theorem modTh_hart (t : Tid) (f : Thread → Thread) : (s.modTh t f).hart = s.hart := rfl

/-! ### setCore -/

@[simp] theorem setCore_cycle (c : Cid) (x : Core) : (s.setCore c x).cycle = s.cycle := rfl
@[simp] theorem setCore_thr (c : Cid) (x : Core) : (s.setCore c x).thr = s.thr := rfl
@[simp] theorem setCore_harts (c : Cid) (x : Core) : (s.setCore c x).harts = s.harts := rfl
@[simp] theorem setCore_quads (c : Cid) (x : Core) : (s.setCore c x).quads = s.quads := rfl
@[simp] theorem setCore_lm (c : Cid) (x : Core) : (s.setCore c x).lm = s.lm := rfl
@[simp] theorem setCore_lmWas (c : Cid) (x : Core) : (s.setCore c x).lmWas = s.lmWas := rfl
@[simp] theorem setCore_lmPoison (c : Cid) (x : Core) : (s.setCore c x).lmPoison = s.lmPoison := rfl
@[simp] theorem setCore_canPoison (c : Cid) (x : Core) : (s.setCore c x).canPoison = s.canPoison := rfl
@[simp] theorem setCore_canopy (c : Cid) (x : Core) : (s.setCore c x).canopy = s.canopy := rfl
@[simp] theorem setCore_acc (c : Cid) (x : Core) : (s.setCore c x).acc = s.acc := rfl
@[simp] theorem setCore_mem (c : Cid) (x : Core) : (s.setCore c x).mem = s.mem := rfl
@[simp] theorem setCore_stack (c : Cid) (x : Core) : (s.setCore c x).stack = s.stack := rfl
@[simp] theorem setCore_bitmap (c : Cid) (x : Core) : (s.setCore c x).bitmap = s.bitmap := rfl
@[simp] theorem setCore_bmHeld (c : Cid) (x : Core) : (s.setCore c x).bmHeld = s.bmHeld := rfl
@[simp] theorem setCore_badLines (c : Cid) (x : Core) : (s.setCore c x).badLines = s.badLines := rfl
@[simp] theorem setCore_lost (c : Cid) (x : Core) : (s.setCore c x).lost = s.lost := rfl
@[simp] theorem setCore_l2 (c : Cid) (x : Core) : (s.setCore c x).l2 = s.l2 := rfl
@[simp] theorem setCore_l2tree (c : Cid) (x : Core) : (s.setCore c x).l2tree = s.l2tree := rfl
@[simp] theorem setCore_mlc (c : Cid) (x : Core) : (s.setCore c x).mlc = s.mlc := rfl
@[simp] theorem setCore_mlcFill (c : Cid) (x : Core) : (s.setCore c x).mlcFill = s.mlcFill := rfl
@[simp] theorem setCore_mlcWays (c : Cid) (x : Core) : (s.setCore c x).mlcWays = s.mlcWays := rfl
@[simp] theorem setCore_tcache (c : Cid) (x : Core) : (s.setCore c x).tcache = s.tcache := rfl
@[simp] theorem setCore_sliceOut (c : Cid) (x : Core) : (s.setCore c x).sliceOut = s.sliceOut := rfl
@[simp] theorem setCore_cmds (c : Cid) (x : Core) : (s.setCore c x).cmds = s.cmds := rfl
@[simp] theorem setCore_sq (c : Cid) (x : Core) : (s.setCore c x).sq = s.sq := rfl
@[simp] theorem setCore_grains (c : Cid) (x : Core) : (s.setCore c x).grains = s.grains := rfl
@[simp] theorem setCore_incrs (c : Cid) (x : Core) : (s.setCore c x).incrs = s.incrs := rfl
@[simp] theorem setCore_barEvs (c : Cid) (x : Core) : (s.setCore c x).barEvs = s.barEvs := rfl
@[simp] theorem setCore_fills (c : Cid) (x : Core) : (s.setCore c x).fills = s.fills := rfl
@[simp] theorem setCore_ringMsgs (c : Cid) (x : Core) : (s.setCore c x).ringMsgs = s.ringMsgs := rfl
@[simp] theorem setCore_sups (c : Cid) (x : Core) : (s.setCore c x).sups = s.sups := rfl
@[simp] theorem setCore_bars (c : Cid) (x : Core) : (s.setCore c x).bars = s.bars := rfl
@[simp] theorem setCore_fresh (c : Cid) (x : Core) : (s.setCore c x).fresh = s.fresh := rfl
@[simp] theorem setCore_regs (c : Cid) (x : Core) : (s.setCore c x).regs = s.regs := rfl
@[simp] theorem setCore_lqs (c : Cid) (x : Core) : (s.setCore c x).lqs = s.lqs := rfl
@[simp] theorem setCore_rr (c : Cid) (x : Core) : (s.setCore c x).rr = s.rr := rfl
@[simp] theorem setCore_launches (c : Cid) (x : Core) : (s.setCore c x).launches = s.launches := rfl
@[simp] theorem setCore_nextLid (c : Cid) (x : Core) : (s.setCore c x).nextLid = s.nextLid := rfl
@[simp] theorem setCore_images (c : Cid) (x : Core) : (s.setCore c x).images = s.images := rfl
@[simp] theorem setCore_keys (c : Cid) (x : Core) : (s.setCore c x).keys = s.keys := rfl
@[simp] theorem setCore_wroteBack (c : Cid) (x : Core) : (s.setCore c x).wroteBack = s.wroteBack := rfl
@[simp] theorem setCore_fences (c : Cid) (x : Core) : (s.setCore c x).fences = s.fences := rfl
@[simp] theorem setCore_erased (c : Cid) (x : Core) : (s.setCore c x).erased = s.erased := rfl
@[simp] theorem setCore_halted (c : Cid) (x : Core) : (s.setCore c x).halted = s.halted := rfl
@[simp] theorem setCore_puf (c : Cid) (x : Core) : (s.setCore c x).puf = s.puf := rfl
@[simp] theorem setCore_links (c : Cid) (x : Core) : (s.setCore c x).links = s.links := rfl
@[simp] theorem setCore_merge (c : Cid) (x : Core) : (s.setCore c x).merge = s.merge := rfl
@[simp] theorem setCore_smOver (c : Cid) (x : Core) : (s.setCore c x).smOver = s.smOver := rfl
@[simp] theorem setCore_sramCnt (c : Cid) (x : Core) : (s.setCore c x).sramCnt = s.sramCnt := rfl
@[simp] theorem setCore_l2gate (c : Cid) (x : Core) : (s.setCore c x).l2gate = s.l2gate := rfl
@[simp] theorem setCore_mlcgate (c : Cid) (x : Core) : (s.setCore c x).mlcgate = s.mlcgate := rfl
@[simp] theorem setCore_gateBusy (c : Cid) (x : Core) : (s.setCore c x).gateBusy = s.gateBusy := rfl
@[simp] theorem setCore_grade (c : Cid) (x : Core) : (s.setCore c x).grade = s.grade := rfl
@[simp] theorem setCore_groupOver (c : Cid) (x : Core) : (s.setCore c x).groupOver = s.groupOver := rfl
@[simp] theorem setCore_unmap (c : Cid) (x : Core) : (s.setCore c x).unmap = s.unmap := rfl
@[simp] theorem setCore_vqmap (c : Cid) (x : Core) : (s.setCore c x).vqmap = s.vqmap := rfl
@[simp] theorem setCore_badGroups (c : Cid) (x : Core) : (s.setCore c x).badGroups = s.badGroups := rfl
@[simp] theorem setCore_vsmap (c : Cid) (x : Core) : (s.setCore c x).vsmap = s.vsmap := rfl
@[simp] theorem setCore_bankMap (c : Cid) (x : Core) : (s.setCore c x).bankMap = s.bankMap := rfl
@[simp] theorem setCore_rowRepairs (c : Cid) (x : Core) : (s.setCore c x).rowRepairs = s.rowRepairs := rfl
@[simp] theorem setCore_trims (c : Cid) (x : Core) : (s.setCore c x).trims = s.trims := rfl
@[simp] theorem setCore_bankOut (c : Cid) (x : Core) : (s.setCore c x).bankOut = s.bankOut := rfl
@[simp] theorem setCore_failed (c : Cid) (x : Core) : (s.setCore c x).failed = s.failed := rfl
@[simp] theorem setCore_lcnt (c : Cid) (x : Core) : (s.setCore c x).lcnt = s.lcnt := rfl
@[simp] theorem setCore_lcBusy (c : Cid) (x : Core) : (s.setCore c x).lcBusy = s.lcBusy := rfl
@[simp] theorem setCore_accts (c : Cid) (x : Core) : (s.setCore c x).accts = s.accts := rfl
@[simp] theorem setCore_energy (c : Cid) (x : Core) : (s.setCore c x).energy = s.energy := rfl
@[simp] theorem setCore_sram (c : Cid) (x : Core) : (s.setCore c x).sram = s.sram := rfl
@[simp] theorem setCore_reqbuf (c : Cid) (x : Core) : (s.setCore c x).reqbuf = s.reqbuf := rfl
@[simp] theorem setCore_rspbuf (c : Cid) (x : Core) : (s.setCore c x).rspbuf = s.rspbuf := rfl
@[simp] theorem setCore_flash (c : Cid) (x : Core) : (s.setCore c x).flash = s.flash := rfl
@[simp] theorem setCore_flashErr (c : Cid) (x : Core) : (s.setCore c x).flashErr = s.flashErr := rfl
@[simp] theorem setCore_hostMem (c : Cid) (x : Core) : (s.setCore c x).hostMem = s.hostMem := rfl
@[simp] theorem setCore_mr (c : Cid) (x : Core) : (s.setCore c x).mr = s.mr := rfl
@[simp] theorem setCore_mrNext (c : Cid) (x : Core) : (s.setCore c x).mrNext = s.mrNext := rfl
@[simp] theorem setCore_devKey (c : Cid) (x : Core) : (s.setCore c x).devKey = s.devKey := rfl
@[simp] theorem setCore_hash (c : Cid) (x : Core) : (s.setCore c x).hash = s.hash := rfl
@[simp] theorem setCore_ceBusy (c : Cid) (x : Core) : (s.setCore c x).ceBusy = s.ceBusy := rfl
@[simp] theorem setCore_bpBusy (c : Cid) (x : Core) : (s.setCore c x).bpBusy = s.bpBusy := rfl
@[simp] theorem setCore_mrBusy (c : Cid) (x : Core) : (s.setCore c x).mrBusy = s.mrBusy := rfl
@[simp] theorem setCore_kdBusy (c : Cid) (x : Core) : (s.setCore c x).kdBusy = s.kdBusy := rfl
@[simp] theorem setCore_draws (c : Cid) (x : Core) : (s.setCore c x).draws = s.draws := rfl
@[simp] theorem setCore_spdm (c : Cid) (x : Core) : (s.setCore c x).spdm = s.spdm := rfl
@[simp] theorem setCore_msix (c : Cid) (x : Core) : (s.setCore c x).msix = s.msix := rfl
@[simp] theorem setCore_pod (c : Cid) (x : Core) : (s.setCore c x).pod = s.pod := rfl
@[simp] theorem setCore_podSize (c : Cid) (x : Core) : (s.setCore c x).podSize = s.podSize := rfl
@[simp] theorem setCore_pkg (c : Cid) (x : Core) : (s.setCore c x).pkg = s.pkg := rfl
@[simp] theorem setCore_podInputs (c : Cid) (x : Core) : (s.setCore c x).podInputs = s.podInputs := rfl
@[simp] theorem setCore_powered (c : Cid) (x : Core) : (s.setCore c x).powered = s.powered := rfl
@[simp] theorem setCore_agenda (c : Cid) (x : Core) : (s.setCore c x).agenda = s.agenda := rfl
@[simp] theorem setCore_todo (c : Cid) (x : Core) : (s.setCore c x).todo = s.todo := rfl
@[simp] theorem setCore_inputs (c : Cid) (x : Core) : (s.setCore c x).inputs = s.inputs := rfl
@[simp] theorem setCore_cur (c : Cid) (x : Core) : (s.setCore c x).cur = s.cur := rfl
@[simp] theorem setCore_hart (c : Cid) (x : Core) : (s.setCore c x).hart = s.hart := rfl

/-! ### modCore -/

@[simp] theorem modCore_cycle (c : Cid) (f : Core → Core) : (s.modCore c f).cycle = s.cycle := rfl
@[simp] theorem modCore_thr (c : Cid) (f : Core → Core) : (s.modCore c f).thr = s.thr := rfl
@[simp] theorem modCore_harts (c : Cid) (f : Core → Core) : (s.modCore c f).harts = s.harts := rfl
@[simp] theorem modCore_quads (c : Cid) (f : Core → Core) : (s.modCore c f).quads = s.quads := rfl
@[simp] theorem modCore_lm (c : Cid) (f : Core → Core) : (s.modCore c f).lm = s.lm := rfl
@[simp] theorem modCore_lmWas (c : Cid) (f : Core → Core) : (s.modCore c f).lmWas = s.lmWas := rfl
@[simp] theorem modCore_lmPoison (c : Cid) (f : Core → Core) : (s.modCore c f).lmPoison = s.lmPoison := rfl
@[simp] theorem modCore_canPoison (c : Cid) (f : Core → Core) : (s.modCore c f).canPoison = s.canPoison := rfl
@[simp] theorem modCore_canopy (c : Cid) (f : Core → Core) : (s.modCore c f).canopy = s.canopy := rfl
@[simp] theorem modCore_acc (c : Cid) (f : Core → Core) : (s.modCore c f).acc = s.acc := rfl
@[simp] theorem modCore_mem (c : Cid) (f : Core → Core) : (s.modCore c f).mem = s.mem := rfl
@[simp] theorem modCore_stack (c : Cid) (f : Core → Core) : (s.modCore c f).stack = s.stack := rfl
@[simp] theorem modCore_bitmap (c : Cid) (f : Core → Core) : (s.modCore c f).bitmap = s.bitmap := rfl
@[simp] theorem modCore_bmHeld (c : Cid) (f : Core → Core) : (s.modCore c f).bmHeld = s.bmHeld := rfl
@[simp] theorem modCore_badLines (c : Cid) (f : Core → Core) : (s.modCore c f).badLines = s.badLines := rfl
@[simp] theorem modCore_lost (c : Cid) (f : Core → Core) : (s.modCore c f).lost = s.lost := rfl
@[simp] theorem modCore_l2 (c : Cid) (f : Core → Core) : (s.modCore c f).l2 = s.l2 := rfl
@[simp] theorem modCore_l2tree (c : Cid) (f : Core → Core) : (s.modCore c f).l2tree = s.l2tree := rfl
@[simp] theorem modCore_mlc (c : Cid) (f : Core → Core) : (s.modCore c f).mlc = s.mlc := rfl
@[simp] theorem modCore_mlcFill (c : Cid) (f : Core → Core) : (s.modCore c f).mlcFill = s.mlcFill := rfl
@[simp] theorem modCore_mlcWays (c : Cid) (f : Core → Core) : (s.modCore c f).mlcWays = s.mlcWays := rfl
@[simp] theorem modCore_tcache (c : Cid) (f : Core → Core) : (s.modCore c f).tcache = s.tcache := rfl
@[simp] theorem modCore_sliceOut (c : Cid) (f : Core → Core) : (s.modCore c f).sliceOut = s.sliceOut := rfl
@[simp] theorem modCore_cmds (c : Cid) (f : Core → Core) : (s.modCore c f).cmds = s.cmds := rfl
@[simp] theorem modCore_sq (c : Cid) (f : Core → Core) : (s.modCore c f).sq = s.sq := rfl
@[simp] theorem modCore_grains (c : Cid) (f : Core → Core) : (s.modCore c f).grains = s.grains := rfl
@[simp] theorem modCore_incrs (c : Cid) (f : Core → Core) : (s.modCore c f).incrs = s.incrs := rfl
@[simp] theorem modCore_barEvs (c : Cid) (f : Core → Core) : (s.modCore c f).barEvs = s.barEvs := rfl
@[simp] theorem modCore_fills (c : Cid) (f : Core → Core) : (s.modCore c f).fills = s.fills := rfl
@[simp] theorem modCore_ringMsgs (c : Cid) (f : Core → Core) : (s.modCore c f).ringMsgs = s.ringMsgs := rfl
@[simp] theorem modCore_sups (c : Cid) (f : Core → Core) : (s.modCore c f).sups = s.sups := rfl
@[simp] theorem modCore_bars (c : Cid) (f : Core → Core) : (s.modCore c f).bars = s.bars := rfl
@[simp] theorem modCore_fresh (c : Cid) (f : Core → Core) : (s.modCore c f).fresh = s.fresh := rfl
@[simp] theorem modCore_regs (c : Cid) (f : Core → Core) : (s.modCore c f).regs = s.regs := rfl
@[simp] theorem modCore_lqs (c : Cid) (f : Core → Core) : (s.modCore c f).lqs = s.lqs := rfl
@[simp] theorem modCore_rr (c : Cid) (f : Core → Core) : (s.modCore c f).rr = s.rr := rfl
@[simp] theorem modCore_launches (c : Cid) (f : Core → Core) : (s.modCore c f).launches = s.launches := rfl
@[simp] theorem modCore_nextLid (c : Cid) (f : Core → Core) : (s.modCore c f).nextLid = s.nextLid := rfl
@[simp] theorem modCore_images (c : Cid) (f : Core → Core) : (s.modCore c f).images = s.images := rfl
@[simp] theorem modCore_keys (c : Cid) (f : Core → Core) : (s.modCore c f).keys = s.keys := rfl
@[simp] theorem modCore_wroteBack (c : Cid) (f : Core → Core) : (s.modCore c f).wroteBack = s.wroteBack := rfl
@[simp] theorem modCore_fences (c : Cid) (f : Core → Core) : (s.modCore c f).fences = s.fences := rfl
@[simp] theorem modCore_erased (c : Cid) (f : Core → Core) : (s.modCore c f).erased = s.erased := rfl
@[simp] theorem modCore_halted (c : Cid) (f : Core → Core) : (s.modCore c f).halted = s.halted := rfl
@[simp] theorem modCore_puf (c : Cid) (f : Core → Core) : (s.modCore c f).puf = s.puf := rfl
@[simp] theorem modCore_links (c : Cid) (f : Core → Core) : (s.modCore c f).links = s.links := rfl
@[simp] theorem modCore_merge (c : Cid) (f : Core → Core) : (s.modCore c f).merge = s.merge := rfl
@[simp] theorem modCore_smOver (c : Cid) (f : Core → Core) : (s.modCore c f).smOver = s.smOver := rfl
@[simp] theorem modCore_sramCnt (c : Cid) (f : Core → Core) : (s.modCore c f).sramCnt = s.sramCnt := rfl
@[simp] theorem modCore_l2gate (c : Cid) (f : Core → Core) : (s.modCore c f).l2gate = s.l2gate := rfl
@[simp] theorem modCore_mlcgate (c : Cid) (f : Core → Core) : (s.modCore c f).mlcgate = s.mlcgate := rfl
@[simp] theorem modCore_gateBusy (c : Cid) (f : Core → Core) : (s.modCore c f).gateBusy = s.gateBusy := rfl
@[simp] theorem modCore_grade (c : Cid) (f : Core → Core) : (s.modCore c f).grade = s.grade := rfl
@[simp] theorem modCore_groupOver (c : Cid) (f : Core → Core) : (s.modCore c f).groupOver = s.groupOver := rfl
@[simp] theorem modCore_unmap (c : Cid) (f : Core → Core) : (s.modCore c f).unmap = s.unmap := rfl
@[simp] theorem modCore_vqmap (c : Cid) (f : Core → Core) : (s.modCore c f).vqmap = s.vqmap := rfl
@[simp] theorem modCore_badGroups (c : Cid) (f : Core → Core) : (s.modCore c f).badGroups = s.badGroups := rfl
@[simp] theorem modCore_vsmap (c : Cid) (f : Core → Core) : (s.modCore c f).vsmap = s.vsmap := rfl
@[simp] theorem modCore_bankMap (c : Cid) (f : Core → Core) : (s.modCore c f).bankMap = s.bankMap := rfl
@[simp] theorem modCore_rowRepairs (c : Cid) (f : Core → Core) : (s.modCore c f).rowRepairs = s.rowRepairs := rfl
@[simp] theorem modCore_trims (c : Cid) (f : Core → Core) : (s.modCore c f).trims = s.trims := rfl
@[simp] theorem modCore_bankOut (c : Cid) (f : Core → Core) : (s.modCore c f).bankOut = s.bankOut := rfl
@[simp] theorem modCore_failed (c : Cid) (f : Core → Core) : (s.modCore c f).failed = s.failed := rfl
@[simp] theorem modCore_lcnt (c : Cid) (f : Core → Core) : (s.modCore c f).lcnt = s.lcnt := rfl
@[simp] theorem modCore_lcBusy (c : Cid) (f : Core → Core) : (s.modCore c f).lcBusy = s.lcBusy := rfl
@[simp] theorem modCore_accts (c : Cid) (f : Core → Core) : (s.modCore c f).accts = s.accts := rfl
@[simp] theorem modCore_energy (c : Cid) (f : Core → Core) : (s.modCore c f).energy = s.energy := rfl
@[simp] theorem modCore_sram (c : Cid) (f : Core → Core) : (s.modCore c f).sram = s.sram := rfl
@[simp] theorem modCore_reqbuf (c : Cid) (f : Core → Core) : (s.modCore c f).reqbuf = s.reqbuf := rfl
@[simp] theorem modCore_rspbuf (c : Cid) (f : Core → Core) : (s.modCore c f).rspbuf = s.rspbuf := rfl
@[simp] theorem modCore_flash (c : Cid) (f : Core → Core) : (s.modCore c f).flash = s.flash := rfl
@[simp] theorem modCore_flashErr (c : Cid) (f : Core → Core) : (s.modCore c f).flashErr = s.flashErr := rfl
@[simp] theorem modCore_hostMem (c : Cid) (f : Core → Core) : (s.modCore c f).hostMem = s.hostMem := rfl
@[simp] theorem modCore_mr (c : Cid) (f : Core → Core) : (s.modCore c f).mr = s.mr := rfl
@[simp] theorem modCore_mrNext (c : Cid) (f : Core → Core) : (s.modCore c f).mrNext = s.mrNext := rfl
@[simp] theorem modCore_devKey (c : Cid) (f : Core → Core) : (s.modCore c f).devKey = s.devKey := rfl
@[simp] theorem modCore_hash (c : Cid) (f : Core → Core) : (s.modCore c f).hash = s.hash := rfl
@[simp] theorem modCore_ceBusy (c : Cid) (f : Core → Core) : (s.modCore c f).ceBusy = s.ceBusy := rfl
@[simp] theorem modCore_bpBusy (c : Cid) (f : Core → Core) : (s.modCore c f).bpBusy = s.bpBusy := rfl
@[simp] theorem modCore_mrBusy (c : Cid) (f : Core → Core) : (s.modCore c f).mrBusy = s.mrBusy := rfl
@[simp] theorem modCore_kdBusy (c : Cid) (f : Core → Core) : (s.modCore c f).kdBusy = s.kdBusy := rfl
@[simp] theorem modCore_draws (c : Cid) (f : Core → Core) : (s.modCore c f).draws = s.draws := rfl
@[simp] theorem modCore_spdm (c : Cid) (f : Core → Core) : (s.modCore c f).spdm = s.spdm := rfl
@[simp] theorem modCore_msix (c : Cid) (f : Core → Core) : (s.modCore c f).msix = s.msix := rfl
@[simp] theorem modCore_pod (c : Cid) (f : Core → Core) : (s.modCore c f).pod = s.pod := rfl
@[simp] theorem modCore_podSize (c : Cid) (f : Core → Core) : (s.modCore c f).podSize = s.podSize := rfl
@[simp] theorem modCore_pkg (c : Cid) (f : Core → Core) : (s.modCore c f).pkg = s.pkg := rfl
@[simp] theorem modCore_podInputs (c : Cid) (f : Core → Core) : (s.modCore c f).podInputs = s.podInputs := rfl
@[simp] theorem modCore_powered (c : Cid) (f : Core → Core) : (s.modCore c f).powered = s.powered := rfl
@[simp] theorem modCore_agenda (c : Cid) (f : Core → Core) : (s.modCore c f).agenda = s.agenda := rfl
@[simp] theorem modCore_todo (c : Cid) (f : Core → Core) : (s.modCore c f).todo = s.todo := rfl
@[simp] theorem modCore_inputs (c : Cid) (f : Core → Core) : (s.modCore c f).inputs = s.inputs := rfl
@[simp] theorem modCore_cur (c : Cid) (f : Core → Core) : (s.modCore c f).cur = s.cur := rfl
@[simp] theorem modCore_hart (c : Cid) (f : Core → Core) : (s.modCore c f).hart = s.hart := rfl

/-! ### setHt -/

@[simp] theorem setHt_cycle (h : Hid) (x : Hart) : (s.setHt h x).cycle = s.cycle := rfl
@[simp] theorem setHt_thr (h : Hid) (x : Hart) : (s.setHt h x).thr = s.thr := rfl
@[simp] theorem setHt_cores (h : Hid) (x : Hart) : (s.setHt h x).cores = s.cores := rfl
@[simp] theorem setHt_quads (h : Hid) (x : Hart) : (s.setHt h x).quads = s.quads := rfl
@[simp] theorem setHt_lm (h : Hid) (x : Hart) : (s.setHt h x).lm = s.lm := rfl
@[simp] theorem setHt_lmWas (h : Hid) (x : Hart) : (s.setHt h x).lmWas = s.lmWas := rfl
@[simp] theorem setHt_lmPoison (h : Hid) (x : Hart) : (s.setHt h x).lmPoison = s.lmPoison := rfl
@[simp] theorem setHt_canPoison (h : Hid) (x : Hart) : (s.setHt h x).canPoison = s.canPoison := rfl
@[simp] theorem setHt_canopy (h : Hid) (x : Hart) : (s.setHt h x).canopy = s.canopy := rfl
@[simp] theorem setHt_acc (h : Hid) (x : Hart) : (s.setHt h x).acc = s.acc := rfl
@[simp] theorem setHt_mem (h : Hid) (x : Hart) : (s.setHt h x).mem = s.mem := rfl
@[simp] theorem setHt_stack (h : Hid) (x : Hart) : (s.setHt h x).stack = s.stack := rfl
@[simp] theorem setHt_bitmap (h : Hid) (x : Hart) : (s.setHt h x).bitmap = s.bitmap := rfl
@[simp] theorem setHt_bmHeld (h : Hid) (x : Hart) : (s.setHt h x).bmHeld = s.bmHeld := rfl
@[simp] theorem setHt_badLines (h : Hid) (x : Hart) : (s.setHt h x).badLines = s.badLines := rfl
@[simp] theorem setHt_lost (h : Hid) (x : Hart) : (s.setHt h x).lost = s.lost := rfl
@[simp] theorem setHt_l2 (h : Hid) (x : Hart) : (s.setHt h x).l2 = s.l2 := rfl
@[simp] theorem setHt_l2tree (h : Hid) (x : Hart) : (s.setHt h x).l2tree = s.l2tree := rfl
@[simp] theorem setHt_mlc (h : Hid) (x : Hart) : (s.setHt h x).mlc = s.mlc := rfl
@[simp] theorem setHt_mlcFill (h : Hid) (x : Hart) : (s.setHt h x).mlcFill = s.mlcFill := rfl
@[simp] theorem setHt_mlcWays (h : Hid) (x : Hart) : (s.setHt h x).mlcWays = s.mlcWays := rfl
@[simp] theorem setHt_tcache (h : Hid) (x : Hart) : (s.setHt h x).tcache = s.tcache := rfl
@[simp] theorem setHt_sliceOut (h : Hid) (x : Hart) : (s.setHt h x).sliceOut = s.sliceOut := rfl
@[simp] theorem setHt_cmds (h : Hid) (x : Hart) : (s.setHt h x).cmds = s.cmds := rfl
@[simp] theorem setHt_sq (h : Hid) (x : Hart) : (s.setHt h x).sq = s.sq := rfl
@[simp] theorem setHt_grains (h : Hid) (x : Hart) : (s.setHt h x).grains = s.grains := rfl
@[simp] theorem setHt_incrs (h : Hid) (x : Hart) : (s.setHt h x).incrs = s.incrs := rfl
@[simp] theorem setHt_barEvs (h : Hid) (x : Hart) : (s.setHt h x).barEvs = s.barEvs := rfl
@[simp] theorem setHt_fills (h : Hid) (x : Hart) : (s.setHt h x).fills = s.fills := rfl
@[simp] theorem setHt_ringMsgs (h : Hid) (x : Hart) : (s.setHt h x).ringMsgs = s.ringMsgs := rfl
@[simp] theorem setHt_sups (h : Hid) (x : Hart) : (s.setHt h x).sups = s.sups := rfl
@[simp] theorem setHt_bars (h : Hid) (x : Hart) : (s.setHt h x).bars = s.bars := rfl
@[simp] theorem setHt_fresh (h : Hid) (x : Hart) : (s.setHt h x).fresh = s.fresh := rfl
@[simp] theorem setHt_regs (h : Hid) (x : Hart) : (s.setHt h x).regs = s.regs := rfl
@[simp] theorem setHt_lqs (h : Hid) (x : Hart) : (s.setHt h x).lqs = s.lqs := rfl
@[simp] theorem setHt_rr (h : Hid) (x : Hart) : (s.setHt h x).rr = s.rr := rfl
@[simp] theorem setHt_launches (h : Hid) (x : Hart) : (s.setHt h x).launches = s.launches := rfl
@[simp] theorem setHt_nextLid (h : Hid) (x : Hart) : (s.setHt h x).nextLid = s.nextLid := rfl
@[simp] theorem setHt_images (h : Hid) (x : Hart) : (s.setHt h x).images = s.images := rfl
@[simp] theorem setHt_keys (h : Hid) (x : Hart) : (s.setHt h x).keys = s.keys := rfl
@[simp] theorem setHt_wroteBack (h : Hid) (x : Hart) : (s.setHt h x).wroteBack = s.wroteBack := rfl
@[simp] theorem setHt_fences (h : Hid) (x : Hart) : (s.setHt h x).fences = s.fences := rfl
@[simp] theorem setHt_erased (h : Hid) (x : Hart) : (s.setHt h x).erased = s.erased := rfl
@[simp] theorem setHt_halted (h : Hid) (x : Hart) : (s.setHt h x).halted = s.halted := rfl
@[simp] theorem setHt_puf (h : Hid) (x : Hart) : (s.setHt h x).puf = s.puf := rfl
@[simp] theorem setHt_links (h : Hid) (x : Hart) : (s.setHt h x).links = s.links := rfl
@[simp] theorem setHt_merge (h : Hid) (x : Hart) : (s.setHt h x).merge = s.merge := rfl
@[simp] theorem setHt_smOver (h : Hid) (x : Hart) : (s.setHt h x).smOver = s.smOver := rfl
@[simp] theorem setHt_sramCnt (h : Hid) (x : Hart) : (s.setHt h x).sramCnt = s.sramCnt := rfl
@[simp] theorem setHt_l2gate (h : Hid) (x : Hart) : (s.setHt h x).l2gate = s.l2gate := rfl
@[simp] theorem setHt_mlcgate (h : Hid) (x : Hart) : (s.setHt h x).mlcgate = s.mlcgate := rfl
@[simp] theorem setHt_gateBusy (h : Hid) (x : Hart) : (s.setHt h x).gateBusy = s.gateBusy := rfl
@[simp] theorem setHt_grade (h : Hid) (x : Hart) : (s.setHt h x).grade = s.grade := rfl
@[simp] theorem setHt_groupOver (h : Hid) (x : Hart) : (s.setHt h x).groupOver = s.groupOver := rfl
@[simp] theorem setHt_unmap (h : Hid) (x : Hart) : (s.setHt h x).unmap = s.unmap := rfl
@[simp] theorem setHt_vqmap (h : Hid) (x : Hart) : (s.setHt h x).vqmap = s.vqmap := rfl
@[simp] theorem setHt_badGroups (h : Hid) (x : Hart) : (s.setHt h x).badGroups = s.badGroups := rfl
@[simp] theorem setHt_vsmap (h : Hid) (x : Hart) : (s.setHt h x).vsmap = s.vsmap := rfl
@[simp] theorem setHt_bankMap (h : Hid) (x : Hart) : (s.setHt h x).bankMap = s.bankMap := rfl
@[simp] theorem setHt_rowRepairs (h : Hid) (x : Hart) : (s.setHt h x).rowRepairs = s.rowRepairs := rfl
@[simp] theorem setHt_trims (h : Hid) (x : Hart) : (s.setHt h x).trims = s.trims := rfl
@[simp] theorem setHt_bankOut (h : Hid) (x : Hart) : (s.setHt h x).bankOut = s.bankOut := rfl
@[simp] theorem setHt_failed (h : Hid) (x : Hart) : (s.setHt h x).failed = s.failed := rfl
@[simp] theorem setHt_lcnt (h : Hid) (x : Hart) : (s.setHt h x).lcnt = s.lcnt := rfl
@[simp] theorem setHt_lcBusy (h : Hid) (x : Hart) : (s.setHt h x).lcBusy = s.lcBusy := rfl
@[simp] theorem setHt_accts (h : Hid) (x : Hart) : (s.setHt h x).accts = s.accts := rfl
@[simp] theorem setHt_energy (h : Hid) (x : Hart) : (s.setHt h x).energy = s.energy := rfl
@[simp] theorem setHt_sram (h : Hid) (x : Hart) : (s.setHt h x).sram = s.sram := rfl
@[simp] theorem setHt_reqbuf (h : Hid) (x : Hart) : (s.setHt h x).reqbuf = s.reqbuf := rfl
@[simp] theorem setHt_rspbuf (h : Hid) (x : Hart) : (s.setHt h x).rspbuf = s.rspbuf := rfl
@[simp] theorem setHt_flash (h : Hid) (x : Hart) : (s.setHt h x).flash = s.flash := rfl
@[simp] theorem setHt_flashErr (h : Hid) (x : Hart) : (s.setHt h x).flashErr = s.flashErr := rfl
@[simp] theorem setHt_hostMem (h : Hid) (x : Hart) : (s.setHt h x).hostMem = s.hostMem := rfl
@[simp] theorem setHt_mr (h : Hid) (x : Hart) : (s.setHt h x).mr = s.mr := rfl
@[simp] theorem setHt_mrNext (h : Hid) (x : Hart) : (s.setHt h x).mrNext = s.mrNext := rfl
@[simp] theorem setHt_devKey (h : Hid) (x : Hart) : (s.setHt h x).devKey = s.devKey := rfl
@[simp] theorem setHt_hash (h : Hid) (x : Hart) : (s.setHt h x).hash = s.hash := rfl
@[simp] theorem setHt_ceBusy (h : Hid) (x : Hart) : (s.setHt h x).ceBusy = s.ceBusy := rfl
@[simp] theorem setHt_bpBusy (h : Hid) (x : Hart) : (s.setHt h x).bpBusy = s.bpBusy := rfl
@[simp] theorem setHt_mrBusy (h : Hid) (x : Hart) : (s.setHt h x).mrBusy = s.mrBusy := rfl
@[simp] theorem setHt_kdBusy (h : Hid) (x : Hart) : (s.setHt h x).kdBusy = s.kdBusy := rfl
@[simp] theorem setHt_draws (h : Hid) (x : Hart) : (s.setHt h x).draws = s.draws := rfl
@[simp] theorem setHt_spdm (h : Hid) (x : Hart) : (s.setHt h x).spdm = s.spdm := rfl
@[simp] theorem setHt_msix (h : Hid) (x : Hart) : (s.setHt h x).msix = s.msix := rfl
@[simp] theorem setHt_pod (h : Hid) (x : Hart) : (s.setHt h x).pod = s.pod := rfl
@[simp] theorem setHt_podSize (h : Hid) (x : Hart) : (s.setHt h x).podSize = s.podSize := rfl
@[simp] theorem setHt_pkg (h : Hid) (x : Hart) : (s.setHt h x).pkg = s.pkg := rfl
@[simp] theorem setHt_podInputs (h : Hid) (x : Hart) : (s.setHt h x).podInputs = s.podInputs := rfl
@[simp] theorem setHt_powered (h : Hid) (x : Hart) : (s.setHt h x).powered = s.powered := rfl
@[simp] theorem setHt_agenda (h : Hid) (x : Hart) : (s.setHt h x).agenda = s.agenda := rfl
@[simp] theorem setHt_todo (h : Hid) (x : Hart) : (s.setHt h x).todo = s.todo := rfl
@[simp] theorem setHt_inputs (h : Hid) (x : Hart) : (s.setHt h x).inputs = s.inputs := rfl
@[simp] theorem setHt_cur (h : Hid) (x : Hart) : (s.setHt h x).cur = s.cur := rfl
@[simp] theorem setHt_hart (h : Hid) (x : Hart) : (s.setHt h x).hart = s.hart := rfl

/-! ### modHt -/

@[simp] theorem modHt_cycle (h : Hid) (f : Hart → Hart) : (s.modHt h f).cycle = s.cycle := rfl
@[simp] theorem modHt_thr (h : Hid) (f : Hart → Hart) : (s.modHt h f).thr = s.thr := rfl
@[simp] theorem modHt_cores (h : Hid) (f : Hart → Hart) : (s.modHt h f).cores = s.cores := rfl
@[simp] theorem modHt_quads (h : Hid) (f : Hart → Hart) : (s.modHt h f).quads = s.quads := rfl
@[simp] theorem modHt_lm (h : Hid) (f : Hart → Hart) : (s.modHt h f).lm = s.lm := rfl
@[simp] theorem modHt_lmWas (h : Hid) (f : Hart → Hart) : (s.modHt h f).lmWas = s.lmWas := rfl
@[simp] theorem modHt_lmPoison (h : Hid) (f : Hart → Hart) : (s.modHt h f).lmPoison = s.lmPoison := rfl
@[simp] theorem modHt_canPoison (h : Hid) (f : Hart → Hart) : (s.modHt h f).canPoison = s.canPoison := rfl
@[simp] theorem modHt_canopy (h : Hid) (f : Hart → Hart) : (s.modHt h f).canopy = s.canopy := rfl
@[simp] theorem modHt_acc (h : Hid) (f : Hart → Hart) : (s.modHt h f).acc = s.acc := rfl
@[simp] theorem modHt_mem (h : Hid) (f : Hart → Hart) : (s.modHt h f).mem = s.mem := rfl
@[simp] theorem modHt_stack (h : Hid) (f : Hart → Hart) : (s.modHt h f).stack = s.stack := rfl
@[simp] theorem modHt_bitmap (h : Hid) (f : Hart → Hart) : (s.modHt h f).bitmap = s.bitmap := rfl
@[simp] theorem modHt_bmHeld (h : Hid) (f : Hart → Hart) : (s.modHt h f).bmHeld = s.bmHeld := rfl
@[simp] theorem modHt_badLines (h : Hid) (f : Hart → Hart) : (s.modHt h f).badLines = s.badLines := rfl
@[simp] theorem modHt_lost (h : Hid) (f : Hart → Hart) : (s.modHt h f).lost = s.lost := rfl
@[simp] theorem modHt_l2 (h : Hid) (f : Hart → Hart) : (s.modHt h f).l2 = s.l2 := rfl
@[simp] theorem modHt_l2tree (h : Hid) (f : Hart → Hart) : (s.modHt h f).l2tree = s.l2tree := rfl
@[simp] theorem modHt_mlc (h : Hid) (f : Hart → Hart) : (s.modHt h f).mlc = s.mlc := rfl
@[simp] theorem modHt_mlcFill (h : Hid) (f : Hart → Hart) : (s.modHt h f).mlcFill = s.mlcFill := rfl
@[simp] theorem modHt_mlcWays (h : Hid) (f : Hart → Hart) : (s.modHt h f).mlcWays = s.mlcWays := rfl
@[simp] theorem modHt_tcache (h : Hid) (f : Hart → Hart) : (s.modHt h f).tcache = s.tcache := rfl
@[simp] theorem modHt_sliceOut (h : Hid) (f : Hart → Hart) : (s.modHt h f).sliceOut = s.sliceOut := rfl
@[simp] theorem modHt_cmds (h : Hid) (f : Hart → Hart) : (s.modHt h f).cmds = s.cmds := rfl
@[simp] theorem modHt_sq (h : Hid) (f : Hart → Hart) : (s.modHt h f).sq = s.sq := rfl
@[simp] theorem modHt_grains (h : Hid) (f : Hart → Hart) : (s.modHt h f).grains = s.grains := rfl
@[simp] theorem modHt_incrs (h : Hid) (f : Hart → Hart) : (s.modHt h f).incrs = s.incrs := rfl
@[simp] theorem modHt_barEvs (h : Hid) (f : Hart → Hart) : (s.modHt h f).barEvs = s.barEvs := rfl
@[simp] theorem modHt_fills (h : Hid) (f : Hart → Hart) : (s.modHt h f).fills = s.fills := rfl
@[simp] theorem modHt_ringMsgs (h : Hid) (f : Hart → Hart) : (s.modHt h f).ringMsgs = s.ringMsgs := rfl
@[simp] theorem modHt_sups (h : Hid) (f : Hart → Hart) : (s.modHt h f).sups = s.sups := rfl
@[simp] theorem modHt_bars (h : Hid) (f : Hart → Hart) : (s.modHt h f).bars = s.bars := rfl
@[simp] theorem modHt_fresh (h : Hid) (f : Hart → Hart) : (s.modHt h f).fresh = s.fresh := rfl
@[simp] theorem modHt_regs (h : Hid) (f : Hart → Hart) : (s.modHt h f).regs = s.regs := rfl
@[simp] theorem modHt_lqs (h : Hid) (f : Hart → Hart) : (s.modHt h f).lqs = s.lqs := rfl
@[simp] theorem modHt_rr (h : Hid) (f : Hart → Hart) : (s.modHt h f).rr = s.rr := rfl
@[simp] theorem modHt_launches (h : Hid) (f : Hart → Hart) : (s.modHt h f).launches = s.launches := rfl
@[simp] theorem modHt_nextLid (h : Hid) (f : Hart → Hart) : (s.modHt h f).nextLid = s.nextLid := rfl
@[simp] theorem modHt_images (h : Hid) (f : Hart → Hart) : (s.modHt h f).images = s.images := rfl
@[simp] theorem modHt_keys (h : Hid) (f : Hart → Hart) : (s.modHt h f).keys = s.keys := rfl
@[simp] theorem modHt_wroteBack (h : Hid) (f : Hart → Hart) : (s.modHt h f).wroteBack = s.wroteBack := rfl
@[simp] theorem modHt_fences (h : Hid) (f : Hart → Hart) : (s.modHt h f).fences = s.fences := rfl
@[simp] theorem modHt_erased (h : Hid) (f : Hart → Hart) : (s.modHt h f).erased = s.erased := rfl
@[simp] theorem modHt_halted (h : Hid) (f : Hart → Hart) : (s.modHt h f).halted = s.halted := rfl
@[simp] theorem modHt_puf (h : Hid) (f : Hart → Hart) : (s.modHt h f).puf = s.puf := rfl
@[simp] theorem modHt_links (h : Hid) (f : Hart → Hart) : (s.modHt h f).links = s.links := rfl
@[simp] theorem modHt_merge (h : Hid) (f : Hart → Hart) : (s.modHt h f).merge = s.merge := rfl
@[simp] theorem modHt_smOver (h : Hid) (f : Hart → Hart) : (s.modHt h f).smOver = s.smOver := rfl
@[simp] theorem modHt_sramCnt (h : Hid) (f : Hart → Hart) : (s.modHt h f).sramCnt = s.sramCnt := rfl
@[simp] theorem modHt_l2gate (h : Hid) (f : Hart → Hart) : (s.modHt h f).l2gate = s.l2gate := rfl
@[simp] theorem modHt_mlcgate (h : Hid) (f : Hart → Hart) : (s.modHt h f).mlcgate = s.mlcgate := rfl
@[simp] theorem modHt_gateBusy (h : Hid) (f : Hart → Hart) : (s.modHt h f).gateBusy = s.gateBusy := rfl
@[simp] theorem modHt_grade (h : Hid) (f : Hart → Hart) : (s.modHt h f).grade = s.grade := rfl
@[simp] theorem modHt_groupOver (h : Hid) (f : Hart → Hart) : (s.modHt h f).groupOver = s.groupOver := rfl
@[simp] theorem modHt_unmap (h : Hid) (f : Hart → Hart) : (s.modHt h f).unmap = s.unmap := rfl
@[simp] theorem modHt_vqmap (h : Hid) (f : Hart → Hart) : (s.modHt h f).vqmap = s.vqmap := rfl
@[simp] theorem modHt_badGroups (h : Hid) (f : Hart → Hart) : (s.modHt h f).badGroups = s.badGroups := rfl
@[simp] theorem modHt_vsmap (h : Hid) (f : Hart → Hart) : (s.modHt h f).vsmap = s.vsmap := rfl
@[simp] theorem modHt_bankMap (h : Hid) (f : Hart → Hart) : (s.modHt h f).bankMap = s.bankMap := rfl
@[simp] theorem modHt_rowRepairs (h : Hid) (f : Hart → Hart) : (s.modHt h f).rowRepairs = s.rowRepairs := rfl
@[simp] theorem modHt_trims (h : Hid) (f : Hart → Hart) : (s.modHt h f).trims = s.trims := rfl
@[simp] theorem modHt_bankOut (h : Hid) (f : Hart → Hart) : (s.modHt h f).bankOut = s.bankOut := rfl
@[simp] theorem modHt_failed (h : Hid) (f : Hart → Hart) : (s.modHt h f).failed = s.failed := rfl
@[simp] theorem modHt_lcnt (h : Hid) (f : Hart → Hart) : (s.modHt h f).lcnt = s.lcnt := rfl
@[simp] theorem modHt_lcBusy (h : Hid) (f : Hart → Hart) : (s.modHt h f).lcBusy = s.lcBusy := rfl
@[simp] theorem modHt_accts (h : Hid) (f : Hart → Hart) : (s.modHt h f).accts = s.accts := rfl
@[simp] theorem modHt_energy (h : Hid) (f : Hart → Hart) : (s.modHt h f).energy = s.energy := rfl
@[simp] theorem modHt_sram (h : Hid) (f : Hart → Hart) : (s.modHt h f).sram = s.sram := rfl
@[simp] theorem modHt_reqbuf (h : Hid) (f : Hart → Hart) : (s.modHt h f).reqbuf = s.reqbuf := rfl
@[simp] theorem modHt_rspbuf (h : Hid) (f : Hart → Hart) : (s.modHt h f).rspbuf = s.rspbuf := rfl
@[simp] theorem modHt_flash (h : Hid) (f : Hart → Hart) : (s.modHt h f).flash = s.flash := rfl
@[simp] theorem modHt_flashErr (h : Hid) (f : Hart → Hart) : (s.modHt h f).flashErr = s.flashErr := rfl
@[simp] theorem modHt_hostMem (h : Hid) (f : Hart → Hart) : (s.modHt h f).hostMem = s.hostMem := rfl
@[simp] theorem modHt_mr (h : Hid) (f : Hart → Hart) : (s.modHt h f).mr = s.mr := rfl
@[simp] theorem modHt_mrNext (h : Hid) (f : Hart → Hart) : (s.modHt h f).mrNext = s.mrNext := rfl
@[simp] theorem modHt_devKey (h : Hid) (f : Hart → Hart) : (s.modHt h f).devKey = s.devKey := rfl
@[simp] theorem modHt_hash (h : Hid) (f : Hart → Hart) : (s.modHt h f).hash = s.hash := rfl
@[simp] theorem modHt_ceBusy (h : Hid) (f : Hart → Hart) : (s.modHt h f).ceBusy = s.ceBusy := rfl
@[simp] theorem modHt_bpBusy (h : Hid) (f : Hart → Hart) : (s.modHt h f).bpBusy = s.bpBusy := rfl
@[simp] theorem modHt_mrBusy (h : Hid) (f : Hart → Hart) : (s.modHt h f).mrBusy = s.mrBusy := rfl
@[simp] theorem modHt_kdBusy (h : Hid) (f : Hart → Hart) : (s.modHt h f).kdBusy = s.kdBusy := rfl
@[simp] theorem modHt_draws (h : Hid) (f : Hart → Hart) : (s.modHt h f).draws = s.draws := rfl
@[simp] theorem modHt_spdm (h : Hid) (f : Hart → Hart) : (s.modHt h f).spdm = s.spdm := rfl
@[simp] theorem modHt_msix (h : Hid) (f : Hart → Hart) : (s.modHt h f).msix = s.msix := rfl
@[simp] theorem modHt_pod (h : Hid) (f : Hart → Hart) : (s.modHt h f).pod = s.pod := rfl
@[simp] theorem modHt_podSize (h : Hid) (f : Hart → Hart) : (s.modHt h f).podSize = s.podSize := rfl
@[simp] theorem modHt_pkg (h : Hid) (f : Hart → Hart) : (s.modHt h f).pkg = s.pkg := rfl
@[simp] theorem modHt_podInputs (h : Hid) (f : Hart → Hart) : (s.modHt h f).podInputs = s.podInputs := rfl
@[simp] theorem modHt_powered (h : Hid) (f : Hart → Hart) : (s.modHt h f).powered = s.powered := rfl
@[simp] theorem modHt_agenda (h : Hid) (f : Hart → Hart) : (s.modHt h f).agenda = s.agenda := rfl
@[simp] theorem modHt_todo (h : Hid) (f : Hart → Hart) : (s.modHt h f).todo = s.todo := rfl
@[simp] theorem modHt_inputs (h : Hid) (f : Hart → Hart) : (s.modHt h f).inputs = s.inputs := rfl
@[simp] theorem modHt_cur (h : Hid) (f : Hart → Hart) : (s.modHt h f).cur = s.cur := rfl
@[simp] theorem modHt_hart (h : Hid) (f : Hart → Hart) : (s.modHt h f).hart = s.hart := rfl

/-! ### setQuad -/

@[simp] theorem setQuad_cycle (q : Nat) (x : Quad) : (s.setQuad q x).cycle = s.cycle := rfl
@[simp] theorem setQuad_thr (q : Nat) (x : Quad) : (s.setQuad q x).thr = s.thr := rfl
@[simp] theorem setQuad_cores (q : Nat) (x : Quad) : (s.setQuad q x).cores = s.cores := rfl
@[simp] theorem setQuad_harts (q : Nat) (x : Quad) : (s.setQuad q x).harts = s.harts := rfl
@[simp] theorem setQuad_lm (q : Nat) (x : Quad) : (s.setQuad q x).lm = s.lm := rfl
@[simp] theorem setQuad_lmWas (q : Nat) (x : Quad) : (s.setQuad q x).lmWas = s.lmWas := rfl
@[simp] theorem setQuad_lmPoison (q : Nat) (x : Quad) : (s.setQuad q x).lmPoison = s.lmPoison := rfl
@[simp] theorem setQuad_canPoison (q : Nat) (x : Quad) : (s.setQuad q x).canPoison = s.canPoison := rfl
@[simp] theorem setQuad_canopy (q : Nat) (x : Quad) : (s.setQuad q x).canopy = s.canopy := rfl
@[simp] theorem setQuad_acc (q : Nat) (x : Quad) : (s.setQuad q x).acc = s.acc := rfl
@[simp] theorem setQuad_mem (q : Nat) (x : Quad) : (s.setQuad q x).mem = s.mem := rfl
@[simp] theorem setQuad_stack (q : Nat) (x : Quad) : (s.setQuad q x).stack = s.stack := rfl
@[simp] theorem setQuad_bitmap (q : Nat) (x : Quad) : (s.setQuad q x).bitmap = s.bitmap := rfl
@[simp] theorem setQuad_bmHeld (q : Nat) (x : Quad) : (s.setQuad q x).bmHeld = s.bmHeld := rfl
@[simp] theorem setQuad_badLines (q : Nat) (x : Quad) : (s.setQuad q x).badLines = s.badLines := rfl
@[simp] theorem setQuad_lost (q : Nat) (x : Quad) : (s.setQuad q x).lost = s.lost := rfl
@[simp] theorem setQuad_l2 (q : Nat) (x : Quad) : (s.setQuad q x).l2 = s.l2 := rfl
@[simp] theorem setQuad_l2tree (q : Nat) (x : Quad) : (s.setQuad q x).l2tree = s.l2tree := rfl
@[simp] theorem setQuad_mlc (q : Nat) (x : Quad) : (s.setQuad q x).mlc = s.mlc := rfl
@[simp] theorem setQuad_mlcFill (q : Nat) (x : Quad) : (s.setQuad q x).mlcFill = s.mlcFill := rfl
@[simp] theorem setQuad_mlcWays (q : Nat) (x : Quad) : (s.setQuad q x).mlcWays = s.mlcWays := rfl
@[simp] theorem setQuad_tcache (q : Nat) (x : Quad) : (s.setQuad q x).tcache = s.tcache := rfl
@[simp] theorem setQuad_sliceOut (q : Nat) (x : Quad) : (s.setQuad q x).sliceOut = s.sliceOut := rfl
@[simp] theorem setQuad_cmds (q : Nat) (x : Quad) : (s.setQuad q x).cmds = s.cmds := rfl
@[simp] theorem setQuad_sq (q : Nat) (x : Quad) : (s.setQuad q x).sq = s.sq := rfl
@[simp] theorem setQuad_grains (q : Nat) (x : Quad) : (s.setQuad q x).grains = s.grains := rfl
@[simp] theorem setQuad_incrs (q : Nat) (x : Quad) : (s.setQuad q x).incrs = s.incrs := rfl
@[simp] theorem setQuad_barEvs (q : Nat) (x : Quad) : (s.setQuad q x).barEvs = s.barEvs := rfl
@[simp] theorem setQuad_fills (q : Nat) (x : Quad) : (s.setQuad q x).fills = s.fills := rfl
@[simp] theorem setQuad_ringMsgs (q : Nat) (x : Quad) : (s.setQuad q x).ringMsgs = s.ringMsgs := rfl
@[simp] theorem setQuad_sups (q : Nat) (x : Quad) : (s.setQuad q x).sups = s.sups := rfl
@[simp] theorem setQuad_bars (q : Nat) (x : Quad) : (s.setQuad q x).bars = s.bars := rfl
@[simp] theorem setQuad_fresh (q : Nat) (x : Quad) : (s.setQuad q x).fresh = s.fresh := rfl
@[simp] theorem setQuad_regs (q : Nat) (x : Quad) : (s.setQuad q x).regs = s.regs := rfl
@[simp] theorem setQuad_lqs (q : Nat) (x : Quad) : (s.setQuad q x).lqs = s.lqs := rfl
@[simp] theorem setQuad_rr (q : Nat) (x : Quad) : (s.setQuad q x).rr = s.rr := rfl
@[simp] theorem setQuad_launches (q : Nat) (x : Quad) : (s.setQuad q x).launches = s.launches := rfl
@[simp] theorem setQuad_nextLid (q : Nat) (x : Quad) : (s.setQuad q x).nextLid = s.nextLid := rfl
@[simp] theorem setQuad_images (q : Nat) (x : Quad) : (s.setQuad q x).images = s.images := rfl
@[simp] theorem setQuad_keys (q : Nat) (x : Quad) : (s.setQuad q x).keys = s.keys := rfl
@[simp] theorem setQuad_wroteBack (q : Nat) (x : Quad) : (s.setQuad q x).wroteBack = s.wroteBack := rfl
@[simp] theorem setQuad_fences (q : Nat) (x : Quad) : (s.setQuad q x).fences = s.fences := rfl
@[simp] theorem setQuad_erased (q : Nat) (x : Quad) : (s.setQuad q x).erased = s.erased := rfl
@[simp] theorem setQuad_halted (q : Nat) (x : Quad) : (s.setQuad q x).halted = s.halted := rfl
@[simp] theorem setQuad_puf (q : Nat) (x : Quad) : (s.setQuad q x).puf = s.puf := rfl
@[simp] theorem setQuad_links (q : Nat) (x : Quad) : (s.setQuad q x).links = s.links := rfl
@[simp] theorem setQuad_merge (q : Nat) (x : Quad) : (s.setQuad q x).merge = s.merge := rfl
@[simp] theorem setQuad_smOver (q : Nat) (x : Quad) : (s.setQuad q x).smOver = s.smOver := rfl
@[simp] theorem setQuad_sramCnt (q : Nat) (x : Quad) : (s.setQuad q x).sramCnt = s.sramCnt := rfl
@[simp] theorem setQuad_l2gate (q : Nat) (x : Quad) : (s.setQuad q x).l2gate = s.l2gate := rfl
@[simp] theorem setQuad_mlcgate (q : Nat) (x : Quad) : (s.setQuad q x).mlcgate = s.mlcgate := rfl
@[simp] theorem setQuad_gateBusy (q : Nat) (x : Quad) : (s.setQuad q x).gateBusy = s.gateBusy := rfl
@[simp] theorem setQuad_grade (q : Nat) (x : Quad) : (s.setQuad q x).grade = s.grade := rfl
@[simp] theorem setQuad_groupOver (q : Nat) (x : Quad) : (s.setQuad q x).groupOver = s.groupOver := rfl
@[simp] theorem setQuad_unmap (q : Nat) (x : Quad) : (s.setQuad q x).unmap = s.unmap := rfl
@[simp] theorem setQuad_vqmap (q : Nat) (x : Quad) : (s.setQuad q x).vqmap = s.vqmap := rfl
@[simp] theorem setQuad_badGroups (q : Nat) (x : Quad) : (s.setQuad q x).badGroups = s.badGroups := rfl
@[simp] theorem setQuad_vsmap (q : Nat) (x : Quad) : (s.setQuad q x).vsmap = s.vsmap := rfl
@[simp] theorem setQuad_bankMap (q : Nat) (x : Quad) : (s.setQuad q x).bankMap = s.bankMap := rfl
@[simp] theorem setQuad_rowRepairs (q : Nat) (x : Quad) : (s.setQuad q x).rowRepairs = s.rowRepairs := rfl
@[simp] theorem setQuad_trims (q : Nat) (x : Quad) : (s.setQuad q x).trims = s.trims := rfl
@[simp] theorem setQuad_bankOut (q : Nat) (x : Quad) : (s.setQuad q x).bankOut = s.bankOut := rfl
@[simp] theorem setQuad_failed (q : Nat) (x : Quad) : (s.setQuad q x).failed = s.failed := rfl
@[simp] theorem setQuad_lcnt (q : Nat) (x : Quad) : (s.setQuad q x).lcnt = s.lcnt := rfl
@[simp] theorem setQuad_lcBusy (q : Nat) (x : Quad) : (s.setQuad q x).lcBusy = s.lcBusy := rfl
@[simp] theorem setQuad_accts (q : Nat) (x : Quad) : (s.setQuad q x).accts = s.accts := rfl
@[simp] theorem setQuad_energy (q : Nat) (x : Quad) : (s.setQuad q x).energy = s.energy := rfl
@[simp] theorem setQuad_sram (q : Nat) (x : Quad) : (s.setQuad q x).sram = s.sram := rfl
@[simp] theorem setQuad_reqbuf (q : Nat) (x : Quad) : (s.setQuad q x).reqbuf = s.reqbuf := rfl
@[simp] theorem setQuad_rspbuf (q : Nat) (x : Quad) : (s.setQuad q x).rspbuf = s.rspbuf := rfl
@[simp] theorem setQuad_flash (q : Nat) (x : Quad) : (s.setQuad q x).flash = s.flash := rfl
@[simp] theorem setQuad_flashErr (q : Nat) (x : Quad) : (s.setQuad q x).flashErr = s.flashErr := rfl
@[simp] theorem setQuad_hostMem (q : Nat) (x : Quad) : (s.setQuad q x).hostMem = s.hostMem := rfl
@[simp] theorem setQuad_mr (q : Nat) (x : Quad) : (s.setQuad q x).mr = s.mr := rfl
@[simp] theorem setQuad_mrNext (q : Nat) (x : Quad) : (s.setQuad q x).mrNext = s.mrNext := rfl
@[simp] theorem setQuad_devKey (q : Nat) (x : Quad) : (s.setQuad q x).devKey = s.devKey := rfl
@[simp] theorem setQuad_hash (q : Nat) (x : Quad) : (s.setQuad q x).hash = s.hash := rfl
@[simp] theorem setQuad_ceBusy (q : Nat) (x : Quad) : (s.setQuad q x).ceBusy = s.ceBusy := rfl
@[simp] theorem setQuad_bpBusy (q : Nat) (x : Quad) : (s.setQuad q x).bpBusy = s.bpBusy := rfl
@[simp] theorem setQuad_mrBusy (q : Nat) (x : Quad) : (s.setQuad q x).mrBusy = s.mrBusy := rfl
@[simp] theorem setQuad_kdBusy (q : Nat) (x : Quad) : (s.setQuad q x).kdBusy = s.kdBusy := rfl
@[simp] theorem setQuad_draws (q : Nat) (x : Quad) : (s.setQuad q x).draws = s.draws := rfl
@[simp] theorem setQuad_spdm (q : Nat) (x : Quad) : (s.setQuad q x).spdm = s.spdm := rfl
@[simp] theorem setQuad_msix (q : Nat) (x : Quad) : (s.setQuad q x).msix = s.msix := rfl
@[simp] theorem setQuad_pod (q : Nat) (x : Quad) : (s.setQuad q x).pod = s.pod := rfl
@[simp] theorem setQuad_podSize (q : Nat) (x : Quad) : (s.setQuad q x).podSize = s.podSize := rfl
@[simp] theorem setQuad_pkg (q : Nat) (x : Quad) : (s.setQuad q x).pkg = s.pkg := rfl
@[simp] theorem setQuad_podInputs (q : Nat) (x : Quad) : (s.setQuad q x).podInputs = s.podInputs := rfl
@[simp] theorem setQuad_powered (q : Nat) (x : Quad) : (s.setQuad q x).powered = s.powered := rfl
@[simp] theorem setQuad_agenda (q : Nat) (x : Quad) : (s.setQuad q x).agenda = s.agenda := rfl
@[simp] theorem setQuad_todo (q : Nat) (x : Quad) : (s.setQuad q x).todo = s.todo := rfl
@[simp] theorem setQuad_inputs (q : Nat) (x : Quad) : (s.setQuad q x).inputs = s.inputs := rfl
@[simp] theorem setQuad_cur (q : Nat) (x : Quad) : (s.setQuad q x).cur = s.cur := rfl
@[simp] theorem setQuad_hart (q : Nat) (x : Quad) : (s.setQuad q x).hart = s.hart := rfl

/-! ### modQuad -/

@[simp] theorem modQuad_cycle (q : Nat) (f : Quad → Quad) : (s.modQuad q f).cycle = s.cycle := rfl
@[simp] theorem modQuad_thr (q : Nat) (f : Quad → Quad) : (s.modQuad q f).thr = s.thr := rfl
@[simp] theorem modQuad_cores (q : Nat) (f : Quad → Quad) : (s.modQuad q f).cores = s.cores := rfl
@[simp] theorem modQuad_harts (q : Nat) (f : Quad → Quad) : (s.modQuad q f).harts = s.harts := rfl
@[simp] theorem modQuad_lm (q : Nat) (f : Quad → Quad) : (s.modQuad q f).lm = s.lm := rfl
@[simp] theorem modQuad_lmWas (q : Nat) (f : Quad → Quad) : (s.modQuad q f).lmWas = s.lmWas := rfl
@[simp] theorem modQuad_lmPoison (q : Nat) (f : Quad → Quad) : (s.modQuad q f).lmPoison = s.lmPoison := rfl
@[simp] theorem modQuad_canPoison (q : Nat) (f : Quad → Quad) : (s.modQuad q f).canPoison = s.canPoison := rfl
@[simp] theorem modQuad_canopy (q : Nat) (f : Quad → Quad) : (s.modQuad q f).canopy = s.canopy := rfl
@[simp] theorem modQuad_acc (q : Nat) (f : Quad → Quad) : (s.modQuad q f).acc = s.acc := rfl
@[simp] theorem modQuad_mem (q : Nat) (f : Quad → Quad) : (s.modQuad q f).mem = s.mem := rfl
@[simp] theorem modQuad_stack (q : Nat) (f : Quad → Quad) : (s.modQuad q f).stack = s.stack := rfl
@[simp] theorem modQuad_bitmap (q : Nat) (f : Quad → Quad) : (s.modQuad q f).bitmap = s.bitmap := rfl
@[simp] theorem modQuad_bmHeld (q : Nat) (f : Quad → Quad) : (s.modQuad q f).bmHeld = s.bmHeld := rfl
@[simp] theorem modQuad_badLines (q : Nat) (f : Quad → Quad) : (s.modQuad q f).badLines = s.badLines := rfl
@[simp] theorem modQuad_lost (q : Nat) (f : Quad → Quad) : (s.modQuad q f).lost = s.lost := rfl
@[simp] theorem modQuad_l2 (q : Nat) (f : Quad → Quad) : (s.modQuad q f).l2 = s.l2 := rfl
@[simp] theorem modQuad_l2tree (q : Nat) (f : Quad → Quad) : (s.modQuad q f).l2tree = s.l2tree := rfl
@[simp] theorem modQuad_mlc (q : Nat) (f : Quad → Quad) : (s.modQuad q f).mlc = s.mlc := rfl
@[simp] theorem modQuad_mlcFill (q : Nat) (f : Quad → Quad) : (s.modQuad q f).mlcFill = s.mlcFill := rfl
@[simp] theorem modQuad_mlcWays (q : Nat) (f : Quad → Quad) : (s.modQuad q f).mlcWays = s.mlcWays := rfl
@[simp] theorem modQuad_tcache (q : Nat) (f : Quad → Quad) : (s.modQuad q f).tcache = s.tcache := rfl
@[simp] theorem modQuad_sliceOut (q : Nat) (f : Quad → Quad) : (s.modQuad q f).sliceOut = s.sliceOut := rfl
@[simp] theorem modQuad_cmds (q : Nat) (f : Quad → Quad) : (s.modQuad q f).cmds = s.cmds := rfl
@[simp] theorem modQuad_sq (q : Nat) (f : Quad → Quad) : (s.modQuad q f).sq = s.sq := rfl
@[simp] theorem modQuad_grains (q : Nat) (f : Quad → Quad) : (s.modQuad q f).grains = s.grains := rfl
@[simp] theorem modQuad_incrs (q : Nat) (f : Quad → Quad) : (s.modQuad q f).incrs = s.incrs := rfl
@[simp] theorem modQuad_barEvs (q : Nat) (f : Quad → Quad) : (s.modQuad q f).barEvs = s.barEvs := rfl
@[simp] theorem modQuad_fills (q : Nat) (f : Quad → Quad) : (s.modQuad q f).fills = s.fills := rfl
@[simp] theorem modQuad_ringMsgs (q : Nat) (f : Quad → Quad) : (s.modQuad q f).ringMsgs = s.ringMsgs := rfl
@[simp] theorem modQuad_sups (q : Nat) (f : Quad → Quad) : (s.modQuad q f).sups = s.sups := rfl
@[simp] theorem modQuad_bars (q : Nat) (f : Quad → Quad) : (s.modQuad q f).bars = s.bars := rfl
@[simp] theorem modQuad_fresh (q : Nat) (f : Quad → Quad) : (s.modQuad q f).fresh = s.fresh := rfl
@[simp] theorem modQuad_regs (q : Nat) (f : Quad → Quad) : (s.modQuad q f).regs = s.regs := rfl
@[simp] theorem modQuad_lqs (q : Nat) (f : Quad → Quad) : (s.modQuad q f).lqs = s.lqs := rfl
@[simp] theorem modQuad_rr (q : Nat) (f : Quad → Quad) : (s.modQuad q f).rr = s.rr := rfl
@[simp] theorem modQuad_launches (q : Nat) (f : Quad → Quad) : (s.modQuad q f).launches = s.launches := rfl
@[simp] theorem modQuad_nextLid (q : Nat) (f : Quad → Quad) : (s.modQuad q f).nextLid = s.nextLid := rfl
@[simp] theorem modQuad_images (q : Nat) (f : Quad → Quad) : (s.modQuad q f).images = s.images := rfl
@[simp] theorem modQuad_keys (q : Nat) (f : Quad → Quad) : (s.modQuad q f).keys = s.keys := rfl
@[simp] theorem modQuad_wroteBack (q : Nat) (f : Quad → Quad) : (s.modQuad q f).wroteBack = s.wroteBack := rfl
@[simp] theorem modQuad_fences (q : Nat) (f : Quad → Quad) : (s.modQuad q f).fences = s.fences := rfl
@[simp] theorem modQuad_erased (q : Nat) (f : Quad → Quad) : (s.modQuad q f).erased = s.erased := rfl
@[simp] theorem modQuad_halted (q : Nat) (f : Quad → Quad) : (s.modQuad q f).halted = s.halted := rfl
@[simp] theorem modQuad_puf (q : Nat) (f : Quad → Quad) : (s.modQuad q f).puf = s.puf := rfl
@[simp] theorem modQuad_links (q : Nat) (f : Quad → Quad) : (s.modQuad q f).links = s.links := rfl
@[simp] theorem modQuad_merge (q : Nat) (f : Quad → Quad) : (s.modQuad q f).merge = s.merge := rfl
@[simp] theorem modQuad_smOver (q : Nat) (f : Quad → Quad) : (s.modQuad q f).smOver = s.smOver := rfl
@[simp] theorem modQuad_sramCnt (q : Nat) (f : Quad → Quad) : (s.modQuad q f).sramCnt = s.sramCnt := rfl
@[simp] theorem modQuad_l2gate (q : Nat) (f : Quad → Quad) : (s.modQuad q f).l2gate = s.l2gate := rfl
@[simp] theorem modQuad_mlcgate (q : Nat) (f : Quad → Quad) : (s.modQuad q f).mlcgate = s.mlcgate := rfl
@[simp] theorem modQuad_gateBusy (q : Nat) (f : Quad → Quad) : (s.modQuad q f).gateBusy = s.gateBusy := rfl
@[simp] theorem modQuad_grade (q : Nat) (f : Quad → Quad) : (s.modQuad q f).grade = s.grade := rfl
@[simp] theorem modQuad_groupOver (q : Nat) (f : Quad → Quad) : (s.modQuad q f).groupOver = s.groupOver := rfl
@[simp] theorem modQuad_unmap (q : Nat) (f : Quad → Quad) : (s.modQuad q f).unmap = s.unmap := rfl
@[simp] theorem modQuad_vqmap (q : Nat) (f : Quad → Quad) : (s.modQuad q f).vqmap = s.vqmap := rfl
@[simp] theorem modQuad_badGroups (q : Nat) (f : Quad → Quad) : (s.modQuad q f).badGroups = s.badGroups := rfl
@[simp] theorem modQuad_vsmap (q : Nat) (f : Quad → Quad) : (s.modQuad q f).vsmap = s.vsmap := rfl
@[simp] theorem modQuad_bankMap (q : Nat) (f : Quad → Quad) : (s.modQuad q f).bankMap = s.bankMap := rfl
@[simp] theorem modQuad_rowRepairs (q : Nat) (f : Quad → Quad) : (s.modQuad q f).rowRepairs = s.rowRepairs := rfl
@[simp] theorem modQuad_trims (q : Nat) (f : Quad → Quad) : (s.modQuad q f).trims = s.trims := rfl
@[simp] theorem modQuad_bankOut (q : Nat) (f : Quad → Quad) : (s.modQuad q f).bankOut = s.bankOut := rfl
@[simp] theorem modQuad_failed (q : Nat) (f : Quad → Quad) : (s.modQuad q f).failed = s.failed := rfl
@[simp] theorem modQuad_lcnt (q : Nat) (f : Quad → Quad) : (s.modQuad q f).lcnt = s.lcnt := rfl
@[simp] theorem modQuad_lcBusy (q : Nat) (f : Quad → Quad) : (s.modQuad q f).lcBusy = s.lcBusy := rfl
@[simp] theorem modQuad_accts (q : Nat) (f : Quad → Quad) : (s.modQuad q f).accts = s.accts := rfl
@[simp] theorem modQuad_energy (q : Nat) (f : Quad → Quad) : (s.modQuad q f).energy = s.energy := rfl
@[simp] theorem modQuad_sram (q : Nat) (f : Quad → Quad) : (s.modQuad q f).sram = s.sram := rfl
@[simp] theorem modQuad_reqbuf (q : Nat) (f : Quad → Quad) : (s.modQuad q f).reqbuf = s.reqbuf := rfl
@[simp] theorem modQuad_rspbuf (q : Nat) (f : Quad → Quad) : (s.modQuad q f).rspbuf = s.rspbuf := rfl
@[simp] theorem modQuad_flash (q : Nat) (f : Quad → Quad) : (s.modQuad q f).flash = s.flash := rfl
@[simp] theorem modQuad_flashErr (q : Nat) (f : Quad → Quad) : (s.modQuad q f).flashErr = s.flashErr := rfl
@[simp] theorem modQuad_hostMem (q : Nat) (f : Quad → Quad) : (s.modQuad q f).hostMem = s.hostMem := rfl
@[simp] theorem modQuad_mr (q : Nat) (f : Quad → Quad) : (s.modQuad q f).mr = s.mr := rfl
@[simp] theorem modQuad_mrNext (q : Nat) (f : Quad → Quad) : (s.modQuad q f).mrNext = s.mrNext := rfl
@[simp] theorem modQuad_devKey (q : Nat) (f : Quad → Quad) : (s.modQuad q f).devKey = s.devKey := rfl
@[simp] theorem modQuad_hash (q : Nat) (f : Quad → Quad) : (s.modQuad q f).hash = s.hash := rfl
@[simp] theorem modQuad_ceBusy (q : Nat) (f : Quad → Quad) : (s.modQuad q f).ceBusy = s.ceBusy := rfl
@[simp] theorem modQuad_bpBusy (q : Nat) (f : Quad → Quad) : (s.modQuad q f).bpBusy = s.bpBusy := rfl
@[simp] theorem modQuad_mrBusy (q : Nat) (f : Quad → Quad) : (s.modQuad q f).mrBusy = s.mrBusy := rfl
@[simp] theorem modQuad_kdBusy (q : Nat) (f : Quad → Quad) : (s.modQuad q f).kdBusy = s.kdBusy := rfl
@[simp] theorem modQuad_draws (q : Nat) (f : Quad → Quad) : (s.modQuad q f).draws = s.draws := rfl
@[simp] theorem modQuad_spdm (q : Nat) (f : Quad → Quad) : (s.modQuad q f).spdm = s.spdm := rfl
@[simp] theorem modQuad_msix (q : Nat) (f : Quad → Quad) : (s.modQuad q f).msix = s.msix := rfl
@[simp] theorem modQuad_pod (q : Nat) (f : Quad → Quad) : (s.modQuad q f).pod = s.pod := rfl
@[simp] theorem modQuad_podSize (q : Nat) (f : Quad → Quad) : (s.modQuad q f).podSize = s.podSize := rfl
@[simp] theorem modQuad_pkg (q : Nat) (f : Quad → Quad) : (s.modQuad q f).pkg = s.pkg := rfl
@[simp] theorem modQuad_podInputs (q : Nat) (f : Quad → Quad) : (s.modQuad q f).podInputs = s.podInputs := rfl
@[simp] theorem modQuad_powered (q : Nat) (f : Quad → Quad) : (s.modQuad q f).powered = s.powered := rfl
@[simp] theorem modQuad_agenda (q : Nat) (f : Quad → Quad) : (s.modQuad q f).agenda = s.agenda := rfl
@[simp] theorem modQuad_todo (q : Nat) (f : Quad → Quad) : (s.modQuad q f).todo = s.todo := rfl
@[simp] theorem modQuad_inputs (q : Nat) (f : Quad → Quad) : (s.modQuad q f).inputs = s.inputs := rfl
@[simp] theorem modQuad_cur (q : Nat) (f : Quad → Quad) : (s.modQuad q f).cur = s.cur := rfl
@[simp] theorem modQuad_hart (q : Nat) (f : Quad → Quad) : (s.modQuad q f).hart = s.hart := rfl

/-! ### modLink -/

@[simp] theorem modLink_cycle (n : Nat) (f : Link → Link) : (s.modLink n f).cycle = s.cycle := rfl
@[simp] theorem modLink_thr (n : Nat) (f : Link → Link) : (s.modLink n f).thr = s.thr := rfl
@[simp] theorem modLink_cores (n : Nat) (f : Link → Link) : (s.modLink n f).cores = s.cores := rfl
@[simp] theorem modLink_harts (n : Nat) (f : Link → Link) : (s.modLink n f).harts = s.harts := rfl
@[simp] theorem modLink_quads (n : Nat) (f : Link → Link) : (s.modLink n f).quads = s.quads := rfl
@[simp] theorem modLink_lm (n : Nat) (f : Link → Link) : (s.modLink n f).lm = s.lm := rfl
@[simp] theorem modLink_lmWas (n : Nat) (f : Link → Link) : (s.modLink n f).lmWas = s.lmWas := rfl
@[simp] theorem modLink_lmPoison (n : Nat) (f : Link → Link) : (s.modLink n f).lmPoison = s.lmPoison := rfl
@[simp] theorem modLink_canPoison (n : Nat) (f : Link → Link) : (s.modLink n f).canPoison = s.canPoison := rfl
@[simp] theorem modLink_canopy (n : Nat) (f : Link → Link) : (s.modLink n f).canopy = s.canopy := rfl
@[simp] theorem modLink_acc (n : Nat) (f : Link → Link) : (s.modLink n f).acc = s.acc := rfl
@[simp] theorem modLink_mem (n : Nat) (f : Link → Link) : (s.modLink n f).mem = s.mem := rfl
@[simp] theorem modLink_stack (n : Nat) (f : Link → Link) : (s.modLink n f).stack = s.stack := rfl
@[simp] theorem modLink_bitmap (n : Nat) (f : Link → Link) : (s.modLink n f).bitmap = s.bitmap := rfl
@[simp] theorem modLink_bmHeld (n : Nat) (f : Link → Link) : (s.modLink n f).bmHeld = s.bmHeld := rfl
@[simp] theorem modLink_badLines (n : Nat) (f : Link → Link) : (s.modLink n f).badLines = s.badLines := rfl
@[simp] theorem modLink_lost (n : Nat) (f : Link → Link) : (s.modLink n f).lost = s.lost := rfl
@[simp] theorem modLink_l2 (n : Nat) (f : Link → Link) : (s.modLink n f).l2 = s.l2 := rfl
@[simp] theorem modLink_l2tree (n : Nat) (f : Link → Link) : (s.modLink n f).l2tree = s.l2tree := rfl
@[simp] theorem modLink_mlc (n : Nat) (f : Link → Link) : (s.modLink n f).mlc = s.mlc := rfl
@[simp] theorem modLink_mlcFill (n : Nat) (f : Link → Link) : (s.modLink n f).mlcFill = s.mlcFill := rfl
@[simp] theorem modLink_mlcWays (n : Nat) (f : Link → Link) : (s.modLink n f).mlcWays = s.mlcWays := rfl
@[simp] theorem modLink_tcache (n : Nat) (f : Link → Link) : (s.modLink n f).tcache = s.tcache := rfl
@[simp] theorem modLink_sliceOut (n : Nat) (f : Link → Link) : (s.modLink n f).sliceOut = s.sliceOut := rfl
@[simp] theorem modLink_cmds (n : Nat) (f : Link → Link) : (s.modLink n f).cmds = s.cmds := rfl
@[simp] theorem modLink_sq (n : Nat) (f : Link → Link) : (s.modLink n f).sq = s.sq := rfl
@[simp] theorem modLink_grains (n : Nat) (f : Link → Link) : (s.modLink n f).grains = s.grains := rfl
@[simp] theorem modLink_incrs (n : Nat) (f : Link → Link) : (s.modLink n f).incrs = s.incrs := rfl
@[simp] theorem modLink_barEvs (n : Nat) (f : Link → Link) : (s.modLink n f).barEvs = s.barEvs := rfl
@[simp] theorem modLink_fills (n : Nat) (f : Link → Link) : (s.modLink n f).fills = s.fills := rfl
@[simp] theorem modLink_ringMsgs (n : Nat) (f : Link → Link) : (s.modLink n f).ringMsgs = s.ringMsgs := rfl
@[simp] theorem modLink_sups (n : Nat) (f : Link → Link) : (s.modLink n f).sups = s.sups := rfl
@[simp] theorem modLink_bars (n : Nat) (f : Link → Link) : (s.modLink n f).bars = s.bars := rfl
@[simp] theorem modLink_fresh (n : Nat) (f : Link → Link) : (s.modLink n f).fresh = s.fresh := rfl
@[simp] theorem modLink_regs (n : Nat) (f : Link → Link) : (s.modLink n f).regs = s.regs := rfl
@[simp] theorem modLink_lqs (n : Nat) (f : Link → Link) : (s.modLink n f).lqs = s.lqs := rfl
@[simp] theorem modLink_rr (n : Nat) (f : Link → Link) : (s.modLink n f).rr = s.rr := rfl
@[simp] theorem modLink_launches (n : Nat) (f : Link → Link) : (s.modLink n f).launches = s.launches := rfl
@[simp] theorem modLink_nextLid (n : Nat) (f : Link → Link) : (s.modLink n f).nextLid = s.nextLid := rfl
@[simp] theorem modLink_images (n : Nat) (f : Link → Link) : (s.modLink n f).images = s.images := rfl
@[simp] theorem modLink_keys (n : Nat) (f : Link → Link) : (s.modLink n f).keys = s.keys := rfl
@[simp] theorem modLink_wroteBack (n : Nat) (f : Link → Link) : (s.modLink n f).wroteBack = s.wroteBack := rfl
@[simp] theorem modLink_fences (n : Nat) (f : Link → Link) : (s.modLink n f).fences = s.fences := rfl
@[simp] theorem modLink_erased (n : Nat) (f : Link → Link) : (s.modLink n f).erased = s.erased := rfl
@[simp] theorem modLink_halted (n : Nat) (f : Link → Link) : (s.modLink n f).halted = s.halted := rfl
@[simp] theorem modLink_puf (n : Nat) (f : Link → Link) : (s.modLink n f).puf = s.puf := rfl
@[simp] theorem modLink_merge (n : Nat) (f : Link → Link) : (s.modLink n f).merge = s.merge := rfl
@[simp] theorem modLink_smOver (n : Nat) (f : Link → Link) : (s.modLink n f).smOver = s.smOver := rfl
@[simp] theorem modLink_sramCnt (n : Nat) (f : Link → Link) : (s.modLink n f).sramCnt = s.sramCnt := rfl
@[simp] theorem modLink_l2gate (n : Nat) (f : Link → Link) : (s.modLink n f).l2gate = s.l2gate := rfl
@[simp] theorem modLink_mlcgate (n : Nat) (f : Link → Link) : (s.modLink n f).mlcgate = s.mlcgate := rfl
@[simp] theorem modLink_gateBusy (n : Nat) (f : Link → Link) : (s.modLink n f).gateBusy = s.gateBusy := rfl
@[simp] theorem modLink_grade (n : Nat) (f : Link → Link) : (s.modLink n f).grade = s.grade := rfl
@[simp] theorem modLink_groupOver (n : Nat) (f : Link → Link) : (s.modLink n f).groupOver = s.groupOver := rfl
@[simp] theorem modLink_unmap (n : Nat) (f : Link → Link) : (s.modLink n f).unmap = s.unmap := rfl
@[simp] theorem modLink_vqmap (n : Nat) (f : Link → Link) : (s.modLink n f).vqmap = s.vqmap := rfl
@[simp] theorem modLink_badGroups (n : Nat) (f : Link → Link) : (s.modLink n f).badGroups = s.badGroups := rfl
@[simp] theorem modLink_vsmap (n : Nat) (f : Link → Link) : (s.modLink n f).vsmap = s.vsmap := rfl
@[simp] theorem modLink_bankMap (n : Nat) (f : Link → Link) : (s.modLink n f).bankMap = s.bankMap := rfl
@[simp] theorem modLink_rowRepairs (n : Nat) (f : Link → Link) : (s.modLink n f).rowRepairs = s.rowRepairs := rfl
@[simp] theorem modLink_trims (n : Nat) (f : Link → Link) : (s.modLink n f).trims = s.trims := rfl
@[simp] theorem modLink_bankOut (n : Nat) (f : Link → Link) : (s.modLink n f).bankOut = s.bankOut := rfl
@[simp] theorem modLink_failed (n : Nat) (f : Link → Link) : (s.modLink n f).failed = s.failed := rfl
@[simp] theorem modLink_lcnt (n : Nat) (f : Link → Link) : (s.modLink n f).lcnt = s.lcnt := rfl
@[simp] theorem modLink_lcBusy (n : Nat) (f : Link → Link) : (s.modLink n f).lcBusy = s.lcBusy := rfl
@[simp] theorem modLink_accts (n : Nat) (f : Link → Link) : (s.modLink n f).accts = s.accts := rfl
@[simp] theorem modLink_energy (n : Nat) (f : Link → Link) : (s.modLink n f).energy = s.energy := rfl
@[simp] theorem modLink_sram (n : Nat) (f : Link → Link) : (s.modLink n f).sram = s.sram := rfl
@[simp] theorem modLink_reqbuf (n : Nat) (f : Link → Link) : (s.modLink n f).reqbuf = s.reqbuf := rfl
@[simp] theorem modLink_rspbuf (n : Nat) (f : Link → Link) : (s.modLink n f).rspbuf = s.rspbuf := rfl
@[simp] theorem modLink_flash (n : Nat) (f : Link → Link) : (s.modLink n f).flash = s.flash := rfl
@[simp] theorem modLink_flashErr (n : Nat) (f : Link → Link) : (s.modLink n f).flashErr = s.flashErr := rfl
@[simp] theorem modLink_hostMem (n : Nat) (f : Link → Link) : (s.modLink n f).hostMem = s.hostMem := rfl
@[simp] theorem modLink_mr (n : Nat) (f : Link → Link) : (s.modLink n f).mr = s.mr := rfl
@[simp] theorem modLink_mrNext (n : Nat) (f : Link → Link) : (s.modLink n f).mrNext = s.mrNext := rfl
@[simp] theorem modLink_devKey (n : Nat) (f : Link → Link) : (s.modLink n f).devKey = s.devKey := rfl
@[simp] theorem modLink_hash (n : Nat) (f : Link → Link) : (s.modLink n f).hash = s.hash := rfl
@[simp] theorem modLink_ceBusy (n : Nat) (f : Link → Link) : (s.modLink n f).ceBusy = s.ceBusy := rfl
@[simp] theorem modLink_bpBusy (n : Nat) (f : Link → Link) : (s.modLink n f).bpBusy = s.bpBusy := rfl
@[simp] theorem modLink_mrBusy (n : Nat) (f : Link → Link) : (s.modLink n f).mrBusy = s.mrBusy := rfl
@[simp] theorem modLink_kdBusy (n : Nat) (f : Link → Link) : (s.modLink n f).kdBusy = s.kdBusy := rfl
@[simp] theorem modLink_draws (n : Nat) (f : Link → Link) : (s.modLink n f).draws = s.draws := rfl
@[simp] theorem modLink_spdm (n : Nat) (f : Link → Link) : (s.modLink n f).spdm = s.spdm := rfl
@[simp] theorem modLink_msix (n : Nat) (f : Link → Link) : (s.modLink n f).msix = s.msix := rfl
@[simp] theorem modLink_pod (n : Nat) (f : Link → Link) : (s.modLink n f).pod = s.pod := rfl
@[simp] theorem modLink_podSize (n : Nat) (f : Link → Link) : (s.modLink n f).podSize = s.podSize := rfl
@[simp] theorem modLink_pkg (n : Nat) (f : Link → Link) : (s.modLink n f).pkg = s.pkg := rfl
@[simp] theorem modLink_podInputs (n : Nat) (f : Link → Link) : (s.modLink n f).podInputs = s.podInputs := rfl
@[simp] theorem modLink_powered (n : Nat) (f : Link → Link) : (s.modLink n f).powered = s.powered := rfl
@[simp] theorem modLink_agenda (n : Nat) (f : Link → Link) : (s.modLink n f).agenda = s.agenda := rfl
@[simp] theorem modLink_todo (n : Nat) (f : Link → Link) : (s.modLink n f).todo = s.todo := rfl
@[simp] theorem modLink_inputs (n : Nat) (f : Link → Link) : (s.modLink n f).inputs = s.inputs := rfl
@[simp] theorem modLink_cur (n : Nat) (f : Link → Link) : (s.modLink n f).cur = s.cur := rfl
@[simp] theorem modLink_hart (n : Nat) (f : Link → Link) : (s.modLink n f).hart = s.hart := rfl

/-! ### enqueue -/

@[simp] theorem enqueue_cycle (i : Instr) : (s.enqueue i).cycle = s.cycle := rfl
@[simp] theorem enqueue_thr (i : Instr) : (s.enqueue i).thr = s.thr := rfl
@[simp] theorem enqueue_cores (i : Instr) : (s.enqueue i).cores = s.cores := rfl
@[simp] theorem enqueue_harts (i : Instr) : (s.enqueue i).harts = s.harts := rfl
@[simp] theorem enqueue_quads (i : Instr) : (s.enqueue i).quads = s.quads := rfl
@[simp] theorem enqueue_lm (i : Instr) : (s.enqueue i).lm = s.lm := rfl
@[simp] theorem enqueue_lmWas (i : Instr) : (s.enqueue i).lmWas = s.lmWas := rfl
@[simp] theorem enqueue_lmPoison (i : Instr) : (s.enqueue i).lmPoison = s.lmPoison := rfl
@[simp] theorem enqueue_canPoison (i : Instr) : (s.enqueue i).canPoison = s.canPoison := rfl
@[simp] theorem enqueue_canopy (i : Instr) : (s.enqueue i).canopy = s.canopy := rfl
@[simp] theorem enqueue_acc (i : Instr) : (s.enqueue i).acc = s.acc := rfl
@[simp] theorem enqueue_mem (i : Instr) : (s.enqueue i).mem = s.mem := rfl
@[simp] theorem enqueue_stack (i : Instr) : (s.enqueue i).stack = s.stack := rfl
@[simp] theorem enqueue_bitmap (i : Instr) : (s.enqueue i).bitmap = s.bitmap := rfl
@[simp] theorem enqueue_bmHeld (i : Instr) : (s.enqueue i).bmHeld = s.bmHeld := rfl
@[simp] theorem enqueue_badLines (i : Instr) : (s.enqueue i).badLines = s.badLines := rfl
@[simp] theorem enqueue_lost (i : Instr) : (s.enqueue i).lost = s.lost := rfl
@[simp] theorem enqueue_l2 (i : Instr) : (s.enqueue i).l2 = s.l2 := rfl
@[simp] theorem enqueue_l2tree (i : Instr) : (s.enqueue i).l2tree = s.l2tree := rfl
@[simp] theorem enqueue_mlc (i : Instr) : (s.enqueue i).mlc = s.mlc := rfl
@[simp] theorem enqueue_mlcFill (i : Instr) : (s.enqueue i).mlcFill = s.mlcFill := rfl
@[simp] theorem enqueue_mlcWays (i : Instr) : (s.enqueue i).mlcWays = s.mlcWays := rfl
@[simp] theorem enqueue_tcache (i : Instr) : (s.enqueue i).tcache = s.tcache := rfl
@[simp] theorem enqueue_sliceOut (i : Instr) : (s.enqueue i).sliceOut = s.sliceOut := rfl
@[simp] theorem enqueue_cmds (i : Instr) : (s.enqueue i).cmds = s.cmds := rfl
@[simp] theorem enqueue_sq (i : Instr) : (s.enqueue i).sq = s.sq := rfl
@[simp] theorem enqueue_grains (i : Instr) : (s.enqueue i).grains = s.grains := rfl
@[simp] theorem enqueue_incrs (i : Instr) : (s.enqueue i).incrs = s.incrs := rfl
@[simp] theorem enqueue_barEvs (i : Instr) : (s.enqueue i).barEvs = s.barEvs := rfl
@[simp] theorem enqueue_fills (i : Instr) : (s.enqueue i).fills = s.fills := rfl
@[simp] theorem enqueue_ringMsgs (i : Instr) : (s.enqueue i).ringMsgs = s.ringMsgs := rfl
@[simp] theorem enqueue_sups (i : Instr) : (s.enqueue i).sups = s.sups := rfl
@[simp] theorem enqueue_bars (i : Instr) : (s.enqueue i).bars = s.bars := rfl
@[simp] theorem enqueue_fresh (i : Instr) : (s.enqueue i).fresh = s.fresh := rfl
@[simp] theorem enqueue_regs (i : Instr) : (s.enqueue i).regs = s.regs := rfl
@[simp] theorem enqueue_lqs (i : Instr) : (s.enqueue i).lqs = s.lqs := rfl
@[simp] theorem enqueue_rr (i : Instr) : (s.enqueue i).rr = s.rr := rfl
@[simp] theorem enqueue_launches (i : Instr) : (s.enqueue i).launches = s.launches := rfl
@[simp] theorem enqueue_nextLid (i : Instr) : (s.enqueue i).nextLid = s.nextLid := rfl
@[simp] theorem enqueue_images (i : Instr) : (s.enqueue i).images = s.images := rfl
@[simp] theorem enqueue_keys (i : Instr) : (s.enqueue i).keys = s.keys := rfl
@[simp] theorem enqueue_wroteBack (i : Instr) : (s.enqueue i).wroteBack = s.wroteBack := rfl
@[simp] theorem enqueue_fences (i : Instr) : (s.enqueue i).fences = s.fences := rfl
@[simp] theorem enqueue_erased (i : Instr) : (s.enqueue i).erased = s.erased := rfl
@[simp] theorem enqueue_halted (i : Instr) : (s.enqueue i).halted = s.halted := rfl
@[simp] theorem enqueue_puf (i : Instr) : (s.enqueue i).puf = s.puf := rfl
@[simp] theorem enqueue_links (i : Instr) : (s.enqueue i).links = s.links := rfl
@[simp] theorem enqueue_merge (i : Instr) : (s.enqueue i).merge = s.merge := rfl
@[simp] theorem enqueue_smOver (i : Instr) : (s.enqueue i).smOver = s.smOver := rfl
@[simp] theorem enqueue_sramCnt (i : Instr) : (s.enqueue i).sramCnt = s.sramCnt := rfl
@[simp] theorem enqueue_l2gate (i : Instr) : (s.enqueue i).l2gate = s.l2gate := rfl
@[simp] theorem enqueue_mlcgate (i : Instr) : (s.enqueue i).mlcgate = s.mlcgate := rfl
@[simp] theorem enqueue_gateBusy (i : Instr) : (s.enqueue i).gateBusy = s.gateBusy := rfl
@[simp] theorem enqueue_grade (i : Instr) : (s.enqueue i).grade = s.grade := rfl
@[simp] theorem enqueue_groupOver (i : Instr) : (s.enqueue i).groupOver = s.groupOver := rfl
@[simp] theorem enqueue_unmap (i : Instr) : (s.enqueue i).unmap = s.unmap := rfl
@[simp] theorem enqueue_vqmap (i : Instr) : (s.enqueue i).vqmap = s.vqmap := rfl
@[simp] theorem enqueue_badGroups (i : Instr) : (s.enqueue i).badGroups = s.badGroups := rfl
@[simp] theorem enqueue_vsmap (i : Instr) : (s.enqueue i).vsmap = s.vsmap := rfl
@[simp] theorem enqueue_bankMap (i : Instr) : (s.enqueue i).bankMap = s.bankMap := rfl
@[simp] theorem enqueue_rowRepairs (i : Instr) : (s.enqueue i).rowRepairs = s.rowRepairs := rfl
@[simp] theorem enqueue_trims (i : Instr) : (s.enqueue i).trims = s.trims := rfl
@[simp] theorem enqueue_bankOut (i : Instr) : (s.enqueue i).bankOut = s.bankOut := rfl
@[simp] theorem enqueue_failed (i : Instr) : (s.enqueue i).failed = s.failed := rfl
@[simp] theorem enqueue_lcnt (i : Instr) : (s.enqueue i).lcnt = s.lcnt := rfl
@[simp] theorem enqueue_lcBusy (i : Instr) : (s.enqueue i).lcBusy = s.lcBusy := rfl
@[simp] theorem enqueue_accts (i : Instr) : (s.enqueue i).accts = s.accts := rfl
@[simp] theorem enqueue_energy (i : Instr) : (s.enqueue i).energy = s.energy := rfl
@[simp] theorem enqueue_sram (i : Instr) : (s.enqueue i).sram = s.sram := rfl
@[simp] theorem enqueue_reqbuf (i : Instr) : (s.enqueue i).reqbuf = s.reqbuf := rfl
@[simp] theorem enqueue_rspbuf (i : Instr) : (s.enqueue i).rspbuf = s.rspbuf := rfl
@[simp] theorem enqueue_flash (i : Instr) : (s.enqueue i).flash = s.flash := rfl
@[simp] theorem enqueue_flashErr (i : Instr) : (s.enqueue i).flashErr = s.flashErr := rfl
@[simp] theorem enqueue_hostMem (i : Instr) : (s.enqueue i).hostMem = s.hostMem := rfl
@[simp] theorem enqueue_mr (i : Instr) : (s.enqueue i).mr = s.mr := rfl
@[simp] theorem enqueue_mrNext (i : Instr) : (s.enqueue i).mrNext = s.mrNext := rfl
@[simp] theorem enqueue_devKey (i : Instr) : (s.enqueue i).devKey = s.devKey := rfl
@[simp] theorem enqueue_hash (i : Instr) : (s.enqueue i).hash = s.hash := rfl
@[simp] theorem enqueue_ceBusy (i : Instr) : (s.enqueue i).ceBusy = s.ceBusy := rfl
@[simp] theorem enqueue_bpBusy (i : Instr) : (s.enqueue i).bpBusy = s.bpBusy := rfl
@[simp] theorem enqueue_mrBusy (i : Instr) : (s.enqueue i).mrBusy = s.mrBusy := rfl
@[simp] theorem enqueue_kdBusy (i : Instr) : (s.enqueue i).kdBusy = s.kdBusy := rfl
@[simp] theorem enqueue_draws (i : Instr) : (s.enqueue i).draws = s.draws := rfl
@[simp] theorem enqueue_spdm (i : Instr) : (s.enqueue i).spdm = s.spdm := rfl
@[simp] theorem enqueue_msix (i : Instr) : (s.enqueue i).msix = s.msix := rfl
@[simp] theorem enqueue_pod (i : Instr) : (s.enqueue i).pod = s.pod := rfl
@[simp] theorem enqueue_podSize (i : Instr) : (s.enqueue i).podSize = s.podSize := rfl
@[simp] theorem enqueue_pkg (i : Instr) : (s.enqueue i).pkg = s.pkg := rfl
@[simp] theorem enqueue_podInputs (i : Instr) : (s.enqueue i).podInputs = s.podInputs := rfl
@[simp] theorem enqueue_powered (i : Instr) : (s.enqueue i).powered = s.powered := rfl
@[simp] theorem enqueue_todo (i : Instr) : (s.enqueue i).todo = s.todo := rfl
@[simp] theorem enqueue_inputs (i : Instr) : (s.enqueue i).inputs = s.inputs := rfl
@[simp] theorem enqueue_cur (i : Instr) : (s.enqueue i).cur = s.cur := rfl
@[simp] theorem enqueue_hart (i : Instr) : (s.enqueue i).hart = s.hart := rfl

/-! ### setReg -/

@[simp] theorem setReg_cycle (a : Nat) (v : Word) : (s.setReg a v).cycle = s.cycle := rfl
@[simp] theorem setReg_thr (a : Nat) (v : Word) : (s.setReg a v).thr = s.thr := rfl
@[simp] theorem setReg_cores (a : Nat) (v : Word) : (s.setReg a v).cores = s.cores := rfl
@[simp] theorem setReg_harts (a : Nat) (v : Word) : (s.setReg a v).harts = s.harts := rfl
@[simp] theorem setReg_quads (a : Nat) (v : Word) : (s.setReg a v).quads = s.quads := rfl
@[simp] theorem setReg_lm (a : Nat) (v : Word) : (s.setReg a v).lm = s.lm := rfl
@[simp] theorem setReg_lmWas (a : Nat) (v : Word) : (s.setReg a v).lmWas = s.lmWas := rfl
@[simp] theorem setReg_lmPoison (a : Nat) (v : Word) : (s.setReg a v).lmPoison = s.lmPoison := rfl
@[simp] theorem setReg_canPoison (a : Nat) (v : Word) : (s.setReg a v).canPoison = s.canPoison := rfl
@[simp] theorem setReg_canopy (a : Nat) (v : Word) : (s.setReg a v).canopy = s.canopy := rfl
@[simp] theorem setReg_acc (a : Nat) (v : Word) : (s.setReg a v).acc = s.acc := rfl
@[simp] theorem setReg_mem (a : Nat) (v : Word) : (s.setReg a v).mem = s.mem := rfl
@[simp] theorem setReg_stack (a : Nat) (v : Word) : (s.setReg a v).stack = s.stack := rfl
@[simp] theorem setReg_bitmap (a : Nat) (v : Word) : (s.setReg a v).bitmap = s.bitmap := rfl
@[simp] theorem setReg_bmHeld (a : Nat) (v : Word) : (s.setReg a v).bmHeld = s.bmHeld := rfl
@[simp] theorem setReg_badLines (a : Nat) (v : Word) : (s.setReg a v).badLines = s.badLines := rfl
@[simp] theorem setReg_lost (a : Nat) (v : Word) : (s.setReg a v).lost = s.lost := rfl
@[simp] theorem setReg_l2 (a : Nat) (v : Word) : (s.setReg a v).l2 = s.l2 := rfl
@[simp] theorem setReg_l2tree (a : Nat) (v : Word) : (s.setReg a v).l2tree = s.l2tree := rfl
@[simp] theorem setReg_mlc (a : Nat) (v : Word) : (s.setReg a v).mlc = s.mlc := rfl
@[simp] theorem setReg_mlcFill (a : Nat) (v : Word) : (s.setReg a v).mlcFill = s.mlcFill := rfl
@[simp] theorem setReg_mlcWays (a : Nat) (v : Word) : (s.setReg a v).mlcWays = s.mlcWays := rfl
@[simp] theorem setReg_tcache (a : Nat) (v : Word) : (s.setReg a v).tcache = s.tcache := rfl
@[simp] theorem setReg_sliceOut (a : Nat) (v : Word) : (s.setReg a v).sliceOut = s.sliceOut := rfl
@[simp] theorem setReg_cmds (a : Nat) (v : Word) : (s.setReg a v).cmds = s.cmds := rfl
@[simp] theorem setReg_sq (a : Nat) (v : Word) : (s.setReg a v).sq = s.sq := rfl
@[simp] theorem setReg_grains (a : Nat) (v : Word) : (s.setReg a v).grains = s.grains := rfl
@[simp] theorem setReg_incrs (a : Nat) (v : Word) : (s.setReg a v).incrs = s.incrs := rfl
@[simp] theorem setReg_barEvs (a : Nat) (v : Word) : (s.setReg a v).barEvs = s.barEvs := rfl
@[simp] theorem setReg_fills (a : Nat) (v : Word) : (s.setReg a v).fills = s.fills := rfl
@[simp] theorem setReg_ringMsgs (a : Nat) (v : Word) : (s.setReg a v).ringMsgs = s.ringMsgs := rfl
@[simp] theorem setReg_sups (a : Nat) (v : Word) : (s.setReg a v).sups = s.sups := rfl
@[simp] theorem setReg_bars (a : Nat) (v : Word) : (s.setReg a v).bars = s.bars := rfl
@[simp] theorem setReg_fresh (a : Nat) (v : Word) : (s.setReg a v).fresh = s.fresh := rfl
@[simp] theorem setReg_lqs (a : Nat) (v : Word) : (s.setReg a v).lqs = s.lqs := rfl
@[simp] theorem setReg_rr (a : Nat) (v : Word) : (s.setReg a v).rr = s.rr := rfl
@[simp] theorem setReg_launches (a : Nat) (v : Word) : (s.setReg a v).launches = s.launches := rfl
@[simp] theorem setReg_nextLid (a : Nat) (v : Word) : (s.setReg a v).nextLid = s.nextLid := rfl
@[simp] theorem setReg_images (a : Nat) (v : Word) : (s.setReg a v).images = s.images := rfl
@[simp] theorem setReg_keys (a : Nat) (v : Word) : (s.setReg a v).keys = s.keys := rfl
@[simp] theorem setReg_wroteBack (a : Nat) (v : Word) : (s.setReg a v).wroteBack = s.wroteBack := rfl
@[simp] theorem setReg_fences (a : Nat) (v : Word) : (s.setReg a v).fences = s.fences := rfl
@[simp] theorem setReg_erased (a : Nat) (v : Word) : (s.setReg a v).erased = s.erased := rfl
@[simp] theorem setReg_halted (a : Nat) (v : Word) : (s.setReg a v).halted = s.halted := rfl
@[simp] theorem setReg_puf (a : Nat) (v : Word) : (s.setReg a v).puf = s.puf := rfl
@[simp] theorem setReg_links (a : Nat) (v : Word) : (s.setReg a v).links = s.links := rfl
@[simp] theorem setReg_merge (a : Nat) (v : Word) : (s.setReg a v).merge = s.merge := rfl
@[simp] theorem setReg_smOver (a : Nat) (v : Word) : (s.setReg a v).smOver = s.smOver := rfl
@[simp] theorem setReg_sramCnt (a : Nat) (v : Word) : (s.setReg a v).sramCnt = s.sramCnt := rfl
@[simp] theorem setReg_l2gate (a : Nat) (v : Word) : (s.setReg a v).l2gate = s.l2gate := rfl
@[simp] theorem setReg_mlcgate (a : Nat) (v : Word) : (s.setReg a v).mlcgate = s.mlcgate := rfl
@[simp] theorem setReg_gateBusy (a : Nat) (v : Word) : (s.setReg a v).gateBusy = s.gateBusy := rfl
@[simp] theorem setReg_grade (a : Nat) (v : Word) : (s.setReg a v).grade = s.grade := rfl
@[simp] theorem setReg_groupOver (a : Nat) (v : Word) : (s.setReg a v).groupOver = s.groupOver := rfl
@[simp] theorem setReg_unmap (a : Nat) (v : Word) : (s.setReg a v).unmap = s.unmap := rfl
@[simp] theorem setReg_vqmap (a : Nat) (v : Word) : (s.setReg a v).vqmap = s.vqmap := rfl
@[simp] theorem setReg_badGroups (a : Nat) (v : Word) : (s.setReg a v).badGroups = s.badGroups := rfl
@[simp] theorem setReg_vsmap (a : Nat) (v : Word) : (s.setReg a v).vsmap = s.vsmap := rfl
@[simp] theorem setReg_bankMap (a : Nat) (v : Word) : (s.setReg a v).bankMap = s.bankMap := rfl
@[simp] theorem setReg_rowRepairs (a : Nat) (v : Word) : (s.setReg a v).rowRepairs = s.rowRepairs := rfl
@[simp] theorem setReg_trims (a : Nat) (v : Word) : (s.setReg a v).trims = s.trims := rfl
@[simp] theorem setReg_bankOut (a : Nat) (v : Word) : (s.setReg a v).bankOut = s.bankOut := rfl
@[simp] theorem setReg_failed (a : Nat) (v : Word) : (s.setReg a v).failed = s.failed := rfl
@[simp] theorem setReg_lcnt (a : Nat) (v : Word) : (s.setReg a v).lcnt = s.lcnt := rfl
@[simp] theorem setReg_lcBusy (a : Nat) (v : Word) : (s.setReg a v).lcBusy = s.lcBusy := rfl
@[simp] theorem setReg_accts (a : Nat) (v : Word) : (s.setReg a v).accts = s.accts := rfl
@[simp] theorem setReg_energy (a : Nat) (v : Word) : (s.setReg a v).energy = s.energy := rfl
@[simp] theorem setReg_sram (a : Nat) (v : Word) : (s.setReg a v).sram = s.sram := rfl
@[simp] theorem setReg_reqbuf (a : Nat) (v : Word) : (s.setReg a v).reqbuf = s.reqbuf := rfl
@[simp] theorem setReg_rspbuf (a : Nat) (v : Word) : (s.setReg a v).rspbuf = s.rspbuf := rfl
@[simp] theorem setReg_flash (a : Nat) (v : Word) : (s.setReg a v).flash = s.flash := rfl
@[simp] theorem setReg_flashErr (a : Nat) (v : Word) : (s.setReg a v).flashErr = s.flashErr := rfl
@[simp] theorem setReg_hostMem (a : Nat) (v : Word) : (s.setReg a v).hostMem = s.hostMem := rfl
@[simp] theorem setReg_mr (a : Nat) (v : Word) : (s.setReg a v).mr = s.mr := rfl
@[simp] theorem setReg_mrNext (a : Nat) (v : Word) : (s.setReg a v).mrNext = s.mrNext := rfl
@[simp] theorem setReg_devKey (a : Nat) (v : Word) : (s.setReg a v).devKey = s.devKey := rfl
@[simp] theorem setReg_hash (a : Nat) (v : Word) : (s.setReg a v).hash = s.hash := rfl
@[simp] theorem setReg_ceBusy (a : Nat) (v : Word) : (s.setReg a v).ceBusy = s.ceBusy := rfl
@[simp] theorem setReg_bpBusy (a : Nat) (v : Word) : (s.setReg a v).bpBusy = s.bpBusy := rfl
@[simp] theorem setReg_mrBusy (a : Nat) (v : Word) : (s.setReg a v).mrBusy = s.mrBusy := rfl
@[simp] theorem setReg_kdBusy (a : Nat) (v : Word) : (s.setReg a v).kdBusy = s.kdBusy := rfl
@[simp] theorem setReg_draws (a : Nat) (v : Word) : (s.setReg a v).draws = s.draws := rfl
@[simp] theorem setReg_spdm (a : Nat) (v : Word) : (s.setReg a v).spdm = s.spdm := rfl
@[simp] theorem setReg_msix (a : Nat) (v : Word) : (s.setReg a v).msix = s.msix := rfl
@[simp] theorem setReg_pod (a : Nat) (v : Word) : (s.setReg a v).pod = s.pod := rfl
@[simp] theorem setReg_podSize (a : Nat) (v : Word) : (s.setReg a v).podSize = s.podSize := rfl
@[simp] theorem setReg_pkg (a : Nat) (v : Word) : (s.setReg a v).pkg = s.pkg := rfl
@[simp] theorem setReg_podInputs (a : Nat) (v : Word) : (s.setReg a v).podInputs = s.podInputs := rfl
@[simp] theorem setReg_powered (a : Nat) (v : Word) : (s.setReg a v).powered = s.powered := rfl
@[simp] theorem setReg_agenda (a : Nat) (v : Word) : (s.setReg a v).agenda = s.agenda := rfl
@[simp] theorem setReg_todo (a : Nat) (v : Word) : (s.setReg a v).todo = s.todo := rfl
@[simp] theorem setReg_inputs (a : Nat) (v : Word) : (s.setReg a v).inputs = s.inputs := rfl
@[simp] theorem setReg_cur (a : Nat) (v : Word) : (s.setReg a v).cur = s.cur := rfl
@[simp] theorem setReg_hart (a : Nat) (v : Word) : (s.setReg a v).hart = s.hart := rfl

/-! ### setMreg -/

@[simp] theorem setMreg_cycle (o : Nat) (v : Word) : (s.setMreg o v).cycle = s.cycle := rfl
@[simp] theorem setMreg_thr (o : Nat) (v : Word) : (s.setMreg o v).thr = s.thr := rfl
@[simp] theorem setMreg_cores (o : Nat) (v : Word) : (s.setMreg o v).cores = s.cores := rfl
@[simp] theorem setMreg_harts (o : Nat) (v : Word) : (s.setMreg o v).harts = s.harts := rfl
@[simp] theorem setMreg_quads (o : Nat) (v : Word) : (s.setMreg o v).quads = s.quads := rfl
@[simp] theorem setMreg_lm (o : Nat) (v : Word) : (s.setMreg o v).lm = s.lm := rfl
@[simp] theorem setMreg_lmWas (o : Nat) (v : Word) : (s.setMreg o v).lmWas = s.lmWas := rfl
@[simp] theorem setMreg_lmPoison (o : Nat) (v : Word) : (s.setMreg o v).lmPoison = s.lmPoison := rfl
@[simp] theorem setMreg_canPoison (o : Nat) (v : Word) : (s.setMreg o v).canPoison = s.canPoison := rfl
@[simp] theorem setMreg_canopy (o : Nat) (v : Word) : (s.setMreg o v).canopy = s.canopy := rfl
@[simp] theorem setMreg_acc (o : Nat) (v : Word) : (s.setMreg o v).acc = s.acc := rfl
@[simp] theorem setMreg_mem (o : Nat) (v : Word) : (s.setMreg o v).mem = s.mem := rfl
@[simp] theorem setMreg_stack (o : Nat) (v : Word) : (s.setMreg o v).stack = s.stack := rfl
@[simp] theorem setMreg_bitmap (o : Nat) (v : Word) : (s.setMreg o v).bitmap = s.bitmap := rfl
@[simp] theorem setMreg_bmHeld (o : Nat) (v : Word) : (s.setMreg o v).bmHeld = s.bmHeld := rfl
@[simp] theorem setMreg_badLines (o : Nat) (v : Word) : (s.setMreg o v).badLines = s.badLines := rfl
@[simp] theorem setMreg_lost (o : Nat) (v : Word) : (s.setMreg o v).lost = s.lost := rfl
@[simp] theorem setMreg_l2 (o : Nat) (v : Word) : (s.setMreg o v).l2 = s.l2 := rfl
@[simp] theorem setMreg_l2tree (o : Nat) (v : Word) : (s.setMreg o v).l2tree = s.l2tree := rfl
@[simp] theorem setMreg_mlc (o : Nat) (v : Word) : (s.setMreg o v).mlc = s.mlc := rfl
@[simp] theorem setMreg_mlcFill (o : Nat) (v : Word) : (s.setMreg o v).mlcFill = s.mlcFill := rfl
@[simp] theorem setMreg_mlcWays (o : Nat) (v : Word) : (s.setMreg o v).mlcWays = s.mlcWays := rfl
@[simp] theorem setMreg_tcache (o : Nat) (v : Word) : (s.setMreg o v).tcache = s.tcache := rfl
@[simp] theorem setMreg_sliceOut (o : Nat) (v : Word) : (s.setMreg o v).sliceOut = s.sliceOut := rfl
@[simp] theorem setMreg_cmds (o : Nat) (v : Word) : (s.setMreg o v).cmds = s.cmds := rfl
@[simp] theorem setMreg_sq (o : Nat) (v : Word) : (s.setMreg o v).sq = s.sq := rfl
@[simp] theorem setMreg_grains (o : Nat) (v : Word) : (s.setMreg o v).grains = s.grains := rfl
@[simp] theorem setMreg_incrs (o : Nat) (v : Word) : (s.setMreg o v).incrs = s.incrs := rfl
@[simp] theorem setMreg_barEvs (o : Nat) (v : Word) : (s.setMreg o v).barEvs = s.barEvs := rfl
@[simp] theorem setMreg_fills (o : Nat) (v : Word) : (s.setMreg o v).fills = s.fills := rfl
@[simp] theorem setMreg_ringMsgs (o : Nat) (v : Word) : (s.setMreg o v).ringMsgs = s.ringMsgs := rfl
@[simp] theorem setMreg_sups (o : Nat) (v : Word) : (s.setMreg o v).sups = s.sups := rfl
@[simp] theorem setMreg_bars (o : Nat) (v : Word) : (s.setMreg o v).bars = s.bars := rfl
@[simp] theorem setMreg_fresh (o : Nat) (v : Word) : (s.setMreg o v).fresh = s.fresh := rfl
@[simp] theorem setMreg_lqs (o : Nat) (v : Word) : (s.setMreg o v).lqs = s.lqs := rfl
@[simp] theorem setMreg_rr (o : Nat) (v : Word) : (s.setMreg o v).rr = s.rr := rfl
@[simp] theorem setMreg_launches (o : Nat) (v : Word) : (s.setMreg o v).launches = s.launches := rfl
@[simp] theorem setMreg_nextLid (o : Nat) (v : Word) : (s.setMreg o v).nextLid = s.nextLid := rfl
@[simp] theorem setMreg_images (o : Nat) (v : Word) : (s.setMreg o v).images = s.images := rfl
@[simp] theorem setMreg_keys (o : Nat) (v : Word) : (s.setMreg o v).keys = s.keys := rfl
@[simp] theorem setMreg_wroteBack (o : Nat) (v : Word) : (s.setMreg o v).wroteBack = s.wroteBack := rfl
@[simp] theorem setMreg_fences (o : Nat) (v : Word) : (s.setMreg o v).fences = s.fences := rfl
@[simp] theorem setMreg_erased (o : Nat) (v : Word) : (s.setMreg o v).erased = s.erased := rfl
@[simp] theorem setMreg_halted (o : Nat) (v : Word) : (s.setMreg o v).halted = s.halted := rfl
@[simp] theorem setMreg_puf (o : Nat) (v : Word) : (s.setMreg o v).puf = s.puf := rfl
@[simp] theorem setMreg_links (o : Nat) (v : Word) : (s.setMreg o v).links = s.links := rfl
@[simp] theorem setMreg_merge (o : Nat) (v : Word) : (s.setMreg o v).merge = s.merge := rfl
@[simp] theorem setMreg_smOver (o : Nat) (v : Word) : (s.setMreg o v).smOver = s.smOver := rfl
@[simp] theorem setMreg_sramCnt (o : Nat) (v : Word) : (s.setMreg o v).sramCnt = s.sramCnt := rfl
@[simp] theorem setMreg_l2gate (o : Nat) (v : Word) : (s.setMreg o v).l2gate = s.l2gate := rfl
@[simp] theorem setMreg_mlcgate (o : Nat) (v : Word) : (s.setMreg o v).mlcgate = s.mlcgate := rfl
@[simp] theorem setMreg_gateBusy (o : Nat) (v : Word) : (s.setMreg o v).gateBusy = s.gateBusy := rfl
@[simp] theorem setMreg_grade (o : Nat) (v : Word) : (s.setMreg o v).grade = s.grade := rfl
@[simp] theorem setMreg_groupOver (o : Nat) (v : Word) : (s.setMreg o v).groupOver = s.groupOver := rfl
@[simp] theorem setMreg_unmap (o : Nat) (v : Word) : (s.setMreg o v).unmap = s.unmap := rfl
@[simp] theorem setMreg_vqmap (o : Nat) (v : Word) : (s.setMreg o v).vqmap = s.vqmap := rfl
@[simp] theorem setMreg_badGroups (o : Nat) (v : Word) : (s.setMreg o v).badGroups = s.badGroups := rfl
@[simp] theorem setMreg_vsmap (o : Nat) (v : Word) : (s.setMreg o v).vsmap = s.vsmap := rfl
@[simp] theorem setMreg_bankMap (o : Nat) (v : Word) : (s.setMreg o v).bankMap = s.bankMap := rfl
@[simp] theorem setMreg_rowRepairs (o : Nat) (v : Word) : (s.setMreg o v).rowRepairs = s.rowRepairs := rfl
@[simp] theorem setMreg_trims (o : Nat) (v : Word) : (s.setMreg o v).trims = s.trims := rfl
@[simp] theorem setMreg_bankOut (o : Nat) (v : Word) : (s.setMreg o v).bankOut = s.bankOut := rfl
@[simp] theorem setMreg_failed (o : Nat) (v : Word) : (s.setMreg o v).failed = s.failed := rfl
@[simp] theorem setMreg_lcnt (o : Nat) (v : Word) : (s.setMreg o v).lcnt = s.lcnt := rfl
@[simp] theorem setMreg_lcBusy (o : Nat) (v : Word) : (s.setMreg o v).lcBusy = s.lcBusy := rfl
@[simp] theorem setMreg_accts (o : Nat) (v : Word) : (s.setMreg o v).accts = s.accts := rfl
@[simp] theorem setMreg_energy (o : Nat) (v : Word) : (s.setMreg o v).energy = s.energy := rfl
@[simp] theorem setMreg_sram (o : Nat) (v : Word) : (s.setMreg o v).sram = s.sram := rfl
@[simp] theorem setMreg_reqbuf (o : Nat) (v : Word) : (s.setMreg o v).reqbuf = s.reqbuf := rfl
@[simp] theorem setMreg_rspbuf (o : Nat) (v : Word) : (s.setMreg o v).rspbuf = s.rspbuf := rfl
@[simp] theorem setMreg_flash (o : Nat) (v : Word) : (s.setMreg o v).flash = s.flash := rfl
@[simp] theorem setMreg_flashErr (o : Nat) (v : Word) : (s.setMreg o v).flashErr = s.flashErr := rfl
@[simp] theorem setMreg_hostMem (o : Nat) (v : Word) : (s.setMreg o v).hostMem = s.hostMem := rfl
@[simp] theorem setMreg_mr (o : Nat) (v : Word) : (s.setMreg o v).mr = s.mr := rfl
@[simp] theorem setMreg_mrNext (o : Nat) (v : Word) : (s.setMreg o v).mrNext = s.mrNext := rfl
@[simp] theorem setMreg_devKey (o : Nat) (v : Word) : (s.setMreg o v).devKey = s.devKey := rfl
@[simp] theorem setMreg_hash (o : Nat) (v : Word) : (s.setMreg o v).hash = s.hash := rfl
@[simp] theorem setMreg_ceBusy (o : Nat) (v : Word) : (s.setMreg o v).ceBusy = s.ceBusy := rfl
@[simp] theorem setMreg_bpBusy (o : Nat) (v : Word) : (s.setMreg o v).bpBusy = s.bpBusy := rfl
@[simp] theorem setMreg_mrBusy (o : Nat) (v : Word) : (s.setMreg o v).mrBusy = s.mrBusy := rfl
@[simp] theorem setMreg_kdBusy (o : Nat) (v : Word) : (s.setMreg o v).kdBusy = s.kdBusy := rfl
@[simp] theorem setMreg_draws (o : Nat) (v : Word) : (s.setMreg o v).draws = s.draws := rfl
@[simp] theorem setMreg_spdm (o : Nat) (v : Word) : (s.setMreg o v).spdm = s.spdm := rfl
@[simp] theorem setMreg_msix (o : Nat) (v : Word) : (s.setMreg o v).msix = s.msix := rfl
@[simp] theorem setMreg_pod (o : Nat) (v : Word) : (s.setMreg o v).pod = s.pod := rfl
@[simp] theorem setMreg_podSize (o : Nat) (v : Word) : (s.setMreg o v).podSize = s.podSize := rfl
@[simp] theorem setMreg_pkg (o : Nat) (v : Word) : (s.setMreg o v).pkg = s.pkg := rfl
@[simp] theorem setMreg_podInputs (o : Nat) (v : Word) : (s.setMreg o v).podInputs = s.podInputs := rfl
@[simp] theorem setMreg_powered (o : Nat) (v : Word) : (s.setMreg o v).powered = s.powered := rfl
@[simp] theorem setMreg_agenda (o : Nat) (v : Word) : (s.setMreg o v).agenda = s.agenda := rfl
@[simp] theorem setMreg_todo (o : Nat) (v : Word) : (s.setMreg o v).todo = s.todo := rfl
@[simp] theorem setMreg_inputs (o : Nat) (v : Word) : (s.setMreg o v).inputs = s.inputs := rfl
@[simp] theorem setMreg_cur (o : Nat) (v : Word) : (s.setMreg o v).cur = s.cur := rfl
@[simp] theorem setMreg_hart (o : Nat) (v : Word) : (s.setMreg o v).hart = s.hart := rfl

/-! ### lmWrite -/

@[simp] theorem lmWrite_cycle (q a n x : Nat) : (s.lmWrite q a n x).cycle = s.cycle := rfl
@[simp] theorem lmWrite_thr (q a n x : Nat) : (s.lmWrite q a n x).thr = s.thr := rfl
@[simp] theorem lmWrite_cores (q a n x : Nat) : (s.lmWrite q a n x).cores = s.cores := rfl
@[simp] theorem lmWrite_harts (q a n x : Nat) : (s.lmWrite q a n x).harts = s.harts := rfl
@[simp] theorem lmWrite_quads (q a n x : Nat) : (s.lmWrite q a n x).quads = s.quads := rfl
@[simp] theorem lmWrite_lmWas (q a n x : Nat) : (s.lmWrite q a n x).lmWas = s.lmWas := rfl
@[simp] theorem lmWrite_lmPoison (q a n x : Nat) : (s.lmWrite q a n x).lmPoison = s.lmPoison := rfl
@[simp] theorem lmWrite_canPoison (q a n x : Nat) : (s.lmWrite q a n x).canPoison = s.canPoison := rfl
@[simp] theorem lmWrite_canopy (q a n x : Nat) : (s.lmWrite q a n x).canopy = s.canopy := rfl
@[simp] theorem lmWrite_acc (q a n x : Nat) : (s.lmWrite q a n x).acc = s.acc := rfl
@[simp] theorem lmWrite_mem (q a n x : Nat) : (s.lmWrite q a n x).mem = s.mem := rfl
@[simp] theorem lmWrite_stack (q a n x : Nat) : (s.lmWrite q a n x).stack = s.stack := rfl
@[simp] theorem lmWrite_bitmap (q a n x : Nat) : (s.lmWrite q a n x).bitmap = s.bitmap := rfl
@[simp] theorem lmWrite_bmHeld (q a n x : Nat) : (s.lmWrite q a n x).bmHeld = s.bmHeld := rfl
@[simp] theorem lmWrite_badLines (q a n x : Nat) : (s.lmWrite q a n x).badLines = s.badLines := rfl
@[simp] theorem lmWrite_lost (q a n x : Nat) : (s.lmWrite q a n x).lost = s.lost := rfl
@[simp] theorem lmWrite_l2 (q a n x : Nat) : (s.lmWrite q a n x).l2 = s.l2 := rfl
@[simp] theorem lmWrite_l2tree (q a n x : Nat) : (s.lmWrite q a n x).l2tree = s.l2tree := rfl
@[simp] theorem lmWrite_mlc (q a n x : Nat) : (s.lmWrite q a n x).mlc = s.mlc := rfl
@[simp] theorem lmWrite_mlcFill (q a n x : Nat) : (s.lmWrite q a n x).mlcFill = s.mlcFill := rfl
@[simp] theorem lmWrite_mlcWays (q a n x : Nat) : (s.lmWrite q a n x).mlcWays = s.mlcWays := rfl
@[simp] theorem lmWrite_tcache (q a n x : Nat) : (s.lmWrite q a n x).tcache = s.tcache := rfl
@[simp] theorem lmWrite_sliceOut (q a n x : Nat) : (s.lmWrite q a n x).sliceOut = s.sliceOut := rfl
@[simp] theorem lmWrite_cmds (q a n x : Nat) : (s.lmWrite q a n x).cmds = s.cmds := rfl
@[simp] theorem lmWrite_sq (q a n x : Nat) : (s.lmWrite q a n x).sq = s.sq := rfl
@[simp] theorem lmWrite_grains (q a n x : Nat) : (s.lmWrite q a n x).grains = s.grains := rfl
@[simp] theorem lmWrite_incrs (q a n x : Nat) : (s.lmWrite q a n x).incrs = s.incrs := rfl
@[simp] theorem lmWrite_barEvs (q a n x : Nat) : (s.lmWrite q a n x).barEvs = s.barEvs := rfl
@[simp] theorem lmWrite_fills (q a n x : Nat) : (s.lmWrite q a n x).fills = s.fills := rfl
@[simp] theorem lmWrite_ringMsgs (q a n x : Nat) : (s.lmWrite q a n x).ringMsgs = s.ringMsgs := rfl
@[simp] theorem lmWrite_sups (q a n x : Nat) : (s.lmWrite q a n x).sups = s.sups := rfl
@[simp] theorem lmWrite_bars (q a n x : Nat) : (s.lmWrite q a n x).bars = s.bars := rfl
@[simp] theorem lmWrite_fresh (q a n x : Nat) : (s.lmWrite q a n x).fresh = s.fresh := rfl
@[simp] theorem lmWrite_regs (q a n x : Nat) : (s.lmWrite q a n x).regs = s.regs := rfl
@[simp] theorem lmWrite_lqs (q a n x : Nat) : (s.lmWrite q a n x).lqs = s.lqs := rfl
@[simp] theorem lmWrite_rr (q a n x : Nat) : (s.lmWrite q a n x).rr = s.rr := rfl
@[simp] theorem lmWrite_launches (q a n x : Nat) : (s.lmWrite q a n x).launches = s.launches := rfl
@[simp] theorem lmWrite_nextLid (q a n x : Nat) : (s.lmWrite q a n x).nextLid = s.nextLid := rfl
@[simp] theorem lmWrite_images (q a n x : Nat) : (s.lmWrite q a n x).images = s.images := rfl
@[simp] theorem lmWrite_keys (q a n x : Nat) : (s.lmWrite q a n x).keys = s.keys := rfl
@[simp] theorem lmWrite_wroteBack (q a n x : Nat) : (s.lmWrite q a n x).wroteBack = s.wroteBack := rfl
@[simp] theorem lmWrite_fences (q a n x : Nat) : (s.lmWrite q a n x).fences = s.fences := rfl
@[simp] theorem lmWrite_erased (q a n x : Nat) : (s.lmWrite q a n x).erased = s.erased := rfl
@[simp] theorem lmWrite_halted (q a n x : Nat) : (s.lmWrite q a n x).halted = s.halted := rfl
@[simp] theorem lmWrite_puf (q a n x : Nat) : (s.lmWrite q a n x).puf = s.puf := rfl
@[simp] theorem lmWrite_links (q a n x : Nat) : (s.lmWrite q a n x).links = s.links := rfl
@[simp] theorem lmWrite_merge (q a n x : Nat) : (s.lmWrite q a n x).merge = s.merge := rfl
@[simp] theorem lmWrite_smOver (q a n x : Nat) : (s.lmWrite q a n x).smOver = s.smOver := rfl
@[simp] theorem lmWrite_sramCnt (q a n x : Nat) : (s.lmWrite q a n x).sramCnt = s.sramCnt := rfl
@[simp] theorem lmWrite_l2gate (q a n x : Nat) : (s.lmWrite q a n x).l2gate = s.l2gate := rfl
@[simp] theorem lmWrite_mlcgate (q a n x : Nat) : (s.lmWrite q a n x).mlcgate = s.mlcgate := rfl
@[simp] theorem lmWrite_gateBusy (q a n x : Nat) : (s.lmWrite q a n x).gateBusy = s.gateBusy := rfl
@[simp] theorem lmWrite_grade (q a n x : Nat) : (s.lmWrite q a n x).grade = s.grade := rfl
@[simp] theorem lmWrite_groupOver (q a n x : Nat) : (s.lmWrite q a n x).groupOver = s.groupOver := rfl
@[simp] theorem lmWrite_unmap (q a n x : Nat) : (s.lmWrite q a n x).unmap = s.unmap := rfl
@[simp] theorem lmWrite_vqmap (q a n x : Nat) : (s.lmWrite q a n x).vqmap = s.vqmap := rfl
@[simp] theorem lmWrite_badGroups (q a n x : Nat) : (s.lmWrite q a n x).badGroups = s.badGroups := rfl
@[simp] theorem lmWrite_vsmap (q a n x : Nat) : (s.lmWrite q a n x).vsmap = s.vsmap := rfl
@[simp] theorem lmWrite_bankMap (q a n x : Nat) : (s.lmWrite q a n x).bankMap = s.bankMap := rfl
@[simp] theorem lmWrite_rowRepairs (q a n x : Nat) : (s.lmWrite q a n x).rowRepairs = s.rowRepairs := rfl
@[simp] theorem lmWrite_trims (q a n x : Nat) : (s.lmWrite q a n x).trims = s.trims := rfl
@[simp] theorem lmWrite_bankOut (q a n x : Nat) : (s.lmWrite q a n x).bankOut = s.bankOut := rfl
@[simp] theorem lmWrite_failed (q a n x : Nat) : (s.lmWrite q a n x).failed = s.failed := rfl
@[simp] theorem lmWrite_lcnt (q a n x : Nat) : (s.lmWrite q a n x).lcnt = s.lcnt := rfl
@[simp] theorem lmWrite_lcBusy (q a n x : Nat) : (s.lmWrite q a n x).lcBusy = s.lcBusy := rfl
@[simp] theorem lmWrite_accts (q a n x : Nat) : (s.lmWrite q a n x).accts = s.accts := rfl
@[simp] theorem lmWrite_energy (q a n x : Nat) : (s.lmWrite q a n x).energy = s.energy := rfl
@[simp] theorem lmWrite_sram (q a n x : Nat) : (s.lmWrite q a n x).sram = s.sram := rfl
@[simp] theorem lmWrite_reqbuf (q a n x : Nat) : (s.lmWrite q a n x).reqbuf = s.reqbuf := rfl
@[simp] theorem lmWrite_rspbuf (q a n x : Nat) : (s.lmWrite q a n x).rspbuf = s.rspbuf := rfl
@[simp] theorem lmWrite_flash (q a n x : Nat) : (s.lmWrite q a n x).flash = s.flash := rfl
@[simp] theorem lmWrite_flashErr (q a n x : Nat) : (s.lmWrite q a n x).flashErr = s.flashErr := rfl
@[simp] theorem lmWrite_hostMem (q a n x : Nat) : (s.lmWrite q a n x).hostMem = s.hostMem := rfl
@[simp] theorem lmWrite_mr (q a n x : Nat) : (s.lmWrite q a n x).mr = s.mr := rfl
@[simp] theorem lmWrite_mrNext (q a n x : Nat) : (s.lmWrite q a n x).mrNext = s.mrNext := rfl
@[simp] theorem lmWrite_devKey (q a n x : Nat) : (s.lmWrite q a n x).devKey = s.devKey := rfl
@[simp] theorem lmWrite_hash (q a n x : Nat) : (s.lmWrite q a n x).hash = s.hash := rfl
@[simp] theorem lmWrite_ceBusy (q a n x : Nat) : (s.lmWrite q a n x).ceBusy = s.ceBusy := rfl
@[simp] theorem lmWrite_bpBusy (q a n x : Nat) : (s.lmWrite q a n x).bpBusy = s.bpBusy := rfl
@[simp] theorem lmWrite_mrBusy (q a n x : Nat) : (s.lmWrite q a n x).mrBusy = s.mrBusy := rfl
@[simp] theorem lmWrite_kdBusy (q a n x : Nat) : (s.lmWrite q a n x).kdBusy = s.kdBusy := rfl
@[simp] theorem lmWrite_draws (q a n x : Nat) : (s.lmWrite q a n x).draws = s.draws := rfl
@[simp] theorem lmWrite_spdm (q a n x : Nat) : (s.lmWrite q a n x).spdm = s.spdm := rfl
@[simp] theorem lmWrite_msix (q a n x : Nat) : (s.lmWrite q a n x).msix = s.msix := rfl
@[simp] theorem lmWrite_pod (q a n x : Nat) : (s.lmWrite q a n x).pod = s.pod := rfl
@[simp] theorem lmWrite_podSize (q a n x : Nat) : (s.lmWrite q a n x).podSize = s.podSize := rfl
@[simp] theorem lmWrite_pkg (q a n x : Nat) : (s.lmWrite q a n x).pkg = s.pkg := rfl
@[simp] theorem lmWrite_podInputs (q a n x : Nat) : (s.lmWrite q a n x).podInputs = s.podInputs := rfl
@[simp] theorem lmWrite_powered (q a n x : Nat) : (s.lmWrite q a n x).powered = s.powered := rfl
@[simp] theorem lmWrite_agenda (q a n x : Nat) : (s.lmWrite q a n x).agenda = s.agenda := rfl
@[simp] theorem lmWrite_todo (q a n x : Nat) : (s.lmWrite q a n x).todo = s.todo := rfl
@[simp] theorem lmWrite_inputs (q a n x : Nat) : (s.lmWrite q a n x).inputs = s.inputs := rfl
@[simp] theorem lmWrite_cur (q a n x : Nat) : (s.lmWrite q a n x).cur = s.cur := rfl
@[simp] theorem lmWrite_hart (q a n x : Nat) : (s.lmWrite q a n x).hart = s.hart := rfl

/-! ### lmPut -/

@[simp] theorem lmPut_cycle (q a : Nat) (bs : List Byte) : (s.lmPut q a bs).cycle = s.cycle := rfl
@[simp] theorem lmPut_thr (q a : Nat) (bs : List Byte) : (s.lmPut q a bs).thr = s.thr := rfl
@[simp] theorem lmPut_cores (q a : Nat) (bs : List Byte) : (s.lmPut q a bs).cores = s.cores := rfl
@[simp] theorem lmPut_harts (q a : Nat) (bs : List Byte) : (s.lmPut q a bs).harts = s.harts := rfl
@[simp] theorem lmPut_quads (q a : Nat) (bs : List Byte) : (s.lmPut q a bs).quads = s.quads := rfl
@[simp] theorem lmPut_lmWas (q a : Nat) (bs : List Byte) : (s.lmPut q a bs).lmWas = s.lmWas := rfl
@[simp] theorem lmPut_lmPoison (q a : Nat) (bs : List Byte) : (s.lmPut q a bs).lmPoison = s.lmPoison := rfl
@[simp] theorem lmPut_canPoison (q a : Nat) (bs : List Byte) : (s.lmPut q a bs).canPoison = s.canPoison := rfl
@[simp] theorem lmPut_canopy (q a : Nat) (bs : List Byte) : (s.lmPut q a bs).canopy = s.canopy := rfl
@[simp] theorem lmPut_acc (q a : Nat) (bs : List Byte) : (s.lmPut q a bs).acc = s.acc := rfl
@[simp] theorem lmPut_mem (q a : Nat) (bs : List Byte) : (s.lmPut q a bs).mem = s.mem := rfl
@[simp] theorem lmPut_stack (q a : Nat) (bs : List Byte) : (s.lmPut q a bs).stack = s.stack := rfl
@[simp] theorem lmPut_bitmap (q a : Nat) (bs : List Byte) : (s.lmPut q a bs).bitmap = s.bitmap := rfl
@[simp] theorem lmPut_bmHeld (q a : Nat) (bs : List Byte) : (s.lmPut q a bs).bmHeld = s.bmHeld := rfl
@[simp] theorem lmPut_badLines (q a : Nat) (bs : List Byte) : (s.lmPut q a bs).badLines = s.badLines := rfl
@[simp] theorem lmPut_lost (q a : Nat) (bs : List Byte) : (s.lmPut q a bs).lost = s.lost := rfl
@[simp] theorem lmPut_l2 (q a : Nat) (bs : List Byte) : (s.lmPut q a bs).l2 = s.l2 := rfl
@[simp] theorem lmPut_l2tree (q a : Nat) (bs : List Byte) : (s.lmPut q a bs).l2tree = s.l2tree := rfl
@[simp] theorem lmPut_mlc (q a : Nat) (bs : List Byte) : (s.lmPut q a bs).mlc = s.mlc := rfl
@[simp] theorem lmPut_mlcFill (q a : Nat) (bs : List Byte) : (s.lmPut q a bs).mlcFill = s.mlcFill := rfl
@[simp] theorem lmPut_mlcWays (q a : Nat) (bs : List Byte) : (s.lmPut q a bs).mlcWays = s.mlcWays := rfl
@[simp] theorem lmPut_tcache (q a : Nat) (bs : List Byte) : (s.lmPut q a bs).tcache = s.tcache := rfl
@[simp] theorem lmPut_sliceOut (q a : Nat) (bs : List Byte) : (s.lmPut q a bs).sliceOut = s.sliceOut := rfl
@[simp] theorem lmPut_cmds (q a : Nat) (bs : List Byte) : (s.lmPut q a bs).cmds = s.cmds := rfl
@[simp] theorem lmPut_sq (q a : Nat) (bs : List Byte) : (s.lmPut q a bs).sq = s.sq := rfl
@[simp] theorem lmPut_grains (q a : Nat) (bs : List Byte) : (s.lmPut q a bs).grains = s.grains := rfl
@[simp] theorem lmPut_incrs (q a : Nat) (bs : List Byte) : (s.lmPut q a bs).incrs = s.incrs := rfl
@[simp] theorem lmPut_barEvs (q a : Nat) (bs : List Byte) : (s.lmPut q a bs).barEvs = s.barEvs := rfl
@[simp] theorem lmPut_fills (q a : Nat) (bs : List Byte) : (s.lmPut q a bs).fills = s.fills := rfl
@[simp] theorem lmPut_ringMsgs (q a : Nat) (bs : List Byte) : (s.lmPut q a bs).ringMsgs = s.ringMsgs := rfl
@[simp] theorem lmPut_sups (q a : Nat) (bs : List Byte) : (s.lmPut q a bs).sups = s.sups := rfl
@[simp] theorem lmPut_bars (q a : Nat) (bs : List Byte) : (s.lmPut q a bs).bars = s.bars := rfl
@[simp] theorem lmPut_fresh (q a : Nat) (bs : List Byte) : (s.lmPut q a bs).fresh = s.fresh := rfl
@[simp] theorem lmPut_regs (q a : Nat) (bs : List Byte) : (s.lmPut q a bs).regs = s.regs := rfl
@[simp] theorem lmPut_lqs (q a : Nat) (bs : List Byte) : (s.lmPut q a bs).lqs = s.lqs := rfl
@[simp] theorem lmPut_rr (q a : Nat) (bs : List Byte) : (s.lmPut q a bs).rr = s.rr := rfl
@[simp] theorem lmPut_launches (q a : Nat) (bs : List Byte) : (s.lmPut q a bs).launches = s.launches := rfl
@[simp] theorem lmPut_nextLid (q a : Nat) (bs : List Byte) : (s.lmPut q a bs).nextLid = s.nextLid := rfl
@[simp] theorem lmPut_images (q a : Nat) (bs : List Byte) : (s.lmPut q a bs).images = s.images := rfl
@[simp] theorem lmPut_keys (q a : Nat) (bs : List Byte) : (s.lmPut q a bs).keys = s.keys := rfl
@[simp] theorem lmPut_wroteBack (q a : Nat) (bs : List Byte) : (s.lmPut q a bs).wroteBack = s.wroteBack := rfl
@[simp] theorem lmPut_fences (q a : Nat) (bs : List Byte) : (s.lmPut q a bs).fences = s.fences := rfl
@[simp] theorem lmPut_erased (q a : Nat) (bs : List Byte) : (s.lmPut q a bs).erased = s.erased := rfl
@[simp] theorem lmPut_halted (q a : Nat) (bs : List Byte) : (s.lmPut q a bs).halted = s.halted := rfl
@[simp] theorem lmPut_puf (q a : Nat) (bs : List Byte) : (s.lmPut q a bs).puf = s.puf := rfl
@[simp] theorem lmPut_links (q a : Nat) (bs : List Byte) : (s.lmPut q a bs).links = s.links := rfl
@[simp] theorem lmPut_merge (q a : Nat) (bs : List Byte) : (s.lmPut q a bs).merge = s.merge := rfl
@[simp] theorem lmPut_smOver (q a : Nat) (bs : List Byte) : (s.lmPut q a bs).smOver = s.smOver := rfl
@[simp] theorem lmPut_sramCnt (q a : Nat) (bs : List Byte) : (s.lmPut q a bs).sramCnt = s.sramCnt := rfl
@[simp] theorem lmPut_l2gate (q a : Nat) (bs : List Byte) : (s.lmPut q a bs).l2gate = s.l2gate := rfl
@[simp] theorem lmPut_mlcgate (q a : Nat) (bs : List Byte) : (s.lmPut q a bs).mlcgate = s.mlcgate := rfl
@[simp] theorem lmPut_gateBusy (q a : Nat) (bs : List Byte) : (s.lmPut q a bs).gateBusy = s.gateBusy := rfl
@[simp] theorem lmPut_grade (q a : Nat) (bs : List Byte) : (s.lmPut q a bs).grade = s.grade := rfl
@[simp] theorem lmPut_groupOver (q a : Nat) (bs : List Byte) : (s.lmPut q a bs).groupOver = s.groupOver := rfl
@[simp] theorem lmPut_unmap (q a : Nat) (bs : List Byte) : (s.lmPut q a bs).unmap = s.unmap := rfl
@[simp] theorem lmPut_vqmap (q a : Nat) (bs : List Byte) : (s.lmPut q a bs).vqmap = s.vqmap := rfl
@[simp] theorem lmPut_badGroups (q a : Nat) (bs : List Byte) : (s.lmPut q a bs).badGroups = s.badGroups := rfl
@[simp] theorem lmPut_vsmap (q a : Nat) (bs : List Byte) : (s.lmPut q a bs).vsmap = s.vsmap := rfl
@[simp] theorem lmPut_bankMap (q a : Nat) (bs : List Byte) : (s.lmPut q a bs).bankMap = s.bankMap := rfl
@[simp] theorem lmPut_rowRepairs (q a : Nat) (bs : List Byte) : (s.lmPut q a bs).rowRepairs = s.rowRepairs := rfl
@[simp] theorem lmPut_trims (q a : Nat) (bs : List Byte) : (s.lmPut q a bs).trims = s.trims := rfl
@[simp] theorem lmPut_bankOut (q a : Nat) (bs : List Byte) : (s.lmPut q a bs).bankOut = s.bankOut := rfl
@[simp] theorem lmPut_failed (q a : Nat) (bs : List Byte) : (s.lmPut q a bs).failed = s.failed := rfl
@[simp] theorem lmPut_lcnt (q a : Nat) (bs : List Byte) : (s.lmPut q a bs).lcnt = s.lcnt := rfl
@[simp] theorem lmPut_lcBusy (q a : Nat) (bs : List Byte) : (s.lmPut q a bs).lcBusy = s.lcBusy := rfl
@[simp] theorem lmPut_accts (q a : Nat) (bs : List Byte) : (s.lmPut q a bs).accts = s.accts := rfl
@[simp] theorem lmPut_energy (q a : Nat) (bs : List Byte) : (s.lmPut q a bs).energy = s.energy := rfl
@[simp] theorem lmPut_sram (q a : Nat) (bs : List Byte) : (s.lmPut q a bs).sram = s.sram := rfl
@[simp] theorem lmPut_reqbuf (q a : Nat) (bs : List Byte) : (s.lmPut q a bs).reqbuf = s.reqbuf := rfl
@[simp] theorem lmPut_rspbuf (q a : Nat) (bs : List Byte) : (s.lmPut q a bs).rspbuf = s.rspbuf := rfl
@[simp] theorem lmPut_flash (q a : Nat) (bs : List Byte) : (s.lmPut q a bs).flash = s.flash := rfl
@[simp] theorem lmPut_flashErr (q a : Nat) (bs : List Byte) : (s.lmPut q a bs).flashErr = s.flashErr := rfl
@[simp] theorem lmPut_hostMem (q a : Nat) (bs : List Byte) : (s.lmPut q a bs).hostMem = s.hostMem := rfl
@[simp] theorem lmPut_mr (q a : Nat) (bs : List Byte) : (s.lmPut q a bs).mr = s.mr := rfl
@[simp] theorem lmPut_mrNext (q a : Nat) (bs : List Byte) : (s.lmPut q a bs).mrNext = s.mrNext := rfl
@[simp] theorem lmPut_devKey (q a : Nat) (bs : List Byte) : (s.lmPut q a bs).devKey = s.devKey := rfl
@[simp] theorem lmPut_hash (q a : Nat) (bs : List Byte) : (s.lmPut q a bs).hash = s.hash := rfl
@[simp] theorem lmPut_ceBusy (q a : Nat) (bs : List Byte) : (s.lmPut q a bs).ceBusy = s.ceBusy := rfl
@[simp] theorem lmPut_bpBusy (q a : Nat) (bs : List Byte) : (s.lmPut q a bs).bpBusy = s.bpBusy := rfl
@[simp] theorem lmPut_mrBusy (q a : Nat) (bs : List Byte) : (s.lmPut q a bs).mrBusy = s.mrBusy := rfl
@[simp] theorem lmPut_kdBusy (q a : Nat) (bs : List Byte) : (s.lmPut q a bs).kdBusy = s.kdBusy := rfl
@[simp] theorem lmPut_draws (q a : Nat) (bs : List Byte) : (s.lmPut q a bs).draws = s.draws := rfl
@[simp] theorem lmPut_spdm (q a : Nat) (bs : List Byte) : (s.lmPut q a bs).spdm = s.spdm := rfl
@[simp] theorem lmPut_msix (q a : Nat) (bs : List Byte) : (s.lmPut q a bs).msix = s.msix := rfl
@[simp] theorem lmPut_pod (q a : Nat) (bs : List Byte) : (s.lmPut q a bs).pod = s.pod := rfl
@[simp] theorem lmPut_podSize (q a : Nat) (bs : List Byte) : (s.lmPut q a bs).podSize = s.podSize := rfl
@[simp] theorem lmPut_pkg (q a : Nat) (bs : List Byte) : (s.lmPut q a bs).pkg = s.pkg := rfl
@[simp] theorem lmPut_podInputs (q a : Nat) (bs : List Byte) : (s.lmPut q a bs).podInputs = s.podInputs := rfl
@[simp] theorem lmPut_powered (q a : Nat) (bs : List Byte) : (s.lmPut q a bs).powered = s.powered := rfl
@[simp] theorem lmPut_agenda (q a : Nat) (bs : List Byte) : (s.lmPut q a bs).agenda = s.agenda := rfl
@[simp] theorem lmPut_todo (q a : Nat) (bs : List Byte) : (s.lmPut q a bs).todo = s.todo := rfl
@[simp] theorem lmPut_inputs (q a : Nat) (bs : List Byte) : (s.lmPut q a bs).inputs = s.inputs := rfl
@[simp] theorem lmPut_cur (q a : Nat) (bs : List Byte) : (s.lmPut q a bs).cur = s.cur := rfl
@[simp] theorem lmPut_hart (q a : Nat) (bs : List Byte) : (s.lmPut q a bs).hart = s.hart := rfl

/-! ### setRing -/

@[simp] theorem setRing_cycle (q : Nat) (n : Fin 32) (r : Ring) : (s.setRing q n r).cycle = s.cycle := rfl
@[simp] theorem setRing_thr (q : Nat) (n : Fin 32) (r : Ring) : (s.setRing q n r).thr = s.thr := rfl
@[simp] theorem setRing_cores (q : Nat) (n : Fin 32) (r : Ring) : (s.setRing q n r).cores = s.cores := rfl
@[simp] theorem setRing_harts (q : Nat) (n : Fin 32) (r : Ring) : (s.setRing q n r).harts = s.harts := rfl
@[simp] theorem setRing_lm (q : Nat) (n : Fin 32) (r : Ring) : (s.setRing q n r).lm = s.lm := rfl
@[simp] theorem setRing_lmWas (q : Nat) (n : Fin 32) (r : Ring) : (s.setRing q n r).lmWas = s.lmWas := rfl
@[simp] theorem setRing_lmPoison (q : Nat) (n : Fin 32) (r : Ring) : (s.setRing q n r).lmPoison = s.lmPoison := rfl
@[simp] theorem setRing_canPoison (q : Nat) (n : Fin 32) (r : Ring) : (s.setRing q n r).canPoison = s.canPoison := rfl
@[simp] theorem setRing_canopy (q : Nat) (n : Fin 32) (r : Ring) : (s.setRing q n r).canopy = s.canopy := rfl
@[simp] theorem setRing_acc (q : Nat) (n : Fin 32) (r : Ring) : (s.setRing q n r).acc = s.acc := rfl
@[simp] theorem setRing_mem (q : Nat) (n : Fin 32) (r : Ring) : (s.setRing q n r).mem = s.mem := rfl
@[simp] theorem setRing_stack (q : Nat) (n : Fin 32) (r : Ring) : (s.setRing q n r).stack = s.stack := rfl
@[simp] theorem setRing_bitmap (q : Nat) (n : Fin 32) (r : Ring) : (s.setRing q n r).bitmap = s.bitmap := rfl
@[simp] theorem setRing_bmHeld (q : Nat) (n : Fin 32) (r : Ring) : (s.setRing q n r).bmHeld = s.bmHeld := rfl
@[simp] theorem setRing_badLines (q : Nat) (n : Fin 32) (r : Ring) : (s.setRing q n r).badLines = s.badLines := rfl
@[simp] theorem setRing_lost (q : Nat) (n : Fin 32) (r : Ring) : (s.setRing q n r).lost = s.lost := rfl
@[simp] theorem setRing_l2 (q : Nat) (n : Fin 32) (r : Ring) : (s.setRing q n r).l2 = s.l2 := rfl
@[simp] theorem setRing_l2tree (q : Nat) (n : Fin 32) (r : Ring) : (s.setRing q n r).l2tree = s.l2tree := rfl
@[simp] theorem setRing_mlc (q : Nat) (n : Fin 32) (r : Ring) : (s.setRing q n r).mlc = s.mlc := rfl
@[simp] theorem setRing_mlcFill (q : Nat) (n : Fin 32) (r : Ring) : (s.setRing q n r).mlcFill = s.mlcFill := rfl
@[simp] theorem setRing_mlcWays (q : Nat) (n : Fin 32) (r : Ring) : (s.setRing q n r).mlcWays = s.mlcWays := rfl
@[simp] theorem setRing_tcache (q : Nat) (n : Fin 32) (r : Ring) : (s.setRing q n r).tcache = s.tcache := rfl
@[simp] theorem setRing_sliceOut (q : Nat) (n : Fin 32) (r : Ring) : (s.setRing q n r).sliceOut = s.sliceOut := rfl
@[simp] theorem setRing_cmds (q : Nat) (n : Fin 32) (r : Ring) : (s.setRing q n r).cmds = s.cmds := rfl
@[simp] theorem setRing_sq (q : Nat) (n : Fin 32) (r : Ring) : (s.setRing q n r).sq = s.sq := rfl
@[simp] theorem setRing_grains (q : Nat) (n : Fin 32) (r : Ring) : (s.setRing q n r).grains = s.grains := rfl
@[simp] theorem setRing_incrs (q : Nat) (n : Fin 32) (r : Ring) : (s.setRing q n r).incrs = s.incrs := rfl
@[simp] theorem setRing_barEvs (q : Nat) (n : Fin 32) (r : Ring) : (s.setRing q n r).barEvs = s.barEvs := rfl
@[simp] theorem setRing_fills (q : Nat) (n : Fin 32) (r : Ring) : (s.setRing q n r).fills = s.fills := rfl
@[simp] theorem setRing_ringMsgs (q : Nat) (n : Fin 32) (r : Ring) : (s.setRing q n r).ringMsgs = s.ringMsgs := rfl
@[simp] theorem setRing_sups (q : Nat) (n : Fin 32) (r : Ring) : (s.setRing q n r).sups = s.sups := rfl
@[simp] theorem setRing_bars (q : Nat) (n : Fin 32) (r : Ring) : (s.setRing q n r).bars = s.bars := rfl
@[simp] theorem setRing_fresh (q : Nat) (n : Fin 32) (r : Ring) : (s.setRing q n r).fresh = s.fresh := rfl
@[simp] theorem setRing_regs (q : Nat) (n : Fin 32) (r : Ring) : (s.setRing q n r).regs = s.regs := rfl
@[simp] theorem setRing_lqs (q : Nat) (n : Fin 32) (r : Ring) : (s.setRing q n r).lqs = s.lqs := rfl
@[simp] theorem setRing_rr (q : Nat) (n : Fin 32) (r : Ring) : (s.setRing q n r).rr = s.rr := rfl
@[simp] theorem setRing_launches (q : Nat) (n : Fin 32) (r : Ring) : (s.setRing q n r).launches = s.launches := rfl
@[simp] theorem setRing_nextLid (q : Nat) (n : Fin 32) (r : Ring) : (s.setRing q n r).nextLid = s.nextLid := rfl
@[simp] theorem setRing_images (q : Nat) (n : Fin 32) (r : Ring) : (s.setRing q n r).images = s.images := rfl
@[simp] theorem setRing_keys (q : Nat) (n : Fin 32) (r : Ring) : (s.setRing q n r).keys = s.keys := rfl
@[simp] theorem setRing_wroteBack (q : Nat) (n : Fin 32) (r : Ring) : (s.setRing q n r).wroteBack = s.wroteBack := rfl
@[simp] theorem setRing_fences (q : Nat) (n : Fin 32) (r : Ring) : (s.setRing q n r).fences = s.fences := rfl
@[simp] theorem setRing_erased (q : Nat) (n : Fin 32) (r : Ring) : (s.setRing q n r).erased = s.erased := rfl
@[simp] theorem setRing_halted (q : Nat) (n : Fin 32) (r : Ring) : (s.setRing q n r).halted = s.halted := rfl
@[simp] theorem setRing_puf (q : Nat) (n : Fin 32) (r : Ring) : (s.setRing q n r).puf = s.puf := rfl
@[simp] theorem setRing_links (q : Nat) (n : Fin 32) (r : Ring) : (s.setRing q n r).links = s.links := rfl
@[simp] theorem setRing_merge (q : Nat) (n : Fin 32) (r : Ring) : (s.setRing q n r).merge = s.merge := rfl
@[simp] theorem setRing_smOver (q : Nat) (n : Fin 32) (r : Ring) : (s.setRing q n r).smOver = s.smOver := rfl
@[simp] theorem setRing_sramCnt (q : Nat) (n : Fin 32) (r : Ring) : (s.setRing q n r).sramCnt = s.sramCnt := rfl
@[simp] theorem setRing_l2gate (q : Nat) (n : Fin 32) (r : Ring) : (s.setRing q n r).l2gate = s.l2gate := rfl
@[simp] theorem setRing_mlcgate (q : Nat) (n : Fin 32) (r : Ring) : (s.setRing q n r).mlcgate = s.mlcgate := rfl
@[simp] theorem setRing_gateBusy (q : Nat) (n : Fin 32) (r : Ring) : (s.setRing q n r).gateBusy = s.gateBusy := rfl
@[simp] theorem setRing_grade (q : Nat) (n : Fin 32) (r : Ring) : (s.setRing q n r).grade = s.grade := rfl
@[simp] theorem setRing_groupOver (q : Nat) (n : Fin 32) (r : Ring) : (s.setRing q n r).groupOver = s.groupOver := rfl
@[simp] theorem setRing_unmap (q : Nat) (n : Fin 32) (r : Ring) : (s.setRing q n r).unmap = s.unmap := rfl
@[simp] theorem setRing_vqmap (q : Nat) (n : Fin 32) (r : Ring) : (s.setRing q n r).vqmap = s.vqmap := rfl
@[simp] theorem setRing_badGroups (q : Nat) (n : Fin 32) (r : Ring) : (s.setRing q n r).badGroups = s.badGroups := rfl
@[simp] theorem setRing_vsmap (q : Nat) (n : Fin 32) (r : Ring) : (s.setRing q n r).vsmap = s.vsmap := rfl
@[simp] theorem setRing_bankMap (q : Nat) (n : Fin 32) (r : Ring) : (s.setRing q n r).bankMap = s.bankMap := rfl
@[simp] theorem setRing_rowRepairs (q : Nat) (n : Fin 32) (r : Ring) : (s.setRing q n r).rowRepairs = s.rowRepairs := rfl
@[simp] theorem setRing_trims (q : Nat) (n : Fin 32) (r : Ring) : (s.setRing q n r).trims = s.trims := rfl
@[simp] theorem setRing_bankOut (q : Nat) (n : Fin 32) (r : Ring) : (s.setRing q n r).bankOut = s.bankOut := rfl
@[simp] theorem setRing_failed (q : Nat) (n : Fin 32) (r : Ring) : (s.setRing q n r).failed = s.failed := rfl
@[simp] theorem setRing_lcnt (q : Nat) (n : Fin 32) (r : Ring) : (s.setRing q n r).lcnt = s.lcnt := rfl
@[simp] theorem setRing_lcBusy (q : Nat) (n : Fin 32) (r : Ring) : (s.setRing q n r).lcBusy = s.lcBusy := rfl
@[simp] theorem setRing_accts (q : Nat) (n : Fin 32) (r : Ring) : (s.setRing q n r).accts = s.accts := rfl
@[simp] theorem setRing_energy (q : Nat) (n : Fin 32) (r : Ring) : (s.setRing q n r).energy = s.energy := rfl
@[simp] theorem setRing_sram (q : Nat) (n : Fin 32) (r : Ring) : (s.setRing q n r).sram = s.sram := rfl
@[simp] theorem setRing_reqbuf (q : Nat) (n : Fin 32) (r : Ring) : (s.setRing q n r).reqbuf = s.reqbuf := rfl
@[simp] theorem setRing_rspbuf (q : Nat) (n : Fin 32) (r : Ring) : (s.setRing q n r).rspbuf = s.rspbuf := rfl
@[simp] theorem setRing_flash (q : Nat) (n : Fin 32) (r : Ring) : (s.setRing q n r).flash = s.flash := rfl
@[simp] theorem setRing_flashErr (q : Nat) (n : Fin 32) (r : Ring) : (s.setRing q n r).flashErr = s.flashErr := rfl
@[simp] theorem setRing_hostMem (q : Nat) (n : Fin 32) (r : Ring) : (s.setRing q n r).hostMem = s.hostMem := rfl
@[simp] theorem setRing_mr (q : Nat) (n : Fin 32) (r : Ring) : (s.setRing q n r).mr = s.mr := rfl
@[simp] theorem setRing_mrNext (q : Nat) (n : Fin 32) (r : Ring) : (s.setRing q n r).mrNext = s.mrNext := rfl
@[simp] theorem setRing_devKey (q : Nat) (n : Fin 32) (r : Ring) : (s.setRing q n r).devKey = s.devKey := rfl
@[simp] theorem setRing_hash (q : Nat) (n : Fin 32) (r : Ring) : (s.setRing q n r).hash = s.hash := rfl
@[simp] theorem setRing_ceBusy (q : Nat) (n : Fin 32) (r : Ring) : (s.setRing q n r).ceBusy = s.ceBusy := rfl
@[simp] theorem setRing_bpBusy (q : Nat) (n : Fin 32) (r : Ring) : (s.setRing q n r).bpBusy = s.bpBusy := rfl
@[simp] theorem setRing_mrBusy (q : Nat) (n : Fin 32) (r : Ring) : (s.setRing q n r).mrBusy = s.mrBusy := rfl
@[simp] theorem setRing_kdBusy (q : Nat) (n : Fin 32) (r : Ring) : (s.setRing q n r).kdBusy = s.kdBusy := rfl
@[simp] theorem setRing_draws (q : Nat) (n : Fin 32) (r : Ring) : (s.setRing q n r).draws = s.draws := rfl
@[simp] theorem setRing_spdm (q : Nat) (n : Fin 32) (r : Ring) : (s.setRing q n r).spdm = s.spdm := rfl
@[simp] theorem setRing_msix (q : Nat) (n : Fin 32) (r : Ring) : (s.setRing q n r).msix = s.msix := rfl
@[simp] theorem setRing_pod (q : Nat) (n : Fin 32) (r : Ring) : (s.setRing q n r).pod = s.pod := rfl
@[simp] theorem setRing_podSize (q : Nat) (n : Fin 32) (r : Ring) : (s.setRing q n r).podSize = s.podSize := rfl
@[simp] theorem setRing_pkg (q : Nat) (n : Fin 32) (r : Ring) : (s.setRing q n r).pkg = s.pkg := rfl
@[simp] theorem setRing_podInputs (q : Nat) (n : Fin 32) (r : Ring) : (s.setRing q n r).podInputs = s.podInputs := rfl
@[simp] theorem setRing_powered (q : Nat) (n : Fin 32) (r : Ring) : (s.setRing q n r).powered = s.powered := rfl
@[simp] theorem setRing_agenda (q : Nat) (n : Fin 32) (r : Ring) : (s.setRing q n r).agenda = s.agenda := rfl
@[simp] theorem setRing_todo (q : Nat) (n : Fin 32) (r : Ring) : (s.setRing q n r).todo = s.todo := rfl
@[simp] theorem setRing_inputs (q : Nat) (n : Fin 32) (r : Ring) : (s.setRing q n r).inputs = s.inputs := rfl
@[simp] theorem setRing_cur (q : Nat) (n : Fin 32) (r : Ring) : (s.setRing q n r).cur = s.cur := rfl
@[simp] theorem setRing_hart (q : Nat) (n : Fin 32) (r : Ring) : (s.setRing q n r).hart = s.hart := rfl

/-! ### modMe -/

@[simp] theorem modMe_cycle (f : Thread → Thread) : (s.modMe f).cycle = s.cycle := rfl
@[simp] theorem modMe_cores (f : Thread → Thread) : (s.modMe f).cores = s.cores := rfl
@[simp] theorem modMe_harts (f : Thread → Thread) : (s.modMe f).harts = s.harts := rfl
@[simp] theorem modMe_quads (f : Thread → Thread) : (s.modMe f).quads = s.quads := rfl
@[simp] theorem modMe_lm (f : Thread → Thread) : (s.modMe f).lm = s.lm := rfl
@[simp] theorem modMe_lmWas (f : Thread → Thread) : (s.modMe f).lmWas = s.lmWas := rfl
@[simp] theorem modMe_lmPoison (f : Thread → Thread) : (s.modMe f).lmPoison = s.lmPoison := rfl
@[simp] theorem modMe_canPoison (f : Thread → Thread) : (s.modMe f).canPoison = s.canPoison := rfl
@[simp] theorem modMe_canopy (f : Thread → Thread) : (s.modMe f).canopy = s.canopy := rfl
@[simp] theorem modMe_acc (f : Thread → Thread) : (s.modMe f).acc = s.acc := rfl
@[simp] theorem modMe_mem (f : Thread → Thread) : (s.modMe f).mem = s.mem := rfl
@[simp] theorem modMe_stack (f : Thread → Thread) : (s.modMe f).stack = s.stack := rfl
@[simp] theorem modMe_bitmap (f : Thread → Thread) : (s.modMe f).bitmap = s.bitmap := rfl
@[simp] theorem modMe_bmHeld (f : Thread → Thread) : (s.modMe f).bmHeld = s.bmHeld := rfl
@[simp] theorem modMe_badLines (f : Thread → Thread) : (s.modMe f).badLines = s.badLines := rfl
@[simp] theorem modMe_lost (f : Thread → Thread) : (s.modMe f).lost = s.lost := rfl
@[simp] theorem modMe_l2 (f : Thread → Thread) : (s.modMe f).l2 = s.l2 := rfl
@[simp] theorem modMe_l2tree (f : Thread → Thread) : (s.modMe f).l2tree = s.l2tree := rfl
@[simp] theorem modMe_mlc (f : Thread → Thread) : (s.modMe f).mlc = s.mlc := rfl
@[simp] theorem modMe_mlcFill (f : Thread → Thread) : (s.modMe f).mlcFill = s.mlcFill := rfl
@[simp] theorem modMe_mlcWays (f : Thread → Thread) : (s.modMe f).mlcWays = s.mlcWays := rfl
@[simp] theorem modMe_tcache (f : Thread → Thread) : (s.modMe f).tcache = s.tcache := rfl
@[simp] theorem modMe_sliceOut (f : Thread → Thread) : (s.modMe f).sliceOut = s.sliceOut := rfl
@[simp] theorem modMe_cmds (f : Thread → Thread) : (s.modMe f).cmds = s.cmds := rfl
@[simp] theorem modMe_sq (f : Thread → Thread) : (s.modMe f).sq = s.sq := rfl
@[simp] theorem modMe_grains (f : Thread → Thread) : (s.modMe f).grains = s.grains := rfl
@[simp] theorem modMe_incrs (f : Thread → Thread) : (s.modMe f).incrs = s.incrs := rfl
@[simp] theorem modMe_barEvs (f : Thread → Thread) : (s.modMe f).barEvs = s.barEvs := rfl
@[simp] theorem modMe_fills (f : Thread → Thread) : (s.modMe f).fills = s.fills := rfl
@[simp] theorem modMe_ringMsgs (f : Thread → Thread) : (s.modMe f).ringMsgs = s.ringMsgs := rfl
@[simp] theorem modMe_sups (f : Thread → Thread) : (s.modMe f).sups = s.sups := rfl
@[simp] theorem modMe_bars (f : Thread → Thread) : (s.modMe f).bars = s.bars := rfl
@[simp] theorem modMe_fresh (f : Thread → Thread) : (s.modMe f).fresh = s.fresh := rfl
@[simp] theorem modMe_regs (f : Thread → Thread) : (s.modMe f).regs = s.regs := rfl
@[simp] theorem modMe_lqs (f : Thread → Thread) : (s.modMe f).lqs = s.lqs := rfl
@[simp] theorem modMe_rr (f : Thread → Thread) : (s.modMe f).rr = s.rr := rfl
@[simp] theorem modMe_launches (f : Thread → Thread) : (s.modMe f).launches = s.launches := rfl
@[simp] theorem modMe_nextLid (f : Thread → Thread) : (s.modMe f).nextLid = s.nextLid := rfl
@[simp] theorem modMe_images (f : Thread → Thread) : (s.modMe f).images = s.images := rfl
@[simp] theorem modMe_keys (f : Thread → Thread) : (s.modMe f).keys = s.keys := rfl
@[simp] theorem modMe_wroteBack (f : Thread → Thread) : (s.modMe f).wroteBack = s.wroteBack := rfl
@[simp] theorem modMe_fences (f : Thread → Thread) : (s.modMe f).fences = s.fences := rfl
@[simp] theorem modMe_erased (f : Thread → Thread) : (s.modMe f).erased = s.erased := rfl
@[simp] theorem modMe_halted (f : Thread → Thread) : (s.modMe f).halted = s.halted := rfl
@[simp] theorem modMe_puf (f : Thread → Thread) : (s.modMe f).puf = s.puf := rfl
@[simp] theorem modMe_links (f : Thread → Thread) : (s.modMe f).links = s.links := rfl
@[simp] theorem modMe_merge (f : Thread → Thread) : (s.modMe f).merge = s.merge := rfl
@[simp] theorem modMe_smOver (f : Thread → Thread) : (s.modMe f).smOver = s.smOver := rfl
@[simp] theorem modMe_sramCnt (f : Thread → Thread) : (s.modMe f).sramCnt = s.sramCnt := rfl
@[simp] theorem modMe_l2gate (f : Thread → Thread) : (s.modMe f).l2gate = s.l2gate := rfl
@[simp] theorem modMe_mlcgate (f : Thread → Thread) : (s.modMe f).mlcgate = s.mlcgate := rfl
@[simp] theorem modMe_gateBusy (f : Thread → Thread) : (s.modMe f).gateBusy = s.gateBusy := rfl
@[simp] theorem modMe_grade (f : Thread → Thread) : (s.modMe f).grade = s.grade := rfl
@[simp] theorem modMe_groupOver (f : Thread → Thread) : (s.modMe f).groupOver = s.groupOver := rfl
@[simp] theorem modMe_unmap (f : Thread → Thread) : (s.modMe f).unmap = s.unmap := rfl
@[simp] theorem modMe_vqmap (f : Thread → Thread) : (s.modMe f).vqmap = s.vqmap := rfl
@[simp] theorem modMe_badGroups (f : Thread → Thread) : (s.modMe f).badGroups = s.badGroups := rfl
@[simp] theorem modMe_vsmap (f : Thread → Thread) : (s.modMe f).vsmap = s.vsmap := rfl
@[simp] theorem modMe_bankMap (f : Thread → Thread) : (s.modMe f).bankMap = s.bankMap := rfl
@[simp] theorem modMe_rowRepairs (f : Thread → Thread) : (s.modMe f).rowRepairs = s.rowRepairs := rfl
@[simp] theorem modMe_trims (f : Thread → Thread) : (s.modMe f).trims = s.trims := rfl
@[simp] theorem modMe_bankOut (f : Thread → Thread) : (s.modMe f).bankOut = s.bankOut := rfl
@[simp] theorem modMe_failed (f : Thread → Thread) : (s.modMe f).failed = s.failed := rfl
@[simp] theorem modMe_lcnt (f : Thread → Thread) : (s.modMe f).lcnt = s.lcnt := rfl
@[simp] theorem modMe_lcBusy (f : Thread → Thread) : (s.modMe f).lcBusy = s.lcBusy := rfl
@[simp] theorem modMe_accts (f : Thread → Thread) : (s.modMe f).accts = s.accts := rfl
@[simp] theorem modMe_energy (f : Thread → Thread) : (s.modMe f).energy = s.energy := rfl
@[simp] theorem modMe_sram (f : Thread → Thread) : (s.modMe f).sram = s.sram := rfl
@[simp] theorem modMe_reqbuf (f : Thread → Thread) : (s.modMe f).reqbuf = s.reqbuf := rfl
@[simp] theorem modMe_rspbuf (f : Thread → Thread) : (s.modMe f).rspbuf = s.rspbuf := rfl
@[simp] theorem modMe_flash (f : Thread → Thread) : (s.modMe f).flash = s.flash := rfl
@[simp] theorem modMe_flashErr (f : Thread → Thread) : (s.modMe f).flashErr = s.flashErr := rfl
@[simp] theorem modMe_hostMem (f : Thread → Thread) : (s.modMe f).hostMem = s.hostMem := rfl
@[simp] theorem modMe_mr (f : Thread → Thread) : (s.modMe f).mr = s.mr := rfl
@[simp] theorem modMe_mrNext (f : Thread → Thread) : (s.modMe f).mrNext = s.mrNext := rfl
@[simp] theorem modMe_devKey (f : Thread → Thread) : (s.modMe f).devKey = s.devKey := rfl
@[simp] theorem modMe_hash (f : Thread → Thread) : (s.modMe f).hash = s.hash := rfl
@[simp] theorem modMe_ceBusy (f : Thread → Thread) : (s.modMe f).ceBusy = s.ceBusy := rfl
@[simp] theorem modMe_bpBusy (f : Thread → Thread) : (s.modMe f).bpBusy = s.bpBusy := rfl
@[simp] theorem modMe_mrBusy (f : Thread → Thread) : (s.modMe f).mrBusy = s.mrBusy := rfl
@[simp] theorem modMe_kdBusy (f : Thread → Thread) : (s.modMe f).kdBusy = s.kdBusy := rfl
@[simp] theorem modMe_draws (f : Thread → Thread) : (s.modMe f).draws = s.draws := rfl
@[simp] theorem modMe_spdm (f : Thread → Thread) : (s.modMe f).spdm = s.spdm := rfl
@[simp] theorem modMe_msix (f : Thread → Thread) : (s.modMe f).msix = s.msix := rfl
@[simp] theorem modMe_pod (f : Thread → Thread) : (s.modMe f).pod = s.pod := rfl
@[simp] theorem modMe_podSize (f : Thread → Thread) : (s.modMe f).podSize = s.podSize := rfl
@[simp] theorem modMe_pkg (f : Thread → Thread) : (s.modMe f).pkg = s.pkg := rfl
@[simp] theorem modMe_podInputs (f : Thread → Thread) : (s.modMe f).podInputs = s.podInputs := rfl
@[simp] theorem modMe_powered (f : Thread → Thread) : (s.modMe f).powered = s.powered := rfl
@[simp] theorem modMe_agenda (f : Thread → Thread) : (s.modMe f).agenda = s.agenda := rfl
@[simp] theorem modMe_todo (f : Thread → Thread) : (s.modMe f).todo = s.todo := rfl
@[simp] theorem modMe_inputs (f : Thread → Thread) : (s.modMe f).inputs = s.inputs := rfl
@[simp] theorem modMe_cur (f : Thread → Thread) : (s.modMe f).cur = s.cur := rfl
@[simp] theorem modMe_hart (f : Thread → Thread) : (s.modMe f).hart = s.hart := rfl

/-! ### bumpAcct -/

@[simp] theorem bumpAcct_cycle (a : BitVec 6) (k n : Nat) : (s.bumpAcct a k n).cycle = s.cycle := rfl
@[simp] theorem bumpAcct_thr (a : BitVec 6) (k n : Nat) : (s.bumpAcct a k n).thr = s.thr := rfl
@[simp] theorem bumpAcct_cores (a : BitVec 6) (k n : Nat) : (s.bumpAcct a k n).cores = s.cores := rfl
@[simp] theorem bumpAcct_harts (a : BitVec 6) (k n : Nat) : (s.bumpAcct a k n).harts = s.harts := rfl
@[simp] theorem bumpAcct_quads (a : BitVec 6) (k n : Nat) : (s.bumpAcct a k n).quads = s.quads := rfl
@[simp] theorem bumpAcct_lm (a : BitVec 6) (k n : Nat) : (s.bumpAcct a k n).lm = s.lm := rfl
@[simp] theorem bumpAcct_lmWas (a : BitVec 6) (k n : Nat) : (s.bumpAcct a k n).lmWas = s.lmWas := rfl
@[simp] theorem bumpAcct_lmPoison (a : BitVec 6) (k n : Nat) : (s.bumpAcct a k n).lmPoison = s.lmPoison := rfl
@[simp] theorem bumpAcct_canPoison (a : BitVec 6) (k n : Nat) : (s.bumpAcct a k n).canPoison = s.canPoison := rfl
@[simp] theorem bumpAcct_canopy (a : BitVec 6) (k n : Nat) : (s.bumpAcct a k n).canopy = s.canopy := rfl
@[simp] theorem bumpAcct_acc (a : BitVec 6) (k n : Nat) : (s.bumpAcct a k n).acc = s.acc := rfl
@[simp] theorem bumpAcct_mem (a : BitVec 6) (k n : Nat) : (s.bumpAcct a k n).mem = s.mem := rfl
@[simp] theorem bumpAcct_stack (a : BitVec 6) (k n : Nat) : (s.bumpAcct a k n).stack = s.stack := rfl
@[simp] theorem bumpAcct_bitmap (a : BitVec 6) (k n : Nat) : (s.bumpAcct a k n).bitmap = s.bitmap := rfl
@[simp] theorem bumpAcct_bmHeld (a : BitVec 6) (k n : Nat) : (s.bumpAcct a k n).bmHeld = s.bmHeld := rfl
@[simp] theorem bumpAcct_badLines (a : BitVec 6) (k n : Nat) : (s.bumpAcct a k n).badLines = s.badLines := rfl
@[simp] theorem bumpAcct_lost (a : BitVec 6) (k n : Nat) : (s.bumpAcct a k n).lost = s.lost := rfl
@[simp] theorem bumpAcct_l2 (a : BitVec 6) (k n : Nat) : (s.bumpAcct a k n).l2 = s.l2 := rfl
@[simp] theorem bumpAcct_l2tree (a : BitVec 6) (k n : Nat) : (s.bumpAcct a k n).l2tree = s.l2tree := rfl
@[simp] theorem bumpAcct_mlc (a : BitVec 6) (k n : Nat) : (s.bumpAcct a k n).mlc = s.mlc := rfl
@[simp] theorem bumpAcct_mlcFill (a : BitVec 6) (k n : Nat) : (s.bumpAcct a k n).mlcFill = s.mlcFill := rfl
@[simp] theorem bumpAcct_mlcWays (a : BitVec 6) (k n : Nat) : (s.bumpAcct a k n).mlcWays = s.mlcWays := rfl
@[simp] theorem bumpAcct_tcache (a : BitVec 6) (k n : Nat) : (s.bumpAcct a k n).tcache = s.tcache := rfl
@[simp] theorem bumpAcct_sliceOut (a : BitVec 6) (k n : Nat) : (s.bumpAcct a k n).sliceOut = s.sliceOut := rfl
@[simp] theorem bumpAcct_cmds (a : BitVec 6) (k n : Nat) : (s.bumpAcct a k n).cmds = s.cmds := rfl
@[simp] theorem bumpAcct_sq (a : BitVec 6) (k n : Nat) : (s.bumpAcct a k n).sq = s.sq := rfl
@[simp] theorem bumpAcct_grains (a : BitVec 6) (k n : Nat) : (s.bumpAcct a k n).grains = s.grains := rfl
@[simp] theorem bumpAcct_incrs (a : BitVec 6) (k n : Nat) : (s.bumpAcct a k n).incrs = s.incrs := rfl
@[simp] theorem bumpAcct_barEvs (a : BitVec 6) (k n : Nat) : (s.bumpAcct a k n).barEvs = s.barEvs := rfl
@[simp] theorem bumpAcct_fills (a : BitVec 6) (k n : Nat) : (s.bumpAcct a k n).fills = s.fills := rfl
@[simp] theorem bumpAcct_ringMsgs (a : BitVec 6) (k n : Nat) : (s.bumpAcct a k n).ringMsgs = s.ringMsgs := rfl
@[simp] theorem bumpAcct_sups (a : BitVec 6) (k n : Nat) : (s.bumpAcct a k n).sups = s.sups := rfl
@[simp] theorem bumpAcct_bars (a : BitVec 6) (k n : Nat) : (s.bumpAcct a k n).bars = s.bars := rfl
@[simp] theorem bumpAcct_fresh (a : BitVec 6) (k n : Nat) : (s.bumpAcct a k n).fresh = s.fresh := rfl
@[simp] theorem bumpAcct_regs (a : BitVec 6) (k n : Nat) : (s.bumpAcct a k n).regs = s.regs := rfl
@[simp] theorem bumpAcct_lqs (a : BitVec 6) (k n : Nat) : (s.bumpAcct a k n).lqs = s.lqs := rfl
@[simp] theorem bumpAcct_rr (a : BitVec 6) (k n : Nat) : (s.bumpAcct a k n).rr = s.rr := rfl
@[simp] theorem bumpAcct_launches (a : BitVec 6) (k n : Nat) : (s.bumpAcct a k n).launches = s.launches := rfl
@[simp] theorem bumpAcct_nextLid (a : BitVec 6) (k n : Nat) : (s.bumpAcct a k n).nextLid = s.nextLid := rfl
@[simp] theorem bumpAcct_images (a : BitVec 6) (k n : Nat) : (s.bumpAcct a k n).images = s.images := rfl
@[simp] theorem bumpAcct_keys (a : BitVec 6) (k n : Nat) : (s.bumpAcct a k n).keys = s.keys := rfl
@[simp] theorem bumpAcct_wroteBack (a : BitVec 6) (k n : Nat) : (s.bumpAcct a k n).wroteBack = s.wroteBack := rfl
@[simp] theorem bumpAcct_fences (a : BitVec 6) (k n : Nat) : (s.bumpAcct a k n).fences = s.fences := rfl
@[simp] theorem bumpAcct_erased (a : BitVec 6) (k n : Nat) : (s.bumpAcct a k n).erased = s.erased := rfl
@[simp] theorem bumpAcct_halted (a : BitVec 6) (k n : Nat) : (s.bumpAcct a k n).halted = s.halted := rfl
@[simp] theorem bumpAcct_puf (a : BitVec 6) (k n : Nat) : (s.bumpAcct a k n).puf = s.puf := rfl
@[simp] theorem bumpAcct_links (a : BitVec 6) (k n : Nat) : (s.bumpAcct a k n).links = s.links := rfl
@[simp] theorem bumpAcct_merge (a : BitVec 6) (k n : Nat) : (s.bumpAcct a k n).merge = s.merge := rfl
@[simp] theorem bumpAcct_smOver (a : BitVec 6) (k n : Nat) : (s.bumpAcct a k n).smOver = s.smOver := rfl
@[simp] theorem bumpAcct_sramCnt (a : BitVec 6) (k n : Nat) : (s.bumpAcct a k n).sramCnt = s.sramCnt := rfl
@[simp] theorem bumpAcct_l2gate (a : BitVec 6) (k n : Nat) : (s.bumpAcct a k n).l2gate = s.l2gate := rfl
@[simp] theorem bumpAcct_mlcgate (a : BitVec 6) (k n : Nat) : (s.bumpAcct a k n).mlcgate = s.mlcgate := rfl
@[simp] theorem bumpAcct_gateBusy (a : BitVec 6) (k n : Nat) : (s.bumpAcct a k n).gateBusy = s.gateBusy := rfl
@[simp] theorem bumpAcct_grade (a : BitVec 6) (k n : Nat) : (s.bumpAcct a k n).grade = s.grade := rfl
@[simp] theorem bumpAcct_groupOver (a : BitVec 6) (k n : Nat) : (s.bumpAcct a k n).groupOver = s.groupOver := rfl
@[simp] theorem bumpAcct_unmap (a : BitVec 6) (k n : Nat) : (s.bumpAcct a k n).unmap = s.unmap := rfl
@[simp] theorem bumpAcct_vqmap (a : BitVec 6) (k n : Nat) : (s.bumpAcct a k n).vqmap = s.vqmap := rfl
@[simp] theorem bumpAcct_badGroups (a : BitVec 6) (k n : Nat) : (s.bumpAcct a k n).badGroups = s.badGroups := rfl
@[simp] theorem bumpAcct_vsmap (a : BitVec 6) (k n : Nat) : (s.bumpAcct a k n).vsmap = s.vsmap := rfl
@[simp] theorem bumpAcct_bankMap (a : BitVec 6) (k n : Nat) : (s.bumpAcct a k n).bankMap = s.bankMap := rfl
@[simp] theorem bumpAcct_rowRepairs (a : BitVec 6) (k n : Nat) : (s.bumpAcct a k n).rowRepairs = s.rowRepairs := rfl
@[simp] theorem bumpAcct_trims (a : BitVec 6) (k n : Nat) : (s.bumpAcct a k n).trims = s.trims := rfl
@[simp] theorem bumpAcct_bankOut (a : BitVec 6) (k n : Nat) : (s.bumpAcct a k n).bankOut = s.bankOut := rfl
@[simp] theorem bumpAcct_failed (a : BitVec 6) (k n : Nat) : (s.bumpAcct a k n).failed = s.failed := rfl
@[simp] theorem bumpAcct_lcnt (a : BitVec 6) (k n : Nat) : (s.bumpAcct a k n).lcnt = s.lcnt := rfl
@[simp] theorem bumpAcct_lcBusy (a : BitVec 6) (k n : Nat) : (s.bumpAcct a k n).lcBusy = s.lcBusy := rfl
@[simp] theorem bumpAcct_energy (a : BitVec 6) (k n : Nat) : (s.bumpAcct a k n).energy = s.energy := rfl
@[simp] theorem bumpAcct_sram (a : BitVec 6) (k n : Nat) : (s.bumpAcct a k n).sram = s.sram := rfl
@[simp] theorem bumpAcct_reqbuf (a : BitVec 6) (k n : Nat) : (s.bumpAcct a k n).reqbuf = s.reqbuf := rfl
@[simp] theorem bumpAcct_rspbuf (a : BitVec 6) (k n : Nat) : (s.bumpAcct a k n).rspbuf = s.rspbuf := rfl
@[simp] theorem bumpAcct_flash (a : BitVec 6) (k n : Nat) : (s.bumpAcct a k n).flash = s.flash := rfl
@[simp] theorem bumpAcct_flashErr (a : BitVec 6) (k n : Nat) : (s.bumpAcct a k n).flashErr = s.flashErr := rfl
@[simp] theorem bumpAcct_hostMem (a : BitVec 6) (k n : Nat) : (s.bumpAcct a k n).hostMem = s.hostMem := rfl
@[simp] theorem bumpAcct_mr (a : BitVec 6) (k n : Nat) : (s.bumpAcct a k n).mr = s.mr := rfl
@[simp] theorem bumpAcct_mrNext (a : BitVec 6) (k n : Nat) : (s.bumpAcct a k n).mrNext = s.mrNext := rfl
@[simp] theorem bumpAcct_devKey (a : BitVec 6) (k n : Nat) : (s.bumpAcct a k n).devKey = s.devKey := rfl
@[simp] theorem bumpAcct_hash (a : BitVec 6) (k n : Nat) : (s.bumpAcct a k n).hash = s.hash := rfl
@[simp] theorem bumpAcct_ceBusy (a : BitVec 6) (k n : Nat) : (s.bumpAcct a k n).ceBusy = s.ceBusy := rfl
@[simp] theorem bumpAcct_bpBusy (a : BitVec 6) (k n : Nat) : (s.bumpAcct a k n).bpBusy = s.bpBusy := rfl
@[simp] theorem bumpAcct_mrBusy (a : BitVec 6) (k n : Nat) : (s.bumpAcct a k n).mrBusy = s.mrBusy := rfl
@[simp] theorem bumpAcct_kdBusy (a : BitVec 6) (k n : Nat) : (s.bumpAcct a k n).kdBusy = s.kdBusy := rfl
@[simp] theorem bumpAcct_draws (a : BitVec 6) (k n : Nat) : (s.bumpAcct a k n).draws = s.draws := rfl
@[simp] theorem bumpAcct_spdm (a : BitVec 6) (k n : Nat) : (s.bumpAcct a k n).spdm = s.spdm := rfl
@[simp] theorem bumpAcct_msix (a : BitVec 6) (k n : Nat) : (s.bumpAcct a k n).msix = s.msix := rfl
@[simp] theorem bumpAcct_pod (a : BitVec 6) (k n : Nat) : (s.bumpAcct a k n).pod = s.pod := rfl
@[simp] theorem bumpAcct_podSize (a : BitVec 6) (k n : Nat) : (s.bumpAcct a k n).podSize = s.podSize := rfl
@[simp] theorem bumpAcct_pkg (a : BitVec 6) (k n : Nat) : (s.bumpAcct a k n).pkg = s.pkg := rfl
@[simp] theorem bumpAcct_podInputs (a : BitVec 6) (k n : Nat) : (s.bumpAcct a k n).podInputs = s.podInputs := rfl
@[simp] theorem bumpAcct_powered (a : BitVec 6) (k n : Nat) : (s.bumpAcct a k n).powered = s.powered := rfl
@[simp] theorem bumpAcct_agenda (a : BitVec 6) (k n : Nat) : (s.bumpAcct a k n).agenda = s.agenda := rfl
@[simp] theorem bumpAcct_todo (a : BitVec 6) (k n : Nat) : (s.bumpAcct a k n).todo = s.todo := rfl
@[simp] theorem bumpAcct_inputs (a : BitVec 6) (k n : Nat) : (s.bumpAcct a k n).inputs = s.inputs := rfl
@[simp] theorem bumpAcct_cur (a : BitVec 6) (k n : Nat) : (s.bumpAcct a k n).cur = s.cur := rfl
@[simp] theorem bumpAcct_hart (a : BitVec 6) (k n : Nat) : (s.bumpAcct a k n).hart = s.hart := rfl

end Sys2Proof.Machine
end

