-- ==== Sys2Proof/Laws/Operands.lean ====
section
/-! SUPPORT. The shared operations of an instruction's issue: looking up threads, hazards, writing a destination, passing to
the next head. -/

namespace Sys2Proof.Machine

variable {s : State}

/-! ### Look-ups -/

@[simp] theorem th_setTh (t u : Tid) (x : Thread) : (s.setTh t x).th u = if u = t then x else s.th u := tget_tset ..
@[simp] theorem th_modTh (t u : Tid) (f : Thread → Thread) : (s.modTh t f).th u = if u = t then f (s.th t) else s.th u :=
  tget_tset ..
@[simp] theorem core_setCore (c d : Cid) (x : Core) : (s.setCore c x).core d = if d = c then x else s.core d := tget_tset ..
@[simp] theorem core_modCore (c d : Cid) (f : Core → Core) :
    (s.modCore c f).core d = if d = c then f (s.core c) else s.core d := tget_tset ..
@[simp] theorem ht_setHt (h k : Hid) (x : Hart) : (s.setHt h x).ht k = if k = h then x else s.ht k := tget_tset ..
@[simp] theorem ht_modHt (h k : Hid) (f : Hart → Hart) : (s.modHt h f).ht k = if k = h then f (s.ht h) else s.ht k :=
  tget_tset ..
@[simp] theorem quad_setQuad (q r : Nat) (x : Quad) : (s.setQuad q x).quad r = if r = q then x else s.quad r := tget_tset ..
@[simp] theorem quad_modQuad (q r : Nat) (f : Quad → Quad) : (s.modQuad q f).quad r = if r = q then f (s.quad q) else s.quad r :=
  tget_tset ..
@[simp] theorem core_modTh (t : Tid) (f : Thread → Thread) (c : Cid) : (s.modTh t f).core c = s.core c := rfl
@[simp] theorem core_setTh (t : Tid) (x : Thread) (c : Cid) : (s.setTh t x).core c = s.core c := rfl
@[simp] theorem quad_modTh (t : Tid) (f : Thread → Thread) (q : Nat) : (s.modTh t f).quad q = s.quad q := rfl
@[simp] theorem quad_setTh (t : Tid) (x : Thread) (q : Nat) : (s.setTh t x).quad q = s.quad q := rfl
@[simp] theorem quad_modCore (c : Cid) (f : Core → Core) (q : Nat) : (s.modCore c f).quad q = s.quad q := rfl
@[simp] theorem th_modCore (c : Cid) (f : Core → Core) (t : Tid) : (s.modCore c f).th t = s.th t := rfl
@[simp] theorem th_modQuad (q : Nat) (f : Quad → Quad) (t : Tid) : (s.modQuad q f).th t = s.th t := rfl
@[simp] theorem core_modQuad (q : Nat) (f : Quad → Quad) (c : Cid) : (s.modQuad q f).core c = s.core c := rfl
@[simp] theorem turn_modTh (t : Tid) (f : Thread → Thread) (q : Nat) : (s.modTh t f).turn q = s.turn q := rfl
@[simp] theorem inTurns_modTh (t : Tid) (f : Thread → Thread) (q n : Nat) : (s.modTh t f).inTurns q n = s.inTurns q n := rfl

@[simp] theorem me_modMe (f : Thread → Thread) : (s.modMe f).me = f s.me := by
  show (s.modTh s.cur f).th s.cur = _
  simp

theorem prevSlot_ne (t : Tid) : prevSlot t ≠ t := by
  obtain ⟨q, c, u⟩ := t
  simp only [prevSlot, ne_eq, Tid.mk.injEq, true_and, Fin.ext_iff]
  omega

/-! ### Hazards -/

theorem srcHazard_go {us : List Use} (h : ∀ u ∈ us, s.srcEmpty u.code = false) : s.srcHazard us = .go := by
  induction us with
  | nil => rfl
  | cons u us ih => simp [State.srcHazard, h u (by simp), ih fun v hv => h v (by simp [hv])]

theorem hazard_go {us : List Use} {ds : List Nat} (h : s.issues us ds) : s.hazard us ds false = .go := by
  simpa [State.hazard, srcHazard_go h.1] using h.2

theorem hazard_go_mem {us : List Use} {ds : List Nat} (h : s.issuesMem us ds) : s.hazard us ds true = .go := by
  simpa [State.hazard, srcHazard_go h.1.1, h.2] using h.1.2

/-- An instruction that can issue has its own effect. -/
theorem issue_go {us : List Use} {ds : List Nat} {k : State → State} (h : s.issues us ds) :
    issue s us ds false k = .next (k s) := by
  simp [issue, hazard_go h]

theorem issue_go_mem {us : List Use} {ds : List Nat} {k : State → State} (h : s.issuesMem us ds) :
    issue s us ds true k = .next (k s) := by
  simp [issue, hazard_go_mem h]

/-- Issue always answers a next state: the instruction's own effect, the blocked slot, or the empty-read fault. -/
theorem issue_cases (us : List Use) (ds : List Nat) (mem : Bool) (k : State → State) :
    issue s us ds mem k = .next (k s) ∨ issue s us ds mem k = .next s.blockMe ∨
      ∃ c, issue s us ds mem k = .next (s.faultMe 0x04 c 0 0) := by
  unfold issue
  split
  · exact .inl rfl
  · exact .inr (.inl rfl)
  · exact .inr (.inr ⟨_, rfl⟩)

/-! ### Full bits -/

theorem getLsbD_bit (c d : Nat) (h : c < 64) : ((1 : BitVec 64) <<< c).getLsbD d = decide (d = c) := by
  have : (BitVec.twoPow 64 c).getLsbD d = decide (d = c) := by simp [h, eq_comm]
  simpa [BitVec.twoPow] using this

theorem isFull_setFull (x : Thread) (c d : Nat) (h : c < 64) : (x.setFull c).isFull d = (x.isFull d || decide (d = c)) := by
  simp only [Thread.setFull, Thread.isFull, BitVec.getLsbD_or, getLsbD_bit c d h]

theorem isFull_setEmpty (x : Thread) (c d : Nat) (h : c < 64) : (x.setEmpty c).isFull d = (x.isFull d && !decide (d = c)) := by
  simp only [Thread.setEmpty, Thread.isFull, BitVec.getLsbD_and, BitVec.getLsbD_not, getLsbD_bit c d h]
  by_cases hd : d < 64
  · simp [hd]
  · have : x.full.getLsbD d = false := BitVec.getLsbD_of_ge _ _ (Nat.le_of_not_lt hd)
    simp [this]

/-! ### Writing a destination and passing on -/

theorem code_lt (d : WReg) : d.code < 64 := by
  cases d with
  | g n => exact Nat.lt_of_lt_of_le n.isLt (by decide)
  | lo => decide

theorem wrCode_g (x : Thread) (turn : Nat) (n : Fin 32) (v : Word) : x.wrCode turn n.val (.s v) = x.wrG n v := by
  have h1 : n.val ≠ 57 := by omega
  simp [Thread.wrCode, h1]

/-- A write of class w leaves every other register alone. -/
theorem keepsRegs_wr (x : Thread) (turn : Nat) (d : WReg) (v : Word) : x.keepsRegs (x.wrCode turn d.code (.s v)) d.code := by
  intro c hc
  cases d with
  | lo =>
    have hc' : c ≠ 57 := hc
    show (({ x with lo := v, loFullFrom := turn + 1 } : Thread).setFull 57).holds c = x.holds c
    simp only [Thread.holds, isFull_setFull _ 57 c (by decide), hc', decide_false, Bool.or_false]
    rfl
  | g n =>
    have hc' : c ≠ n.val := hc
    show (x.wrCode turn n.val (.s v)).holds c = _
    rw [wrCode_g]
    unfold Thread.wrG
    split
    · rfl
    · simp only [Thread.holds, isFull_setFull _ n.val c (by omega), hc', decide_false, Bool.or_false, Prod.mk.injEq]
      refine ⟨?_, rfl⟩
      by_cases h : c < 32
      · simp only [h, dif_pos, Thread.rdG, Thread.setFull]
        by_cases h0 : c = 0
        · simp [h0]
        · simp only [h0, if_false]
          congr 1
          exact Vector.getElem_set_ne _ _ (Ne.symm hc')
      · simp only [h, dif_neg, not_false_eq_true]
        rfl

theorem rest_wr (x : Thread) (turn : Nat) (d : WReg) (v : Word) :
    let y := x.wrCode turn d.code (.s v)
    x.keepsRest y ∧ y.pend = x.pend ∧ y.acq = x.acq ∧ y.pc = x.pc ∧ y.run = x.run := by
  cases d with
  | lo => exact ⟨⟨rfl, rfl, rfl, rfl, rfl, rfl, rfl, rfl, rfl, rfl, rfl, rfl, rfl⟩, rfl, rfl, rfl, rfl⟩
  | g n =>
    simp only [WReg.code, wrCode_g, Thread.wrG]
    split <;> exact ⟨⟨rfl, rfl, rfl, rfl, rfl, rfl, rfl, rfl, rfl, rfl, rfl, rfl, rfl⟩, rfl, rfl, rfl, rfl⟩

theorem next_passed (x : Thread) : x.passed x.next := by
  unfold Thread.passed Thread.next
  by_cases h : headIdx x.pc < lineNH x.line <;> simp [h, Thread.stop]

theorem next_holds (x : Thread) (c : Nat) : x.next.holds c = x.holds c := by
  unfold Thread.next
  split <;> rfl

theorem next_rest (x : Thread) : x.keepsRest x.next ∧ x.next.pend = x.pend ∧ x.next.acq = x.acq := by
  unfold Thread.next
  split <;> exact ⟨⟨rfl, rfl, rfl, rfl, rfl, rfl, rfl, rfl, rfl, rfl, rfl, rfl, rfl⟩, rfl, rfl⟩

theorem takeUses_me (us : List Use) : (s.takeUses us).me = s.me := by
  unfold State.takeUses
  split
  · simp [State.takeLi, State.me, Ne.symm (prevSlot_ne s.cur)]
  · rfl

theorem takeUses_th (us : List Use) {u : Tid} (h : u ≠ s.cur) :
    (s.takeUses us).th u = if (us.any fun x => decide (x.code = 56)) = true ∧ u = prevSlot s.cur
      then ({ s.th u with loFreeFrom := s.turn s.cur.quad + 1 } : Thread).setEmpty 57 else s.th u := by
  unfold State.takeUses
  by_cases hu : (us.any fun x => decide (x.code = 56)) = true
  · by_cases hp : u = prevSlot s.cur
    · subst hp; simp only [hu, if_true, and_self, State.takeLi, th_modTh]
    · simp [hu, hp, State.takeLi]
  · simp only [hu, if_false, false_and, Bool.false_eq_true]

theorem takeUses_only (us : List Use) : s.onlyThreads (s.takeUses us) := by
  unfold State.takeUses
  split <;> rfl

/-- An instruction that changes the current thread by `f` and passes on. -/
theorem retire_spec (us : List Use) (f : Thread → Thread) :
    let t := (s.modMe f).retire us
    s.onlyThreads t ∧ s.onlyMe t us ∧ t.me = (f s.me).next := by
  have hc : ((s.modMe f).takeUses us).cur = s.cur := by unfold State.takeUses; split <;> rfl
  have hme : ((s.modMe f).takeUses us).th s.cur = f s.me := by
    have := takeUses_me (s := s.modMe f) us
    simp only [State.me, hc] at this
    rw [this]
    show (s.modMe f).me = _
    simp
  have he : (s.modMe f).retire us = ((s.modMe f).takeUses us).modTh s.cur Thread.next := by
    show ((s.modMe f).takeUses us).modTh ((s.modMe f).takeUses us).cur Thread.next = _
    rw [hc]
  refine ⟨?_, ?_, ?_⟩
  · unfold State.onlyThreads State.retire State.takeUses
    split <;> rfl
  · intro u hu
    rw [he, th_modTh, if_neg hu, takeUses_th us (s := s.modMe f) hu]
    have hth : (s.modMe f).th u = s.th u := by show (s.modTh s.cur f).th u = _; simp [hu]
    have htn : (s.modMe f).turn (s.modMe f).cur.quad = s.turn s.cur.quad := rfl
    have hcu : (s.modMe f).cur = s.cur := rfl
    rw [hth, htn, hcu]
  · have : ((s.modMe f).retire us).cur = s.cur := by rw [he]; exact hc
    show ((s.modMe f).retire us).th _ = _
    rw [this, he, th_modTh, if_pos rfl, hme]

/-- A scalar result, and the next head. -/
theorem setW_retire (us : List Use) (d : WReg) (v : Word) :
    let t := (s.setW d v).retire us
    s.passes t us d.code ∧ s.wrote t d v := by
  obtain ⟨h1, h2, h3⟩ := retire_spec (s := s) us fun x => x.wrCode (s.turn s.cur.quad) d.code (.s v)
  change ((s.setW d v).retire us).me = _ at h3
  obtain ⟨k1, k2, k5, k3, k4⟩ := rest_wr s.me (s.turn s.cur.quad) d v
  have hp := next_passed (s.me.wrCode (s.turn s.cur.quad) d.code (.s v))
  have hl : (s.me.wrCode (s.turn s.cur.quad) d.code (.s v)).line = s.me.line := k1.2.2.2.2.2.2.2.2.2.2.2.2
  refine ⟨⟨h1, h2, ?_, ?_, ?_, ?_, ?_⟩, ?_⟩
  · rw [h3]; unfold Thread.passed at hp ⊢; rwa [k3, hl] at hp
  · rw [h3]; intro c hc; rw [next_holds]; exact keepsRegs_wr _ _ _ _ c hc
  · rw [h3]
    obtain ⟨n1, -⟩ := next_rest (s.me.wrCode (s.turn s.cur.quad) d.code (.s v))
    unfold Thread.keepsRest at k1 n1 ⊢
    simp only [n1, k1, and_self]
  · rw [h3, (next_rest _).2.1, k2]
  · rw [h3, (next_rest _).2.2, k5]
  · unfold State.wrote
    rw [h3]
    cases d with
    | lo =>
      refine ⟨?_, ?_, ?_⟩
      · unfold Thread.next; split <;> rfl
      · have := congrArg Prod.snd (next_holds (s.me.wrCode (s.turn s.cur.quad) WReg.lo.code (.s v)) 57)
        refine this.trans ?_
        exact (isFull_setFull _ 57 57 (by decide)).trans (by simp)
      · unfold Thread.next; split <;> rfl
    | g n =>
      have hr : ∀ x : Thread, x.next.rdG n = x.rdG n := by intro x; unfold Thread.next; split <;> rfl
      show (s.me.wrCode _ _ _).next.rdG n = _
      rw [hr]
      simp only [WReg.code, wrCode_g, Thread.wrG, Thread.rdG]
      by_cases h0 : n.val = 0
      · simp [h0, Fin.ext_iff]
      · simp [h0, Fin.ext_iff, Thread.setFull]

/-- The arithmetic of two scalar sources, when it can issue. -/
theorem alu2_spec {d : WReg} {a b : SSrc} (f : Word → Word → Word) (h : s.issues [useS a, useS b] [d.code]) :
    ∃ t, alu2 d a b f s = .next t ∧ s.passes t [useS a, useS b] d.code ∧ s.wrote t d (f (s.valS a.reg) (s.valS b.reg)) :=
  ⟨_, issue_go h, setW_retire _ _ _⟩

theorem alu1_spec {d : WReg} {a : SSrc} (f : Word → Word) (h : s.issues [useS a] [d.code]) :
    ∃ t, alu1 d a f s = .next t ∧ s.passes t [useS a] d.code ∧ s.wrote t d (f (s.valS a.reg)) :=
  ⟨_, issue_go h, setW_retire _ _ _⟩

end Sys2Proof.Machine
end

