-- ==== Sys2Proof/Tests/Slice0.lean ====
section
/-! SUPPORT. Tests: terms that the encoding tables do not have; words written out from the encoding tables of chapter 03 field
by field (a head is OP, D, TL, X; a TR tail is A, EA, B, EB, M; 03 R59, R60) with the instruction that each stands for; one
witness of each statement's hypotheses. -/

namespace Sys2Proof.Tests
open Sys2Proof Sys2Proof.Machine

/-! ### Ill-formed terms, one for each check of `WellFormed` -/

/-- An engine command with group at `a` and the given flags. -/
def eng (a : Fin 32) (acq rel : Bool) (sc : BitVec 3) : Eng := ⟨.g 9, a, false, acq, rel, sc, .none⟩

/-- 05 R130: lsb + width above 64. -/
theorem test_wf_field : WellFormed (.bfx false (.g 1) ⟨.g 2, false⟩ 60 7) = false ∧
    WellFormed (.bfi (.g 1) ⟨.g 2, false⟩ 1 63) = false ∧ WellFormed (.bfx false (.g 1) ⟨.g 2, false⟩ 60 3) = true := by decide
/-- 03 R72: `loop` counts in g1 to g31; an `xbr` threshold is 0 to 16. -/
theorem test_wf_control : WellFormed (.loop 0 4 none) = false ∧ WellFormed (.xbr 17 4 0) = false ∧
    WellFormed (.xbr 16 4 0) = true := by decide
/-- 03 R75, 06 R192: `vcvt` between a type and itself, or with a B that it does not read; `vcmp` to p0, or ordered on i32;
`vfd` conversions read no B. -/
theorem test_wf_vector : WellFormed (.vcvt .f32 .f32 1 ⟨2, false⟩ none) = false ∧
    WellFormed (.vcvt .f32 .i32 1 ⟨2, false⟩ (some ⟨3, false⟩)) = false ∧
    WellFormed (.vcvt .bf16x2 .f32 1 ⟨2, false⟩ none) = false ∧ WellFormed (.vcmp .eq .f32 0 ⟨2, false⟩ ⟨3, false⟩) = false ∧
    WellFormed (.vcmp .ordered .i32 1 ⟨2, false⟩ ⟨3, false⟩) = false ∧
    WellFormed (.vfd .add 1 ⟨2, false⟩ none) = false ∧ WellFormed (.vfd .cvtds 1 ⟨2, false⟩ (some ⟨3, false⟩)) = false := by decide
/-- 03 R78, R80, 08 R239: a group from g0, or past g31; an acquire without a scope; a scope above 5. -/
theorem test_wf_engine : WellFormed (.send (eng 0 false false 0) true .loc false) = false ∧
    WellFormed (.csend (eng 28 false false 0)) = false ∧ WellFormed (.csend (eng 27 false false 0)) = true ∧
    WellFormed (.gath (eng 1 true false 0) .i32) = false ∧ WellFormed (.mzero (eng 1 false false 6)) = false ∧
    WellFormed (.scat (eng 26 false false 0) .st .i32) = false ∧ WellFormed (.mbld (eng 28 false false 0)) = false ∧
    WellFormed (.mst (eng 28 false false 0) false) = false := by decide
/-- 08 R254, R255: a matrix format is 2 to 8, of `mcmpr` 2 to 7; `dpop` names g1 to g30 (R262). -/
theorem test_wf_matrix : WellFormed (.mma (eng 1 false false 0) 1 false) = false ∧
    WellFormed (.mma (eng 1 false false 0) 8 false) = true ∧ WellFormed (.mmas (eng 1 false false 0) 9 false) = false ∧
    WellFormed (.mcmpr (eng 1 false false 0) 8) = false ∧ WellFormed (.dpop 31) = false ∧ WellFormed (.dpop 0) = false := by decide
/-- 00 R1, R2, 17 R398, 20 R459: units, quads, links, dies, roots, queues and register offsets that the package does not have. -/
theorem test_wf_units : WellFormed (.fpPark ⟨0, 1, 16⟩) = false ∧ WellFormed (.laneGroupWork 960) = false ∧
    WellFormed (.stallTimer (.ctl ⟨960, 0⟩)) = false ∧ WellFormed (.lqpost 32 0) = false ∧
    WellFormed (.laneRetire 114 0) = false ∧ WellFormed (.linkCounterDump 8) = false ∧ WellFormed (.mlcwgRequest 12 0) = false ∧
    WellFormed (.wayGatingDone true 8) = false ∧ WellFormed (.broadcastDelivery ⟨960, 0⟩ 0 1) = false ∧
    WellFormed (.registerWrite .mgmt 4 0) = false ∧ WellFormed (.registerWrite (.die 8) 0 0) = false := by decide

/-! ### Words of the integer and address operations (03 R71) -/

theorem test_decode_integer_a :
    decodeMicro 0b0000001_000101_01_0 [0b000011_1_000100_0_00] = some (.add (.g 5) ⟨.g 3, true⟩ ⟨.g 4, false⟩) ∧
    decodeMicro 0b0000010_111001_01_0 [0b111000_0_011111_1_00] = some (.sub .lo ⟨.li, false⟩ ⟨.g 31, true⟩) ∧
    decodeMicro 0x062C [0x1400, 0xFFFF] = some (.addk (.g 5) ⟨.g 5, false⟩ (.k16 0xFFFF)) ∧
    decodeMicro 0b0000011_000001_11_0 [0b000010_0_000000_0_00, 0x5678, 0x1234] =
      some (.addk (.g 1) ⟨.g 2, false⟩ (.k32 0x12345678)) ∧
    decodeMicro 0b0000100_000001_01_0 [0b111010_0_111011_0_00] = some (.mul (.g 1) ⟨.sid, false⟩ ⟨.cid, false⟩) ∧
    decodeMicro 0b0000101_000010_01_0 [0b000001_0_000010_0_10] = some (.mulh .sz (.g 2) ⟨.g 1, false⟩ ⟨.g 2, false⟩) ∧
    decodeMicro 0b0000110_000010_01_0 [0b000001_0_000010_0_01] = some (.div false (.g 2) ⟨.g 1, false⟩ ⟨.g 2, false⟩) ∧
    decodeMicro 0b0000111_000010_01_0 [0b000001_0_000010_0_00] = some (.rem true (.g 2) ⟨.g 1, false⟩ ⟨.g 2, false⟩) := by decide
theorem test_decode_integer_b :
    decodeMicro 0b0001000_000111_01_0 [0b000001_0_111100_0_00] = some (.and (.g 7) ⟨.g 1, false⟩ ⟨.turn, false⟩) ∧
    decodeMicro 0b0001001_000111_01_0 [0b000001_0_000010_0_00] = some (.or (.g 7) ⟨.g 1, false⟩ ⟨.g 2, false⟩) ∧
    decodeMicro 0b0001010_000111_01_0 [0b000001_0_000010_0_00] = some (.xor (.g 7) ⟨.g 1, false⟩ ⟨.g 2, false⟩) ∧
    decodeMicro 0b0001011_000111_10_0 [0b000001_0_000000_0_11, 0xFF00] = some (.logk .andn (.g 7) ⟨.g 1, false⟩ (.k16 0xFF00)) ∧
    decodeMicro 0b0001100_000011_10_0 [0b000001_0_000000_0_00, 63] = some (.shl (.g 3) ⟨.g 1, false⟩ (.imm 63)) ∧
    decodeMicro 0b0001100_000011_01_0 [0b000001_0_000010_0_00] = some (.shl (.g 3) ⟨.g 1, false⟩ (.reg ⟨.g 2, false⟩)) ∧
    decodeMicro 0b0001101_000011_10_0 [0b000001_0_000000_0_01, 1] = some (.shr true (.g 3) ⟨.g 1, false⟩ (.imm 1)) ∧
    decodeMicro 0b0001110_000011_01_0 [0b000001_0_000010_0_11] = some (.mnx .maxz (.g 3) ⟨.g 1, false⟩ ⟨.g 2, false⟩) ∧
    decodeMicro 0b0001111_000011_01_0 [0b000001_0_000000_0_10] = some (.bcnt .popc (.g 3) ⟨.g 1, false⟩) := by decide
theorem test_decode_integer_c :
    decodeMicro 0x2036 [0x789A, 0x3456, 0x0012] = some (.movk (.g 6) (.k48 0x123456789A)) ∧
    decodeMicro 0b0010001_100001_01_0 [0b101111_1_000000_0_00] = some (.mov (.vv 1 ⟨15, true⟩)) ∧
    decodeMicro 0b0010001_110001_01_0 [0b000101_0_000000_0_00] = some (.mov (.ps 1 ⟨.g 5, false⟩)) ∧
    decodeMicro 0b0010001_000101_01_0 [0b110111_0_000000_0_00] = some (.mov (.sp (.g 5) ⟨7, false⟩)) ∧
    decodeMicro 0b0010010_000101_10_0 [0b000001_0_000010_0_00, 7] = some (.sel (.g 5) ⟨.g 1, false⟩ ⟨.g 2, false⟩ 7) ∧
    decodeMicro 0b0010011_000101_01_0 [0b000001_0_000010_0_10] = some (.cmp .lt (.g 5) ⟨.g 1, false⟩ ⟨.g 2, false⟩) ∧
    decodeMicro 0b0010100_000101_01_0 [0b000001_0_000010_0_11] = some (.cmpz .gtu (.g 5) ⟨.g 1, false⟩ ⟨.g 2, false⟩) ∧
    decodeMicro 0b0010101_001010_11_0 [0x01D2, 0x1100, 0x0006] =
      some (.lea (.g 10) ⟨.g 0, false⟩ ⟨.sid, false⟩ 2 (.k32 0x00061100)) ∧
    decodeMicro 0b0010110_000101_10_0 [0b000001_0_000000_0_01, 31] = some (.ext true (.g 5) ⟨.g 1, false⟩ 31) ∧
    decodeMicro 0b0010111_000101_10_0 [0b000001_0_000000_0_01, 0b0000_000111_111000] =
      some (.bfx true (.g 5) ⟨.g 1, false⟩ 56 7) ∧
    decodeMicro 0b0011000_000101_10_0 [0b000001_0_000000_0_00, 0b0000_000011_001000] =
      some (.bfi (.g 5) ⟨.g 1, false⟩ 8 3) := by decide

/-! ### Words of the control and grain operations (03 R72) -/

theorem test_decode_control :
    decodeMicro 0b0100000_000000_10_0 [0x0000, 0x0001] = some (.br (.k32 0x10000)) ∧
    decodeMicro 0x4217 [0x1400, 0x0002, 0x0000] = some (.bc .lt ⟨.g 5, false⟩ ⟨.g 0, false⟩ 2 (some 0)) ∧
    decodeMicro 0b0100010_011111_01_0 [0xFFFE] = some (.loop 31 0xFFFE none) ∧
    decodeMicro 0x4600 [] = some .fetch ∧ decodeMicro 0b0100011_000000_01_0 [3] = some (.fetchLines 3) ∧
    decodeMicro 0b0100100_111001_01_0 [8] = some (.call .lo (.k16 8)) ∧
    decodeMicro 0b0100101_000000_01_0 [0x2400] = some (.jmp ⟨.g 9, false⟩) ∧
    decodeMicro 0x4C00 [] = some .stop ∧
    decodeMicro 0b0100111_000000_01_0 [2] = some (.pfi (.line 2)) ∧
    decodeMicro 0b0100111_000000_10_0 [0x2400, 0x0000] = some (.pfi (.addr ⟨.g 9, false⟩ 0)) ∧
    decodeMicro 0b0101101_000000_00_0 [] = some .nop ∧ decodeMicro 0b0101110_000000_00_0 [] = some .yield := by decide
theorem test_decode_grain :
    decodeMicro 0b0101000_000101_01_1 [9] = some (.xrd (.g 5) 9) ∧
    decodeMicro 0b0101001_010000_10_1 [4, 9] = some (.xbr 16 4 9) ∧
    decodeMicro 0b0101010_000101_10_1 [0b000001_0_000010_0_10, 9] = some (.xsel .lm (.g 5) ⟨.g 1, false⟩ ⟨.g 2, false⟩ 9) ∧
    decodeMicro 0b0101011_000000_10_1 [0b000001_0_000010_0_00, 9] = some (.xpf ⟨.g 1, false⟩ ⟨.g 2, false⟩ 9) ∧
    decodeMicro 0b0101100_000101_10_1 [4, 9] = some (.xunr (.g 5) .c4 9) := by decide

/-! ### Words of the memory and stream operations (03 R74) -/

theorem test_decode_memory :
    decodeMicro 0b0110000_000101_10_0 [0x1003, 0xFFF8] = some (.ld .d (.g 5) ⟨.g 4, false⟩ 0xFFF8 none) ∧
    decodeMicro 0b0110001_000101_11_1 [0b000100_0_000000_0_01, 2, 7] = some (.ldz .h (.g 5) ⟨.g 4, false⟩ 2 (some 7)) ∧
    decodeMicro 0b0110010_000101_11_0 [0b000100_0_000000_0_10, 4, 5] = some (.ldAcq .w (.g 5) ⟨.g 4, false⟩ 4 .pod) ∧
    decodeMicro 0b0110011_111000_10_0 [0x1003, 0] = some (.st .d .li ⟨.g 4, false⟩ 0) ∧
    decodeMicro 0b0110100_000101_11_0 [0b000100_0_000000_0_00, 0, 2] = some (.stRel .b (.g 5) ⟨.g 4, false⟩ 0 .quad) ∧
    decodeMicro 0b0110101_010001_10_0 [0x0C00, 0x001C] = some (.lld (.s (.g 17)) ⟨.g 3, false⟩ 28) ∧
    decodeMicro 0b0110101_100001_10_0 [0x0C00, 0] = some (.lld (.v 1) ⟨.g 3, false⟩ 0) ∧
    decodeMicro 0b0110110_100011_10_0 [0x0C00, 0] = some (.lst (.v 3) ⟨.g 3, false⟩ 0) ∧
    decodeMicro 0b0110111_100001_10_0 [0b000100_0_000000_0_00, 64] = some (.vld 1 ⟨.g 4, false⟩ 64 none) ∧
    decodeMicro 0b0111000_100001_10_0 [0b000100_0_000000_0_00, 64] = some (.vst 1 ⟨.g 4, false⟩ 64) := by decide
theorem test_decode_lanes_streams :
    decodeMicro 0b0111001_100001_01_0 [0b000011_0_100010_0_10] = some (.vldx 1 ⟨.g 3, false⟩ ⟨2, false⟩ .w) ∧
    decodeMicro 0b0111010_100001_01_0 [0b000011_0_100010_1_00] = some (.vstx 1 ⟨.g 3, false⟩ ⟨2, true⟩ .b) ∧
    decodeMicro 0b0111011_100001_10_1 [0b000011_0_100010_0_11, 5] = some (.vldg 1 ⟨.g 3, false⟩ ⟨2, false⟩ .d (some 5)) ∧
    decodeMicro 0b0111100_100001_01_0 [0b000011_0_100010_0_01] = some (.vstg 1 ⟨.g 3, false⟩ ⟨2, false⟩ .h) ∧
    decodeMicro 0b0111101_101101_01_0 [0x1029] = some (.sbind 1 (.wr ⟨.g 4, false⟩ ⟨.g 5, false⟩)) ∧
    decodeMicro 0b0111101_101100_01_0 [0x0C28] = some (.sbind 0 (.rd ⟨.g 3, false⟩ ⟨.g 5, false⟩)) ∧
    decodeMicro 0b0111110_101100_01_0 [0xFFFE] = some (.sloop 0 0xFFFE none) ∧
    decodeMicro 0b0111111_000000_10_0 [0b000100_0_000000_0_10, 0] = some (.pfd .mlc ⟨.g 4, false⟩ 0) := by decide

/-! ### Words of the vector unit (03 R75; 06 R198) -/

theorem test_decode_vector_a :
    decodeMicro 0b1000000_100011_01_0 [0x8510] = some (.vadd .f32 3 ⟨1, false⟩ ⟨2, false⟩) ∧
    decodeMicro 0b1000001_100011_01_0 [0b100001_0_100010_0_01] = some (.vsub .i32 3 ⟨1, false⟩ ⟨2, false⟩) ∧
    decodeMicro 0b1000010_100011_01_0 [0x8508] = some (.vmul .f32 3 ⟨1, false⟩ ⟨1, false⟩) ∧
    decodeMicro 0b1000011_100011_01_0 [0b100001_0_100010_0_10] = some (.vfma .bf16x2 3 ⟨1, false⟩ ⟨2, false⟩) ∧
    decodeMicro 0b1000100_100011_01_0 [0b100001_0_100010_0_11] = some (.vmin .f16x2 3 ⟨1, false⟩ ⟨2, false⟩) ∧
    decodeMicro 0b1000101_100011_01_0 [0b100001_0_100010_0_00] = some (.vmax .f32 3 ⟨1, false⟩ ⟨2, false⟩) ∧
    decodeMicro 0b1000110_100011_01_0 [0b100001_0_000000_0_00] = some (.vabs .f32 3 ⟨1, false⟩) ∧
    decodeMicro 0b1000111_100011_01_0 [0b100001_1_000000_0_01] = some (.vneg .i32 3 ⟨1, true⟩) ∧
    decodeMicro 0b1001000_100011_01_0 [0b100001_0_100010_0_00] = some (.vand 3 ⟨1, false⟩ ⟨2, false⟩) ∧
    decodeMicro 0b1001001_100011_01_0 [0b100001_0_100010_0_00] = some (.vor 3 ⟨1, false⟩ ⟨2, false⟩) ∧
    decodeMicro 0b1001010_100011_01_0 [0b100001_0_100010_0_00] = some (.vxor 3 ⟨1, false⟩ ⟨2, false⟩) ∧
    decodeMicro 0b1001011_100011_10_0 [0b100001_0_000000_0_00, 31] = some (.vshl 3 ⟨1, false⟩ (.imm 31)) ∧
    decodeMicro 0b1001100_100011_01_0 [0b100001_0_100010_0_01] = some (.vshr true 3 ⟨1, false⟩ (.reg ⟨2, false⟩)) ∧
    decodeMicro 0b1001101_100011_01_0 [0b100001_0_000000_0_00] = some (.vrcp 3 ⟨1, false⟩) ∧
    decodeMicro 0b1001110_100011_01_0 [0b100001_0_000000_0_00] = some (.vrsq 3 ⟨1, false⟩) ∧
    decodeMicro 0b1001111_100011_01_0 [0b100001_0_000000_0_00] = some (.vex2 3 ⟨1, false⟩) ∧
    decodeMicro 0b1010000_100011_01_0 [0b100001_0_000000_0_00] = some (.vlg2 3 ⟨1, false⟩) := by decide
theorem test_decode_vector_b :
    decodeMicro 0b1010001_100011_10_0 [0b100001_0_000000_0_01, 0] = some (.vcvt .i32 .f32 3 ⟨1, false⟩ none) ∧
    decodeMicro 0b1010001_100011_10_0 [0b100001_0_100010_0_10, 0] = some (.vcvt .bf16x2 .f32 3 ⟨1, false⟩ (some ⟨2, false⟩)) ∧
    decodeMicro 0b1010010_110001_10_0 [0b100001_0_100010_0_00, 7] = some (.vcmp .unordered .f32 1 ⟨1, false⟩ ⟨2, false⟩) ∧
    decodeMicro 0b1010011_100011_10_0 [0b100001_0_100010_0_00, 2] = some (.vsel 3 ⟨1, false⟩ ⟨2, false⟩ 2) ∧
    decodeMicro 0b1010100_000101_10_0 [0x8C00, 0] = some (.vred .sum .f32 (.g 5) ⟨3, false⟩) ∧
    decodeMicro 0b1010101_100011_01_0 [0b111010_0_000000_0_00] = some (.vbc 3 ⟨.sid, false⟩) ∧
    decodeMicro 0b1010110_000101_10_0 [0b100001_0_000000_0_00, 15] = some (.vget (.g 5) ⟨1, false⟩ 15) ∧
    decodeMicro 0b1010111_100011_10_0 [0b000101_0_000000_0_00, 15] = some (.vput 3 ⟨.g 5, false⟩ 15) ∧
    decodeMicro 0b1011000_100011_01_0 [0b100001_0_100010_0_00] = some (.vperm 3 ⟨1, false⟩ ⟨2, false⟩) ∧
    decodeMicro 0b1011001_100011_01_0 [0b100001_0_100010_0_11] = some (.vdot true 3 ⟨1, false⟩ ⟨2, false⟩) ∧
    decodeMicro 0b1011010_100011_01_0 [0b100001_0_000101_0_00] = some (.vscl .f32 3 ⟨1, false⟩ ⟨.g 5, false⟩) ∧
    decodeMicro 0b1011011_100011_00_0 [] = some (.viota 3) ∧
    decodeMicro 0b1011011_100011_01_0 [0xFFFF] = some (.viotaStart 3 0xFFFF) ∧
    decodeMicro 0b1011100_100011_10_0 [0b100001_0_100010_0_00, 3] = some (.vfd .fma 3 ⟨1, false⟩ (some ⟨2, false⟩)) ∧
    decodeMicro 0b1011100_100011_10_0 [0b100001_0_000000_0_00, 6] = some (.vfd .cvtds 3 ⟨1, false⟩ none) := by decide

/-! ### Words of the synchronisation and system operations (03 R76) -/

theorem test_decode_sync :
    decodeMicro 0b1100000_000101_10_0 [0b000001_0_000010_0_11, 0b0000000_101_01_1000] =
      some (.amo .swap true (.acq .pod) (.g 5) ⟨.g 1, false⟩ ⟨.g 2, false⟩) ∧
    decodeMicro 0b1100001_000101_10_0 [0b000001_0_000010_0_10, 0b0000000_010_11_0000] =
      some (.cas false (.ar .quad) (.g 5) ⟨.g 1, false⟩ ⟨.g 2, false⟩) ∧
    decodeMicro 0b1100010_000101_10_0 [0b000001_0_000010_0_10, 0b0000000_000_00_0010] =
      some (.amof .max false .relaxed (.g 5) ⟨.g 1, false⟩ ⟨.g 2, false⟩) ∧
    decodeMicro 0b1100011_000000_01_0 [0b00000000000_011_10] = some (.fence .rel .die) ∧
    decodeMicro 0b1100100_000101_10_0 [0x1C18, 0] = some (.wait .eq false (.g 5) ⟨.g 7, false⟩ ⟨.g 3, false⟩) ∧
    decodeMicro 0b1100100_000101_10_0 [0b000111_0_000011_0_10, 1] = some (.wait .gem true (.g 5) ⟨.g 7, false⟩ ⟨.g 3, false⟩) ∧
    decodeMicro 0b1100101_000000_01_0 [0b000001_0_000010_0_00] = some (.mbinc ⟨.g 1, false⟩ ⟨.g 2, false⟩) ∧
    decodeMicro 0b1100110_000101_01_0 [0b000001_0_000000_0_00] = some (.mbrd (.g 5) ⟨.g 1, false⟩) ∧
    decodeMicro 0b1100111_000101_10_0 [0, 31] = some (.rgwait (.g 5) 31) ∧
    decodeMicro 0b1101000_000000_10_0 [0b000000_0_000010_0_00, 31] = some (.rgrel 31 ⟨.g 2, false⟩) ∧
    decodeMicro 0b1101001_000000_01_0 [0b00000000_1111_0_011] = some (.barArrive .die 15) ∧
    decodeMicro 0b1101001_000000_01_0 [0b00000000_0011_1_001] = some (.barWait .core 3) ∧
    decodeMicro 0b1101010_000101_01_0 [0b000001_0_000000_0_00] = some (.lck (.g 5) ⟨.g 1, false⟩) ∧
    decodeMicro 0b1101011_000000_01_0 [0b000001_0_000000_0_00] = some (.ulck ⟨.g 1, false⟩) ∧
    decodeMicro 0xD800 [] = some .ifence ∧
    decodeMicro 0b1101101_000000_01_0 [0xFFFF] = some (.trap 0xFFFF) ∧
    decodeMicro 0b1101110_000101_01_0 [0x010] = some (.rdsr (.g 5) 0x010) ∧
    decodeMicro 0b1101111_000000_10_0 [0b000001_0_000000_0_00, 0x010] = some (.wrsr 0x010 ⟨.g 1, false⟩) := by decide

/-! ### Words of the engine commands (03 R77 to R79; 08 R241 to R262) -/

theorem test_decode_engines :
    decodeMicro (0xE006 ||| (9 <<< 3)) [0x0400, 0b1_1_0_011_01_1_0000000, 0b10_000100_000101_00] =
      some (.send ⟨.g 9, 1, false, true, false, 3, .inc 4 5⟩ true .ring true) ∧
    decodeMicro (0xE206 ||| (9 <<< 3)) [0x0400, 0, 0] = some (.csend (eng 1 false false 0)) ∧
    decodeMicro 0xE44E [0x0400, 0x2800, 0x4A2C] = some (.gath ⟨.g 9, 1, false, false, true, 2, .st 10 11⟩ .i32) ∧
    decodeMicro 0b1110011_001001_11_0 [0b000001_1_000000_0_01, 0b0_0_0_000_00000000_10, 0] =
      some (.scat ⟨.g 9, 1, true, false, false, 0, .none⟩ .addf .u32) ∧
    decodeMicro 0b1110100_001001_11_0 [0x0400, 0, 0] = some (.mzero (eng 1 false false 0)) ∧
    decodeMicro 0b1110101_001001_11_0 [0x0C00, 0, 0] = some (.mbld (eng 3 false false 0)) ∧
    decodeMicro 0b1110110_001001_11_0 [0x0400, 0x4412, 0] = some (.mma (eng 1 true false 1) 2 true) ∧
    decodeMicro 0b1110111_001001_11_0 [0x0400, 0b0_0_0_000_00000_0_0111, 0] = some (.mmas (eng 1 false false 0) 7 false) ∧
    decodeMicro 0b1111000_001001_11_0 [0x0400, 7, 0] = some (.mcmpr (eng 1 false false 0) 7) ∧
    decodeMicro 0b1111001_001001_11_0 [0x0400, 0x2400, 0x470C] =
      some (.mst ⟨.g 9, 1, false, false, true, 1, .st 7 3⟩ false) ∧
    decodeMicro 0b1111010_000101_01_0 [0b000001_0_000000_0_00] = some (.dpush (.g 5) ⟨.g 1, false⟩) ∧
    decodeMicro 0b1111010_011110_01_0 [0b000000_0_000000_0_01] = some (.dpop 30) ∧
    decodeMicro 0b1111010_000101_01_0 [0b000000_0_000000_0_10] = some (.dsplit (.g 5)) ∧
    decodeMicro 0b1111010_000101_01_0 [0b000000_0_000000_0_11] = some (.dlen (.g 5)) := by decide

/-! ### Words of the control thread (03 R83 to R85; 08 R273) -/

theorem test_decode_kz :
    decode32 0x00B5000B = .kzBcast 10 11 ∧ decode32 0x0205800B = .kzWait 11 ∧
    decode32 0b0000010_00000_01010_000_00000_0001011 = .kzFork 10 ∧
    decode32 0b0000011_00000_00000_000_00000_0001011 = .kzJoin ∧
    decode32 0b0000100_00000_00000_000_00000_0001011 = .kzLease ∧
    decode32 0b0000101_00000_00000_000_00000_0001011 = .kzUnlease ∧
    decode32 0b0000110_01011_01010_000_01100_0001011 = .kzFault 12 10 11 ∧
    decode32 0b0000111_01011_01010_000_00000_0001011 = .kzResume 10 11 ∧
    decode32 0b0001000_00000_01010_000_00000_0001011 = .kzKill 10 ∧
    decode32 0b0001001_00000_01010_000_01100_0001011 = .kzRdsl 12 10 ∧
    decode32 0b0001010_01011_01010_000_00000_0001011 = .kzWrsl 10 11 ∧
    decode32 0b0001011_00000_01010_000_01100_0001011 = .kzTask 12 10 := by decide
/-- 03 R85: a `kz` word with a register in an x0 field, a funct3 that is not 0 or a funct7 above 0x0B. -/
theorem test_decode_kz_refused :
    decode32 0b0000011_00000_00000_000_00001_0001011 = .rv64 (.illegal 0x0600008B) false ∧
    decode32 0b0000011_00000_00000_001_00000_0001011 = .rv64 (.illegal 0x0600100B) false ∧
    decode32 0b0001100_00000_00000_000_00000_0001011 = .rv64 (.illegal 0x1800000B) false := by decide
/-- RV64 words (log 5), by the base's own formats: I, R, S, B, U, J, shifts, AMO, CSR, and a compressed one. -/
theorem test_decode_rv64 :
    decode32 0b111111111111_00010_000_00001_0010011 = .rv64 (.opImm .addi 1 2 0xFFF) false ∧
    decode32 0b0100000_00011_00010_000_00001_0110011 = .rv64 (.op .sub 1 2 3) false ∧
    decode32 0b0000000_00011_00010_011_01000_0100011 = .rv64 (.store .d 2 3 8) false ∧
    decode32 0b0_000000_00011_00010_000_0100_0_1100011 = .rv64 (.branch .beq 2 3 4) false ∧
    decode32 0b00010010001101000101_00001_0110111 = .rv64 (.lui 1 0x12345) false ∧
    decode32 0b0_0000000100_0_00000000_00001_1101111 = .rv64 (.jal 1 4) false ∧
    decode32 0b010000_000101_00010_101_00001_0010011 = .rv64 (.opImm .srai 1 2 5) false ∧
    decode32 0b00001_1_0_00011_00010_011_00001_0101111 = .rv64 (.amo .swap true true false 1 2 3) false ∧
    decode32 0b001100000101_00010_001_00001_1110011 = .rv64 (.csr .rw 1 2 0x305) false ∧
    decode32 0b0011000_00010_00000_000_00000_1110011 = .rv64 .mret false ∧
    decode16 0b000_0_00001_00101_01 = .rv64 (.opImm .addi 1 1 5) true := by decide

/-! ### Fates of encodings that are not instructions (03 R64, R70, R82) -/

theorem test_decode_refused :
    decodeMicro 0 [] = none ∧ decodeMicro 0b0011001_000000_00_0 [] = none ∧ decodeMicro 0b0101111_000000_00_0 [] = none ∧
    decodeMicro 0b1011101_100000_00_0 [] = none ∧ decodeMicro 0b1111011_000000_00_0 [] = none ∧
    decodeMicro 0b0000001_000101_01_0 [0b000011_0_000100_0_01] = none ∧
    decodeMicro 0b0000001_111000_01_0 [0b000011_0_000100_0_00] = none ∧
    decodeMicro 0b0000001_000101_01_0 [0b111001_0_000100_0_00] = none ∧
    decodeMicro 0b0000101_000010_01_0 [0b000001_0_000010_0_11] = none ∧
    decodeMicro 0b0100110_000001_00_0 [] = none ∧ decodeMicro 0x4216 [0x1400, 2, 0] = none ∧
    decodeMicro 0x4217 [0x1402, 2, 0] = none ∧ decodeMicro 0b0100001_000110_10_0 [0, 2] = none ∧
    decodeMicro 0b1100000_000101_10_0 [0b000001_0_000010_0_11, 0b0000000_110_00_0000] = none ∧
    decodeMicro 0xE44E [0x0400, 0x2800, 0x4A2D] = none ∧ decodeMicro 0xE44E [0x0400, 0x2800, 0xCA2C] = none ∧
    decodeMicro 0xE44E [0x0000, 0x2800, 0x4A2C] = none := by decide

/-! ### The line of 03 "Decoding a line by hand" -/

/-- The line, with some of its halfwords changed. -/
def chk (f : Nat → Half → Half) : Line := Vector.ofFn fun i => f i.val
  (([0x2200, 0x2036, 0x4217, 0x062C, 0x4C00] ++ List.replicate 19 0 ++
    [0xFFFF, 0x1400, 0x0000, 0x0002, 0x1400, 0x0012, 0x3456, 0x789A] : List Half).getD i.val 0)
/-- Halfword `k` becomes `v`. -/
def put (k : Nat) (v : Half) : Nat → Half → Half := fun i h => if i = k then v else h

theorem test_line : lineLegal (chk fun _ h => h) false = true ∧
    (List.range 4).map (fun i => decodeHead (chk fun _ h => h) (i + 1)) =
      [some (.movk (.g 6) (.k48 0x123456789A)), some (.bc .lt ⟨.g 5, false⟩ ⟨.g 0, false⟩ 2 (some 0)),
       some (.addk (.g 5) ⟨.g 5, false⟩ (.k16 0xFFFF)), some .stop] := by decide
theorem test_line_changes : lineLegal (chk (put 0 0x21C0)) false = false ∧ lineLegal (chk (put 23 1)) false = false ∧
    lineLegal (chk (put 0 0x2220)) false = false ∧ lineLegal (chk (put 0 0x2220)) true = false ∧
    lineLegal (chk (put 2 0x4216)) false = true ∧ decodeHead (chk (put 2 0x4216)) 2 = none ∧
    decodeHead (chk (put 28 0x1402)) 2 = none ∧ decodeHead (chk (put 4 0)) 4 = none := by decide

/-- 17 R395: FIPS 197, section 5.1.1 and its worked products: SubBytes of 53, its inverse, the column DB 13 53 45; and x^127 doubled
modulo the polynomial of XTS (IEEE 1619). -/
theorem test_aes_parts : boxAt aesBox 0x53 = 0xED ∧ boxAt aesInvBox 0xED = 0x53 ∧
    mixColumn [2, 3, 1, 1] [0xDB, 0x13, 0x53, 0x45] = [0x8E, 0x4D, 0xA1, 0xBC] ∧ gfTimes 0x57 2 = 0xAE ∧ gfTimes 0xAE 2 = 0x47 ∧
    xtsNext (2 ^ 127) = 0x87 := by decide

/-! ### Witnesses: a small state, and for each statement operands that meet its hypotheses -/

/-- The current thread: slot 0 of core 0 of quad 0, running at head 1 of the line above at 0x80_4000, its private window open. -/
def thr0 : Thread := { Thread.init with
  run := .running, pc := 0x804002, line := chk fun _ h => h, pwin := 0x8000000001E00000
  g := Vector.ofFn fun i => ([0, 1, 0x80, 0x800040, 5, 3, 0x20000, 0x8000000000000000, 0xFFFFFFFFFFFFFFFF, 0x804042, 0x804008,
    0x0100000000000000, 0x800041, 0xA00000, 16, 0x800005, 0x1E0000, 0x1DFFFC, 0x1000000FF, 0xFFFFFFFF00000000, 0xFFFFC,
    0x800000, 0x40, 0x800044, 2, 0x804043, 0xFFFF0000, 0x8FFFF8, 0, 33, 34, 35] : List Word).getD i.val 0 }
def line0 : L2Line := ⟨0, 0x20001, 0x100040, 0, BitVec.allOnes 64, 0, 0, [], false, 0, none, false, zeroLine, 0, 0⟩
def launch0 : Launch := ⟨0, 0, (List.range 32).map fun i => if i = 10 then 0x00040000 else 0, [⟨0, 0⟩], [(0x800000, 0x900000)],
  true, 0, false, 0, [0], [], [], [], 0, 0, false⟩
def core0 : Core := { Core.init with launch := some 0, plb := [(0, 7)], icache := [⟨0x804040 / 64, chk fun _ h => h, 0, 0⟩] }
/-- The package: core 0 runs a launch whose lease is 0x80_0000 to 0x8F_FFFF; the L2 holds the line at 0x80_0040, the MLC its
frame; domain 0 holds a key. -/
def w0 : State := (({ State.reset with
  agenda := [], thr := [(⟨0, 0, 0⟩, thr0)], cores := [(⟨0, 0⟩, core0)], launches := [(0, launch0)], l2 := [line0]
  mlc := [⟨0x100040 / 64, none, false, none, 0, 0, 0, 0, false⟩] } : State).setMreg 0x118 1).setMreg 0x40 0xFFF00
/-- The same with another thread. -/
def withThr (f : Thread → Thread) : State := w0.modTh ⟨0, 0, 0⟩ f

def S (n : Fin 32) : SSrc := ⟨.g n, false⟩
def V (n : Fin 16) : VSrc := ⟨n, false⟩

theorem issues_of {s : State} {us : List Use} {ds : List Nat} (h : (us.all fun u => !s.srcEmpty u.code) = true)
    (k : (ds.all fun d => !s.dstBusy d) = true) : s.issues us ds := by
  simp only [List.all_eq_true, Bool.not_eq_true'] at h k
  exact ⟨h, k⟩
theorem issuesMem_of {s : State} {us : List Use} {ds : List Nat} (h : (us.all fun u => !s.srcEmpty u.code) = true)
    (k : (ds.all fun d => !s.dstBusy d) = true) (a : s.me.acqHolds = false) : s.issuesMem us ds := ⟨issues_of h k, a⟩
theorem unbound_of {s : State} {rs : List VReg} (h : (rs.all fun r => (s.me.bindOf (vCode r)).isNone) = true) : s.unbound rs := by
  intro r hr
  have := List.all_eq_true.mp h r hr
  simpa using this

/-- ScalarArithmetic: two sources or one, a destination that counts, g0, and `lo`; the shift count is 63 and, with its bits above 5,
64; the operand has its sign bit set. -/
theorem witness_ScalarArithmetic : w0.issues [useS (S 7), useS (S 8)] [31] ∧ w0.issues [useS (S 7), useS (S 22)] [0] ∧
    w0.issues [useS ⟨.turn, true⟩] [57] ∧ (w0.valS (.g 8)).toNat % 64 = 63 ∧ (w0.valS (.g 22)).toNat % 64 = 0 :=
  ⟨issues_of (by decide) (by decide), issues_of (by decide) (by decide), issues_of (by decide) (by decide), by decide, by decide⟩
/-- ScalarDivision: the divisor is 0, and the corner of R125. -/
theorem witness_ScalarDivision : w0.issues [useS (S 7), useS (S 0)] [31] ∧ w0.valS (.g 0) = 0 ∧
    w0.issues [useS (S 7), useS (S 8)] [31] ∧ w0.valS (.g 7) = 0x8000000000000000 ∧ w0.valS (.g 8) = 0xFFFFFFFFFFFFFFFF :=
  ⟨issues_of (by decide) (by decide), by decide, issues_of (by decide) (by decide), by decide, by decide⟩
/-- SelectsAndCompares: p0, p7, and an empty p7. -/
theorem witness_SelectsAndCompares : w0.issues [] [31] ∧ w0.issues [useS (S 1), useS (S 2), useC (pCode 0)] [31] ∧
    w0.issues [useS (S 1), useS (S 2), useC (pCode 7)] [31] ∧
    (withThr (·.setEmpty 55)).issues [useS (S 1), useS (S 2)] [] ∧ (withThr (·.setEmpty 55)).srcEmpty (pCode 7) = true :=
  ⟨issues_of (by decide) (by decide), issues_of (by decide) (by decide), issues_of (by decide) (by decide),
   issues_of (by decide) (by decide), by decide⟩
theorem witness_Moves : w0.issues [useS (S 1)] [57] ∧ w0.issues [useP ⟨0, false⟩] [31] ∧ w0.issues [useP ⟨7, true⟩] [pCode 0] ∧
    w0.issues [useS (S 1)] [pCode 7] :=
  ⟨issues_of (by decide) (by decide), issues_of (by decide) (by decide), issues_of (by decide) (by decide),
   issues_of (by decide) (by decide)⟩
/-- FieldOperations: a field that ends at bit 63, and one that runs past it. -/
theorem witness_FieldOperations : w0.issues [useS (S 7)] [31] ∧ w0.issues [useS (S 7), useC 31] [31] ∧
    (0 : BitVec 6).toNat + ((63 : BitVec 6).toNat + 1) ≤ 64 ∧ 64 < (1 : BitVec 6).toNat + ((63 : BitVec 6).toNat + 1) :=
  ⟨issues_of (by decide) (by decide), issues_of (by decide) (by decide), by decide, by decide⟩

/-- TransferInLine: not taken; a counter of 1; each transfer to the last head, head 4, and to the first. -/
theorem witness_TransferInLine :
    (w0.issues [useS (S 1), useS (S 2)] [] ∧ w0.valS (.g 1) ≠ w0.valS (.g 2)) ∧
    (w0.issues [useC 1] [1] ∧ w0.me.rdG 1 = 1) ∧
    (let x : Word := 0x804008
     x.toNat < 2 ^ 56 ∧ lineVA x = lineVA w0.me.pc ∧ x.toNat % 2 = 0 ∧ 1 ≤ x.toNat % 64 / 2 ∧
       x.toNat % 64 / 2 ≤ lineNH w0.me.line ∧ x = w0.me.pc + 2 * immS64 (.k16 3) ∧ x = w0.me.pc + 2 * immS64 (.k32 3) ∧
       x = w0.me.pc + 2 * sx (3 : BitVec 16) ∧ x = w0.valS (.g 10) ∧ w0.me.rdG 4 ≠ 1) ∧
    (let x : Word := 0x804002
     lineVA x = lineVA w0.me.pc ∧ x.toNat % 64 / 2 = 1 ∧ x = w0.me.pc + 2 * immS64 (.k16 0)) ∧
    w0.issues [useC 4] [4] ∧ w0.issues [] [57] ∧ w0.issues [useS (S 10)] [] ∧ w0.issues [useS (S 7), useS (S 1)] [] ∧
    (w0.valS (.g 7)).toInt < (w0.valS (.g 1)).toInt ∧ (w0.valS (.g 1)).toInt ≤ (w0.valS (.g 2)).toInt ∧
    (w0.valS (.g 1)).toNat < (w0.valS (.g 7)).toNat ∧ (w0.valS (.g 1)).toNat ≤ (w0.valS (.g 1)).toNat :=
  ⟨⟨issues_of (by decide) (by decide), by decide⟩, ⟨issues_of (by decide) (by decide), by decide⟩, by decide, by decide,
   issues_of (by decide) (by decide), issues_of (by decide) (by decide), issues_of (by decide) (by decide),
   issues_of (by decide) (by decide), by decide, by decide, by decide, by decide⟩
/-- A launch in live mode that counts one grain slot, so that a transfer with site 0 posts; a trip table with an entry of site 0. -/
def wSite : State := { w0 with
  launches := [(0, { launch0 with blk := launch0.blk.set 4 0x40001 })] }
theorem witness_posts :
    (let c := wSite.coreId wSite.cur
     (wSite.core c).launch = some 0 ∧ (wSite.launchOf c).map (fun l => decide (0 < l.gcount)) = some true ∧ wSite.gmodeOf c ≠ 0) ∧
    (withThr fun y => { y with trips := [⟨0, 3⟩] }).me.trips.any (fun e => decide (e.site = 0)) = true := by decide
/-- TransferToLine: the next line, which the instruction cache holds, by each transfer, and the line before it by `fetch -1`. -/
theorem witness_TransferToLine :
    (let x : Word := 0x804042
     x.toNat < 2 ^ 56 ∧ w0.leased (w0.coreId w0.cur) (lineVA x).toNat 64 rX = true ∧ lineVA x ≠ lineVA w0.me.pc ∧
       x = w0.me.pc + 2 * immS64 (.k16 0x20) ∧ x = w0.me.pc + 2 * sx (0x20 : BitVec 16) ∧ x = w0.valS (.g 9) ∧
       x = (w0.me.pc &&& ~~~63) + 64 + 2 ∧ (w0.icFind (w0.coreId w0.cur) (x.toNat / 64)).isSome = true) ∧
    (let x : Word := 0x803FC2
     w0.leased (w0.coreId w0.cur) (lineVA x).toNat 64 rX = true ∧ x = (w0.me.pc &&& ~~~63) + 64 * sx (0xFFFF : BitVec 16) + 2) ∧
    w0.issues [useS (S 1), useS (S 1)] [] ∧ w0.issues [useC 4] [4] ∧ w0.me.rdG 4 ≠ 1 ∧ w0.issues [] [57] ∧
    w0.issues [useS (S 9)] [] :=
  ⟨by decide, by decide, issues_of (by decide) (by decide), issues_of (by decide) (by decide), by decide,
   issues_of (by decide) (by decide), issues_of (by decide) (by decide)⟩
/-- TransferRefused: bit 56; a head beyond NH, by each transfer; an odd target; a line just past the lease, and one before it; a
`fetch` from the last line of the lease, and from the last of all. -/
theorem witness_TransferRefused :
    (2 ^ 56 ≤ (w0.valS (.g 11)).toNat ∧ w0.issues [useS (S 11)] []) ∧
    (let x := w0.me.pc + 2 * immS64 (.k16 4)
     x = w0.me.pc + 2 * sx (4 : BitVec 16) ∧ w0.me.rdG 4 ≠ 1 ∧ condTrue .eq (w0.valS (.g 1)) (w0.valS (.g 1)) ∧ lineVA x = lineVA w0.me.pc ∧ ¬ (x.toNat % 2 = 0 ∧ 1 ≤ x.toNat % 64 / 2 ∧ x.toNat % 64 / 2 ≤ lineNH w0.me.line)) ∧
    (let x := w0.me.pc + 2 * immS64 (.k16 0xFFFF)
     lineVA x = lineVA w0.me.pc ∧ ¬ (1 ≤ x.toNat % 64 / 2)) ∧
    (let x := w0.me.pc + 2 * immS64 (.k32 0x7DFFF)
     x.toNat < 2 ^ 56 ∧ x = 0x900000 ∧ lineVA x ≠ lineVA w0.me.pc ∧
       w0.leased (w0.coreId w0.cur) (lineVA x).toNat 64 rX = false) ∧
    (w0.issues [useS (S 13)] [] ∧ w0.leased (w0.coreId w0.cur) (lineVA (w0.valS (.g 13))).toNat 64 rX = false) ∧
    w0.issues [] [57] ∧ w0.issues [useS (S 1), useS (S 1)] [] ∧ w0.issues [useC 4] [4] ∧
    (let x := w0.me.pc + 2 * sx (0x8000 : BitVec 16)
     x.toNat < 2 ^ 56 ∧ lineVA x ≠ lineVA w0.me.pc ∧ w0.leased (w0.coreId w0.cur) (lineVA x).toNat 64 rX = false) ∧
    (let s := withThr fun y => { y with pc := 0x8FFFC2 }
     let x := (s.me.pc &&& ~~~63) + 64 + 2
     x.toNat < 2 ^ 56 ∧ s.leased (s.coreId s.cur) (lineVA x).toNat 64 rX = false) ∧
    (let s := withThr fun y => { y with pc := 0xFFFFFFFFFFFFC2 }
     2 ^ 56 ≤ ((s.me.pc &&& ~~~63) + 64 + 2).toNat) :=
  ⟨⟨by decide, issues_of (by decide) (by decide)⟩, ⟨by decide, by decide, rfl, by decide⟩, by decide, by decide,
   ⟨issues_of (by decide) (by decide), by decide⟩, issues_of (by decide) (by decide), issues_of (by decide) (by decide),
   issues_of (by decide) (by decide), by decide, by decide, by decide⟩
/-- Prefetch: an address in the lease, one with bit 56, and one past the lease. -/
theorem witness_Prefetch : w0.issues [useS (S 3)] [] ∧ w0.issues [useS (S 3), useS (S 4)] [] ∧
    (w0.issues [useS (S 11)] [] ∧ 2 ^ 56 ≤ (w0.valS (.g 11) + sx (0 : BitVec 16)).toNat) ∧
    (w0.issues [useS (S 13)] [] ∧
      w0.inLease (w0.coreId w0.cur) ((w0.valS (.g 13) + sx (0 : BitVec 16)).toNat / 64 * 64) 64 = false) :=
  ⟨issues_of (by decide) (by decide), issues_of (by decide) (by decide), ⟨issues_of (by decide) (by decide), by decide⟩,
   ⟨issues_of (by decide) (by decide), by decide⟩⟩
theorem witness_GrainReads : w0.issues [] [57] ∧ w0.issues [] [0] ∧ w0.issues [useS (S 1), useS (S 2)] [31] :=
  ⟨issues_of (by decide) (by decide), issues_of (by decide) (by decide), issues_of (by decide) (by decide)⟩

/-- A posted branch update of a slot whose taken count is at its limit: the live copy at 0x80_0040. -/
def g0 : Grain := ⟨7, ⟨0, 0, 0⟩, 0, 0, 0, .branch true, 16⟩
def wGrain : State := { w0 with
  grains := [g0], l2 := [{ line0 with data := dataPut zeroLine 0 (natLE 8 0x7FFFC00400000000) }]
  launches := [(0, { launch0 with blk := launch0.blk.set 2 0x800040 })] }
theorem witness_GrainBranchUpdate :
    (wGrain.grains.find? fun (e : Grain) => decide (e.id = g0.id)) = some g0 ∧ g0.upd = .branch true ∧
    (tget? wGrain.launches g0.launch).map (fun l => (l.glive % 8, l.gdie, l.glive + 8 * g0.idx.toNat)) = some (0, 0, 0x800040) ∧
    (wGrain.l2Find 0 (0x800040 / 64)).any (fun m => !wGrain.domainDead m.kdom && decide (byteMask 0 8 &&& ~~~m.valid = 0) &&
      !wGrain.linePoison (m.pa / 64)) = true ∧
    (wGrain.seen 0 0x800040 8).map (fun x => (x.1, x.2 / 2 ^ 46 % 2 ^ 16)) = some (0x100040, 0xFFFF) := by decide

/-! The vector unit and local memory -/

theorem witness_VectorBitwise : w0.issues [useV (V 14), useV (V 15)] [vCode 15] ∧ w0.unbound [15, 14, 15] ∧
    w0.issues [useV (V 0)] [vCode 15] ∧ w0.unbound [15, 0] :=
  ⟨issues_of (by decide) (by decide), unbound_of (by decide), issues_of (by decide) (by decide), unbound_of (by decide)⟩
theorem witness_VectorInteger : w0.issues [useV (V 14), useV (V 15)] [vCode 15] ∧ w0.unbound [15, 14, 15] ∧
    w0.issues [useV (V 1), useV (V 2), useC (vCode 3)] [vCode 3] ∧ w0.unbound [3, 1, 2] ∧
    w0.issues [useV (V 1), useS (S 8)] [vCode 3] ∧ w0.unbound [3, 1] :=
  ⟨issues_of (by decide) (by decide), unbound_of (by decide), issues_of (by decide) (by decide), unbound_of (by decide),
   issues_of (by decide) (by decide), unbound_of (by decide)⟩
/-- VectorFloat: a signalling NaN, the first of its range, and a quiet one. -/
theorem witness_VectorFloat : ((0x7F800001 : Nat) / 2 ^ 23 % 256 = 255 ∧ 0x7F800001 % 2 ^ 23 ≠ 0 ∧ 0x7F800001 / 2 ^ 22 % 2 = 0) ∧
    ((0xFFC00000 : Nat) / 2 ^ 23 % 256 = 255 ∧ 0xFFC00000 % 2 ^ 23 ≠ 0 ∧ 0xFFC00000 / 2 ^ 22 % 2 = 1) ∧
    (w0.issues [useV (V 14), useV (V 15)] [vCode 15] ∧ w0.unbound [15, 14, 15]) ∧
    (w0.issues [useV (V 1), useV (V 2), useC (vCode 3)] [vCode 3] ∧ w0.unbound [3, 1, 2]) ∧
    (w0.issues [useV (V 1)] [vCode 3] ∧ w0.unbound [3, 1]) ∧ w0.issues [useV (V 1), useS (S 8)] [vCode 3] :=
  ⟨by decide, by decide, ⟨issues_of (by decide) (by decide), unbound_of (by decide)⟩,
   ⟨issues_of (by decide) (by decide), unbound_of (by decide)⟩, ⟨issues_of (by decide) (by decide), unbound_of (by decide)⟩,
   issues_of (by decide) (by decide)⟩
theorem witness_SpecialFunctions : w0.issues [useV ⟨1, true⟩] [vCode 1] ∧ w0.unbound [1, 1] :=
  ⟨issues_of (by decide) (by decide), unbound_of (by decide)⟩
theorem witness_VectorCompareReduce : (7 : PReg) ≠ 0 ∧ w0.issues [useV (V 1), useV (V 15)] [pCode 7] ∧ w0.unbound [1, 15] ∧
    w0.issues [useV (V 15)] [57] ∧ w0.unbound [15] :=
  ⟨by decide, issues_of (by decide) (by decide), unbound_of (by decide), issues_of (by decide) (by decide), unbound_of (by decide)⟩
theorem witness_VectorMovers : (w0.issues [useV (V 15)] [vCode 15] ∧ w0.unbound [15, 15]) ∧
    (w0.issues [useV (V 1), useV (V 2)] [vCode 3] ∧ w0.unbound [3, 1, 2]) ∧
    w0.issues [useV (V 1), useV (V 2), useC (pCode 0)] [vCode 3] ∧ w0.issues [useV (V 1), useV (V 2), useC (pCode 7)] [vCode 3] ∧
    (w0.issues [useS (S 8)] [vCode 3] ∧ w0.unbound [3]) ∧ w0.issues [useS (S 8), useC (vCode 3)] [vCode 3] ∧
    w0.issues [] [vCode 3] ∧ (w0.issues [useV (V 1)] [57] ∧ w0.unbound [1]) :=
  ⟨⟨issues_of (by decide) (by decide), unbound_of (by decide)⟩, ⟨issues_of (by decide) (by decide), unbound_of (by decide)⟩,
   issues_of (by decide) (by decide), issues_of (by decide) (by decide),
   ⟨issues_of (by decide) (by decide), unbound_of (by decide)⟩, issues_of (by decide) (by decide),
   issues_of (by decide) (by decide), issues_of (by decide) (by decide), unbound_of (by decide)⟩
theorem witness_VectorDouble : (w0.issues [useV (V 1), useV (V 2)] [vCode 3] ∧ w0.unbound [3, 1, 2]) ∧
    w0.issues [useV (V 1), useV (V 2), useC (vCode 3)] [vCode 3] ∧ (w0.issues [useV (V 1)] [vCode 3] ∧ w0.unbound [3, 1]) :=
  ⟨⟨issues_of (by decide) (by decide), unbound_of (by decide)⟩, issues_of (by decide) (by decide),
   issues_of (by decide) (by decide), unbound_of (by decide)⟩

/-- Bank b has format b; g1 holds `x`. -/
def wF (x : Word) : State := (withThr fun y => { y with g := y.g.set 1 x }).modQuad 0 fun q =>
  { q with bfmt := Vector.ofFn fun b => BitVec.ofNat 64 b.val }
/-- The format of the bank that a local access at g1 meets, with its element aligned, inside the windows and sound. -/
def localOk (x : Word) (fmt w : Nat) : Bool :=
  decide ((wF x).valS (.g 1) + sx (0 : BitVec 16) = x) && decide (((wF x).bfmt 0 (x.toNat / 0x20000 % 16)).toNat % 16 = fmt) &&
  decide (x.toNat % w = 0) && (wF x).inWin ⟨0, 0, 0⟩ x.toNat w && !(wF x).lmBad 0 x.toNat w
/-- LocalLoad, LocalStore: the last element of a bank in each format. -/
theorem witness_LocalLoad : (wF 1).issuesMem [useS (S 1)] [57] ∧ localOk 0x1FFFC 0 4 = true ∧ localOk 0x3FFFC 1 4 = true ∧
    localOk 0x5FFFE 2 2 = true ∧ localOk 0x7FFFE 3 2 = true ∧ localOk 0x9FFFF 4 1 = true ∧ localOk 0xBFFFF 5 1 = true ∧
    localOk 0x11FFF8 8 8 = true ∧ localOk 0x13FFFC 9 4 = true :=
  ⟨issuesMem_of (by decide) (by decide) rfl, by decide, by decide, by decide, by decide, by decide, by decide, by decide, by decide⟩
theorem witness_LocalStore :
    (wF 1).issuesMem [useS (S 1), useC 8] [] ∧ (wF 1).lm.wf = true ∧ localOk 0 0 4 = true ∧ localOk 0x100000 8 8 = true ∧
    localOk 0x40000 2 2 = true ∧ localOk 0x80000 4 1 = true :=
  ⟨issuesMem_of (by decide) (by decide) rfl, by decide, by decide, by decide, by decide, by decide⟩
/-- LocalFaults: an element one byte off in each width; no window; the FP4 formats. -/
theorem witness_LocalFaults : (wF 2).issuesMem [useS (S 1)] [57] ∧ (wF 2).issuesMem [useS (S 1), useC 8] [] ∧
    localOk 0x100004 8 4 = true ∧ (0x100004 : Nat) % 8 ≠ 0 ∧ localOk 2 0 2 = true ∧ (2 : Nat) % 4 ≠ 0 ∧
    localOk 0x40001 2 1 = true ∧ (0x40001 : Nat) % 2 ≠ 0 ∧
    ((wF 0x80000).modTh ⟨0, 0, 0⟩ fun y => { y with pwin := 0 }).inWin ⟨0, 0, 0⟩ 0x80000 1 = false ∧
    localOk 0xC0000 6 1 = true ∧ localOk 0xE0000 7 1 = true :=
  ⟨issuesMem_of (by decide) (by decide) rfl, issuesMem_of (by decide) (by decide) rfl, by decide, by decide, by decide, by decide,
   by decide, by decide, by decide, by decide, by decide⟩
/-- A slot with one cycle of lane-group work left. -/
def wLanes : State := { (withThr fun y => { y with lanes := 1, run := .blocked }) with cycle := 16 }
/-- LocalStrip: the last strip of a bank, in one row; a strip in two rows; an indexed access at the top of a bank; work left. -/
theorem witness_LocalStrip : (wF 1).unbound [15] ∧ (wF 1).issuesMem [useS (S 1)] [vCode 15] ∧
    (wF 1).issuesMem [useS (S 1), useC (vCode 15)] [] ∧ (wF 1).lm.wf = true ∧
    (0x1FFC0 / 256 = (0x1FFC0 + 63) / 256 ∧ 0x1E0 / 256 ≠ (0x1E0 + 63) / 256) ∧
    (0x1FFC0 % 4 = 0 ∧ 0x1FFC0 % 0x20000 + 64 ≤ 0x20000 ∧ 0x1E0 % 4 = 0 ∧ 0x1E0 % 0x20000 + 64 ≤ 0x20000) :=
  ⟨unbound_of (by decide), issuesMem_of (by decide) (by decide) rfl, issuesMem_of (by decide) (by decide) rfl, by decide, by decide,
   by decide⟩
theorem witness_LocalStrip_one_row : (wF 0x1FFC0).valS (.g 1) = 0x1FFC0 ∧ (wF 0x1FFC0).lmPoison = [] ∧
    ([0, 1, 2, 3, 4, 5, 6, 7] : List Nat).all (fun i => (wF 0x1FFC0).inWin ⟨0, 0, 0⟩ (0x1FFC0 + 4 * i) 4) = true ∧
    ([8, 9, 10, 11, 12, 13, 14, 15] : List Nat).all (fun i => (wF 0x1FFC0).inWin ⟨0, 0, 0⟩ (0x1FFC0 + 4 * i) 4) = true :=
  ⟨by decide, rfl, by decide, by decide⟩
theorem witness_LocalStrip_two_rows : (wF 0x1E0).valS (.g 1) = 0x1E0 ∧ (wF 0x1E0).lmPoison = [] ∧
    ([0, 1, 2, 3, 4, 5, 6, 7] : List Nat).all (fun i => (wF 0x1E0).inWin ⟨0, 0, 0⟩ (0x1E0 + 4 * i) 4) = true ∧
    ([8, 9, 10, 11, 12, 13, 14, 15] : List Nat).all (fun i => (wF 0x1E0).inWin ⟨0, 0, 0⟩ (0x1E0 + 4 * i) 4) = true :=
  ⟨by decide, rfl, by decide, by decide⟩
theorem witness_LocalStrip_indexed : (wF 0x1FFFC).unbound [1, 2] ∧ (wF 0x1FFFC).issuesMem [useS (S 1), useV (V 2)] [vCode 1] ∧
    (wF 0x1FFFC).issuesMem [useS (S 1), useV (V 2), useC (vCode 1)] [] ∧
    (∀ i : Fin 16, sx (wF 0x1FFFC).me.v[(2 : Fin 16)][i] * BitVec.ofNat 64 (2 ^ Size.w.code) = 0) ∧
    (wF 0x1FFFC).elemCheck 0x1FFFC 0 true false = none ∧ (wF 0x1FFFC).elemCheck 0x1FFFC 15 true true = none :=
  ⟨unbound_of (by decide), issuesMem_of (by decide) (by decide) rfl, issuesMem_of (by decide) (by decide) rfl, by decide, by decide,
   by decide⟩
theorem witness_LocalStrip_work :
    ((quadSlots 0).filter fun u => decide (0 < (wLanes.th u).lanes) && decide ((wLanes.th u).lanesAt < wLanes.cycle)) = [⟨0, 0, 0⟩] ∧
      bitAt (wLanes.quad 0).vecUsed 0 = false := by decide
/-- A thread whose v12 is bound. -/
def wBind (b : Bind) : State := (wF 0x1FFC0).modTh ⟨0, 0, 0⟩ fun y => { y with binds := y.binds.set 0 (some b) }
/-- StreamBinding: the last sixteen elements of a bank, of four bytes and of eight; none; a start one byte off; no binding; nothing
left; elements left with the target in the line. -/
theorem witness_StreamBinding : ((wF 0x1FFC0).issuesMem [useS (S 1), useS (S 14)] [] ∧
      (let x := ((wF 0x1FFC0).valS (.g 1)).toNat
       x < 0x200000 ∧ ((wF 0x1FFC0).bfmt 0 (x / 0x20000 % 16)).toNat % 16 = 0 ∧ x % 4 = 0 ∧ x % 0x20000 + 16 * 4 ≤ 0x20000 ∧
         (wF 0x1FFC0).inWin ⟨0, 0, 0⟩ x (16 * 4) = true)) ∧
    ((wF 0x11FF80).issuesMem [useS (S 1), useS (S 14)] [] ∧
      (let x := ((wF 0x11FF80).valS (.g 1)).toNat
       x < 0x200000 ∧ ((wF 0x11FF80).bfmt 0 (x / 0x20000 % 16)).toNat % 16 = 8 ∧ x % 8 = 0 ∧ x % 0x20000 + 16 * 8 ≤ 0x20000 ∧
         (wF 0x11FF80).inWin ⟨0, 0, 0⟩ x (16 * 8) = true)) ∧ ((wF 1).valS (.g 0)).toNat = 0 ∧
    ((wF 0x1FFC1).issuesMem [useS (S 1), useS (S 14)] [] ∧ ((wF 0x1FFC1).valS (.g 1)).toNat % 4 ≠ 0) ∧ ((wF 1).valS (.g 14)).toNat = 16 ∧
    (wF 1).me.binds[(0 : Fin 4)] = none ∧ (wBind ⟨false, 0, 0, 0⟩).me.binds[(0 : Fin 4)] = some ⟨false, 0, 0, 0⟩ ∧
    (wBind ⟨false, 0, 1, 0⟩).me.binds[(0 : Fin 4)] = some ⟨false, 0, 1, 0⟩ ∧
    (let y := (wF 1).me.pc + 2 * sx (3 : BitVec 16)
     y.toNat < 2 ^ 56 ∧ lineVA y = lineVA (wF 1).me.pc ∧ y.toNat % 2 = 0 ∧ 1 ≤ y.toNat % 64 / 2 ∧
       y.toNat % 64 / 2 ≤ lineNH (wF 1).me.line) :=
  ⟨⟨issuesMem_of (by decide) (by decide) rfl, by decide⟩, ⟨issuesMem_of (by decide) (by decide) rfl, by decide⟩, by decide,
   ⟨issuesMem_of (by decide) (by decide) rfl, by decide⟩, by decide, by decide, by decide, by decide, by decide⟩
/-- StreamRead: the last strip of bank 0, with one element left and with sixteen. -/
def wStrip (n : BitVec 24) : State := wBind ⟨false, 0x1FFC0, n, 0⟩
theorem witness_StreamRead : (wStrip 16).issuesMem [useV (V 12)] [vCode 1] ∧ (wStrip 16).unbound [1] ∧
    (wStrip 16).me.bindOf (vCode 12) = some ⟨false, 0x1FFC0, 16, 0⟩ ∧ (wStrip 1).me.bindOf (vCode 12) = some ⟨false, 0x1FFC0, 1, 0⟩ ∧
    ((wStrip 16).bfmt 0 0).toNat % 16 = 0 ∧ (0x1FFC0 % 4 = 0 ∧ 0x1FFC0 % 0x20000 + 64 ≤ 0x20000) ∧
    ((wStrip 16).inWin ⟨0, 0, 0⟩ 0x1FFC0 4 = true ∧ (wStrip 16).inWin ⟨0, 0, 0⟩ 0x1FFFC 4 = true) ∧ (wStrip 16).lmPoison = [] :=
  ⟨issuesMem_of (by decide) (by decide) rfl, unbound_of (by decide), by decide, by decide, by decide, by decide, by decide, rfl⟩

/-! Global memory -/

/-- Whether the sixteen 32-bit lanes at the addresses lie in the lease, with lines that the L2 holds. -/
def lanesOk (s : State) (f : Fin 16 → Word) : Bool := (List.finRange 16).all fun j =>
  decide ((f j).toNat < 2 ^ 56) && decide ((f j).toNat % 4 = 0) && s.leased ⟨0, 0⟩ (f j).toNat 4 rRW &&
  s.leased ⟨0, 0⟩ (f j).toNat 4 rR && s.leased ⟨0, 0⟩ (f j).toNat 4 rW && !s.sliceDown 0 ((f j).toNat / 64) &&
  (match s.l2Find 0 ((f j).toNat / 64) with
   | some l => !s.domainDead l.kdom
   | none => false)
/-- The first line of the lease in the L1 of core 0. -/
def wL1 : State := { w0 with cores := [(⟨0, 0⟩, { core0 with l1 := [⟨0x800040 / 8, 8, 0, 0, 0, 0x100040, 0, zeroLine, 0⟩] })] }
/-- The block of the L1 of core 0 that holds the last double word of the line, if it has arrived. -/
def l1Here (s : State) : Option L1Block := (s.core (s.l1Home ⟨0, 0⟩ 0x20001)).l1.find? fun (b : L1Block) =>
  decide (b.word ≤ 0x800078 / 8) && decide ((0x800078 + 8 - 1) / 8 < b.word + b.size) && decide (b.due ≤ s.inTurns 0 0)
/-- GlobalLoad: the first double word of the line, and its last byte; a line of the L1; a line of the L2. -/
theorem witness_GlobalLoad : w0.issuesMem [useS (S 3)] [57] ∧ w0.issuesMem [useS (S 3)] [0] ∧
    (let x := w0.valS (.g 3) + sx (0 : BitVec 16)
     x.toNat < 2 ^ 56 ∧ x.toNat % 2 ^ Size.d.code = 0 ∧ w0.leased ⟨0, 0⟩ x.toNat 8 rR = true) ∧
    (let x := w0.valS (.g 3) + sx (63 : BitVec 16)
     x.toNat < 2 ^ 56 ∧ x.toNat % 2 ^ Size.b.code = 0 ∧ w0.leased ⟨0, 0⟩ x.toNat 1 rR = true) ∧
    (wL1.ioLeaf (wL1.req ⟨0, 0⟩ 0) 0x800078 = none ∧ 0x800078 % 64 + 8 ≤ 64 ∧ (l1Here wL1).isSome = true) ∧
    (w0.ioLeaf (w0.req ⟨0, 0⟩ 0) 0x800078 = none ∧ (l1Here w0).isNone = true ∧
      w0.l2Find 0 0x20001 = some line0 ∧ w0.sliceDown 0 0x20001 = false ∧ bitAt (w0.dreg 0 0x40) 63 = false ∧
      byteMask (0x800078 % 64) 8 &&& ~~~line0.valid = 0 ∧ byteMask (0x800078 % 64) 8 &&& line0.coming = 0) :=
  ⟨issuesMem_of (by decide) (by decide) rfl, issuesMem_of (by decide) (by decide) rfl, by decide, by decide, by decide, by decide⟩
/-- GlobalLoad: the same line, its last double word still on its way to the L2 and its block to the L1. -/
theorem witness_GlobalLoad_late :
    (let l : L2Line := { line0 with coming := byteMask 56 8, due := 16 }
     let s : State := { w0 with
       l2 := [l], cores := [(⟨0, 0⟩, { core0 with l1 := [⟨0x800040 / 8, 8, 0, 0, 0, 0x100040, 0, zeroLine, 16⟩] })] }
     (l1Here s).isNone = true ∧ s.l2Find 0 0x20001 = some l ∧ byteMask (0x800078 % 64) 8 &&& ~~~l.valid = 0 ∧
      byteMask (0x800078 % 64) 8 &&& l.coming ≠ 0 ∧ s.inTurns 0 0 < l.due ∧ s.ioLeaf (s.req ⟨0, 0⟩ 0) 0x800078 = none) := by decide
/-- GlobalFaults: bit 56 alone; one byte off; the byte past the lease, whose launch has ended no task. -/
theorem witness_GlobalFaults : w0.issuesMem [useS (S 11)] [57] ∧ w0.issuesMem [useS (S 11), useC 8] [] ∧
    (w0.valS (.g 11) + sx (0 : BitVec 16)).toNat = 2 ^ 56 ∧
    (let x := w0.valS (.g 12) + sx (0 : BitVec 16)
     x.toNat < 2 ^ 56 ∧ x.toNat % 2 ^ Size.h.code ≠ 0) ∧
    (let x := w0.valS (.g 27) + sx (0x10 : BitVec 16)
     x.toNat < 2 ^ 56 ∧ x.toNat % 2 ^ Size.d.code = 0 ∧ w0.leased ⟨0, 0⟩ x.toNat 8 rR = false ∧ w0.leased ⟨0, 0⟩ x.toNat 8 rW = false) ∧
    (w0.core ⟨0, 0⟩).launch = some 0 ∧ (tget? w0.launches 0).map (·.status) = some 0 :=
  ⟨issuesMem_of (by decide) (by decide) rfl, issuesMem_of (by decide) (by decide) rfl, by decide, by decide, by decide, by decide,
   by decide⟩
/-- The store queue of core 0 full. -/
def wFull : State := { w0 with sq := (List.range 32).map fun i => ⟨i, ⟨0, 0⟩, 0, [], [], 64⟩ }
theorem witness_GlobalStore : w0.issuesMem [useS (S 3), useC 8] [] ∧
    (let x := (w0.valS (.g 3) + sx (0x38 : BitVec 16)).toNat
     x < 2 ^ 56 ∧ x % 2 ^ Size.d.code = 0 ∧ w0.leased ⟨0, 0⟩ x 8 rW = true ∧ w0.sqUsed ⟨0, 0⟩ < 32 ∧
       w0.l2Find 0 (x / 64) = some line0 ∧ w0.sliceDown 0 (x / 64) = false ∧ w0.domainDead line0.kdom = false ∧
       bitAt (w0.dreg 0 0x40) 63 = false) ∧
    wFull.issuesMem [useS (S 3), useC 8] [] ∧ wFull.leased ⟨0, 0⟩ 0x800040 8 rW = true ∧ 32 ≤ wFull.sqUsed ⟨0, 0⟩ :=
  ⟨issuesMem_of (by decide) (by decide) rfl, by decide, issuesMem_of (by decide) (by decide) rfl, by decide, by decide⟩
/-- GlobalLanesLoad and GlobalLanesStore: a strip that fills one line, and sixteen equal lanes at its end. -/
theorem witness_GlobalLanesLoad : w0.unbound [1, 2] ∧ w0.issuesMem [useS (S 3)] [vCode 1] ∧
    w0.issuesMem [useS (S 23), useV (V 2)] [vCode 1] ∧
    lanesOk w0 (fun i => w0.valS (.g 3) + sx (0 : BitVec 16) + BitVec.ofNat 64 (4 * i.val)) = true ∧
    lanesOk w0 (fun i => w0.valS (.g 23) + sx w0.me.v[(2 : Fin 16)][i] * BitVec.ofNat 64 (2 ^ Size.w.code)) = true :=
  ⟨unbound_of (by decide), issuesMem_of (by decide) (by decide) rfl, issuesMem_of (by decide) (by decide) rfl, by decide, by decide⟩
theorem witness_GlobalLanesStore : w0.unbound [1, 2] ∧ bitAt (w0.dreg 0 0x40) 63 = false ∧
    w0.issuesMem [useS (S 3), useC (vCode 1)] [] ∧ w0.issuesMem [useS (S 23), useV (V 2), useC (vCode 1)] [] ∧
    lanesOk w0 (fun i => w0.valS (.g 3) + sx (0 : BitVec 16) + BitVec.ofNat 64 (4 * i.val)) = true ∧
    lanesOk w0 (fun i => w0.valS (.g 23) + sx w0.me.v[(2 : Fin 16)][i] * BitVec.ofNat 64 (2 ^ Size.w.code)) = true ∧
    w0.sqUsed ⟨0, 0⟩ + 1 ≤ 32 :=
  ⟨unbound_of (by decide), by decide, issuesMem_of (by decide) (by decide) rfl,
   issuesMem_of (by decide) (by decide) rfl, by decide, by decide, by decide⟩

/-! Full and empty; atomics, waits, rings, barriers, system registers -/

def pend0 : Pend := ⟨31, .s 9, 0, some 0, .load, 0, none⟩
def fail0 : Failure := ⟨0x10, 0, 0x800040, 0, none⟩
/-- g31 is empty; its result is due, or has failed. -/
def wPend (f : Option Failure) : State := withThr fun y => ({ y with pend := [{ pend0 with fail := f }] } : Thread).setEmpty 31
theorem witness_EmptyAndFull : (wPend none).srcEmpty 31 = true ∧
    ((wPend none).issues [useS (S 1), useS (S 2)] [] ∧ (wPend none).dstBusy 31 = true) ∧
    (((wPend none).th ⟨0, 0, 0⟩).pend = [pend0] ∧ pend0.reg.toNat = 31 ∧ pend0.due = some 0 ∧ 0 ≤ (wPend none).cycle ∧
      ((wPend none).th ⟨0, 0, 0⟩).run ≠ .saved ∧ pend0.fail = none ∧ pend0.val = .s 9) ∧
    (((wPend (some fail0)).th ⟨0, 0, 0⟩).pend = [{ pend0 with fail := some fail0 }] ∧
      ((wPend (some fail0)).th ⟨0, 0, 0⟩).run ≠ .stopped .fault ∧ ((wPend (some fail0)).th ⟨0, 0, 0⟩).deferred = none) :=
  ⟨by decide, ⟨issues_of (by decide) (by decide), by decide⟩, by decide, by decide⟩
/-- Atomics: the last double word of the line; `cas` with its expected value in g31. -/
def wAtomic : State := withThr fun y => { y with g := y.g.set 1 0x800078 }
theorem witness_Atomics : wAtomic.issuesMem [useS (S 1), useS (S 8)] [57] ∧
    wAtomic.issuesMem [useS (S 1), useS (S 8), useC 31] [31] ∧ wAtomic.mem.wf = true ∧
    (let x := (wAtomic.valS (.g 1)).toNat
     x < 2 ^ 56 ∧ x % 8 = 0 ∧ wAtomic.leased ⟨0, 0⟩ x 8 rRW = true ∧ wAtomic.sqUsed ⟨0, 0⟩ < 32 ∧
       wAtomic.l2Find 0 (x / 64) = some line0) ∧
    (line0.dirty = 0 ∧ line0.lock = none ∧ line0.pin = false ∧ (wAtomic.mlcFind (line0.pa / 64)).map (·.due) = some (wAtomic.inTurns 0 0)) ∧
    (wAtomic.linePoison (line0.pa / 64) = false ∧ wAtomic.domainDead line0.kdom = false ∧ bitAt (wAtomic.dreg 0 0x40) 63 = false) :=
  ⟨issuesMem_of (by decide) (by decide) rfl, issuesMem_of (by decide) (by decide) rfl, by decide, by decide, by decide, by decide⟩
/-- Fences: nothing outstanding; a fence whose cycle is this one, and one whose cycle is the next. -/
theorem witness_Fences : (w0.me.acqHolds = false ∧ w0.ownDone w0.cur = w0.cycle ∧ w0.me.pend = [] ∧ w0.fusedL1 ⟨0, 0⟩ = false) ∧
    (let s := withThr fun y => { y with run := .waiting (.fence .acq .pkg 0) }
     (s.th ⟨0, 0, 0⟩).run = .waiting (.fence .acq .pkg 0) ∧ 0 ≤ s.cycle) ∧
    (let s := withThr fun y => { y with run := .waiting (.fence .acq .pkg 1) }
     (s.th ⟨0, 0, 0⟩).run = .waiting (.fence .acq .pkg 1) ∧ s.cycle < 1) :=
  ⟨⟨rfl, by decide, rfl, by decide⟩, by decide, by decide⟩
/-- Waits: the last word below the save areas, holding 0; targets for which each condition holds at its bound; a word one byte
off; the first word that is in no window; the last counter of the own core, a counter of the next core, and no counter; a waiting slot. -/
def wWait (x y : Word) : State := withThr fun z => { z with g := (z.g.set 1 x).set 2 y }
theorem witness_Waits : (wWait 0x1DFFFC 0).issuesMem [useS (S 1), useS (S 2)] [31] ∧
    ((wWait 0x1DFFFC 0).valS (.g 1) = 0x1DFFFC ∧ 0x1DFFFC % 4 = 0 ∧ (wWait 0x1DFFFC 0).inWin ⟨0, 0, 0⟩ 0x1DFFFC 4 = true ∧
      (wWait 0x1DFFFC 0).lmBad 0 0x1DFFFC 4 = false ∧ (wWait 0x1DFFFC 0).lmSeeN 0 0x1DFFFC 4 = 0) ∧
    ((0 + 2 ^ 32 - 0x80000001) % 2 ^ 32 < 2 ^ 31 ∧ 2 ^ 31 ≤ (0 + 2 ^ 32 - 0x80000000) % 2 ^ 32) ∧
    ((wWait 0x1DFFFD 0).issuesMem [useS (S 1), useS (S 2)] [31] ∧ ((wWait 0x1DFFFD 0).valS (.g 1)).toNat % 4 ≠ 0) ∧
    ((wWait 0x1E0000 0).issuesMem [useS (S 1), useS (S 2)] [31] ∧ (wWait 0x1E0000 0).inWin ⟨0, 0, 0⟩ 0x1E0000 4 = false) ∧
    ((wWait 0x80000F 0).issuesMem [useS (S 1), useS (S 2)] [31] ∧
      (wWait 0x80000F 0).designator false ⟨0, 0⟩ ((wWait 0x80000F 0).valS (.g 1)) = some ⟨0, ⟨0, 0⟩, 15⟩ ∧ (wWait 0x80000F 0).pkg = 0 ∧
      (wWait 0x80000F 0).ownIncrs ⟨0, 0, 0⟩ (⟨0, 0⟩, 15) = []) ∧
    ((wWait 0x1000000 0).issuesMem [useS (S 1), useS (S 2)] [31] ∧
      (wWait 0x1000000 0).designator false ⟨0, 0⟩ ((wWait 0x1000000 0).valS (.g 1)) = none) ∧
    (let s := withThr fun z => { z with run := .waiting (.ctr .eq 15 0 (BitVec.ofNat 6 31) true false) }
     (s.th ⟨0, 0, 0⟩).run = .waiting (.ctr .eq 15 0 (BitVec.ofNat 6 31) true false) ∧ (s.core ⟨0, 0⟩).ctrs[(15 : Fin 16)] = 0 ∧
       s.ownIncrs ⟨0, 0, 0⟩ (⟨0, 0⟩, 15) = []) ∧
    (let s := withThr fun z => { z with run := .waiting (.ctr .eq 15 1 (BitVec.ofNat 6 31) false true) }
     (s.th ⟨0, 0, 0⟩).run = .waiting (.ctr .eq 15 1 (BitVec.ofNat 6 31) false true) ∧ (s.core ⟨0, 0⟩).ctrs[(15 : Fin 16)] ≠ 1 ∧
       s.ownIncrs ⟨0, 0, 0⟩ (⟨0, 0⟩, 15) = []) :=
  ⟨issuesMem_of (by decide) (by decide) rfl, by decide, by decide, ⟨issuesMem_of (by decide) (by decide) rfl, by decide⟩,
   ⟨issuesMem_of (by decide) (by decide) rfl, by decide⟩, ⟨issuesMem_of (by decide) (by decide) rfl, by decide⟩,
   ⟨issuesMem_of (by decide) (by decide) rfl, by decide⟩, by decide, by decide⟩
def incr0 : Incr := ⟨3, none, 0, 0, 0, 0x80000F, some (⟨0, 0⟩, 15), 0xFFFFFFFF, 16, [], []⟩
/-- MailboxCounters: the last counter of the own core; a designator with bit 24; an increment on its way. -/
theorem witness_MailboxCounters : (wWait 0x80000F 1).issuesMem [useS (S 1), useS (S 2)] [] ∧ (wWait 0x80000F 1).issues [useS (S 1)] [57] ∧
    ((wWait 0x80000F 1).designator false ⟨0, 0⟩ ((wWait 0x80000F 1).valS (.g 1)) = some ⟨0, ⟨0, 0⟩, 15⟩ ∧
      (wWait 0x80000F 1).pkg = 0 ∧ (wWait 0x80000F 1).sqUsed ⟨0, 0⟩ < 32 ∧
      (wWait 0x80000F 1).ownIncrs ⟨0, 0, 0⟩ (⟨0, 0⟩, 15) = []) ∧
    ((wWait 0x1000000 1).issuesMem [useS (S 1), useS (S 2)] [] ∧ (wWait 0x1000000 1).issues [useS (S 1)] [57] ∧
      (wWait 0x1000000 1).designator false ⟨0, 0⟩ ((wWait 0x1000000 1).valS (.g 1)) = none) ∧
    (let s : State := { w0 with incrs := [incr0] }
     (s.incrs.find? fun (x : Incr) => decide (x.id = incr0.id)) = some incr0 ∧ incr0.dst = some (⟨0, 0⟩, 15) ∧
       (s.core ⟨0, 0⟩).world = incr0.world) :=
  ⟨issuesMem_of (by decide) (by decide) rfl, issues_of (by decide) (by decide), by decide,
   ⟨issuesMem_of (by decide) (by decide) rfl, issues_of (by decide) (by decide), by decide⟩, by decide⟩
/-- Ring 31: enabled, two slots of 16 bytes at 0x1000, with the given pointers. -/
def wRing (wp cp rp : BitVec 32) : State := w0.setRing 0 31 ⟨0x0000000200001001, wp, cp, rp, rp, 0⟩
theorem witness_Rings : (wRing 1 0 0).issues [] [57] ∧
    ((wRing 1 0 0).ring 0 31).world = ((wRing 1 0 0).coreOf ⟨0, 0, 0⟩).world ∧
    (((wRing 1 0 0).ring 0 31).en = true ∧ ((wRing 1 0 0).ring 0 31).wp ≠ ((wRing 1 0 0).ring 0 31).cp) ∧
    ((wRing 1 1 1).ring 0 31).wp = ((wRing 1 1 1).ring 0 31).cp ∧ (w0.ring 0 31).en = false ∧
    ((wRing 2 2 0).issues [useS (S 24)] [] ∧
      ((wRing 2 2 0).valS (.g 24)).toNat % 2 ^ 32 ≤ (((wRing 2 2 0).ring 0 31).cp - ((wRing 2 2 0).ring 0 31).rp).toNat) ∧
    ((wRing 2 1 0).issues [useS (S 24)] [] ∧
      (((wRing 2 1 0).ring 0 31).cp - ((wRing 2 1 0).ring 0 31).rp).toNat < ((wRing 2 1 0).valS (.g 24)).toNat % 2 ^ 32) ∧
    (let s := (wRing 1 0 0).modTh ⟨0, 0, 0⟩ fun y => { y with run := .waiting (.ring 31 (BitVec.ofNat 6 31) true) }
     s.ringWaiters 0 31 = [(⟨0, 0, 0⟩, BitVec.ofNat 6 31)] ∧ (s.ring 0 31).en = true ∧ (s.ring 0 31).wp ≠ (s.ring 0 31).cp) :=
  ⟨issues_of (by decide) (by decide), by decide, by decide, by decide, by decide,
   ⟨issues_of (by decide) (by decide), by decide⟩, ⟨issues_of (by decide) (by decide), by decide⟩, by decide⟩
def barEv0 : BarEv := ⟨4, ⟨.pod, 15, 0, 1⟩, .arrive ⟨0, 0, 0⟩ 0, 64⟩
/-- Barriers: no arrival; an arrival in flight; an arrival of sixteen, and the last of one. -/
theorem witness_Barriers : (w0.me.acqHolds = false ∧ bitAt w0.me.arrived (barBit .die 15) = false) ∧
    (let s : State := { (withThr fun y => { y with arrived := BitVec.allOnes 80 }) with
      barEvs := [{ barEv0 with bar := w0.barId ⟨0, 0⟩ .die 15 }] }
     bitAt s.me.arrived (barBit .die 15) = true ∧ bexpExpect (s.bexp (s.barId ⟨0, 0⟩ .die 15)) ≠ 0 ∧
       s.barFlight s.cur (s.barId ⟨0, 0⟩ .die 15) = true) ∧
    (w0.sameLife barEv0.bar ⟨0, 0, 0⟩ 0 = true ∧ w0.sameLife barEv0.bar ⟨0, 0, 0⟩ 1 = false ∧ barEv0.kind = .arrive ⟨0, 0, 0⟩ 0 ∧
      w0.barFlight w0.cur (w0.barId ⟨0, 0⟩ .die 15) = false ∧
      bexpExpect (({ w0 with bars := [(barEv0.bar, 0)] } : State).bexp barEv0.bar) = 0) ∧
    (let s : State := { w0 with barEvs := [barEv0] }
     (s.barEvs.find? fun (x : BarEv) => decide (x.id = barEv0.id)) = some barEv0 ∧ (s.bexp barEv0.bar).toNat % 2 ^ 24 = 16 ∧
       (s.bexp barEv0.bar).toNat / 2 ^ 32 % 2 ^ 24 = 0) ∧
    (let s : State := { w0 with barEvs := [barEv0], bars := [(barEv0.bar, 1)] }
     (s.bexp barEv0.bar).toNat / 2 ^ 32 % 2 ^ 24 + 1 = (s.bexp barEv0.bar).toNat % 2 ^ 24) :=
  ⟨⟨rfl, by decide⟩, by decide, by decide, by decide, by decide⟩
/-- `n` lines of the slice and set of `line0`, from its own on, of which all but the first are held by a launch. -/
def wLocks (n launch : Nat) : State := { w0 with
  l2 := line0 :: (List.range n).map fun i => { line0 with line := 0x20001 + 98304 * (i + 1), way := Fin.ofNat 16 (i + 1), lock := some launch } }
/-- LineLocks: a launch at its quota; a set with twelve ways held. -/
theorem witness_LineLocks_full :
    (let s := wLocks 4 0
     s.issuesMem [useS (S 12)] [57] ∧ s.l2Find 0 0x20001 = some line0 ∧
       (s.l2.filter fun (m : L2Line) => decide (m.die = 0) && decide (m.line % 96 = 0x20001 % 96) && decide (m.lock = some 0)).length =
         s.lockqOf ⟨0, 0⟩) ∧
    (let s := wLocks 12 1
     s.issuesMem [useS (S 12)] [57] ∧ s.l2Find 0 0x20001 = some line0 ∧
       (s.l2.filter fun (m : L2Line) => decide (m.die = 0) && decide (m.line % 96 = 0x20001 % 96) && decide (m.lock = some 0)).length <
         s.lockqOf ⟨0, 0⟩ ∧ 12 ≤ heldWays (s.l2Set 0 0x20001)) :=
  ⟨⟨issuesMem_of (by decide) (by decide) rfl, by decide, by decide⟩,
   ⟨issuesMem_of (by decide) (by decide) rfl, by decide, by decide, by decide⟩⟩
/-- LineLocks: LOCKQ is 4 (launch0's word 0x50); the line free, and the line held by launch 0. -/
theorem witness_LineLocks : w0.issuesMem [useS (S 12)] [57] ∧
    (let x := (w0.valS (.g 12)).toNat
     x < 2 ^ 56 ∧ w0.leased ⟨0, 0⟩ x 1 rR = true ∧ (w0.core ⟨0, 0⟩).launch = some 0 ∧ tget? w0.launches 0 = some launch0 ∧
       w0.l2Find 0 (x / 64) = some line0 ∧ w0.sliceDown 0 (x / 64) = false ∧ line0.valid = BitVec.allOnes 64 ∧ line0.lock = none ∧
       (w0.l2.filter fun (m : L2Line) => decide (m.die = 0) && decide (m.line % 96 = x / 64 % 96) && decide (m.lock = some 0)).length = 0 ∧
       fieldNat (launch0.word 0x50) 16 16 = 4 ∧ heldWays (w0.l2Set 0 (x / 64)) < 12) ∧
    (let s : State := { w0 with l2 := [{ line0 with lock := some 0 }] }
     s.issuesMem [useS (S 12)] [] ∧ s.l2Find 0 0x20001 = some { line0 with lock := some 0 } ∧ s.sqUsed ⟨0, 0⟩ < 32 ∧
       s.leased ⟨0, 0⟩ 0x800041 1 rR = true) :=
  ⟨issuesMem_of (by decide) (by decide) rfl, by decide, issuesMem_of (by decide) (by decide) rfl, by decide, by decide, by decide⟩
/-- SystemInstructions: nothing outstanding; a store outstanding; the last bank of the window; a format that is refused and one
that is not; no window. -/
theorem witness_SystemInstructions : (w0.me.acqHolds = false ∧ w0.ownDone w0.cur ≤ w0.cycle) ∧
    wFull.cycle < wFull.ownDone wFull.cur ∧ w0.issues [] [57] ∧ (withThr fun y => y).me.fpPending = false ∧
    0x250 ≤ (0x250 : BitVec 12).toNat ∧
    (let s := withThr fun y => { y with pwin := 0x8000000002000000, g := y.g.set 1 9 }
     s.issues [useS (S 1)] [] ∧ s.inWin ⟨0, 0, 0⟩ (14 * 0x20000) 0x20000 = true ∧ bfRefused (s.valS (.g 1)) = false) ∧
    (w0.issues [useS (S 8)] [] ∧ bfRefused (w0.valS (.g 8)) = true) ∧
    (withThr fun y => { y with pwin := 0 }).inWin ⟨0, 0, 0⟩ 0 0x20000 = false :=
  ⟨⟨rfl, by decide⟩, by decide, issues_of (by decide) (by decide), by decide, by decide,
   ⟨issues_of (by decide) (by decide), by decide, by decide⟩, ⟨issues_of (by decide) (by decide), by decide⟩, by decide⟩

/-! Engine commands -/

/-- Formats as in `wF`, a leaf for the lease's first 64 KiB, the lease of the array held or not, and registers. -/
def wE (held : Bool) (rs : List (Fin 32 × Word)) : State :=
  let s : State := { (wF 1) with tcache := [⟨0, 0x800000, 0x10000, 0x100000, 0x100000 * 65536 + 3, BitVec.allOnes 64, 0x2000⟩] }
  (s.modTh ⟨0, 0, 0⟩ fun y => { y with g := rs.foldl (fun g r => g.set r.1.val r.2) y.g }).modQuad 0 fun q =>
    { q with lease := { q.lease with holder := if held then some 0 else none } }
def e (a : Fin 32) : Eng := ⟨.g 9, a, false, false, false, 0, .none⟩
def grpOf (s : State) (a n : Nat) : List Word := (rangeFrom a n).map fun i => s.me.rdG (Fin.ofNat 32 i)
def wSend (dst len : Word) : State := (wE true [(29, dst), (30, 0x1000), (31, len)]).setRing 0 31 ⟨0x0000000200001001, 0, 0, 0, 0, 0⟩
/-- SendIssue: 4096 bytes to the own quad; one ring slot, with room, its ACQ condition held, and not
yet; a message as long as the ring, with one slot filled; one that is longer. -/
theorem witness_SendIssue : (wSend 0x80000000000000 4096).issuesMem (engUses (e 29) 3) [9] ∧ (e 29).a.val + 3 ≤ 32 ∧
    ((wSend 0x80000000000000 4096).inFlight ⟨0, 0⟩ .send < 8 ∧ (wSend 0x80000000000000 4096).me.packet = none ∧
      firstFault (sendFaults .loc false (wSend 0x80000000000000 4096) (grpOf (wSend 0x80000000000000 4096) 29 3) ++
        [(wSend 0x80000000000000 4096).complCheck .none]) = none) ∧
    ((wSend 0x8000000000001F 16).issuesMem (engUses (e 29) 3) [9] ∧
      firstFault (sendFaults .ring false (wSend 0x8000000000001F 16) (grpOf (wSend 0x8000000000001F 16) 29 3) ++
        [(wSend 0x8000000000001F 16).complCheck .none]) = none ∧
      (wSend 0x8000000000001F 16).ringOf 0x8000000000001F = some ((wSend 0x8000000000001F 16).pkg, 0, 31)) ∧
    (let g := (wSend 0x8000000000001F 16).ring 0 31
     g.en = true ∧ g.world = ((wSend 0x8000000000001F 16).coreOf ⟨0, 0, 0⟩).world ∧ g.need 16 ≤ g.free ((wSend 0x8000000000001F 16).turn 0)) ∧
    ((wSend 0x8000000000001F 16).ringAhead 0 31 2 = false ∧ (wSend 0x8000000000001F 16).tooBig (some 0x8000000000001F) 32 = false ∧
      (wSend 0x8000000000001F 48).tooBig (some 0x8000000000001F) 48 = true) ∧
    ((wSend 0x8000000000001F 16).engReady (e 29) ⟨0, 0⟩ .send ≤ (wSend 0x8000000000001F 16).cycle ∧
      (let s := (wSend 0x8000000000001F 16).modTh ⟨0, 0, 0⟩ fun y => { y with pend := [{ pend0 with due := some 64 }] }
       s.cycle < s.engReady { e 29 with acq := true } ⟨0, 0⟩ .send)) ∧
    (let g := ((wSend 0x8000000000001F 32).setRing 0 31 ⟨0x0000000200001001, 1, 0, 0, 0, 0⟩).ring 0 31
     g.free 0 < g.need 32 ∧ g.need 32 ≤ g.count) :=
  ⟨issuesMem_of (by decide) (by decide) rfl, by decide, by decide, ⟨issuesMem_of (by decide) (by decide) rfl, by decide, by decide⟩,
   by decide, by decide, by decide, by decide⟩
def wCsend : State := wE true [(27, 0x80000000004000), (28, 0x1000), (29, 4096), (30, 7), (31, 0x3FFC)]
def wGath : State := wE true [(25, 0x1000), (26, 1), (27, 0x800000), (28, 64), (29, 4096), (30, 0x2000), (31, 0x3000)]
/-- EngineIssue: a `csend` whose version lies just below its tile; a `gath` and a `scat` of one element. -/
theorem witness_EngineIssue_csend : wCsend.issuesMem (engUses (e 27) 5) [9] ∧ wCsend.inFlight ⟨0, 0⟩ .send < 8 ∧
    csendLimits (grpOf wCsend 27 5) = true ∧ firstFault (csendFaults wCsend (grpOf wCsend 27 5) ++ [wCsend.complCheck .none]) = none :=
  ⟨issuesMem_of (by decide) (by decide) rfl, by decide, by decide, by decide⟩
theorem witness_EngineIssue_skidder : wGath.issuesMem (engUses (e 25) 7) [9] ∧ wGath.inFlight ⟨0, 0⟩ .skid < 8 ∧
    skidLimits .i32 true true (grpOf wGath 25 7) = true ∧
    firstFault (skidFaults .i32 true wGath (grpOf wGath 25 7) ++ [wGath.complCheck .none]) = none ∧
    (grpOf wGath 25 7)[1]!.toNat = 1 ∧ wGath.lmSeeN 0 0x1000 4 = 0 ∧
    elemAddr .i32 (grpOf wGath 25 7) 0 = some 0x800000 ∧
    (elemRights wGath ⟨0, 0⟩ wGath.curOp 0x800000 64 (skidRights (.scat (e 25) .addf .i32)) = none ∧
      elemWalk wGath ⟨0, 0⟩ wGath.curOp 0x800000 64 = none) :=
  ⟨issuesMem_of (by decide) (by decide) rfl, by decide, by decide, by decide, by decide, by decide, by decide⟩
def wMzero (held : Bool) : State := wE held [(30, 127), (31, 1)]
def wMbld : State := wE true [(27, 0x40000), (28, 256), (29, 128), (30, 1), (31, 0x7F00)]
def wMma : State := wE true [(26, 0x40000), (27, 256), (28, 128), (29, 1), (30, 127), (31, 0x7F00)]
def wMmas : State := wE true [(25, 0x40000), (26, 256), (27, 128), (28, 1), (29, 127), (30, 0x7F00), (31, 0x7FC0)]
def wMcmpr : State := wE true [(28, 0), (29, 128), (30, 0x7F00), (31, 0x7FC0)]
def wMst : State := wE true [(27, 0x40000), (28, 256), (29, 127), (30, 1), (31, 128)]
/-- EngineIssue: each matrix command in BF16, at the last accumulator row and the end of a slice, with the lease and without. -/
theorem witness_EngineIssue_matrix_a :
    ((wMzero true).issuesMem (engUses (e 30) 2) [9] ∧ (wMzero true).leaseOpen ⟨0, 0⟩ = true ∧ (wMzero false).leaseOpen ⟨0, 0⟩ = false ∧
      bitAt ((wMzero false).lease 0).giving 0 = false ∧ (grpOf (wMzero true) 30 2).map (·.toNat) = [127, 1]) ∧
    (wMbld.issuesMem (engUses (e 27) 5) [9] ∧ wMbld.leaseOpen ⟨0, 0⟩ = true ∧ bfFmt (wMbld.bankFmt (grp (grpOf wMbld 27 5) 0)) = 2 ∧
      depthOk 2 128 = true ∧ rowLenOk 2 128 = true ∧ sliceFits 0x7F00 (rowBytes 2 128) = true ∧
      firstFault (wMbld.rowFaults 2 (rowAddrs 2 0x40000 256 1 (rowBytes 2 128)) (rowBytes 2 128)) = none) :=
  ⟨⟨issuesMem_of (by decide) (by decide) rfl, by decide, by decide, by decide, by decide⟩,
   issuesMem_of (by decide) (by decide) rfl, by decide, by decide, by decide, by decide, by decide, by decide⟩
theorem witness_EngineIssue_matrix_b :
    (wMma.issuesMem (engUses (e 26) 6) [9] ∧ mmaLimits 2 false wMma (grpOf wMma 26 6) = true ∧
      firstFault (mmaFaults 2 false wMma (grpOf wMma 26 6) ++ [wMma.complCheck .none]) = none) ∧
    (wMmas.issuesMem (engUses (e 25) 7) [9] ∧ mmaLimits 2 true wMmas (grpOf wMmas 25 7) = true ∧
      firstFault (mmaFaults 2 true wMmas (grpOf wMmas 25 7) ++ [wMmas.complCheck .none]) = none) ∧
    (wMcmpr.issuesMem (engUses (e 28) 4) [9] ∧ mcmprLimits 2 (grpOf wMcmpr 28 4) = true) ∧
    (wMst.issuesMem (engUses (e 27) 5) [9] ∧ (grpOf wMst 27 5).map (·.toNat) = [0x40000, 256, 127, 1, 128] ∧
      firstFault (wMst.rowFaults 2 (rowAddrs 2 0x40000 256 1 (rowBytes 2 128)) (rowBytes 2 128)) = none) :=
  ⟨⟨issuesMem_of (by decide) (by decide) rfl, by decide, by decide⟩, ⟨issuesMem_of (by decide) (by decide) rfl, by decide, by decide⟩,
   ⟨issuesMem_of (by decide) (by decide) rfl, by decide⟩, issuesMem_of (by decide) (by decide) rfl, by decide, by decide⟩
/-- A command in flight and due. -/
def wCmd (i : Instr) (g : Engine) (ps : List Word) (tgt val : Word) : State :=
  { (wE true []) with cmds := [⟨5, ⟨0, 0, 0⟩, ⟨0, 0⟩, g, i, ps, tgt, val, 9, 0x804002, 2, 0, some 0, none, none, none, [], 0, []⟩]
                      cores := [(⟨0, 0⟩, { core0 with qwin := 0x8000000001E00000 })] }
def cmdOf (s : State) : Option Cmd := s.cmds.find? fun (x : Cmd) => decide (x.id = 5) && x.freeAt.isNone
/-- CommandCompletion: `mzero` of the last row; a `send` of 4096 bytes to the top of the window, with no action and with a store;
a `csend` at the version it expects and at another; a message that waits, with room and without. -/
theorem witness_CommandCompletion_a :
    ((cmdOf (wCmd (.mzero (e 30)) .mat [127, 1] 0 0)).map (fun m => (m.due, m.status, m.d, m.own)) = some (some 0, none, 9, none) ∧
      (wCmd (.mzero (e 30)) .mat [127, 1] 0 0).lm.wf = true ∧ cwf 0 (wCmd (.mzero (e 30)) .mat [127, 1] 0 0).acc = true) ∧
    (let s := wCmd (.send ⟨.g 9, 29, false, false, false, 0, .st 1 2⟩ true .loc false) .send [0x800000001DF000, 0x1000, 4096] 0x1C0000 3
     (cmdOf s).isSome = true ∧ s.quadAddr 0 0x800000001DF000 = some (s.pkg, 0, 0x1DF000) ∧ s.qwinTakes 0 0 0x1DF000 4096 = true ∧
       s.lmBad 0 0x1000 4096 = false) ∧
    (let s := wCmd (.csend (e 27)) .send [0x80000000004000, 0x1000, 4096, 0, 0x3FFC] 0 0
     (cmdOf s).isSome = true ∧ s.quadAddr 0 0x80000000004000 = some (s.pkg, 0, 0x4000) ∧ s.qwinTakes 0 0 0x4000 4096 = true ∧
       s.qwinTakes 0 0 0x3FFC 4 = true ∧ s.lmBad 0 0x1000 4096 = false ∧ 0x3FFC + 4 ≤ 0x4000 ∧ Mem.readN s.lm 0x3FFC 4 = 0) := by decide
def msg0 (n : Nat) : RingMsg :=
  ⟨6, ⟨0, 0, 0⟩, 0, 0, 31, 0x8000000000001F, List.replicate n (some 0), [], [], 0, some 6, none⟩
def wMsg (n : Nat) (wp : BitVec 32) : State :=
  { ((wRing wp 0 0).modTh ⟨0, 0, 0⟩ fun y =>
      { y with run := .waiting (.ringRoom 6), packet := some ⟨1, n, some 0x8000000000001F, List.replicate n (some 0), [], []⟩ }) with ringMsgs := [msg0 n] }
theorem witness_CommandCompletion_b :
    (let s := wMsg 16 1
     (s.ringMsgs.find? fun (y : RingMsg) => decide (y.id = (msg0 16).id)) = some (msg0 16) ∧ (msg0 16).due ≤ s.cycle ∧
       (msg0 16).pkg = s.pkg ∧ s.ringAhead 0 31 6 = false ∧ s.gateOpen ((msg0 16).gate.getD (s.gateOf (msg0 16))) = true ∧
       s.ringScopes (msg0 16) = [.quad] ∧ (s.th (msg0 16).src).run = .waiting (.ringRoom 6) ∧
       (s.ring 0 31).en = true ∧ (s.ring 0 31).world = (s.coreOf ⟨0, 0, 0⟩).world ∧ (s.ring 0 31).need 16 ≤ (s.ring 0 31).free 0) ∧
    ((wMsg 16 2).ring 0 31).free 0 < ((wMsg 16 2).ring 0 31).need 16 ∧ (wMsg 16 1).ringAhead 0 31 7 = true := by decide
/-- MatrixArray: a one-row BF16 product at the last row; a request of core 1 with no holder; a grant of 64 commands. -/
def wLease (l : Lease) : State := w0.modQuad 0 fun q => { q with lease := l }
theorem witness_MatrixArray :
    (isFp4 (bfFmt (2 : Word)) = false ∧ isFp4 7 = true ∧ (wE true []).lmBad 0 0x40000 (rowBytes 2 128) = false ∧
      (wE true []).canPoison = [] ∧ cwf 0 (wE true []).acc = true) ∧
    (let l := (wLease ⟨none, 3, 0, 0, 0b0010, 0⟩).lease 0
     l.holder = none ∧ bitAt l.posted ((l.last.val + 1) % 4) = false ∧ bitAt l.posted ((l.last.val + 2) % 4) = true) ∧
    (let s := wLease ⟨some 0, 0, 64, 0, 0b1000, 0⟩
     (s.lease 0).holder = some 0 ∧ s.matRunning 0 = false ∧ 64 ≤ (s.lease 0).cmds ∧ bitAt (s.lease 0).posted 1 = false ∧
       bitAt (s.lease 0).posted 2 = false ∧ bitAt (s.lease 0).posted ((0 + 3) % 4) = true) ∧
    (let s := wCmd (.mzero (e 30)) .mat [127, 1] 0 0
     (s.lease 0).holder = some 0 ∧ s.matRunning 0 = true) := by decide
/-- RangeDeque: a range and an empty one; a full deque; the newest of one; core 0 has nothing and core 2, two cores on, has the
range of R264's example, while core 1 has nothing. -/
def wDeque (c : Cid) (q : List Word) : State :=
  { (withThr fun y => { y with g := y.g.set 1 0x0000000700000006 }) with
    cores := [(⟨0, 0⟩, { core0 with deque := if c.core = 0 then q else [] }), (⟨0, 2⟩, { core0 with deque := if c.core = 2 then q else [] })] }
theorem witness_RangeDeque : ((wDeque ⟨0, 0⟩ []).issues [useS (S 1)] [57] ∧ (wDeque ⟨0, 0⟩ []).issues [] [57]) ∧
    (((wDeque ⟨0, 0⟩ []).valS (.g 1)).toNat % 2 ^ 32 + 1 = ((wDeque ⟨0, 0⟩ []).valS (.g 1)).toNat / 2 ^ 32) ∧
    ((wDeque ⟨0, 0⟩ (List.replicate 32 0x200000000)).core ⟨0, 0⟩).deque.length = 32 ∧
    ((wDeque ⟨0, 0⟩ [0x200000000]).issues [] [30, 31] ∧ ((wDeque ⟨0, 0⟩ [0x200000000]).core ⟨0, 0⟩).deque = [] ++ [0x200000000]) ∧
    (let s := wDeque ⟨0, 2⟩ [0x0000006B00000064]
     (s.core ⟨0, 0⟩).deque = [] ∧ (s.core ⟨0, 0⟩).launch = some 0 ∧ (tget? s.launches 0).isSome = true ∧ s.withheld 0 = false ∧
       s.hasWork 0 ⟨0, 1⟩ = false ∧ (s.core ⟨0, 2⟩).launch = some 0 ∧ (s.core ⟨0, 2⟩).deque = [0x0000006B00000064]) :=
  ⟨⟨issues_of (by decide) (by decide), issues_of (by decide) (by decide)⟩, by decide, by decide,
   ⟨issues_of (by decide) (by decide), by decide⟩, by decide⟩
/-- The example of 08 R264: [100, 107) of core 2; core 0 gets [103, 107) in turn t + 2, and core 2 keeps [100, 103). -/
theorem test_steal : (match exec (.dpop 4) (wDeque ⟨0, 2⟩ [0x0000006B00000064]) with
    | .next t => (t.me.pend.map fun p => (p.reg, p.val, p.due), (t.core ⟨0, 2⟩).deque)
    | _ => ([], [])) = ([(4, .s 0x0000006B00000067, some 32), (5, .s 0, some 32)], [0x0000006700000064]) := by decide

/-! The thread's events, the control thread, launches, contexts -/

def fetch0 (i : Word) : Fetch := ⟨0x804040 + 2 * i, some (chk fun _ h => h), 0, .ok, none, false, none⟩
def wFetch (i : Word) : State := withThr fun y => { y with run := .blocked, fetch := some (fetch0 i) }
def fill0 : Fill := ⟨8, ⟨0, 0⟩, .icache, 0x20101, 0x104040, 0, 0, 16, zeroLine, .ok⟩
def sup0 : SupMsg := ⟨9, 0x80000000001F, 0, 1, 2, none⟩
/-- A line enters at its first head and at its last; a breakpoint; a deferred failure; a park; a fill; a broadcast to a stopped
slot, and to one that runs; a message to ring 31, with room and without. -/
theorem witness_ThreadEvents_a :
    ([1, 4] : List Word).all (fun i => decide (((wFetch i).th ⟨0, 0, 0⟩).fetch = some (fetch0 i) ∧
      (fetch0 i).due ≤ (wFetch i).cycle ∧ lineLegal (chk fun _ h => h) false = true ∧ (fetch0 i).target.toNat % 2 = 0 ∧
      1 ≤ (fetch0 i).target.toNat % 64 / 2 ∧ (fetch0 i).target.toNat % 64 / 2 ≤ lineNH (chk fun _ h => h))) = true ∧
    ((w0.setMreg 0x970 0x8000000000000001).setMreg 0x978 0x804002).breakAt ⟨0, 0, 0⟩ = some 7 := by decide
theorem witness_ThreadEvents_b :
    (let s := withThr fun y => { y with deferred := some (fail0, 31, 0x30) }
     let x := s.th ⟨0, 0, 0⟩
     x.deferred = some (fail0, 31, 0x30) ∧ fail0.ends = none ∧ x.run = .running ∧ x.xbr = none ∧ x.lanes = 0 ∧
       x.fetch = none ∧ x.packet = none) ∧
    (let s := withThr fun y => { y with parkEv := 1 }
     let x := s.th ⟨0, 0, 0⟩
     x.parkEv ≠ 0 ∧ x.run = .running ∧ x.xbr = none ∧ x.lanes = 0 ∧ x.fetch = none ∧ x.deferred = none) ∧
    (let s : State := { w0 with fills := [fill0] }
     (s.fills.find? fun (y : Fill) => decide (y.id = fill0.id)) = some fill0 ∧ fill0.level = .icache) ∧
    (w0.maskHalted ⟨0, 0⟩ (0x8000 : BitVec 16).toNat = true ∧ (0x8000 : BitVec 16) ≠ 0 ∧
      w0.leased ⟨0, 0⟩ (0x804040 : Word).toNat 64 rX = true ∧ w0.maskHalted ⟨0, 0⟩ (1 : BitVec 16).toNat = false) := by decide
def wSup : State := { (wRing 1 1 1) with sups := [{ sup0 with des := 0x1F }] }
theorem witness_ThreadEvents_c : (wSup.sups.find? fun (y : SupMsg) => decide (y.id = 9)) = some { sup0 with des := 0x1F } ∧
    (wSup.designator true ⟨0, 0⟩ 0x1F).map (fun d => (d.pkg, d.idx)) = some (wSup.pkg, 31) ∧ bitAt (0x1F : Word) 23 = false ∧
    (wSup.ring 0 31).en = true ∧ (wSup.ring 0 31).world = sup0.world ∧ (wSup.ring 0 31).need 16 ≤ (wSup.ring 0 31).free (wSup.turn 0) ∧
    wSup.ringAhead 0 31 9 = false ∧ wSup.ringAhead 0 31 10 = true ∧
    ((wRing 2 2 0).ring 0 31).free 0 < ((wRing 2 2 0).ring 0 31).need 16 := by decide
/-- The control thread of core 0, with registers. -/
def wHart (p : Priv) (xs : List (Fin 32 × Word)) : State :=
  let s : State := { w0 with hart := .ctl ⟨0, 0⟩ }
  s.modHt (.ctl ⟨0, 0⟩) fun h => { h with priv := p, active := true, pc := 0x804000, x := xs.foldl (fun x r => x.set r.1.val r.2) h.x }
/-- StartAndJoin: a broadcast to slot 15, and to slot 0, which runs; a line with bit 56, a mask with bit 16; a wait for unit 17,
for slot 0, and for bit 18; joins; a misaligned table. -/
theorem witness_StartAndJoin : (wHart .u []).hart = .ctl ⟨0, 0⟩ ∧
    ((0x804040 : Word).toNat % 64 = 0 ∧ (0x804040 : Word).toNat < 2 ^ 56 ∧ (0x8000 : Word).toNat < 2 ^ 16 ∧
      (wHart .u []).maskHalted ⟨0, 0⟩ 0x8000 = true ∧ (wHart .u []).maskHalted ⟨0, 0⟩ 1 = false) ∧
    ((wHart .u [(31, 2 ^ 56)]).hx 31 = 2 ^ 56 ∧ ¬ (2 ^ 56 : Word).toNat < 2 ^ 56 ∧ ¬ (0x10000 : Word).toNat < 2 ^ 16) ∧
    ((wHart .u []).allHalted ((wHart .u []).named18 ⟨0, 0⟩ 0x20000) = true ∧
      (wHart .u []).allHalted ((wHart .u []).named18 ⟨0, 0⟩ 1) = false ∧ 2 ^ 18 ≤ (0x40000 : Word).toNat) ∧
    (let s := (wHart .u []).modCore ⟨0, 0⟩ fun k => { k with forked := 1 }
     (wHart .u []).allHalted ((wHart .u []).named18 ⟨0, 0⟩ ((wHart .u []).core ⟨0, 0⟩).forked.toNat) = true ∧
       s.allHalted (s.named18 ⟨0, 0⟩ (s.core ⟨0, 0⟩).forked.toNat) = false) ∧ (0x800020 : Word).toNat % 64 ≠ 0 := by decide
/-- A fork table at 0x80_0040: `units` with their PC 0x80_4042 in words 15 to 18, g1 preset to 7. -/
def wFork (units : Nat) : State :=
  { (wHart .u [(10, 0x800040)]) with
    l2 := [line0, { line0 with line := 0x20003, pa := 0x1000C0, way := 1 }]
    cores := [(⟨0, 0⟩, { core0 with l1 := [⟨0x800040 / 8, 8, 0, 0, 0, 0x100040, 0, dataPut zeroLine 0 (natLE 8 units), 0⟩,
      ⟨0x8000C0 / 8, 8, 0, 0, 0, 0x1000C0, 0, dataPut (dataPut (dataPut zeroLine 0 (natLE 8 0x804042)) 24 (natLE 8 2)) 32 (natLE 8 7), 0⟩] })] }
def forkGot (units : Nat) (ns : List Nat) : Option (List (Nat × Nat)) × State := forkWords (wFork units) ⟨0, 0⟩ .u 0x800040 ns
theorem witness_StartAndJoin_fork : (forkGot 0x8000 [0, 19]).1 = some [(0, 0x8000), (19, 2)] ∧
    (forkGot 0x8000 [0, 19]).2.allHalted [unitTid ⟨0, 0⟩ 15] = true ∧
    (let r := forkWords (forkGot 0x8000 [0, 19]).2 ⟨0, 0⟩ .u 0x800040 [16]
     r.1 = some [(16, 0x804042)] ∧ (forkWords r.2 ⟨0, 0⟩ .u 0x800040 [20]).1 = some [(20, 7)]) ∧
    (forkGot 1 [0, 19]).1 = some [(0, 1), (19, 2)] ∧ (forkGot 1 [0, 19]).2.allHalted [unitTid ⟨0, 0⟩ 0] = false :=
  ⟨by decide, by decide, by decide, by decide, by decide⟩
/-- ControlOfThreads: the lease held, and not; a stopped slot 15 (fault, and parked) and the running slot 0; empty g31; a task
record not asked for, asked for, and due. -/
def wStopped (r : Reason) : State := (wHart .u []).setTh ⟨0, 0, 15⟩ { thr0 with run := .stopped r }
theorem witness_ControlOfThreads :
    (let s := { (wE true []) with hart := .ctl ⟨0, 0⟩ }
     (s.lease 0).holder = some 0 ∧ bitAt (s.lease 0).giving 0 = false ∧ s.cmds = []) ∧
    (let s := wHart .u []
     (s.lease 0).holder ≠ some 0 ∧ bitAt (s.lease 0).giving 0 = false ∧ (s.th (slotTid ⟨0, 0⟩ 0)).halted = false ∧
       (s.th (slotTid ⟨0, 0⟩ 15)).halted = true ∧
       (let x := s.th (slotTid ⟨0, 0⟩ 0)
        x.run = .running ∧ x.xbr = none ∧ x.lanes = 0 ∧ x.fetch = none ∧ x.packet = none) ∧ s.stopsFirst (slotTid ⟨0, 0⟩ 0) = false ∧
       (s.modTh ⟨0, 0, 0⟩ fun y => { y with deferred := some (fail0, 31, 0x30) }).stopsFirst (slotTid ⟨0, 0⟩ 0) = true ∧
       (s.core ⟨0, 0⟩).taskDue = none) ∧
    ((wStopped .fault).th (slotTid ⟨0, 0⟩ 15)).run = .stopped .fault ∧
    ((wStopped .killed).th (slotTid ⟨0, 0⟩ 15)).run = .stopped .killed ∧
    (let s := (wStopped .parked).modTh ⟨0, 0, 15⟩ fun x => x.setEmpty 31
     (s.th (slotTid ⟨0, 0⟩ 15)).halted = true ∧ (s.th (slotTid ⟨0, 0⟩ 15)).isFull (31 : Fin 32).val = false ∧
       (s.th (slotTid ⟨0, 0⟩ 15)).isFull (30 : Fin 32).val = true) ∧
    (let s := (wHart .u []).modCore ⟨0, 0⟩ fun k => { k with taskDue := some 64 }
     (s.core ⟨0, 0⟩).taskDue = some 64 ∧ s.cycle < 64 ∧ 64 ≤ ({ s with cycle := 64 } : State).cycle) := by decide
/-- ControlThread: the CSRs of a hart at reset; the stall timer's interrupt pending and enabled, and not; an idle core and one whose
slot 0 runs. -/
def wTimer : State := ((wHart .u []).setCsr (.ctl ⟨0, 0⟩) 0x304 0x20000).setCsr (.ctl ⟨0, 0⟩) 0x8C0 0
theorem witness_ControlThread : (cwf 0 ((wHart .u []).ht (.ctl ⟨0, 0⟩)).csrs = true ∧ (wHart .u []).csr (.ctl ⟨0, 0⟩) 0x302 = 0) ∧
    ((wHart .m []).hme.priv = .m ∧ (wHart .u [(17, 1)]).hme.priv = .u ∧ (wHart .u [(17, 1)]).hme.rd 17 ≠ 0) ∧
    ((wHart .u []).takenInt (.ctl ⟨0, 0⟩) ≠ some 17 ∧ wTimer.takenInt (.ctl ⟨0, 0⟩) = some 17 ∧
      bitAt (wTimer.csr (.ctl ⟨0, 0⟩) 0x303) 17 = false ∧ cwf 0 (wTimer.ht (.ctl ⟨0, 0⟩)).csrs = true) ∧ cwf 0 w0.regs = true ∧
    ((wHart .u []).allHalted ((wHart .u []).coreThreads ⟨0, 0⟩) = false ∧
      (let s := (wHart .u []).modTh ⟨0, 0, 0⟩ fun x => { x with run := .stopped .normal }
       s.allHalted (s.coreThreads ⟨0, 0⟩) = true ∧ (s.core ⟨0, 0⟩).launch = some 0 ∧ tget? s.launches 0 = some launch0)) := by decide
/-- Launches: a bad address, a full queue, the last place; a ready head of queue 31 that takes core 3 of quad 13, and one that waits
for core 0 of quad 0, which is taken; a launch that is over, and one that is not; a fork to deliver. -/
def wQueue (n : Nat) : State := w0.setLq 31 { LQ.init with blocks := List.replicate n 0x900000 }
def blkOf (group qc : Word) : List Word := (List.range 32).map fun i =>
  if i = 2 then 0x800040 else if i = 4 then 1 else if i = 5 then 0x40000200001 else if i = 6 then 0x10000 else if i = 7 then qc else
  if i = 8 then group else if i = 15 then 0x1000000000 else 0
def wHead (qc : Word) : State := (((w0.setMreg 0x7E0 1).setMreg 0x40 1).setLq 31 { LQ.init with blocks := [0x900000], head := some (blkOf 1 qc) })
theorem witness_Launches_queues : (0x900001 : Word).toNat % 256 ≠ 0 ∧ 2 ^ 56 ≤ (0x0100000000000000 : Word).toNat ∧
    16 ≤ ((wQueue 16).lq 31).blocks.length ∧ ((wQueue 15).lq 31).blocks.length < 16 ∧
    (let s := wHead 0x82000
     let l := mkLaunch 31 0x900000 (blkOf 1 0x82000)
     s.lqOn 31 = true ∧ (s.lq 31).blocks = [0x900000] ∧ (s.lq 31).head = some (blkOf 1 0x82000) ∧ s.coresOf l = [⟨13, 3⟩] ∧
       s.ready l 0 = true ∧ l.forkt = 0 ∧ l.gmode ≠ 2 ∧ l.wen 0 = false ∧ l.wen 1 = false ∧
       (s.launches.all fun y => !grainOverlap y.2 l && !grainShared y.2 l) = true ∧
       (pinLines s ⟨0xFFFF, l.world, l.acct, 0, 0, 0⟩ (linesAt l.glive (8 * l.gcount))).isSome = true) ∧
    (wHead 0x10001).ready (mkLaunch 31 0x900000 (blkOf 1 0x10001)) 0 = false := by decide
/-- A launch of core 0 that runs a fork, or that core 0 has left. -/
def wOver (n : Nat) (forks : List Cid) : State := { w0 with launches := [(0, { launch0 with exits := n, forks := forks })] }
theorem witness_Launches_ends : tget? (wOver 1 []).launches 0 = some { launch0 with exits := 1 } ∧
    (wOver 1 []).launchOver 0 { launch0 with exits := 1 } = true ∧ w0.launchOver 0 launch0 = false ∧
    (w0.core ⟨0, 0⟩).launch = some 0 ∧ launch0.forks.contains (⟨0, 0⟩ : Cid) = false ∧
    (let l : Launch := { launch0 with forks := [⟨0, 0⟩] }
     let s : State := { wFork 0x8000 with launches := [(0, l)] }
     let b : State := { wFork 1 with launches := [(0, l)] }
     l.forks.contains (⟨0, 0⟩ : Cid) = true ∧ (forkFrom s ⟨0, 0⟩ .u (0x800040 : Word).toNat).1 = .done ∧
       (tget? (forkFrom s ⟨0, 0⟩ .u (0x800040 : Word).toNat).2.launches 0).isSome = true ∧
       (forkFrom b ⟨0, 0⟩ .u (0x800040 : Word).toNat).1 = .stall) := by decide
/-- Contexts: nothing to unmap for, an unmap whose wait is over, and one that waits; a quad with a running slot, at rest, and free; a
marker that enters the round, and one that comes during a SAVE; a held quad; a slot asked to be saved at a boundary. -/
def wOp (q : Quad) : State := w0.setQuad 0 q
def wAt (op : QOp) : State := (wOp { Quad.init with op := op }).modTh ⟨0, 0, 0⟩ fun x => { x with run := .saved }
theorem witness_Contexts :
    (w0.unmap = none ∧ w0.unmapReady = false ∧ ({ w0 with unmap := some (0x800000, 0x810000) } : State).unmapReady = true ∧
      ({ w0 with unmap := some (0x800000, 0x810000), sq := [⟨0, ⟨0, 0⟩, 0, [0x203FF], [], 64⟩] } : State).unmapReady = false) ∧
    (let s : State := { w0 with mlc := [⟨0, none, false, none, 0, 0, 0, 0, false⟩] }
     s.launchOf ⟨0, 0⟩ = some launch0 ∧ bitAt (1 : BitVec 16) (s.core ⟨0, 0⟩).world.toNat = true ∧ s.domainDead 0 = false ∧
       launch0.doms ≠ [] ∧ launch0.doms.all (fun d => decide (fieldNat (s.mreg 0x208) 12 28 * 4096 + 256 * 0 + d < 64)) = true ∧
       s.lost = [] ∧ (s.mlcFind 0).map (·.poison) = some false) ∧
    (bitAt ((w0.setMreg 0x40 1).mreg 0x40) (dieOf 1) = true ∧ bitAt (w0.mreg 0x40) (dieOf 1) = false) ∧
    ((w0.quad 0).op = .none ∧ (w0.quad 0).held = false ∧ ((coreCids 0).any fun c => (w0.core c).launch.isSome) = true ∧
      ((coreCids 1).any fun c => (w0.core c).launch.isSome) = false ∧ (w0.quad 1).op = .none ∧ cwf 0 w0.regs = true) ∧
    (((wAt .save).quad 0).op = .save ∧ (wAt .save).atRest 0 = true ∧ (wOp { Quad.init with op := .save }).atRest 0 = false) ∧
    (let s := wOp { Quad.init with op := .mark, markers := [(0, 1)] }
     (s.quad 0).op = .mark ∧ (1 : BitVec 32).toNat = (s.markRound 0 + 1) % 2 ^ 32 ∧ s.inputsOf 0 = [0] ∧
       (s.quad 0).markers = [(0, (1 : BitVec 32).toNat)]) ∧
    (let s := (wOp { Quad.init with held := true }).modTh ⟨0, 0, 0⟩ fun x => { x with run := .saved }
     (s.quad 0).held = true ∧ (s.quad 0).markReq = false ∧ (s.quad 0).markers = [] ∧ (s.th ⟨0, 0, 0⟩).run = .saved) ∧
    (let s : State := { (withThr fun x => { x with saveReq := true }) with cycle := 1 }
     s.canSave ⟨0, 0, 0⟩ = true ∧ s.lm.wf = true ∧ w0.canSave ⟨0, 0, 0⟩ = false) := by decide
/-! Confidentiality, repair, the I/O die, boot, the whole machine -/

/-- Confidentiality: the management page names domain `k` with the range from `lo` to `hi`; keys as at reset, or domain 63 valid. -/
def wKd (k : Nat) (valid : Bool) (lo hi : Word) : State :=
  ((((w0.setMreg 0x118 (if valid then BitVec.allOnes 64 else 1)).setMreg 0x100 (BitVec.ofNat 64 (k * 256))).setMreg 0x108 lo).setMreg 0x110 hi)
theorem witness_Confidentiality_domains : cwf 0 (wKd 63 false 0 0).regs = true ∧
    ((wKd 63 false 0 0).kdDom = 63 ∧ (wKd 63 false 0 0).kdBusy = none ∧ (wKd 63 false 0 0).erased = false ∧
      (wKd 63 false 0 0).kdFenced 63 = false ∧ (wKd 63 false 0 0).kdIsValid 63 = false ∧ (wKd 63 true 0 0).kdIsValid 63 = true ∧
      (wKd 0 true 0 0).kdDom = 0) ∧
    ((wKd 63 true 0 0).setMreg 0x128 0x8000000000000000).kdFenced 63 = true ∧
    (let s := wKd 63 true 0x8FFFFF0000 0xFFFFFF0000
     fieldNat (s.mreg 0x108) 16 24 * 65536 < fieldNat (s.mreg 0x110) 16 24 * 65536 ∧ s.mem.wf = true ∧
       min (fieldNat (s.mreg 0x110) 16 24 * 65536) 0x9000000000 = 0x9000000000) ∧
    fieldNat ((wKd 63 true 0x10000 0x10000).mreg 0x110) 16 24 * 65536 ≤ fieldNat ((wKd 63 true 0x10000 0x10000).mreg 0x108) 16 24 * 65536 ∧
    (let s : State := { w0 with kdBusy := some ⟨1, 0⟩ }
     s.kdBusy = some ⟨1, 0⟩ ∧ s.cycle < 1 ∧ 1 ≤ ({ s with cycle := 1 } : State).cycle) := by decide
/-- The alarm: every trigger set to each action; its configuration locked; a fence when nothing worse waits. -/
def wAlarm (cfg : Word) : State := w0.setMreg 0x180 cfg
theorem witness_Confidentiality_alarm : bitAt (w0.mreg 0x180) 63 = false ∧ bitAt ((wAlarm 0x8000000000000000).mreg 0x180) 63 = true ∧
    (wAlarm 0).actOf .integ = 0 ∧ (wAlarm 0xFFF).actOf .integ = 3 ∧ (wAlarm 0x555).actOf .link = 1 ∧
    (wAlarm 0xAAA).actOf .link = 2 ∧ (wAlarm 0x555).halted = false ∧ (wAlarm 0x555).worseWaits = false ∧
    (launch0.kdom = 0 ∧ tget? (wAlarm 0x555).launches 0 = some launch0) ∧
    (Trigger.integ ≠ .debug ∧ w0.puf = true ∧ ({ w0 with puf := false } : State).puf = false) := by decide
/-- A link with keys: the packet before the last, with no refusal before and with one; the last packet; a link without keys. -/
def wLink (n : BitVec 64) (retry : Bool) : State :=
  { w0 with links := [(95, { Link.init with keyed := true, count := Vector.replicate 2 n, retry := Vector.replicate 2 retry })] }
theorem witness_Confidentiality_packets (body : List Byte) :
    let l := (wLink 0 false).link 95
    let tag := (asconAead true l.key[dirN true] (packetNonce 95 true l.count[dirN true]) [] body).2
    (l.openPacket 95 true [] body tag).isSome = true ∧ (l.openPacket 95 true [] body (tag + 1)).isSome = false := by
  constructor
  · simp [Link.openPacket]
  · simp [Link.openPacket]
theorem witness_Confidentiality_links : (w0.link 95).keyed = false ∧
    (let l := (wLink 0xFFFFFFFFFFFE true).link 95
     l.keyed = true ∧ l.down = false ∧ w0.halted = false ∧ (l.count[(1 : Fin 2)] + 1).toNat ≠ 2 ^ 48 ∧ l.retry[(1 : Fin 2)] = true) ∧
    ((wLink 0 false).link 95).retry[(0 : Fin 2)] = false ∧ (((wLink 0 false).link 95).count[(0 : Fin 2)]).toNat < 2 ^ 48 ∧
    2 ^ 48 ≤ (((wLink 0x1000000000000 false).link 95).count[(0 : Fin 2)]).toNat := by decide
/-- Repair: a running slot; the margin on with an offset, at the end of a hold and inside it; a range register locked, and lengths of
1, 12 and 13 ways; links; a way to be gated. -/
def wMargin (v : Word) : State := w0.setReg (dieBase 7 + 0xC0) v
theorem witness_Repair : cwf 0 w0.regs = true ∧ (w0.th ⟨0, 0, 0⟩).run = .running ∧ (w0.th ⟨0, 0, 0⟩).deferred = none ∧
    (bitAt ((wMargin 0x0000011E00011001).reg (dieBase 7 + 0xC0)) 0 = true ∧ bitAt (w0.reg (dieBase 7 + 0xC0)) 0 = false ∧
      fieldNat (0x0000011E00011001 : Word) 16 16 = 1 ∧ fieldNat (0x0000011E00010001 : Word) 8 8 = 0) ∧
    (let s := ((w0.setMreg 0x2F8 0x200000).setMreg 0x330 0x8000000000000100)
     bitAt (s.mreg 0x330) 63 = true ∧ bitAt (s.mreg 0x338) 63 = false ∧ fieldNat (s.mreg 0x2B8) 21 19 < fieldNat (s.mreg 0x2F8) 21 19 ∧
       (0x8000000000000B00 : Word) &&& 0x7FFFFFFFFFF0F0FF = 0 ∧ fieldNat (0x8000000000000B00 : Word) 8 4 + 1 = 12 ∧
       12 < fieldNat (0x8000000000000C00 : Word) 8 4 + 1 ∧ fieldNat (s.mreg 0x2C0) 21 19 ≤ fieldNat (s.mreg 0x280) 21 19) ∧
    ((w0.link 95).down = false ∧ ({ w0 with links := [(95, { Link.init with down := true })] } : State).link 95 = { Link.init with down := true }) ∧
    (w0.mlcFind 0 = none ∧ cwf 0 w0.mlcWays = true ∧ bitAt w0.mlcReserved 15 = false ∧ bitAt (tget (0 : Half) w0.mlcgate 11) 15 = false ∧
      ((List.range 96).all fun j => !bitAt (tget (0 : Half) w0.l2gate (0 * 96 + j)) 15) = true ∧
      (w0.l2.all fun x => decide (x.way.val ≠ 15)) = true) ∧
    (bitAt (w0.reg (dieBase 0 + 0x80)) 63 = false ∧ bitAt (0x8000 : Word) 15 = true ∧ w0.gateBusy.contains (true, 0) = false ∧
      ({ w0 with gateBusy := [(true, 0)] } : State).gateBusy.contains (true, 0) = true ∧
      bitAt ((w0.setReg (dieBase 0 + 0x80) 0x8000000000000000).reg (dieBase 0 + 0x80)) 63 = true) := by decide
/-- InputOutput: a die whose dump is asked for, and one being written; the host ring with room for one more slot, full, and with a
tail behind the one it has; the mailbox's bits; the measurement register locked; one copy of the last 64 bytes of partition 1. -/
def wIo (rs : List (Nat × Word)) : State := rs.foldl (fun s r => s.setReg (localBase + r.1) r.2) w0
theorem witness_InputOutput_dumps : cwf 0 w0.regs = true ∧ cwf 0 w0.accts = true ∧ w0.mem.wf = true ∧
    bitAt (w0.reg (dieBase 7)) 63 = false ∧ bitAt ((w0.setReg (dieBase 7) 0x8000000000000000).reg (dieBase 7)) 63 = true ∧
    (w0.lcBusy.any fun b => decide (b.1 = 7)) = false ∧
    (let s : State := { w0 with lcBusy := [(7, 1)] }
     (s.lcBusy.any fun b => decide (b.1 = 7)) = true ∧ (s.lcBusy.find? fun b => decide (b.1 = 7)) = some (7, 1) ∧ s.cycle < 1 ∧
       1 ≤ ({ s with cycle := 1 } : State).cycle) := by decide
/-- The 256 lines of die 0's dump at address 0, which the MLC holds sound. -/
def wDump : State := { w0 with mlc := (List.range 256).map fun i => ⟨i, none, false, none, 0, 0, 0, 0, false⟩ }
theorem witness_InputOutput_held : wDump.dumpBase 0 = 0 ∧ wDump.domainDead 0 = false ∧ 0 + 8 + 0x3FF8 ≤ 0x9000000000 ∧
    wDump.lost = [] ∧ ∀ line, line < 256 → ∃ m, wDump.mlcFind line = some m ∧ m.poison = false := by
  refine ⟨by decide, by decide, by decide, rfl, fun line h => ⟨⟨line, none, false, none, 0, 0, 0, 0, false⟩, ?_, rfl⟩⟩
  have : (List.range 256).find? (fun i => decide (i = line)) = some line := by
    rw [List.find?_range_eq_some]
    exact ⟨by simp, by simpa using h, fun j hj => by simpa using hj.ne⟩
  simp [State.mlcFind, wDump, List.find?_map, this]
def heldOf (s : State) (x : Nat) : Nat := (x + 2 ^ 32 - (s.lreg 0x20020118).toNat % 2 ^ 32) % 2 ^ 32
theorem witness_InputOutput_rings :
    (let s := wIo [(0x20020108, 16)]
     heldOf s 16 ≤ s.ringSize ∧ heldOf s ((s.lreg 0x20020110).toNat % 2 ^ 32) ≤ heldOf s 16 ∧ s.ringSize < heldOf s 17) ∧
    (let s := wIo [(0x20020108, 16), (0x20020110, 2), (0x20020118, 0xFFFFFFFF)]
     heldOf s 1 < heldOf s ((s.lreg 0x20020110).toNat % 2 ^ 32) ∧ (s.lreg 0x20020118).toNat % 2 ^ 32 = 0xFFFFFFFF ∧
       0 = ((s.lreg 0x20020118).toNat % 2 ^ 32 + 1) % 2 ^ 32 ∧ 1 ≤ s.ringSize ∧ s.hostMem.wf = true) ∧
    (bitAt ((wIo []).lreg 0x20020000) 0 = false ∧ bitAt ((wIo [(0x20020000, 1)]).lreg 0x20020000) 0 = true ∧
      bitAt ((wIo []).lreg 0x20020008) 0 = false ∧ bitAt ((wIo [(0x20020008, 1)]).lreg 0x20020008) 0 = true) := by decide
theorem witness_InputOutput_operations :
    (let s := wIo [(0x20030000, 0x100), (0x20030008, 0xFFFC0), (0x20030010, 64), (0x20030018, BitVec.ofNat 64 (localBase + 0x1007FFC0))]
     s.bpBusy = none ∧ fieldNat (s.lreg 0x20030008) 0 32 + fieldNat (s.lreg 0x20030010) 0 32 = 0x100000 ∧
       (s.lreg 0x20030018).toNat % 64 = 0 ∧ (s.lreg 0x20030018).toNat + 64 = localBase + 0x10000000 + 0x80000 ∧ s.flashErr = [] ∧
       s.sram.wf = true ∧ s.flash.wf = true) ∧
    (let s := wIo [(0x20010200, 0xF00), (0x20010208, BitVec.ofNat 64 (localBase + 0x1007FFE0)), (0x20010210, 0x7FFF)]
     s.mrBusy = none ∧ fieldNat (s.lreg 0x20010200) 8 4 = 15 ∧ bitAt (s.lreg 0x20010210) 15 = false ∧ bitAt (s.lreg 0x20010210) 14 = true ∧
       (s.lreg 0x20010208).toNat + 32 = localBase + 0x10000000 + 0x80000) ∧
    (let s : State := { w0 with bpBusy := some ⟨1, 0⟩, mrBusy := some ⟨0, 0⟩, mrNext := some (15, 7), ceBusy := some ⟨1, 0⟩ }
     s.bpBusy = some ⟨1, 0⟩ ∧ s.cycle < 1 ∧ s.mrBusy = some ⟨0, 0⟩ ∧ s.mrNext = some (15, 7) ∧ 0 ≤ s.cycle ∧ s.ceBusy = some ⟨1, 0⟩) := by decide
/-- The crypto engine: a hash context open and not; the ends of the SRAM; a link's number, and the number of another package. The
last clause has a shared secret as its premise, whose device key is a free value, so no witness of it can be written out. -/
def wCe (src dst aux len : Nat) : State :=
  wIo [(0x20000008, BitVec.ofNat 64 (localBase + src)), (0x20000018, BitVec.ofNat 64 (localBase + dst)),
    (0x20000020, BitVec.ofNat 64 aux), (0x20000010, BitVec.ofNat 64 len)]
theorem witness_InputOutput_crypto :
    (let s := wCe 0x10000000 0x1007FF00 95 256
     let base := localBase + 0x10000000
     s.ceBusy = none ∧ s.hash[s.ceCtx] = none ∧ s.ceLen = 256 ∧ base ≤ s.ceSrc.toNat ∧ s.ceSrc.toNat + 256 ≤ base + 0x80000 ∧
       base ≤ s.ceDst.toNat ∧ s.ceDst.toNat + s.ceLen = base + 0x80000 ∧ s.ceAux.toNat < 96 ∧ s.erased = false ∧ s.devKey = false) ∧
    (let s : State := { (wCe 0x10000000 0x1007FF00 113 256) with hash := Vector.replicate 2 (some Hash.init), erased := true, devKey := true }
     s.hash[s.ceCtx] = some Hash.init ∧ 96 ≤ s.ceAux.toNat ∧ s.ceAux.toNat ≤ 113 ∧ s.erased = true ∧ s.devKey = true) := by decide
/-- BootAndAttestation: a flash whose image's length is not a multiple of 64, which is not good; `good` itself asks that the factory's
key hash, a free value of the manual's, be the hash of the key in flash, so no flash that meets it can be written out. Requests in
the buffer: the reset responder answers only after a boot that the ROM refused. -/
theorem witness_BootAndAttestation_boot : ¬ leNat ((Mem.bytes (Mem.writeN [] 8 4 32) 0 0x80).drop 8 |>.take 4) % 64 = 0 ∧
    cwf 0 w0.regs = true ∧ bitAt (0x80 : Word) 7 = true ∧ bitAt (w0.mreg 0x40) 7 = false ∧ (w0.ht (.mgmt 3)).active = false := by decide
/-- A request in the mailbox of a package whose core 0 runs no program. -/
def wSpdm (st : SpdmState) (rq : List Byte) : State :=
  { (wIo [(0x20020000, BitVec.ofNat 64 (rq.length * 65536 + 1))]) with
    harts := [], reqbuf := Mem.writeBytes [] 0 rq, spdm := { Spdm.init with state := st, cl := 64 }, devKey := true }
def okSpdm (st : SpdmState) (rq : List Byte) : Bool :=
  let s := wSpdm st rq
  s.responds && s.rspbuf.wf && cwf 0 s.regs && decide (Mem.bytes s.reqbuf 0 (fieldNat (s.lreg 0x20020000) 16 16) = rq) &&
  decide (s.spdm.state = st) && decide (s.spdm.cl = 64) && s.devKey
theorem witness_BootAndAttestation_spdm : w0.responds = false ∧ okSpdm .initial [0x10, 0x84, 0, 0] = true ∧
    okSpdm .versioned ([0x13, 0xE1] ++ List.replicate 18 0) = true ∧
    okSpdm .capable ([0x13, 0xE3, 0, 0, 32, 0, 1, 0, 16, 0, 0, 0, 1] ++ List.replicate 19 0) = true ∧
    okSpdm .negotiated [0x13, 0x82, 0, 0, 63, 0, 0xFF, 0xFF] = true ∧ okSpdm .negotiated ([0x13, 0x83, 0, 0] ++ List.replicate 40 0) = true ∧
    okSpdm .negotiated ([0x13, 0xE0, 0, 0] ++ List.replicate 8 0) = true ∧ okSpdm .initial [0x13, 0xEF, 0, 0] = true := by decide
/-- StepRunsDecoded: a transition that is due; slot 0 at its head; the control thread, with a compressed word and with a long one. -/
def wTurn : State := { w0 with todo := [.thread ⟨0, 0, 0⟩] }
theorem witness_StepRunsDecoded_thread : State.reset.powered = true ∧ State.reset.agenda = [.powerOnReset] ∧ isTrigger .powerOnReset = false ∧
    wTurn.agenda = [] ∧ wTurn.mayRun ⟨0, 0, 0⟩ = true ∧
    (let x := wTurn.th ⟨0, 0, 0⟩
     x.run = .running ∧ x.lanes = 0 ∧ x.xbr = none ∧ x.fetch = none ∧ x.hold ≤ wTurn.cycle ∧ x.deferred = none ∧ x.badReg = false ∧ x.killReq = false ∧
       x.parkEv = 0 ∧ x.saveReq = false ∧ wTurn.breakAt ⟨0, 0, 0⟩ = none ∧ headIdx x.pc = 1 ∧ 1 ≤ lineNH x.line ∧
       (decodeHead x.line 1).isSome = true ∧ isSeq ⟨0, 0, 0⟩ = false) := by decide
/-- The word at 0x80_4000 that the control thread's own instruction cache holds. -/
def wWord (w : Nat) : State :=
  let line := chk fun i h => if i = 0 then BitVec.ofNat 16 w else if i = 1 then BitVec.ofNat 16 (w / 65536) else h
  { (wHart .u []) with todo := [.hart (.ctl ⟨0, 0⟩)], cores := [(⟨0, 0⟩, { core0 with ctlIcache := [⟨0x804000 / 64, line, 0, 0⟩] })] }
theorem witness_StepRunsDecoded_hart :
    (let s := wWord 0x00000013
     (s.ht (.ctl ⟨0, 0⟩)).active = true ∧ (s.ht (.ctl ⟨0, 0⟩)).due ≤ s.cycle ∧ s.takenInt (.ctl ⟨0, 0⟩) = none ∧ (s.ht (.ctl ⟨0, 0⟩)).wfi = false ∧
     (hartFetch2 s (.ctl ⟨0, 0⟩) 0x804000).1 = .ok 0x13 ∧ 0x13 % 4 = 3 ∧
     (hartFetch2 (hartFetch2 s (.ctl ⟨0, 0⟩) 0x804000).2 (.ctl ⟨0, 0⟩) 0x804002).1 = .ok 0) ∧
    ((hartFetch2 (wWord 1) (.ctl ⟨0, 0⟩) 0x804000).1 = .ok 1 ∧ 1 % 4 ≠ 3) := by decide
/-- EncodeDecode: a well-formed instruction of a head and a tail, and one of the control thread. -/
theorem witness_EncodeDecode : WellFormed (.add (.g 31) (S 31) ⟨.turn, true⟩) = true ∧
    (encode (.add (.g 31) (S 31) ⟨.turn, true⟩)).length = 2 ∧
    WellFormed (.kzFault 31 31 31) = true ∧ (encodeKz (.kzFault 31 31 31)).isSome = true := by decide
/-- KeysStayErased and MemoryStaysCanonical: the state after reset, and one whose keys are erased. -/
theorem witness_Invariants : State.reset.keysGone ∧ (eraseKeys w0).erased = true ∧ (eraseKeys w0).keysGone ∧ State.reset.memWf :=
  ⟨fun h => absurd h (by decide), by decide, fun _ => ⟨by decide, by decide⟩, by unfold State.memWf; decide⟩
/-- `withFetchWord`: the control thread runs `addi x5, x0, 7` (the RISC-V I-type word 0x00700293) as the next step. -/
def hartAfter (o : Host.Outcome State Fault Refusal) : Option (Word × Word) :=
  match o with
  | .next t => some ((t.ht (.ctl ⟨0, 0⟩)).pc, (t.ht (.ctl ⟨0, 0⟩)).rd 5)
  | _ => none
theorem test_fetch_word_hart : hartAfter (step (State.reset.withFetchWord 32 0x00700293)) = some (4, 7) := by decide

/-! Witnesses of the further clauses of the statements above, each at a boundary of its range -/

/-! Grain slots, local memory, streams, global memory -/

/-- GrainReads: no launch; the mode off, and a slot beyond the count; slot 0 read from the live copy, and from a line of a dead domain. -/
theorem witness_GrainReads_slots : ({ w0 with cores := [] } : State).launchOf ⟨0, 0⟩ = none ∧
    (w0.gmodeOf ⟨0, 0⟩ = 0 ∧ (w0.launchOf ⟨0, 0⟩).map (fun l => decide (l.gcount ≤ 0)) = some true) ∧
    (wSite.gmodeOf ⟨0, 0⟩ ≠ 0 ∧ (wSite.launchOf ⟨0, 0⟩).map (fun l => (decide (l.gcount ≤ 1), decide (0 < l.gcount))) = some (true, true)) ∧
    (let s : State := { w0 with launches := [(0, { launch0 with blk := (launch0.blk.set 2 0x800040).set 4 0x40001 })] }
     (s.launchOf ⟨0, 0⟩).map (fun l => (l.gdie, l.glive + 8 * 0)) = some (0, 0x800040) ∧
       (s.l2Find 0 (0x800040 / 64)).map (fun m => (s.domainDead m.kdom, (s.setMreg 0x118 0).domainDead m.kdom,
         byteMask 0 8 &&& ~~~m.valid)) = some (false, true, 0)) := by decide
/-- GrainBranchUpdate: slot 0 of the same copy, a load and a loop update waiting. -/
def wUpd (g : GrainUpd) : State := { wGrain with grains := [{ g0 with upd := g }] }
theorem witness_GrainBranchUpdate_kinds :
    ((wUpd (.load true (some 5))).grains.find? fun (e : Grain) => decide (e.id = 7)).map (·.upd) = some (.load true (some 5)) ∧
    ((wUpd (.loop 0xFFFF)).grains.find? fun (e : Grain) => decide (e.id = 7)).map (·.upd) = some (.loop 0xFFFF) ∧
    ((wGrain.setMreg 0x118 0).l2Find 0 (0x800040 / 64)).map (fun m => (wGrain.setMreg 0x118 0).domainDead m.kdom) = some true := by decide
/-- GrainBranchUpdate: a live copy on a page that has no leaf. -/
theorem witness_GrainBranchUpdate_lost :
    (let s : State := { wGrain with launches := [(0, { launch0 with blk := launch0.blk.set 2 0x700000000000 })] }
     (tget? s.launches 0).map (fun l => (grainWord { s with grains := [] } l l.glive).1) = some none) := by decide

/-- A strip of the slot's own is still on its way to the sixteen bytes at `a`. -/
def wComing (x : Word) (a : Nat) : State := (wF x).modTh ⟨0, 0, 0⟩ fun y =>
  { y with pend := [⟨13, .strip [(a, List.replicate 16 0)], 0, some 64, .calc, 0, none⟩] }
/-- LocalLoad, LocalStore, LocalStrip: a strip on its way to the last byte of the element, and to the byte after it. -/
theorem witness_Local_coming : (wComing 0x1FFFC 0x1FFFF).lmComing 0x1FFFC 4 = true ∧ (wComing 0x1FFF8 0x1FFFC).lmComing 0x1FFF8 4 = false ∧
    (wComing 0x1FFFC 0x1FFFF).issuesMem [useS (S 1)] [57] ∧ (wComing 0x1FFFC 0x1FFFF).issuesMem [useS (S 1), useC 8] [] ∧
    (wComing 0x1FFC0 0x1FFFF).stripComing 0x1FFC0 0xFFFF false = true ∧ (wComing 0x1FFC0 0x1FFFF).stripComing 0x1FFC0 0xFFFF true = true ∧
    (wComing 0x1FFC0 0x1FFB0).stripComing 0x1FFC0 0xFFFF false = false ∧ (wComing 0x1FFC0 0x1FFB0).stripComing 0x1FFC0 0xFFFF true = false ∧
    (wComing 0x1FFFC 0x1FFEC).elemComing 0x1FFFC = false :=
  ⟨by decide, by decide, issuesMem_of (by decide) (by decide) rfl, issuesMem_of (by decide) (by decide) rfl, by decide, by decide,
   by decide, by decide, by decide⟩
/-- LocalFaults: no window, for each width; the poisoned word that holds the last element of a bank. -/
def wShut (x : Word) : State := (wF x).modTh ⟨0, 0, 0⟩ fun y => { y with pwin := 0 }
def wSick (x : Word) : State := { wF x with lmPoison := [x.toNat / 8] }
theorem witness_LocalFaults_windows : (wShut 0x100000).inWin ⟨0, 0, 0⟩ 0x100000 8 = false ∧
    (wShut 0).inWin ⟨0, 0, 0⟩ 0 4 = false ∧ (wShut 0x40000).inWin ⟨0, 0, 0⟩ 0x40000 2 = false ∧
    (wShut 0xC0000).inWin ⟨0, 0, 0⟩ 0xC0000 1 = false ∧ (wShut 1).issuesMem [useS (S 1)] [57] ∧
    (wShut 1).issuesMem [useS (S 1), useC 8] [] :=
  ⟨by decide, by decide, by decide, by decide, issuesMem_of (by decide) (by decide) rfl, issuesMem_of (by decide) (by decide) rfl⟩
theorem witness_LocalFaults_poison : (wSick 0x11FFF8).lmBad 0 0x11FFF8 8 = true ∧ (wSick 0x1FFFC).lmBad 0 0x1FFFC 4 = true ∧
    (wSick 0x5FFFE).lmBad 0 0x5FFFE 2 = true ∧ (wSick 0x9FFFF).lmBad 0 0x9FFFF 1 = true ∧
    (wSick 0x1FFFC).inWin ⟨0, 0, 0⟩ 0x1FFFC 4 = true ∧ (wSick 1).issuesMem [useS (S 1)] [57] :=
  ⟨by decide, by decide, by decide, by decide, by decide, issuesMem_of (by decide) (by decide) rfl⟩

/-- LocalStrip: the last strip of a bank of each other format, its first and its last element inside the windows. -/
theorem witness_LocalStrip_formats :
    ([(2, 0x5FFE0, 0x5FFFE, 2), (3, 0x7FFE0, 0x7FFFE, 2), (4, 0x9FFF0, 0x9FFFF, 1), (5, 0xBFFF0, 0xBFFFF, 1), (8, 0x11FFC0, 0x11FFF8, 8),
      (9, 0x13FFC0, 0x13FFFC, 4)] : List (Nat × Nat × Nat × Nat)).all (fun x =>
        decide (((wF 1).bfmt 0 (x.2.1 / 0x20000 % 16)).toNat % 16 = x.1) && decide (x.2.1 % x.2.2.2 = 0) &&
        decide (x.2.1 % 0x20000 + 16 * (if x.1 = 2 ∨ x.1 = 3 then 2 else if x.1 = 4 ∨ x.1 = 5 then 1 else 4) ≤ 0x20000) &&
        (wF 1).inWin ⟨0, 0, 0⟩ x.2.1 x.2.2.2 && (wF 1).inWin ⟨0, 0, 0⟩ x.2.2.1 x.2.2.2) = true := by decide
/-- An FP4 bank: rows of 64 elements, the band table at 0x1000. -/
def wFp4 (fmt : Nat) : State := (wF 0).modQuad 0 fun q =>
  { q with bfmt := Vector.ofFn fun _ => BitVec.ofNat 64 (0x10000400000 + fmt) }
theorem witness_LocalStrip_fp4 : bfRefused ((wFp4 6).bfmt 0 0) = false ∧ bfRefused ((wFp4 7).bfmt 0 0) = false ∧
    (((wFp4 6).bfmt 0 0).toNat % 16 = 6 ∧ ((wFp4 7).bfmt 0 0).toNat % 16 = 7) ∧ (wFp4 6).unbound [15] ∧
    (wFp4 6).stripCheck 24 16 0xFFFF false = none ∧ (wFp4 6).stripComing 24 0xFFFF false = false :=
  ⟨by decide, by decide, by decide, unbound_of (by decide), by decide, by decide⟩
theorem witness_LocalStrip_fp4_store : (wFp4 6).stripCheck 0 16 0xFFFF true = none ∧ (wFp4 7).stripCheck 24 16 0xFFFF true = none ∧
    (wFp4 7).stripCheck 0 16 0xFFFF false = none ∧ (wFp4 7).stripComing 24 0xFFFF true = false := by decide

/-- StreamRead: a read stream with none left; the write stream v12 and the read stream v13, each with its last element left. -/
def wStreams : State := (wF 0x1FFC0).modTh ⟨0, 0, 0⟩ fun y =>
  { y with binds := (y.binds.set 0 (some ⟨true, 0x1FFC0, 1, 0⟩)).set 1 (some ⟨false, 0, 1, 0⟩) }
theorem witness_StreamRead_ends : (wStrip 0).me.bindOf (vCode 12) = some ⟨false, 0x1FFC0, 0, 0⟩ ∧
    (wStrip 0).issuesMem [useV (V 12)] [vCode 1] ∧ (wStrip 16).issuesMem [useV (V 12), useV (V 2)] [vCode 1] ∧
    (wStrip 16).unbound [2] ∧ (wStrip 16).lm.wf = true ∧
    ([0, 15] : List Nat).all (fun i => !(wStrip 16).lmComing (0x1FFC0 + 4 * i) 4 && !(wStrip 16).lmBad 0 (0x1FFC0 + 4 * i) 4) = true :=
  ⟨by decide, issuesMem_of (by decide) (by decide) rfl, issuesMem_of (by decide) (by decide) rfl, unbound_of (by decide), by decide,
   by decide⟩
theorem witness_StreamRead_write : wStreams.me.bindOf (vCode 12) = some ⟨true, 0x1FFC0, 1, 0⟩ ∧ wStreams.unbound [2] ∧
    wStreams.issuesMem [useV (V 2)] [vCode 12] ∧ wStreams.inWin ⟨0, 0, 0⟩ 0x1FFC0 4 = true ∧ wStreams.lmComing 0x1FFC0 4 = false ∧
    (wStreams.bfmt 0 0).toNat % 16 = 0 :=
  ⟨by decide, unbound_of (by decide), issuesMem_of (by decide) (by decide) rfl, by decide, by decide, by decide⟩
/-- StreamRead: that strip in the turn in which it lands; v12 read, and v13 written. -/
theorem witness_StreamRead_lands_faults :
    (let p : Pend := ⟨Fin.ofNat 64 (vCode 12), .strip [(0x1FFC0, natLE 4 0)], 0, some (wStreams.inTurns 0 2), .calc, 0, none⟩
     let u : State := { (wStreams.modTh ⟨0, 0, 0⟩ fun y => { y with pend := [p] }) with cycle := wStreams.inTurns 0 2 }
     (u.th ⟨0, 0, 0⟩).pend = [p] ∧ wStreams.inTurns 0 2 ≤ u.cycle ∧ (u.th ⟨0, 0, 0⟩).run ≠ .saved ∧ u.lm = wStreams.lm) ∧
    wStreams.issuesMem [useV (V 12)] [vCode 1] ∧ wStreams.me.bindOf (vCode 13) = some ⟨false, 0, 1, 0⟩ ∧
    wStreams.issuesMem [useV (V 2)] [vCode 13] :=
  ⟨by decide, issuesMem_of (by decide) (by decide) rfl, by decide, issuesMem_of (by decide) (by decide) rfl⟩
/-- GlobalLanesLoad: sixteen lanes that fill the line, in an L1 that holds just its block, and in the L2 alone, sound and late. -/
theorem witness_GlobalLanesLoad_lines :
    (let b : L1Block := ⟨0x20001 * 8, 8, 0, 0, 0, 0x100040, 0, zeroLine, 0⟩
     let s : State := { w0 with cores := [(⟨0, 0⟩, { core0 with l1 := [b] })] }
     (s.core (s.l1Home ⟨0, 0⟩ 0x20001)).l1 = [b] ∧ b.due ≤ s.inTurns 0 0 ∧ s.ioLeaf (s.req ⟨0, 0⟩ 0) (64 * 0x20001) = none ∧
       (0x800040 % 4 = 0 ∧ 0x800040 / 64 = 0x20001 ∧ (0x800040 + 4 * 15) / 64 = 0x20001)) ∧
    (w0.l2Find 0 0x20001 = some line0 ∧ line0.valid = BitVec.allOnes 64 ∧ w0.sliceDown 0 0x20001 = false ∧
      (w0.core (w0.l1Home ⟨0, 0⟩ 0x20001)).l1 = [] ∧ bitAt (w0.dreg 0 0x40) 63 = false ∧ byteMask 60 4 &&& line0.coming = 0) ∧
    (let l : L2Line := { line0 with coming := byteMask 60 4, due := 32 }
     byteMask 60 4 &&& l.coming ≠ 0 ∧ w0.inTurns 0 0 < l.due) := by decide
/-- EmptyAndFull: the result of a vector load that is due; an empty source with either empty action. -/
theorem witness_EmptyAndFull_vector :
    (let p : Pend := ⟨Fin.ofNat 64 (vCode 15), .v (Vector.replicate 16 1), 0, some 0, .load, 0, none⟩
     let s := withThr fun y => { y with pend := [p] }
     (s.th ⟨0, 0, 0⟩).pend = [p] ∧ p.reg.toNat = vCode 15 ∧ p.due = some 0 ∧ 0 ≤ s.cycle) ∧
    ((wPend none).srcEmpty (WReg.g 31).code = true ∧ (⟨.g 31, true⟩ : SSrc).trap = true ∧ (⟨.g 31, false⟩ : SSrc).trap = false) := by decide
theorem witness_Atomics_home : wAtomic.sliceDown 0 0x20001 = false ∧ wAtomic.rootUp (line0.pa / 64) = true ∧ wAtomic.lost = [] ∧
    (wAtomic.mlcFind (line0.pa / 64)).map (fun m => (m.kdom, m.poison)) = some (line0.kdom, false) := by decide
/-- Waits: a strip on its way to the word; its word poisoned; an increment of the slot's own still on its way. -/
theorem witness_Waits_blocked :
    (let s := (wWait 0x1DFFFC 0).modTh ⟨0, 0, 0⟩ fun y => { y with pend := [⟨13, .strip [(0x1DFFF0, List.replicate 16 0)], 0, some 64, .calc, 0, none⟩] }
     s.lmComing 0x1DFFFC 4 = true ∧ s.inWin ⟨0, 0, 0⟩ 0x1DFFFC 4 = true) ∧ (wWait 0x1DFFFC 0).lmComing 0x1DFFFC 4 = false ∧
    (let s : State := { wWait 0x1DFFFC 0 with lmPoison := [0x1DFFFC / 8] }
     s.lmBad 0 0x1DFFFC 4 = true ∧ s.inWin ⟨0, 0, 0⟩ 0x1DFFFC 4 = true) ∧
    (let s : State := { wWait 0x80000F 0 with incrs := [{ incr0 with src := some ⟨0, 0, 0⟩ }] }
     s.ownIncrs ⟨0, 0, 0⟩ (⟨0, 0⟩, 15) ≠ []) ∧
    ((wWait 0x1F 0).designator false ⟨0, 0⟩ ((wWait 0x1F 0).valS (.g 1))).map (fun (x : Des) => (x.pkg, x.core)) = some (0, ⟨0, 1⟩) := by decide
/-- MailboxCounters: an own increment on its way; a counter of another quad of the die; one of a core of another world in the quad. -/
theorem witness_MailboxCounters_further :
    ({ wWait 0x80000F 1 with incrs := [{ incr0 with src := some ⟨0, 0, 0⟩ }] } : State).ownIncrs ⟨0, 0, 0⟩ (⟨0, 0⟩, 15) ≠ [] ∧
    (let s := wWait 0x1F 1
     let x := s.designator false ⟨0, 0⟩ (s.valS (.g 1))
     x.map (fun (d : Des) => (d.pkg, d.core)) = some (0, ⟨0, 1⟩) ∧ (s.core ⟨0, 1⟩).launch = none ∧
       (s.designator false ⟨0, 0⟩ 0x4F).map (fun (d : Des) => d.core) = some ⟨1, 0⟩) ∧
    (let s := (wWait 0x1F 1).modCore ⟨0, 1⟩ fun k => { k with launch := some 1, world := 3 }
     (s.core ⟨0, 1⟩).launch ≠ none ∧ (s.core ⟨0, 1⟩).world ≠ (s.core ⟨0, 0⟩).world ∧ s.ownIncrs ⟨0, 0, 0⟩ (⟨0, 1⟩, 15) = []) := by decide
/-- Barriers: an arrival recorded in the open phase, and one in the phase before it; a release that wakes the waiting slot. -/
theorem witness_Barriers_recorded :
    (let id := w0.barId ⟨0, 0⟩ .die 15
     let open_ : State := { (withThr fun y => { y with arrived := BitVec.allOnes 80 }) with bars := [(id, 2)] }
     let past : State := { (withThr fun y => { y with arrived := BitVec.allOnes 80 }) with bars := [(id, 0x100000000000002)] }
     (bitAt open_.me.arrived (barBit .die 15) = true ∧ open_.barFlight open_.cur id = false ∧ bexpExpect (open_.bexp id) ≠ 0 ∧
       bexpPhase (open_.bexp id) = bitAt open_.me.phases (barBit .die 15)) ∧
     (bitAt past.me.arrived (barBit .die 15) = true ∧ past.barFlight past.cur id = false ∧ bexpExpect (past.bexp id) ≠ 0 ∧
       bexpPhase (past.bexp id) ≠ bitAt past.me.phases (barBit .die 15) ∧
       past.barClosing id (bitAt past.me.phases (barBit .die 15)) = false)) := by decide
theorem witness_Barriers_release :
    (let id := w0.barId ⟨0, 0⟩ .die 15
     let e : BarEv := ⟨4, id, .release false, 0⟩
     let s : State := { (withThr fun y => { y with arrived := BitVec.allOnes 80, run := .waiting (.bar .die 15) }) with barEvs := [e] }
     (s.barEvs.find? fun (x : BarEv) => decide (x.id = e.id)) = some e ∧ (s.thr.map Prod.fst).Nodup ∧
       ⟨0, 0, 0⟩ ∈ s.thr.map Prod.fst ∧ (s.th ⟨0, 0, 0⟩).run = .waiting (.bar .die 15) ∧ s.barId (s.coreId ⟨0, 0, 0⟩) .die 15 = id ∧
       bitAt (s.th ⟨0, 0, 0⟩).arrived (barBit .die 15) = true ∧ bitAt (s.th ⟨0, 0, 0⟩).phases (barBit .die 15) = false ∧
       s.barFlight ⟨0, 0, 0⟩ id = false) := by decide

/-! Commands and the matrix array -/

/-- CommandCompletion: a `csend` whose version word is poisoned, and one that expects 1; a command of the array. -/
theorem witness_CommandCompletion_version :
    (let s : State := { wCmd (.csend (e 27)) .send [0x80000000004000, 0x1000, 4096, 0, 0x3FFC] 0 0 with lmPoison := [0x3FFC / 8] }
     s.lmBad 0 0x3FFC 4 = true ∧ s.lmBad 0 0x1000 4096 = false ∧ (cmdOf s).isSome = true) ∧
    (let s := wCmd (.csend (e 27)) .send [0x80000000004000, 0x1000, 4096, 1, 0x3FFC] 0 0
     s.lmBad 0 0x3FFC 4 = false ∧ Mem.readN s.lm 0x3FFC 4 ≠ 1 % 2 ^ 32 ∧ s.lm.wf = true) ∧
    ((cmdOf (wCmd (.mst (e 27) true) .mat [0x40000, 256, 127, 1, 128] 0 0)).map (fun m => (m.eng, engOf m.ins, m.own, m.due))) =
      some (.mat, some (e 27), none, some 0) := by decide
/-- A `gath` of 64 bytes at the line that the MLC holds, its leaf in the translation cache with D set, the index raw. -/
def wElem (i : Instr) (size raw : Word) (pre : List (Option Byte)) : State :=
  let s : State := { wCmd i .skid [0x1000, 1, 0x800040, 64, size, 0x2000, 0x3000, raw] 0 0 with l2 := [], mem := [(0x2000, 8)] }
  { s with cmds := s.cmds.map fun m => { m with pre := pre } }
theorem witness_CommandCompletion_element :
    (let s := wElem (.gath (e 25) .i32) 64 0 [none]
     (cmdOf s).map (fun m => (m.own.isNone, m.ps.drop 7, elemAddr .i32 m.ps 0)) = some (true, [0], some 0x800040) ∧
       s.lm.wf = true ∧ s.mem.wf = true ∧ 0x3000 ≥ 0x2000 + 64 ∧ 0x800040 % 64 + 64 ≤ 64 ∧ Mem.readN s.mem 0x2000 8 / 8 % 2 = 1 ∧
       s.l2Find 0 (0x800040 / 64) = none ∧ s.rootUp (0x100040 / 64) = true ∧ s.lost = []) ∧
    (let s := wElem (.gath (e 25) .i32) 64 0 [none]
     (s.tcache.all fun (y : TLeaf) => decide (y.die = 0) && decide (y.va ≤ 0x800040) && decide (0x800040 < y.va + y.span) &&
       s.groupOk ⟨some 0, some 0⟩ y.comp && !leafIO y.leaf && decide (y.at_ = 0x2000) && decide (y.pa % 64 = 0) && decide (y.span % 64 = 0) &&
       decide ((y.pa + 64 * (0x800040 / 64) % y.span) / 64 = 0x100040 / 64) && !s.domainDead (leafKdom y.leaf) &&
       (s.mlcFind (0x100040 / 64)).any fun l => decide (l.kdom = leafKdom y.leaf) && !l.poison && decide (l.due ≤ s.inTurns 0 0)) = true ∧
     s.tcache.length = 1) := by decide
/-- CommandCompletion: the index that names no element; an element that failed at issue; a store and an add of the last word. -/
theorem witness_CommandCompletion_element_b :
    (cmdOf (wElem (.gath (e 25) .i32) 64 0x80000000 [none])).map (fun m => elemAddr .i32 m.ps 0x80000000) = some none ∧
    (cmdOf (wElem (.gath (e 25) .i32) 64 0 [some 3])).map (fun m => m.pre.getD 0 none) = some (some 3) ∧
    (let s := wElem (.scat (e 25) .addi .i32) 4 0 []
     (cmdOf s).map (fun m => (m.pre.getD 0 none, elemAddr .i32 m.ps 0)) = some (none, some 0x800040) ∧ s.lmBad 0 0x2000 4 = false) ∧
    (wElem (.scat (e 25) .st .i32) 64 0 []).lmBad 0 0x2000 64 = false := by decide
/-- CommandCompletion: the ring disabled, and of another world. -/
theorem witness_CommandCompletion_ring :
    (let s := (wMsg 16 1).setRing 0 31 ⟨0x0000000200001000, 1, 0, 0, 0, 0⟩
     (s.ring 0 31).en = false ∧ (s.ring 0 31).world = (s.coreOf ⟨0, 0, 0⟩).world ∧ (msg0 16).unread = [] ∧ (msg0 16).arr = some 6) ∧
    (let s := (wMsg 16 1).modCore ⟨0, 0⟩ fun k => { k with world := 3 }
     (s.ring 0 31).world ≠ (s.coreOf ⟨0, 0, 0⟩).world ∧ (s.th ⟨0, 0, 0⟩).run = .waiting (.ringRoom 6)) := by decide

/-- MatrixArray: with no poisoned word and no byte written during the run every slice is sound, at any depth and in any format. -/
theorem slices_sound {s : State} {m : Cmd} (h : s.canPoison = []) (k : m.overs = []) (b : Nat) (sparse : Bool) (r j : Nat) :
    ((s.mmaSlice m b sparse r j).1 ++ (s.mmaSlice m b sparse r j).2).all Option.isSome = true := by
  cases sparse <;> simp [State.mmaSlice, State.runSlice, State.canSee, h, k]
theorem slices_not_bad {s : State} (h : s.canPoison = []) (q j off n : Nat) : s.canBad q j off n = false := by
  simp [State.canBad, h]
/-- A matrix command of core 0 with its bank's format. -/
def wArr (i : Instr) (bf : Word) (ps : List Word) : Cmd :=
  ⟨5, ⟨0, 0, 0⟩, ⟨0, 0⟩, .mat, i, ps, 0, 0, 9, 0x804002, bf, 0, some 0, none, none, none, [], 0, []⟩
theorem witness_MatrixArray_products :
    (let s := wE true []
     let m := wArr (.mma (e 26) 2 true) 2 [0x40000, 256, 128, 1, 127, 0x7F00]
     (grp m.ps 3).toNat = 1 ∧ (grp m.ps 4).toNat < 128 ∧ s.lmBad 0 0x40000 (rowBytes 2 128) = false ∧ s.bandBad 0 m.bf 0x40000 = false ∧
       s.canPoison = [] ∧ m.overs = [] ∧ cwf 0 s.acc = true) ∧
    (let m := wArr (.mma (e 26) 8 false) 8 [0x100000, 256, 32, 1, 63, 0x7F00]
     (grp m.ps 3).toNat = 1 ∧ (grp m.ps 4).toNat < 64 ∧ (wE true []).lmBad 0 0x100000 (rowBytes 8 32) = false ∧
       (wE true []).bandBad 0 m.bf 0x100000 = false) ∧
    (let m := wArr (.mmas (e 25) 7 false) 5 [0xA0000, 256, 128, 1, 127, 0x7F00, 0x7FC0]
     (grp m.ps 3).toNat = 1 ∧ (grp m.ps 4).toNat < 128 ∧ (wE true []).lmBad 0 0xA0000 (rowBytes 5 128) = false) ∧
    (({ wE true [] with lmPoison := [0x40000 / 8] } : State).lmBad 0 0x40000 (rowBytes 2 128) = true) := by decide
/-- MatrixArray: a byte of the canopy that a send has written at cycle 9 of the run. -/
theorem witness_MatrixArray_overs :
    (let m : Cmd := { wArr (.mma (e 26) 2 true) 2 [0x40000, 256, 128, 1, 127, 0x7F00] with overs := [(0x7F00, 9, some 1)] }
     m.overs = [(0x7F00, 9, some 1)] ∧ 9 ≤ 9 ∧ ¬ 10 ≤ 9) := by decide
theorem witness_MatrixArray_moves :
    (let s := wE true []
     let m := wArr (.mbld (e 27)) 6 [0xC0000, 36, 64, 128, 0x7FD8]
     (grp m.ps 3).toNat ≤ 128 ∧ (grp m.ps 4).toNat + rowBytes 6 64 ≤ 0x8000 ∧ s.lmPoison = [] ∧ s.canopy.wf = true ∧ s.lm.wf = true) ∧
    (let m := wArr (.mcmpr (e 28) 7) 0 [0, 128, 0x7F00, 0x7FC0]
     mcmprLimits 7 m.ps = true ∧ m.overs = []) ∧
    (let s := wE true []
     let m := wArr (.mst (e 27) true) 2 [0x40000, 256, 127, 1, 128]
     (grp m.ps 3).toNat = 1 ∧ bfFmt m.bf < 10 ∧ isFp4 (bfFmt m.bf) = false ∧ (s.core ⟨0, 0⟩).accPoison.getLsbD 127 = false) ∧
    (let m := wArr (.mst (e 27) false) 8 [0x100000, 1024, 63, 1, 128]
     (grp m.ps 3).toNat = 1 ∧ bfFmt m.bf = 8 ∧ (grp m.ps 4).toNat ≤ 128 ∧ ((wE true []).core ⟨0, 0⟩).accPoison = 0 ∧ 2 * 63 + 1 < 128) := by decide

/-! Threads, the control thread, launches, contexts -/

/-- ThreadEvents: a slot that has faulted with an event; fills of each level, one that failed; a message dropped. -/
theorem witness_ThreadEvents_stopped :
    (let s := withThr fun y => { y with parkEv := 1, run := .stopped .fault }
     let x := s.th ⟨0, 0, 0⟩
     x.parkEv ≠ 0 ∧ x.run = .stopped .fault ∧ x.xbr = none ∧ x.lanes = 0 ∧ x.fetch = none ∧ x.deferred = none) ∧
    ({ fill0 with fate := .poison } : Fill).fate ≠ .ok ∧ ({ fill0 with fate := .poison } : Fill).level = .icache ∧
    (let f : Fill := { fill0 with level := .l1, line := 0x20001 }
     let s : State := { w0 with fills := [f] }
     (s.fills.find? fun (y : Fill) => decide (y.id = f.id)) = some f ∧ s.l2Find 0 0x20001 = some line0 ∧
       line0.valid = BitVec.allOnes 64 ∧ s.sliceDown 0 0x20001 = false ∧ (s.core (s.l1Home ⟨0, 0⟩ 0x20001)).l1 = []) ∧
    (let f : Fill := { fill0 with level := .l1, line := 0x20001 }
     let s : State := { wL1 with fills := [f] }
     (s.core (s.l1Home f.core f.line)).l1.map (fun b => (b.line, b.size)) = [(0x20001, 8)]) := by decide
theorem witness_ThreadEvents_dropped :
    (let m : SupMsg := { sup0 with des := 0x100000000 }
     let s : State := { w0 with sups := [m] }
     (s.sups.find? fun (y : SupMsg) => decide (y.id = m.id)) = some m ∧ m.launch = none ∧
       s.designator true ⟨0, 0⟩ m.des = none ∧ s.mreg 0x230 = 0 ∧ cwf 0 s.regs = true) ∧
    (let s := (wRing 1 1 1).setMreg 0x230 0x1F
     (s.designator true ⟨0, 0⟩ (s.mreg 0x230)).map (fun e => (e.pkg, e.core.quad, e.idx)) = some (s.pkg, 0, 31) ∧
       (s.ring 0 31).en = true ∧ (s.ring 0 31).need 16 ≤ (s.ring 0 31).free (s.turn 0) ∧ s.ringAhead 0 31 s.fresh = false) ∧
    (w0.ring 0 31).en = false ∧
    (let e : SQ := ⟨0, ⟨0, 0⟩, 0, [0x20001], [⟨⟨0, 0, 0, 0, 0, 2⟩, 0x20001, true⟩], 64⟩
     e.logs.all (fun r => !bitAt (w0.dreg r.req.die 0x40) 63) = true ∧ e.logs ≠ []) := by decide
/-- ControlOfThreads: the slot 15 stopped inside an open packet. -/
theorem witness_ControlOfThreads_packet :
    (let s := (wStopped .fault).modTh ⟨0, 0, 15⟩ fun x => { x with packet := some ⟨1, 16, none, [], [5], []⟩ }
     (s.th (slotTid ⟨0, 0⟩ 15)).halted = true ∧ (s.th (slotTid ⟨0, 0⟩ 15)).packet = some ⟨1, 16, none, [], [5], []⟩) := by decide
/-- ControlThread: a double word of a line that the L1 holds, and that only the L2 holds; a store; an address off by one. -/
theorem witness_ControlThread_memory :
    (let s : State := { wHart .u [(1, 0x800078)] with cores := [(⟨0, 0⟩, { core0 with l1 := [⟨0x800040 / 8, 8, 0, 0, 0, 0x100040, 0, zeroLine, 0⟩] })] }
     let x := (s.ht (.ctl ⟨0, 0⟩)).rd 1 + sx (0 : BitVec 12)
     x.toNat = 0x800078 ∧ x.toNat % 8 = 0 ∧ s.hartMay ⟨0, 0⟩ (s.effPriv (.ctl ⟨0, 0⟩)) 0x800078 8 rR = true ∧
       s.ioLeaf (s.req ⟨0, 0⟩ 0) 0x800078 = none ∧ (l1Here s).isSome = true) ∧
    (let s := wHart .u [(1, 0x800078)]
     (l1Here s).isNone = true ∧ s.l2Find 0 0x20001 = some line0 ∧ s.sliceDown 0 0x20001 = false ∧ byteMask 56 8 &&& ~~~line0.valid = 0 ∧
       byteMask 56 8 &&& line0.coming = 0 ∧ s.hartMay ⟨0, 0⟩ (s.effPriv (.ctl ⟨0, 0⟩)) 0x800078 8 rW = true ∧ s.sqUsed ⟨0, 0⟩ < 32 ∧
       s.domainDead line0.kdom = false ∧ 0x800079 % 2 ≠ 0) := by decide
theorem witness_ControlThread_atomic :
    (let s := (wHart .u [(1, 0x800078)]).modHt (.ctl ⟨0, 0⟩) fun h => { h with resv := some (0x800078 / 8) }
     let h := s.ht (.ctl ⟨0, 0⟩)
     h.resv = some ((h.rd 1).toNat / 8) ∧ s.mem.wf = true ∧ s.hartMay ⟨0, 0⟩ (s.effPriv (.ctl ⟨0, 0⟩)) 0x800078 8 rRW = true ∧
       s.hartMay ⟨0, 0⟩ (s.effPriv (.ctl ⟨0, 0⟩)) 0x800078 8 rR = true ∧ s.ioLeaf (s.req ⟨0, 0⟩ 2) 0x800078 = none ∧
       (s.mlcFind (line0.pa / 64)).map (fun m => (m.kdom, m.poison, decide (m.due ≤ s.inTurns 0 0))) = some (line0.kdom, false, true) ∧
       s.rootUp (line0.pa / 64) = true ∧ s.lost = [] ∧ bitAt (s.dreg 0 0x40) 63 = false) ∧
    (wHart .u [(1, 0x800078)]).hme.resv = none := by decide
/-- ControlThread: `mscratch` in M mode, and in U mode. -/
theorem witness_ControlThread_csr :
    ((wHart .m []).csrRead (.ctl ⟨0, 0⟩) 0x340).isSome = true ∧ (wHart .m []).csrMay (.ctl ⟨0, 0⟩) 0x340 true = true ∧
    (wHart .u []).csrMay (.ctl ⟨0, 0⟩) 0x340 false = false ∧ cwf 0 ((wHart .m []).ht (.ctl ⟨0, 0⟩)).csrs = true := by decide
/-- Launches: a fork table that names unit 18, one out of the lease, and a sibling that runs on the same live copy. -/
theorem witness_Launches_forks :
    (let l : Launch := { launch0 with forks := [⟨0, 0⟩] }
     let s : State := { wFork 0x40000 with launches := [(0, l)] }
     (forkFrom s ⟨0, 0⟩ .u 0x800040).1 = .illegal ∧ (forkFrom s ⟨0, 0⟩ .u 0x900000).1 = .fault) ∧
    (let l := mkLaunch 31 0x900000 (blkOf 1 0x82000)
     let y : Launch := { launch0 with blk := (l.blk.set 4 0x20001) }
     let z : Launch := mkLaunch 31 0x900000 ((blkOf 1 0x82000).set 4 0x20001)
     y.exits < y.cores.length ∧ grainOverlap y z = true ∧ grainShared y z = true ∧ z.gmode ≠ 2) := by decide
/-- Contexts: a halted device; a held quad that it keeps; markers. -/
theorem witness_Contexts_halted : ({ w0 with halted := true } : State).halted = true ∧
    (let s : State := { wOp { Quad.init with held := true } with halted := true }
     (s.quad 0).held = true ∧ s.halted = true) ∧
    (let s := wOp { Quad.init with op := .save }
     s.halted = false ∧ (s.quad 0).op = .save ∧ 1 ≠ 0) ∧
    ((w0.setMreg 0x208 0).rootUp 0 = true ∧ w0.lost = []) := by decide

/-! Confidentiality, repair, the I/O die -/

/-- Confidentiality: a second fence of a domain in its cycle; a package link with no keys, and a die link with none. -/
theorem witness_Confidentiality_more :
    (let s : State := { wAlarm 0x555 with fences := [5] }
     s.actOf .integ = 1 ∧ (5 : BitVec 6).toNat ∈ s.fences ∧ (0 : BitVec 6).toNat ∉ s.fences ∧ s.halted = false) ∧
    (96 ≤ 96 ∧ (w0.link 96).keyed = false ∧ (w0.link 95).down = false ∧ ((w0.link 95).count[(0 : Fin 2)] + 1).toNat ≠ 2 ^ 48) := by decide
/-- Repair: records with one symbol changed, and with two; the log register off; a line of each cache. -/
def wRec (b : Byte) : StackLine :=
  ⟨b :: List.replicate 63 0, 0, 0, (List.range 4).map fun i => some (eccGroup (List.replicate 64 0) 0 i)⟩
theorem witness_Repair_stack : (wRec 1).corrected = some (List.replicate 64 0) ∧ (wRec 0x11).corrected = none ∧
    (wRec 0x11).tail ≠ BitVec.allOnes 64 ∧ 0x100040 / 64 < bmBase ∧ w0.elided (0x100040 / 64) = false ∧
    ({ w0 with stack := [(0x100040 / 64, wRec 1)] } : State).halted = false := by decide
theorem witness_Repair_units : w0.mreg 0x1C0 = 0 ∧ w0.l2Find 0 0x20001 = some line0 ∧ (w0.mlcFind (0x100040 / 64)).isSome = true ∧
    (let s := wCmd (.mzero (e 30)) .mat [127, 1] 0 0
     (cmdOf s).map (fun m => (m.eng, m.ins, (grp m.ps 0).toNat)) = some (.mat, .mzero (e 30), 127)) ∧ (cmdOf (wCmd (.mzero (e 30)) .mat [127, 1] 0 0)).isSome = true := by decide
/-- Repair: a count that equals SP; a reserved bit of a range register; a locked line in a way to be gated, and a reserved way. -/
theorem witness_Repair_ways : (0x8000000000000B01 : Word) &&& 0x7FFFFFFFFFF0F0FF ≠ 0 ∧
    (let s : State := { w0 with l2 := [{ line0 with lock := some 0 }] }
     s.l2.all (fun x => decide (x.die = 0) && decide (x.way.val = 0) && x.lock.isSome && decide (x.dirty = 0)) = true ∧
       bitAt (tget (0 : Half) s.l2gate (0 * 96 + sliceOf 0x20001)) 0 = false ∧ bitAt (1 : Word) 0 = true) ∧
    (let s : State := ({ w0 with mlcWays := cset 0 w0.mlcWays 0 0xFFF } : State).setMreg 0x300 0x8000000000000B00
     bitAt s.mlcReserved 0 = true ∧ bitAt (tget (0 : Half) s.mlcgate 0) 0 = false) := by decide
/-- InputOutput: a copy with a length not of 64, one past the partition's end, and one whose last byte the flash cannot read; a
measurement from outside the SRAM; a shared secret asked for with no key, and with keys erased. -/
theorem witness_InputOutput_statuses :
    (let s := wIo [(0x20030010, 63)]
     s.bpBusy = none ∧ fieldNat (s.lreg 0x20030010) 0 32 % 64 ≠ 0) ∧
    (let s := wIo [(0x20030008, 0x100000), (0x20030010, 64), (0x20030018, BitVec.ofNat 64 (localBase + 0x10000000))]
     s.bpBusy = none ∧ 0x100000 < fieldNat (s.lreg 0x20030008) 0 32 + fieldNat (s.lreg 0x20030010) 0 32 ∧
       fieldNat (s.lreg 0x20030008) 0 32 % 64 = 0 ∧ (s.lreg 0x20030018).toNat % 64 = 0) ∧
    (let s : State := { (wIo [(0x20030000, 0), (0x20030010, 64), (0x20030018, BitVec.ofNat 64 (localBase + 0x10000000))]) with flashErr := [63] }
     s.flashErr = [fieldNat (s.lreg 0x20030000) 8 1 * 0x100000 + fieldNat (s.lreg 0x20030008) 0 32 + 63] ∧
       63 < fieldNat (s.lreg 0x20030010) 0 32) ∧
    (let s := wIo [(0x20010208, BitVec.ofNat 64 (localBase + 0x1007FFE1))]
     s.mrBusy = none ∧ bitAt (s.lreg 0x20010210) (fieldNat (s.lreg 0x20010200) 8 4) = false ∧
       localBase + 0x10000000 + 0x80000 < (s.lreg 0x20010208).toNat + 32) ∧
    (let s := wCe 0x10000000 0x1007FF00 96 256
     s.ceAux.toNat = 96 ∧ s.devKey = false ∧ localBase + 0x10000000 ≤ s.ceSrc.toNat) ∧ (wDump.rootUp 0 = true ∧ wDump.rootUp 255 = true) := by decide
end Sys2Proof.Tests
end

/-! SUPPORT. Integer instructions with scalar results (05 R124, R125, R129): the word functions of Machine/Integer.lean in
arithmetic of numbers, and what an instruction that is one of the shared operations does when it issues. -/

namespace Sys2Proof.Machine

/-! ### Products -/

theorem mul_eq_ofInt (a b : Word) : a * b = BitVec.ofInt 64 (a.toInt * b.toInt) := by
  rw [BitVec.ofInt_mul, BitVec.ofInt_toInt, BitVec.ofInt_toInt]

/-- The high word of a product of 128 bits is the quotient of the product by 2^64, rounded down. -/
theorem highWord_ofInt (p : Int) : ((BitVec.ofInt 128 p) >>> 64).setWidth 64 = BitVec.ofInt 64 (p / 2 ^ 64) := by
  apply BitVec.eq_of_toNat_eq
  simp only [BitVec.toNat_setWidth, BitVec.toNat_ushiftRight, BitVec.toNat_ofInt, Nat.shiftRight_eq_div_pow]
  omega

theorem setWidth_eq_ofInt (a : Word) : a.setWidth 128 = BitVec.ofInt 128 a.toNat := by
  rw [BitVec.ofInt_natCast, BitVec.ofNat_toNat]

theorem mulHigh_ss (a b : Word) : mulHigh .ss a b = BitVec.ofInt 64 (a.toInt * b.toInt / 2 ^ 64) := by
  rw [← highWord_ofInt, BitVec.ofInt_mul]
  rfl

theorem mulHigh_zz (a b : Word) : mulHigh .zz a b = BitVec.ofNat 64 (a.toNat * b.toNat / 2 ^ 64) := by
  rw [mulHigh, setWidth_eq_ofInt, setWidth_eq_ofInt, ← BitVec.ofInt_mul, highWord_ofInt, ← BitVec.ofInt_natCast]
  push_cast
  rfl

theorem mulHigh_sz (a b : Word) : mulHigh .sz a b = BitVec.ofInt 64 (a.toInt * b.toNat / 2 ^ 64) := by
  rw [← highWord_ofInt, BitVec.ofInt_mul, ← setWidth_eq_ofInt]
  rfl

/-! ### Shifts: a count that is a register is taken modulo 64 -/

theorem fieldNat_low6 (b : Word) : fieldNat b 0 6 = b.toNat % 64 := by
  simp [fieldNat]

theorem shiftLeft_eq_ofNat (a : Word) (n : Nat) : a <<< n = BitVec.ofNat 64 (a.toNat * 2 ^ n) := by
  rw [← Nat.shiftLeft_eq]
  rfl

theorem shrW_false (a : Word) (n : Nat) : shrW false a n = BitVec.ofNat 64 (a.toNat / 2 ^ n) := by
  rw [← Nat.shiftRight_eq_div_pow, ← BitVec.toNat_ushiftRight, BitVec.ofNat_toNat, BitVec.setWidth_eq]
  rfl

theorem shrW_true (a : Word) (n : Nat) : shrW true a n = BitVec.ofInt 64 (a.toInt / 2 ^ n) := by
  have h : a.toInt / 2 ^ n = a.toInt >>> n := by rw [Int.shiftRight_eq_div_pow]; push_cast; rfl
  rw [h]
  rfl

/-- The scaled index of `lea`. -/
theorem shiftLeft_eq_mul (a : Word) (n : Nat) : a <<< n = a * BitVec.ofNat 64 (2 ^ n) := by
  rw [BitVec.shiftLeft_eq_mul_twoPow, BitVec.twoPow, shiftLeft_eq_ofNat]
  simp

/-! ### Minimum and maximum: the model picks by `<`, the claim by `≤`; of equal operands either is the result -/

theorem ite_slt_eq_ite_le {α : Type} (a b : Word) {x y : α} (h : a = b → x = y) :
    (if a.slt b then x else y) = if a.toInt ≤ b.toInt then x else y := by
  rw [BitVec.slt_eq_decide]
  rcases lt_trichotomy a.toInt b.toInt with hab | hab | hab
  · simp [hab, hab.le]
  · simp [hab, h (BitVec.eq_of_toInt_eq hab)]
  · simp [hab.not_gt, hab.not_ge]

theorem ite_ult_eq_ite_le {α : Type} (a b : Word) {x y : α} (h : a = b → x = y) :
    (if a.ult b then x else y) = if a.toNat ≤ b.toNat then x else y := by
  rw [BitVec.ult_eq_decide]
  rcases lt_trichotomy a.toNat b.toNat with hab | hab | hab
  · simp [hab, hab.le]
  · simp [hab, h (BitVec.eq_of_toNat_eq hab)]
  · simp [hab.not_gt, hab.not_ge]

/-! ### Bit counts -/

theorem clzTo_eq (a : Word) (n : Nat) : clzTo a n = ((List.range n).reverse.takeWhile fun i => !bitAt a i).length := by
  induction n with
  | zero => rfl
  | succ n ih =>
    rw [clzTo, ih, List.range_succ, List.reverse_append, List.reverse_singleton, List.singleton_append, List.takeWhile_cons]
    cases bitAt a n <;> simp [Nat.add_comm]

theorem ctzFrom_eq (a : Word) (n i : Nat) : ctzFrom a n i = ((List.range' i n).takeWhile fun j => !bitAt a j).length := by
  induction n generalizing i with
  | zero => rfl
  | succ n ih =>
    rw [ctzFrom, ih, List.range'_succ, List.takeWhile_cons]
    cases bitAt a i <;> simp [Nat.add_comm]

theorem popTo_eq (a : Word) (n : Nat) : popTo a n = (List.range n).countP fun i => bitAt a i := by
  induction n with
  | zero => rfl
  | succ n ih =>
    rw [popTo, ih, List.range_succ, List.countP_append, List.countP_singleton, Nat.add_comm]

theorem bcntW_clz (a : Word) :
    bcntW .clz a = BitVec.ofNat 64 ((List.range 64).reverse.takeWhile fun i => !bitAt a i).length := by
  rw [bcntW, clzTo_eq]

theorem bcntW_ctz (a : Word) : bcntW .ctz a = BitVec.ofNat 64 ((List.range 64).takeWhile fun i => !bitAt a i).length := by
  rw [bcntW, ctzFrom_eq, List.range_eq_range']

theorem bcntW_popc (a : Word) : bcntW .popc a = BitVec.ofNat 64 ((List.range 64).countP fun i => bitAt a i) := by
  rw [bcntW, popTo_eq]

/-! ### Division (05 R125) -/

theorem divW_signed (a b : Word) :
    divW true a b = if b = 0 then 0xFFFFFFFFFFFFFFFF else BitVec.ofInt 64 (a.toInt.tdiv b.toInt) := by
  have h : a.sdiv b = BitVec.ofInt 64 (a.toInt.tdiv b.toInt) :=
    BitVec.eq_of_toInt_eq ((BitVec.toInt_sdiv a b).trans (BitVec.toInt_ofInt _).symm)
  rw [← h]
  rfl

theorem divW_unsigned (a b : Word) :
    divW false a b = if b = 0 then 0xFFFFFFFFFFFFFFFF else BitVec.ofNat 64 (a.toNat / b.toNat) := by
  have h : a.udiv b = BitVec.ofNat 64 (a.toNat / b.toNat) := by
    rw [← BitVec.toNat_udiv, BitVec.ofNat_toNat, BitVec.setWidth_eq]
    rfl
  rw [← h]
  rfl

theorem remW_signed (a b : Word) :
    remW true a b = if b = 0 then a else BitVec.ofInt 64 (a.toInt - a.toInt.tdiv b.toInt * b.toInt) := by
  have h : a.srem b = BitVec.ofInt 64 (a.toInt - a.toInt.tdiv b.toInt * b.toInt) := by
    rw [Int.mul_comm, ← Int.tmod_def, ← BitVec.toInt_srem, BitVec.ofInt_toInt]
  rw [← h]
  rfl

theorem remW_unsigned (a b : Word) :
    remW false a b = if b = 0 then a else BitVec.ofNat 64 (a.toNat - a.toNat / b.toNat * b.toNat) := by
  have h : a.umod b = BitVec.ofNat 64 (a.toNat - a.toNat / b.toNat * b.toNat) := by
    rw [Nat.mul_comm, ← Nat.mod_eq_sub, ← BitVec.toNat_umod, BitVec.ofNat_toNat, BitVec.setWidth_eq]
    rfl
  rw [← h]
  rfl

/-! ### Compares (05 R129) -/

/-- The word of a comparison that decides `p`. -/
theorem b2w_eq_ite {c : Bool} {p : Prop} [Decidable p] (h : c = true ↔ p) : b2w c = if p then 1 else 0 := by
  simp only [b2w, h]

theorem cmpW_eq (a b : Word) : cmpW .eq a b = true ↔ a = b := beq_iff_eq
theorem cmpW_ne (a b : Word) : cmpW .ne a b = true ↔ a ≠ b := bne_iff_ne
theorem cmpW_lt (a b : Word) : cmpW .lt a b = true ↔ a.toInt < b.toInt := BitVec.slt_iff_toInt_lt
theorem cmpW_ge (a b : Word) : cmpW .ge a b = true ↔ b.toInt ≤ a.toInt := by
  rw [cmpW, BitVec.slt_eq_decide, Bool.not_eq_true', decide_eq_false_iff_not, Int.not_lt]
theorem cmpzW_ltu (a b : Word) : cmpzW .ltu a b = true ↔ a.toNat < b.toNat := BitVec.ult_iff_toNat_lt
theorem cmpzW_gtu (a b : Word) : cmpzW .gtu a b = true ↔ b.toNat < a.toNat := BitVec.ult_iff_toNat_lt
theorem cmpzW_geu (a b : Word) : cmpzW .geu a b = true ↔ b.toNat ≤ a.toNat := by
  rw [cmpzW, BitVec.ult_eq_decide, Bool.not_eq_true', decide_eq_false_iff_not, Nat.not_lt]
theorem cmpzW_leu (a b : Word) : cmpzW .leu a b = true ↔ a.toNat ≤ b.toNat := cmpzW_geu b a

/-! ### A result that lands later (02 R28, R30) -/

/-- The thread with a result pending: its register is empty until the result lands. -/
def Thread.withPend (x : Thread) (p : Pend) : Thread :=
  if p.reg = 0 then { x with pend := x.pend ++ [p] } else ({ x with pend := x.pend ++ [p] } : Thread).setEmpty p.reg.toNat

/-- The scalar result for `d` that is due in `n` turns. -/
def State.lateResult (s : State) (d : Nat) (v : Word) (n : Nat) (kind : PKind) (fl : Flags) : Pend :=
  { reg := BitVec.ofNat 6 d, val := .s v, flags := fl, due := some (s.inTurns s.cur.quad n), kind := kind
    op := BitVec.ofNat 7 s.curOp, fail := none }

theorem pendW_eq_modMe (s : State) (d : Nat) (v : Word) (n : Nat) (kind : PKind) (fl : Flags) :
    s.pendW d v n kind fl = s.modMe fun x => x.withPend (s.lateResult d v n kind fl) := rfl

theorem lateResult_reg (s : State) {d : Nat} (hd : d < 64) (v : Word) (n : Nat) (kind : PKind) (fl : Flags) :
    (s.lateResult d v n kind fl).reg.toNat = d :=
  (BitVec.toNat_ofNat d 6).trans (Nat.mod_eq_of_lt hd)

theorem withPend_pend (x : Thread) (p : Pend) : (x.withPend p).pend = x.pend ++ [p] := by
  unfold Thread.withPend
  split <;> rfl

theorem withPend_pc (x : Thread) (p : Pend) : (x.withPend p).pc = x.pc := by
  unfold Thread.withPend
  split <;> rfl

theorem withPend_line (x : Thread) (p : Pend) : (x.withPend p).line = x.line := by
  unfold Thread.withPend
  split <;> rfl

theorem withPend_rest (x : Thread) (p : Pend) : x.keepsRest (x.withPend p) := by
  unfold Thread.withPend
  split <;> exact ⟨rfl, rfl, rfl, rfl, rfl, rfl, rfl, rfl, rfl, rfl, rfl, rfl, rfl⟩

theorem withPend_keepsRegs (x : Thread) {p : Pend} {d : Nat} (hp : p.reg.toNat = d) : x.keepsRegs (x.withPend p) d := by
  subst hp
  intro c hc
  unfold Thread.withPend
  split
  · rfl
  · refine Prod.ext rfl ((isFull_setEmpty _ _ c p.reg.isLt).trans ?_)
    rw [decide_eq_false hc, Bool.not_false, Bool.and_true]
    rfl

theorem withPend_isFull (x : Thread) {p : Pend} {d : Nat} (hp : p.reg.toNat = d) (h : d ≠ 0) :
    (x.withPend p).isFull d = false := by
  subst hp
  have hne : p.reg ≠ 0 := fun e => h (congrArg BitVec.toNat e)
  rw [Thread.withPend, if_neg hne, isFull_setEmpty _ _ _ p.reg.isLt]
  simp

theorem withPend_acq (x : Thread) {p : Pend} {d : Nat} (hp : p.reg.toNat = d) {r : BitVec 6} (h : r.toNat ≠ d) :
    r ∈ (x.withPend p).acq ↔ r ∈ x.acq := by
  subst hp
  unfold Thread.withPend
  split
  · rfl
  · simp [Thread.setEmpty, h]

theorem next_isFull (x : Thread) (c : Nat) : x.next.isFull c = x.isFull c := congrArg Prod.snd (next_holds x c)

/-- A change that leaves the head alone, and then the next head. -/
theorem passed_next {x y : Thread} (hpc : y.pc = x.pc) (hl : y.line = x.line) : x.passed y.next := by
  have h := next_passed y
  unfold Thread.passed at h ⊢
  rwa [hpc, hl] at h

theorem keepsRest_next {x y : Thread} (h : x.keepsRest y) : x.keepsRest y.next := by
  have hn := (next_rest y).1
  unfold Thread.keepsRest at h hn ⊢
  simp only [hn, h, and_self]

theorem keepsRegs_next {x y : Thread} {d : Nat} (h : x.keepsRegs y d) : x.keepsRegs y.next d :=
  fun c hc => (next_holds y c).trans (h c hc)

theorem dstBusy_of_pend {t : State} {p : Pend} {d : Nat} (hmem : p ∈ t.me.pend) (hp : p.reg.toNat = d) (h : d ≠ 0) :
    t.dstBusy d = true := by
  have hany : (t.me.pend.any fun q => decide (q.reg.toNat = d)) = true := List.any_eq_true.mpr ⟨p, hmem, decide_eq_true hp⟩
  simp only [State.dstBusy, hany, h, ne_eq, not_false_eq_true, decide_true, Bool.and_self, Bool.true_or]

/-- A scalar result that is due in `n` turns, and the next head. -/
theorem pendW_retire (s : State) (us : List Use) {d : Nat} (hd : d < 64) (v : Word) (n : Nat) (kind : PKind) :
    s.defers ((s.pendW d v n kind 0).retire us) us d v n kind := by
  have hreg := lateResult_reg s hd v n kind 0
  obtain ⟨honly, hothers, hme⟩ := retire_spec us fun x => x.withPend (s.lateResult d v n kind 0)
  rw [pendW_eq_modMe]
  generalize (s.modMe _).retire us = t at honly hothers hme ⊢
  have hpend : t.me.pend = s.me.pend ++ [s.lateResult d v n kind 0] := by rw [hme, (next_rest _).2.1, withPend_pend]
  refine ⟨honly, hothers, ?passed, ?regs, ?rest, ⟨_, hpend, hreg, rfl, rfl, rfl, rfl, rfl⟩, fun h0 => ⟨?empty, ?busy⟩,
    fun r hr => ?acq⟩
  case passed => rw [hme]; exact passed_next (withPend_pc _ _) (withPend_line _ _)
  case regs => rw [hme]; exact keepsRegs_next (withPend_keepsRegs _ hreg)
  case rest => rw [hme]; exact keepsRest_next (withPend_rest _ _)
  case empty => rw [hme, next_isFull]; exact withPend_isFull _ hreg h0
  case busy =>
    have hmem : s.lateResult d v n kind 0 ∈ t.me.pend := by
      rw [hpend]
      exact List.mem_append_right _ (List.mem_singleton_self _)
    exact dstBusy_of_pend hmem hreg h0
  case acq => rw [hme, (next_rest _).2.2]; exact withPend_acq _ hreg hr

/-! ### An instruction that is one of the shared operations -/

section Equations
variable (d : WReg) (a b : SSrc) (k : Imm) (n : BitVec 6) (s : State)

theorem exec_add : exec (.add d a b) s = alu2 d a b (· + ·) s := rfl
theorem exec_sub : exec (.sub d a b) s = alu2 d a b (· - ·) s := rfl
theorem exec_mul : exec (.mul d a b) s = alu2 d a b (· * ·) s := rfl
theorem exec_mulh (op : MulhOp) : exec (.mulh op d a b) s = alu2 d a b (mulHigh op) s := rfl
theorem exec_and : exec (.and d a b) s = alu2 d a b (· &&& ·) s := rfl
theorem exec_or : exec (.or d a b) s = alu2 d a b (· ||| ·) s := rfl
theorem exec_xor : exec (.xor d a b) s = alu2 d a b (· ^^^ ·) s := rfl
theorem exec_shl_reg : exec (.shl d a (.reg b)) s = alu2 d a b (fun x y => x <<< fieldNat y 0 6) s := rfl
theorem exec_shr_reg (arith : Bool) :
    exec (.shr arith d a (.reg b)) s = alu2 d a b (fun x y => shrW arith x (fieldNat y 0 6)) s := rfl
theorem exec_mnx (op : MnxOp) : exec (.mnx op d a b) s = alu2 d a b (mnxW op) s := rfl
theorem exec_lea (sh : BitVec 2) :
    exec (.lea d a b sh k) s = alu2 d a b (fun x y => x + y <<< sh.toNat + immS64 k) s := rfl
theorem exec_cmp (op : CmpOp) : exec (.cmp op d a b) s = alu2 d a b (fun x y => b2w (cmpW op x y)) s := rfl
theorem exec_cmpz (op : CmpzOp) : exec (.cmpz op d a b) s = alu2 d a b (fun x y => b2w (cmpzW op x y)) s := rfl

theorem exec_addk : exec (.addk d a k) s = alu1 d a (· + immS64 k) s := rfl
theorem exec_logk (op : LogOp) : exec (.logk op d a k) s = alu1 d a (logW op · (immZ64 k)) s := rfl
theorem exec_shl_imm : exec (.shl d a (.imm n)) s = alu1 d a (· <<< n.toNat) s := rfl
theorem exec_shr_imm (arith : Bool) : exec (.shr arith d a (.imm n)) s = alu1 d a (shrW arith · n.toNat) s := rfl
theorem exec_bcnt (op : BcntOp) : exec (.bcnt op d a) s = alu1 d a (bcntW op) s := rfl

theorem exec_div (signed : Bool) : exec (.div signed d a b) s = alu2Late 3 d a b (divW signed) s := rfl
theorem exec_rem (signed : Bool) : exec (.rem signed d a b) s = alu2Late 3 d a b (remW signed) s := rfl

theorem exec_movk (k : MImm) :
    exec (.movk d k) s = issue s [] [d.code] false fun s => (s.setW d (mimmS64 k)).retire [] := rfl
theorem exec_sel (p : PReg) :
    exec (.sel d a b p) s = issue s ([useS a, useS b] ++ [useC (pCode p)]) [d.code] false fun s =>
      (s.setW d (if s.me.rdP p ≠ 0 then s.valS a.reg else s.valS b.reg)).retire [useS a, useS b] := rfl

end Equations

section Shared
variable {s : State} {i : Instr} {d : WReg} {a b : SSrc} {v : Word}

theorem gives_of_alu2 {f : Word → Word → Word} (he : exec i s = alu2 d a b f s) (h : s.issues [useS a, useS b] [d.code])
    (hv : f (s.valS a.reg) (s.valS b.reg) = v) :
    ∃ t, exec i s = .next t ∧ s.passes t [useS a, useS b] d.code ∧ s.wrote t d v := by
  rw [he, ← hv]
  exact alu2_spec f h

theorem gives_of_alu1 {f : Word → Word} (he : exec i s = alu1 d a f s) (h : s.issues [useS a] [d.code])
    (hv : f (s.valS a.reg) = v) : ∃ t, exec i s = .next t ∧ s.passes t [useS a] d.code ∧ s.wrote t d v := by
  rw [he, ← hv]
  exact alu1_spec f h

theorem defers_of_alu2Late {n : Nat} {f : Word → Word → Word} (he : exec i s = alu2Late n d a b f s)
    (h : s.issues [useS a, useS b] [d.code]) (hv : f (s.valS a.reg) (s.valS b.reg) = v) :
    ∃ t, exec i s = .next t ∧ s.defers t [useS a, useS b] d.code v n .calc := by
  rw [he, ← hv]
  exact ⟨_, issue_go h, pendW_retire s _ (code_lt d) _ n .calc⟩

end Shared

/-! ### `sel` and its p register (05 R129) -/

theorem rdP_ne_zero (x : Thread) (p : PReg) : x.rdP p ≠ 0 ↔ p = 0 ∨ x.p[p] ≠ 0 := by
  unfold Thread.rdP
  by_cases h : p.val = 0
  · have hp : p = 0 := Fin.ext h
    simp [hp]
  · have hp : p ≠ 0 := fun e => h (by rw [e]; rfl)
    simp [h, hp]

theorem srcHazard_append (s : State) {us ws : List Use} (h : ∀ u ∈ us, s.srcEmpty u.code = false) :
    s.srcHazard (us ++ ws) = s.srcHazard ws := by
  induction us with
  | nil => rfl
  | cons u us ih =>
    simp only [List.cons_append, State.srcHazard, h u (List.mem_cons_self ..), Bool.false_eq_true, if_false]
    exact ih fun w hw => h w (List.mem_cons_of_mem _ hw)

/-- Behind full sources, an empty one without an empty action blocks the slot. -/
theorem issue_block_of_srcEmpty {s : State} {us : List Use} {c : Nat} (ds : List Nat) (mem : Bool) (k : State → State)
    (h : s.issues us []) (hc : s.srcEmpty c = true) : issue s (us ++ [useC c]) ds mem k = .next s.blockMe := by
  have hz : s.srcHazard (us ++ [useC c]) = .block := by
    rw [srcHazard_append s h.1]
    simp [State.srcHazard, useC, hc]
  simp only [issue, State.hazard, hz]

end Sys2Proof.Machine

namespace Sys2Proof.Proofs
open Sys2Proof.Machine

/-- Settles O1: each instruction is a shared one- or two-source operation, and its word function is the claimed formula. -/
theorem scalarArithmetic : Obligations.ScalarArithmetic := by
  intro s d a b
  refine ⟨fun h => ?_, fun h => ?_⟩
  · intro A B n gives
    have hn : fieldNat B 0 6 = n := fieldNat_low6 B
    refine ⟨?add, ?sub, ?mul, ?ss, ?zz, ?sz, ?and, ?or, ?xor, ?shl, ?shr, ?sar, ?mins, ?minz, ?maxs, ?maxz, fun sh k => ?lea⟩
    case add => exact gives_of_alu2 (exec_add ..) h rfl
    case sub => exact gives_of_alu2 (exec_sub ..) h rfl
    case mul => exact gives_of_alu2 (exec_mul ..) h (mul_eq_ofInt A B)
    case ss => exact gives_of_alu2 (exec_mulh ..) h (mulHigh_ss A B)
    case zz => exact gives_of_alu2 (exec_mulh ..) h (mulHigh_zz A B)
    case sz => exact gives_of_alu2 (exec_mulh ..) h (mulHigh_sz A B)
    case and => exact gives_of_alu2 (exec_and ..) h rfl
    case or => exact gives_of_alu2 (exec_or ..) h rfl
    case xor => exact gives_of_alu2 (exec_xor ..) h rfl
    case shl => exact gives_of_alu2 (exec_shl_reg ..) h (hn ▸ shiftLeft_eq_ofNat A _)
    case shr => exact gives_of_alu2 (exec_shr_reg ..) h (hn ▸ shrW_false A _)
    case sar => exact gives_of_alu2 (exec_shr_reg ..) h (hn ▸ shrW_true A _)
    case mins => exact gives_of_alu2 (exec_mnx ..) h (ite_slt_eq_ite_le A B id)
    case minz => exact gives_of_alu2 (exec_mnx ..) h (ite_ult_eq_ite_le A B id)
    case maxs => exact gives_of_alu2 (exec_mnx ..) h (ite_slt_eq_ite_le A B Eq.symm)
    case maxz => exact gives_of_alu2 (exec_mnx ..) h (ite_ult_eq_ite_le A B Eq.symm)
    case lea => exact gives_of_alu2 (exec_lea ..) h (congrArg (A + · + immS64 k) (shiftLeft_eq_mul B sh.toNat))
  · intro A gives
    refine ⟨fun k => ⟨?addk, ?andk, ?ork, ?xork, ?andnk⟩, fun n => ⟨?shl, ?shr, ?sar⟩, ?clz, ?ctz, ?popc⟩
    case addk => exact gives_of_alu1 (exec_addk ..) h rfl
    case andk => exact gives_of_alu1 (exec_logk ..) h rfl
    case ork => exact gives_of_alu1 (exec_logk ..) h rfl
    case xork => exact gives_of_alu1 (exec_logk ..) h rfl
    case andnk => exact gives_of_alu1 (exec_logk ..) h rfl
    case shl => exact gives_of_alu1 (exec_shl_imm ..) h (shiftLeft_eq_ofNat A n.toNat)
    case shr => exact gives_of_alu1 (exec_shr_imm ..) h (shrW_false A n.toNat)
    case sar => exact gives_of_alu1 (exec_shr_imm ..) h (shrW_true A n.toNat)
    case clz => exact gives_of_alu1 (exec_bcnt ..) h (bcntW_clz A)
    case ctz => exact gives_of_alu1 (exec_bcnt ..) h (bcntW_ctz A)
    case popc => exact gives_of_alu1 (exec_bcnt ..) h (bcntW_popc A)

/-- Settles O2: the quotient and the remainder are the claimed words, and each is a result pending for three turns. -/
theorem scalarDivision : Obligations.ScalarDivision := by
  intro s d a b h A B gives
  refine ⟨?sdiv, ?udiv, ?srem, ?urem⟩
  case sdiv => exact defers_of_alu2Late (exec_div ..) h (divW_signed A B)
  case udiv => exact defers_of_alu2Late (exec_div ..) h (divW_unsigned A B)
  case srem => exact defers_of_alu2Late (exec_rem ..) h (remW_signed A B)
  case urem => exact defers_of_alu2Late (exec_rem ..) h (remW_unsigned A B)

/-- Settles O3: a compare's word is 1 exactly when its condition holds; `sel` reads its p register, and waits for it. -/
theorem selectsAndCompares : Obligations.SelectsAndCompares := by
  intro s d
  refine ⟨fun h k => ?movk, fun a b => ?_⟩
  case movk => exact ⟨_, (exec_movk ..).trans (issue_go h), setW_retire _ _ _⟩
  intro A B gives
  refine ⟨fun h => ⟨?eq, ?ne, ?lt, ?ge, ?ltu, ?geu, ?leu, ?gtu⟩, fun p => ⟨fun h => ?sel, fun h hp => ?blocks⟩⟩
  case eq => exact gives_of_alu2 (exec_cmp ..) h (b2w_eq_ite (cmpW_eq A B))
  case ne => exact gives_of_alu2 (exec_cmp ..) h (b2w_eq_ite (cmpW_ne A B))
  case lt => exact gives_of_alu2 (exec_cmp ..) h (b2w_eq_ite (cmpW_lt A B))
  case ge => exact gives_of_alu2 (exec_cmp ..) h (b2w_eq_ite (cmpW_ge A B))
  case ltu => exact gives_of_alu2 (exec_cmpz ..) h (b2w_eq_ite (cmpzW_ltu A B))
  case geu => exact gives_of_alu2 (exec_cmpz ..) h (b2w_eq_ite (cmpzW_geu A B))
  case leu => exact gives_of_alu2 (exec_cmpz ..) h (b2w_eq_ite (cmpzW_leu A B))
  case gtu => exact gives_of_alu2 (exec_cmpz ..) h (b2w_eq_ite (cmpzW_gtu A B))
  case sel =>
    obtain ⟨hpasses, hwrote⟩ := setW_retire (s := s) [useS a, useS b] d (if s.me.rdP p ≠ 0 then A else B)
    refine ⟨_, (exec_sel ..).trans (issue_go h), hpasses, ?_⟩
    simpa only [rdP_ne_zero] using hwrote
  case blocks => exact (exec_sel ..).trans (issue_block_of_srcEmpty _ _ _ h hp)

end Sys2Proof.Proofs
